-- ==== Sys2Proof/Word.lean ====
section
/-! DEFINITION. Word.lean: the word types and the shapes that the rest of the model shares (R3, R77, R105). -/

namespace Sys2Proof

/-- A 64-bit scalar register value (R105). -/
abbrev Word := BitVec 64

/-- A 32-bit word: a syllable, an extension, a container value (R46, R77). -/
abbrev W32 := BitVec 32

/-- One byte of memory. -/
abbrev Byte := BitVec 8

/-- A scalar or vector register number, 0-63 (R105). -/
abbrev Reg := Fin 64

/-- A predicate register number, 0-15. -/
abbrev BReg := Fin 16

/-- A mask register number, 0-7. -/
abbrev MReg := Fin 8

/-- A token number, 0-31 (R174). -/
abbrev Tok := Fin 32

/-- A core identifier, 0-511 (R10). -/
abbrev CoreId := Fin 512

/-- A tile number, 0-15 (R8). -/
abbrev TileId := Fin 16

/-- A resident context of a core, 0-2 (R24). -/
abbrev CtxId := Fin 3

/-- A copy engine of a tile, 0-7 (R17). -/
abbrev EngId := Fin 8

/-- A program slot of the Vintner, 0-7 (R296). -/
abbrev SlotId := Fin 8

/-- A circuit handle, 0-255 (R293). -/
abbrev Handle := Fin 256

/-- Sparse data by key: pairs of a key and a value; a key that is absent holds the default its reader names. -/
abbrev NMap (α : Type) := List (Nat × α)

end Sys2Proof
end

