-- ==== Sys2Proof/Machine/Fp.lean ====
section
/-! DEFINITION. Machine/Fp.lean: exact values, one rounding, and the f32 arithmetic built from them (R39, R40, R48,
R53, R54, R56, R62, R65-R72, R124). A finite value is a sign, a natural number and a power of two, so every sum and
product is exact until it is rounded. -/

namespace Sys2Proof.Machine

/-- The six flags of a slot's field of FLAGS, bit 0 invalid to bit 5 sticky-dropped (R61). -/
abbrev Fl := BitVec 6

def Fl.none : Fl := 0
def Fl.invalid : Fl := 1
def Fl.divZero : Fl := 2
def Fl.overflow : Fl := 4
def Fl.underflow : Fl := 8
def Fl.inexact : Fl := 16
def Fl.dropped : Fl := 32

/-- The flag when the condition holds. -/
def Fl.when (c : Bool) (f : Fl) : Fl := if c then f else 0

/-- Rounding modes: FRND codes 0-5, ARND codes 0-3 (R59). -/
inductive RM where
  | rne | rtz | rup | rdn | rna | sr
deriving DecidableEq, Repr

/-- The mode of a code; 6 and 7 are never in FR (R59) and read as RNE. -/
def RM.of : Nat → RM
  | 1 => .rtz | 2 => .rup | 3 => .rdn | 4 => .rna | 5 => .sr | _ => .rne

/-- SR where there is no vector source acts as RNE (R57). -/
def RM.noSr : RM → RM
  | .sr => .rne
  | m => m

/-- An exact value: NaN, an infinity, or a sign, a magnitude and a power of two. -/
inductive FVal where
  | nan
  | inf (neg : Bool)
  | fin (neg : Bool) (m : Nat) (e : Int)
deriving DecidableEq, Repr

/-- +0. -/
def FVal.zero : FVal := .fin false 0 0

def FVal.isNan : FVal → Bool
  | .nan => true
  | _ => false

def FVal.isInf : FVal → Bool
  | .inf _ => true
  | _ => false

def FVal.isZero : FVal → Bool
  | .fin _ 0 _ => true
  | _ => false

def FVal.neg? : FVal → Bool
  | .nan => false
  | .inf n => n
  | .fin n _ _ => n

/-- The value with its sign changed. -/
def FVal.negate : FVal → FVal
  | .nan => .nan
  | .inf n => .inf !n
  | .fin n m e => .fin (!n) m e

/-- 2 to a power that may be negative, as the natural factor of a shift to the left. -/
def pow2 (k : Int) : Nat := 2 ^ k.toNat

/-- floor(log2 (m · 2^e)) of a nonzero magnitude. -/
def ilog (m : Nat) (e : Int) : Int := (Nat.log2 m : Int) + e

/-- m1 · 2^e1 < m2 · 2^e2. -/
def magLt (m1 : Nat) (e1 : Int) (m2 : Nat) (e2 : Int) : Bool :=
  if e1 ≤ e2 then m1 < m2 * pow2 (e2 - e1) else m1 * pow2 (e1 - e2) < m2

/-- A magnitude at a spacing of 2^qe: the multiple below it, the two bits after it and whether anything is left
after those, with the fraction in 2^-16 for stochastic rounding (R53, R56). -/
structure Cut where
  t    : Nat
  g    : Bool
  rb   : Bool
  rest : Bool
  f16  : Nat
  f16x : Bool
deriving DecidableEq, Repr

/-- Cut the magnitude m · 2^e at spacing 2^qe. -/
def cutAt (m : Nat) (e qe : Int) : Cut :=
  if qe ≤ e then { t := m * pow2 (e - qe), g := false, rb := false, rest := false, f16 := 0, f16x := false }
  else
    let sh := (qe - e).toNat
    let d := 2 ^ sh
    let r := m % d
    let q4 := 4 * r / d
    { t := m / d, g := 2 ≤ q4, rb := q4 % 2 == 1, rest := 4 * r % d != 0, f16 := 65536 * r / d, f16x := 65536 * r % d != 0 }

/-- The magnitude is a multiple of the spacing. -/
def Cut.exact (c : Cut) : Bool := !c.g && !c.rb && !c.rest

/-- The up decision of R53, with R56 for SR. -/
def Cut.up (c : Cut) (mu : RM) (neg s : Bool) (rnd : Nat) : Bool :=
  match mu with
  | .rne => c.g && (c.rb || c.rest || s || c.t % 2 == 1)
  | .rna => c.g
  | .rtz => false
  | .rup => !neg
  | .rdn => neg
  | .sr =>
    let f := if c.f16x || s then (if c.f16 % 2 == 0 then c.f16 + 1 else c.f16) else c.f16
    65536 ≤ f + rnd

/-- The magnitude after rounding, in multiples of the spacing. -/
def Cut.round (c : Cut) (mu : RM) (neg s : Bool) (rnd : Nat) : Nat :=
  if c.exact then c.t else if c.up mu neg s rnd then c.t + 1 else c.t

/-- Round to odd: the truncation, made odd when inexact (R50, R65, R72). -/
def Cut.odd (c : Cut) (force : Bool) : Nat :=
  if (!c.exact || force) && c.t % 2 == 0 then c.t + 1 else c.t

/-- A floating format: precision, least normal exponent, the bits of its largest finite magnitude, whether it has
infinities (R39). -/
structure Fmt where
  p       : Nat
  emin    : Int
  maxBits : Nat
  infBits : Option Nat
  nanBits : Option Nat
  width   : Nat
deriving DecidableEq, Repr

def fmtF32 : Fmt := { p := 24, emin := -126, maxBits := 0x7F7FFFFF, infBits := some 0x7F800000, nanBits := some 0x7FC00000, width := 32 }
def fmtBf16 : Fmt := { p := 8, emin := -126, maxBits := 0x7F7F, infBits := some 0x7F80, nanBits := some 0x7FC0, width := 16 }
def fmtF16 : Fmt := { p := 11, emin := -14, maxBits := 0x7BFF, infBits := some 0x7C00, nanBits := some 0x7E00, width := 16 }
def fmtE4m3 : Fmt := { p := 4, emin := -6, maxBits := 0x7E, infBits := none, nanBits := some 0x7F, width := 8 }
def fmtE5m2 : Fmt := { p := 3, emin := -14, maxBits := 0x7B, infBits := some 0x7C, nanBits := some 0x7E, width := 8 }
def fmtF4 : Fmt := { p := 2, emin := 0, maxBits := 0x7, infBits := none, nanBits := none, width := 4 }

/-- The exponent of the least spacing of a format. -/
def Fmt.qmin (k : Fmt) : Int := k.emin - (k.p : Int) + 1

/-- The exponent of the spacing q_K at a magnitude (R49). -/
def Fmt.qexp (k : Fmt) (m : Nat) (e : Int) : Int :=
  if m = 0 then k.qmin
  else
    let l := ilog m e
    (if l < k.emin then k.emin else l) - (k.p : Int) + 1

/-- The magnitude bits of t · 2^qe, qe the spacing of its binade: subnormals, normals and the carry into the next
binade all come out of one sum. -/
def Fmt.magBits (k : Fmt) (t : Nat) (qe : Int) : Nat := (qe - k.qmin).toNat * 2 ^ (k.p - 1) + t

/-- The sign of a format in its top bit. -/
def Fmt.signed (k : Fmt) (neg : Bool) (bits : Nat) : Nat := if neg then 2 ^ (k.width - 1) + bits else bits

/-- The value of a pattern (R39). -/
def Fmt.decode (k : Fmt) (bits : Nat) : FVal :=
  let neg := bits / 2 ^ (k.width - 1) % 2 == 1
  let mag := bits % 2 ^ (k.width - 1)
  let ef := mag / 2 ^ (k.p - 1)
  let fr := mag % 2 ^ (k.p - 1)
  if mag ≤ k.maxBits then
    if ef = 0 then .fin neg fr k.qmin else .fin neg (fr + 2 ^ (k.p - 1)) (k.qmin + ((ef : Int) - 1))
  else if k.infBits = some mag then .inf neg
  else .nan

/-- R54: what a finite value whose rounded magnitude is beyond the largest one becomes. The table of R54 has no row for f32: a
drain to f32 (R229) takes the row of bf16, f16 and e5m2, the other formats with infinities (DESIGN CHOICE, log 76). -/
def Fmt.overflowMag (k : Fmt) (mu : RM) (neg up : Bool) : Nat :=
  match k.infBits with
  | none => k.maxBits
  | some i =>
    match mu with
    | .rne | .rna => i
    | .rtz => k.maxBits
    | .rup => if neg then k.maxBits else i
    | .rdn => if neg then i else k.maxBits
    | .sr => if up then i else k.maxBits

/-- R53 and R54: the final rounding of an exact value with its S to a floating format. An infinity of a saturating
format is its largest magnitude with overflow; a NaN of a format that has none is +0 with invalid. -/
def Fmt.finalRound (k : Fmt) (mu : RM) (x : FVal) (s : Bool) (rnd : Nat) : Nat × Fl :=
  match x with
  | .nan => match k.nanBits with
    | some b => (b, 0)
    | none => (0, Fl.invalid)
  | .inf neg => match k.infBits with
    | some b => (k.signed neg b, 0)
    | none => (k.signed neg k.maxBits, Fl.overflow)
  | .fin neg m e =>
    let qe := k.qexp m e
    let c := cutAt m e qe
    if c.exact then
      let b := k.magBits c.t qe
      if b ≤ k.maxBits then (k.signed neg b, Fl.when s Fl.dropped)
      else (k.signed neg (k.overflowMag (if mu = .sr then .rne else mu) neg true), Fl.overflow ||| Fl.inexact)
    else
      let up := c.up mu neg s rnd
      let t := if up then c.t + 1 else c.t
      let b := k.magBits t qe
      if k.maxBits < b then (k.signed neg (k.overflowMag mu neg up), Fl.overflow ||| Fl.inexact)
      else (k.signed neg b, Fl.inexact ||| Fl.when (b < 2 ^ (k.p - 1)) Fl.underflow)

/-! ## f32 (R48, R124) -/

/-- The canonical f32 NaN (R40). -/
def nan32 : W32 := 0x7FC00000

/-- The value of an f32 pattern. -/
def f32Val (v : W32) : FVal := fmtF32.decode v.toNat

/-- A value that f32 holds exactly, as its pattern. -/
def f32Of (x : FVal) : W32 := BitVec.ofNat 32 (fmtF32.finalRound .rtz x false 0).1

/-- One rounding of an exact value to f32 (R48): the pattern and its flags. -/
def round32 (mu : RM) (x : FVal) : W32 × Fl :=
  let r := fmtF32.finalRound mu x false 0
  (BitVec.ofNat 32 r.1, r.2)

/-- A signed number of multiples of 2^e; a zero takes the sign given. -/
def FVal.ofInt (z : Int) (e : Int) (zneg : Bool) : FVal :=
  if z = 0 then .fin zneg 0 0 else .fin (z < 0) z.natAbs e

/-- The signed magnitude at a common exponent not above its own. -/
def scaleInt (neg : Bool) (m : Nat) (e e0 : Int) : Int :=
  let a : Int := ((m * pow2 (e - e0) : Nat) : Int)
  if neg then -a else a

/-- The exact sum, with whether it is the invalid case of infinities of opposite sign. A zero sum of opposite signs is
+0, or −0 under RDN (R124). -/
def FVal.add (rdn : Bool) : FVal → FVal → FVal × Bool
  | .nan, _ => (.nan, false)
  | _, .nan => (.nan, false)
  | .inf a, .inf b => if a = b then (.inf a, false) else (.nan, true)
  | .inf a, .fin _ _ _ => (.inf a, false)
  | .fin _ _ _, .inf b => (.inf b, false)
  | .fin n1 m1 e1, .fin n2 m2 e2 =>
    if m1 = 0 && m2 = 0 then (.fin (if n1 = n2 then n1 else rdn) 0 0, false)
    else
      let e := if m1 = 0 then e2 else if m2 = 0 then e1 else if e1 ≤ e2 then e1 else e2
      let a := if m1 = 0 then 0 else scaleInt n1 m1 e1 e
      let b := if m2 = 0 then 0 else scaleInt n2 m2 e2 e
      (FVal.ofInt (a + b) e rdn, false)

/-- The exact product, with whether it is the invalid case 0 × ∞. -/
def FVal.mul : FVal → FVal → FVal × Bool
  | .nan, _ => (.nan, false)
  | _, .nan => (.nan, false)
  | .inf a, .inf b => (.inf (a != b), false)
  | .inf a, .fin n m _ => if m = 0 then (.nan, true) else (.inf (a != n), false)
  | .fin n m _, .inf b => if m = 0 then (.nan, true) else (.inf (n != b), false)
  | .fin n1 m1 e1, .fin n2 m2 e2 => (.fin (n1 != n2) (m1 * m2) (e1 + e2), false)

/-- x + y in f32 under a mode. -/
def fadd32 (mu : RM) (x y : W32) : W32 × Fl :=
  let (z, inv) := FVal.add (mu = .rdn) (f32Val x) (f32Val y)
  let (v, f) := round32 mu z
  (v, f ||| Fl.when inv Fl.invalid)

/-- x − y in f32 under a mode. -/
def fsub32 (mu : RM) (x y : W32) : W32 × Fl :=
  let (z, inv) := FVal.add (mu = .rdn) (f32Val x) (f32Val y).negate
  let (v, f) := round32 mu z
  (v, f ||| Fl.when inv Fl.invalid)

/-- x × y in f32 under a mode. -/
def fmul32 (mu : RM) (x y : W32) : W32 × Fl :=
  let (z, inv) := FVal.mul (f32Val x) (f32Val y)
  let (v, f) := round32 mu z
  (v, f ||| Fl.when inv Fl.invalid)

/-- x < y for values that are no NaN; zeros are equal. -/
def FVal.lt : FVal → FVal → Bool
  | .nan, _ => false
  | _, .nan => false
  | .inf a, .inf b => a && !b
  | .inf a, .fin _ _ _ => a
  | .fin _ _ _, .inf b => !b
  | .fin n1 m1 e1, .fin n2 m2 e2 =>
    if m1 = 0 && m2 = 0 then false
    else if m1 = 0 then !n2
    else if m2 = 0 then n1
    else if n1 && !n2 then true
    else if !n1 && n2 then false
    else if n1 then magLt m2 e2 m1 e1
    else magLt m1 e1 m2 e2

/-- Equal as numbers. -/
def FVal.eq (x y : FVal) : Bool := !x.isNan && !y.isNan && !x.lt y && !y.lt x

/-- An integer as a value. -/
def FVal.int (z : Int) : FVal := FVal.ofInt z 0 false

/-- Round a finite magnitude to an integer under a mode: the signed integer and whether it changed. -/
def roundInt (mu : RM) (neg : Bool) (m : Nat) (e : Int) (s : Bool) : Int × Bool :=
  let c := cutAt m e 0
  let t : Int := ((c.round mu neg s 0 : Nat) : Int)
  (if neg then -t else t, !c.exact)

/-- A value rounded to an integer of `n` bits, signed, with saturation (R125, R195): NaN gives 0 with invalid, beyond
the range saturates with invalid only, else inexact when changed. -/
def toSigned (n : Nat) (mu : RM) (x : FVal) : Int × Fl :=
  let hi : Int := 2 ^ (n - 1) - 1
  let lo : Int := -(2 ^ (n - 1))
  match x with
  | .nan => (0, Fl.invalid)
  | .inf neg => (if neg then lo else hi, Fl.invalid)
  | .fin neg m e =>
    let (z, ch) := roundInt mu neg m e false
    if z < lo then (lo, Fl.invalid) else if hi < z then (hi, Fl.invalid) else (z, Fl.when ch Fl.inexact)

/-- x rounded to an integral f32 value (R195 `frnd`). -/
def frnd32 (mu : RM) (x : W32) : W32 × Fl :=
  match f32Val x with
  | .nan => (nan32, 0)
  | .inf _ => (x, 0)
  | .fin neg m e =>
    let (z, ch) := roundInt mu neg m e false
    (f32Of (if z = 0 then .fin neg 0 0 else FVal.ofInt z 0 neg), Fl.when ch Fl.inexact)

/-- `fmin` and `fmax` (R195): the operand returned, `none` when both are NaN; true picks x. −0 < +0. -/
def pickMin (wantMax : Bool) (x y : W32) : Option Bool :=
  let a := f32Val x
  let b := f32Val y
  if a.isNan && b.isNan then none
  else if a.isNan then some false
  else if b.isNan then some true
  else if a.isZero && b.isZero then
    if a.neg? = b.neg? then some true else some (if wantMax then !a.neg? else a.neg?)
  else if a.lt b then some (!wantMax)
  else if b.lt a then some wantMax
  else some true

/-! ## Round to odd in the accumulator and in the fabric (R65, R72) -/

/-- RO27 (R65): 27 bits, least spacing 2^-152, saturating at (2^27 − 1) × 2^101. Answers the value, whether the
rounding was inexact, and whether it saturated. -/
def ro27 (y : FVal) (force : Bool) : FVal × Bool × Bool :=
  match y with
  | .fin neg m e =>
    if m = 0 then (y, false, false)
    else
      let l := ilog m e
      let qe := (if l < -126 then -126 else l) - 26
      let c := cutAt m e qe
      let t := c.odd force
      if 101 < qe || (qe = 101 && 2 ^ 27 ≤ t) then (.fin neg (2 ^ 27 - 1) 101, true, true)
      else (.fin neg t qe, !c.exact, false)
  | y => (y, false, false)

/-- One hop of a fabric sum (R72): the carried value and S with the local element; whether `red.fadd` reports
invalid. -/
def hopAdd (cv : FVal) (cs : Bool) (x : FVal) : FVal × Bool × Bool :=
  if cv.isNan || x.isNan then (.nan, false, false)
  else
    match FVal.add false cv x with
    | (.nan, inv) => (.nan, false, inv)
    | (.inf n, _) => (.inf n, cs, false)
    | (.fin neg m e, _) =>
      if m = 0 then (.fin neg 0 0, cs, false)
      else
        let qe := fmtF32.qexp m e
        let c := cutAt m e qe
        let t := c.odd false
        if fmtF32.maxBits < fmtF32.magBits t qe then (.fin neg (2 ^ 24 - 1) 104, true, false)
        else (.fin neg t qe, cs || !c.exact, false)

end Sys2Proof.Machine
end

