-- ==== Sys2Proof/Syntax.lean ====
section
/-! DEFINITION. Syntax.lean: the ONE inductive of instructions, one constructor per row of the table of operations and
events (R77-R97, R180-R186, R223, R298, R326 and the events of R18-R366), with the operand shapes they share.
No meaning stands here. -/

namespace Sys2Proof

/-- The synchronisation scopes, R11, in code order. -/
inductive Scope where
  | lanegroup | core | cluster | layer | tile | reticle | package | pod
deriving DecidableEq, Repr

/-- The width of an A-class operation: MOD 0 = 64, 1 = 32, 2 = 16, 3 = 8 bits (R86). -/
inductive Width where
  | w64 | w32 | w16 | w8
deriving DecidableEq, Repr

/-- The kinds of R39, codes 0-12. -/
inductive Kind where
  | f32 | bf16 | f16 | e4m3 | e5m2 | f4 | bq9 | bq6 | bq4 | i32 | i16 | i8 | n8
deriving DecidableEq, Repr

/-- The operations of the cascade, R91 and R195, codes 0-29. -/
inductive CasOp where
  | pass | fadd | fsub | fmul | fmin | fmax | fabs | fneg | iadd | isub | imul
  | iand | ior | ixor | shl | shr | sar | imin | imax | fsel
  | frcp | frsq | fex2 | flg2 | fth | fsgm | i2f | f2i | fsq | frnd
deriving DecidableEq, Repr

/-- The token operand of `twait`: the TK field, or the mask in the extension (R85, R142). -/
inductive TokSel where
  | one (t : Tok)
  | mask (m : BitVec 32)
deriving DecidableEq, Repr

/-- The source of `sfr`: a register, or the zero-extended extension (R145). -/
inductive FrSrc where
  | reg (s : Reg)
  | imm (i : BitVec 32)
deriving DecidableEq, Repr

/-- The fields of a scalar load (R88, R154). -/
structure LdF where
  base : Reg
  off  : BitVec 32
  trk  : BitVec 4
  sp   : Bool
  wt   : Bool
  lat  : BitVec 3
deriving DecidableEq, Repr

/-- The fields of a scalar store (R88, R159). -/
structure StF where
  base : Reg
  off  : BitVec 32
  trk  : BitVec 4
deriving DecidableEq, Repr

/-- The fields of a vector load (R88, R161). -/
structure VLdF where
  base : Reg
  off  : BitVec 28
  kind : BitVec 4
  trk  : BitVec 4
  sp   : Bool
  wt   : Bool
  lat  : BitVec 3
deriving DecidableEq, Repr

/-- The fields of a vector store (R88, R161). -/
structure VStF where
  base : Reg
  off  : BitVec 28
  kind : BitVec 4
  trk  : BitVec 4
deriving DecidableEq, Repr

/-- The fields of a gather (R88, R164). -/
structure GatF where
  base : Reg
  vi   : Reg
  off  : BitVec 22
  kind : BitVec 4
  trk  : BitVec 4
  sp   : Bool
  wt   : Bool
  lat  : BitVec 3
deriving DecidableEq, Repr

/-- The fields of a scatter (R88, R164). -/
structure ScaF where
  base : Reg
  vi   : Reg
  off  : BitVec 22
  kind : BitVec 4
  trk  : BitVec 4
deriving DecidableEq, Repr

/-- The fields of a returning atomic (R89, R166). -/
structure AmoF where
  r     : Reg
  base  : Reg
  off   : BitVec 32
  w64   : Bool
  scope : Scope
  wt    : Bool
  lat   : BitVec 3
deriving DecidableEq, Repr

/-- The fields of a reduction (R89, R168). -/
structure RedF where
  r     : Reg
  base  : Reg
  off   : BitVec 32
  w64   : Bool
  scope : Scope
deriving DecidableEq, Repr

/-- The fields of a VA/VB pair (R91, R194). -/
structure CasF where
  op1  : CasOp
  op2  : CasOp
  op3  : CasOp
  vd   : Reg
  va   : Reg
  vb   : Reg
  vc   : Reg
  ve   : Reg
  mask : MReg
  zm   : Bool
  selm : MReg
deriving DecidableEq, Repr

/-- The header of an engine command (R180): NA, SIG, RO and SEMREF. -/
structure CmdHdr where
  na     : Bool
  sig    : Bool
  ro     : Bool
  semref : BitVec 16
deriving DecidableEq, Repr

/-- COPY (R181). -/
structure CopyF where
  hdr : CmdHdr
  dk  : BitVec 4
  sk  : BitVec 4
  rm  : BitVec 3
  src : Word
  dst : Word
  n0  : BitVec 32
  n1  : BitVec 16
  n2  : BitVec 16
  n3  : BitVec 16
  ss1 : BitVec 32
  ss2 : BitVec 32
  ss3 : BitVec 32
  ds1 : BitVec 32
  ds2 : BitVec 32
  ds3 : BitVec 32
deriving DecidableEq, Repr

/-- COPYRED (R182). -/
structure CopyRedF where
  hdr   : CmdHdr
  dk    : BitVec 4
  lk    : BitVec 4
  rm    : BitVec 3
  first : Bool
  last  : Bool
  loc   : Word
  dst   : Word
  n     : BitVec 32
  inch  : BitVec 8
  outch : BitVec 8
deriving DecidableEq, Repr

/-- RACKFILL (R183). -/
structure RackFillF where
  hdr  : CmdHdr
  rack : BitVec 3
  src  : Word
  rowb : BitVec 32
  rows : BitVec 32
  sstr : BitVec 32
  npan : BitVec 32
  pstr : BitVec 32
deriving DecidableEq, Repr

/-- FILL (R184). -/
structure FillF where
  hdr    : CmdHdr
  dst    : Word
  nbytes : Word
  pat    : Word
deriving DecidableEq, Repr

/-- SEMSIG and WAITSEM (R185). -/
structure SemF where
  hdr   : CmdHdr
  sop   : BitVec 8
  tsem  : BitVec 16
  value : Word
deriving DecidableEq, Repr

/-- LAUNCH (R186). -/
structure LaunchF where
  hdr   : CmdHdr
  lq    : BitVec 4
  ltile : BitVec 4
  pkt   : Word
deriving DecidableEq, Repr

/-- What a bundle that fails R80 or R81 raises: the illegal-bundle fault, or the fault of one slot. -/
inductive DecodeErr where
  | illegalBundle
  | illegalSyllable (slot : Nat)
  | privilege (slot : Nat)
deriving DecidableEq, Repr

/-- A signed image of the secure flash (R346): its bytes, its signature and its security version. -/
structure FlashImage where
  body    : List Byte
  sign    : List Byte
  version : Nat
deriving DecidableEq, Repr

/-- What self-test found (R364): the stage reached, the measured Scope Cost Table, failing tiles and stacks,
cores to retire, failed lasers; `failed` when a failure other than a core stops bring-up. -/
structure SelfTest where
  failed  : Bool
  stage   : Nat
  sct     : List Word
  tiles   : BitVec 16
  hbm     : BitVec 16
  retired : List CoreId
  lasers  : BitVec 32
deriving DecidableEq, Repr

/-- Where an uncorrectable error is found (R283): in a stored line, in a datapath of a running bundle, by a scrub. -/
inductive ErrAt where
  | mark (key : Nat)
  | flight (c : CoreId) (slot : Nat) (cause : Nat)
  | scrub (t : TileId) (key : Nat)
deriving DecidableEq, Repr

/-- A register that a host or Cellarer write can name: a device register (block, offset), or BAR0 of a function. -/
inductive RegAt where
  | dev (block : Nat) (off : Nat)
  | bar0 (fn : Nat) (off : Nat)
deriving DecidableEq, Repr

/-- A register of a halted context, as the debugger names it: those of R105, an accumulator cell in the form of R274, and a special
register by its index (R105, R128, R285, R356). -/
inductive DbgReg where
  | s (r : Reg) (v : Word)
  | b (r : BReg) (v : Bool)
  | v (r : Reg) (image : List Byte)
  | m (r : MReg) (v : BitVec 512)
  | mp (r : MReg) (v : Word)
  | tk (t : Tok) (armed : Bool) (p : Nat)
  | acc (plane : Bool) (i j : Nat) (v : Word)
  | sr (ix : Nat) (v : Word)
deriving DecidableEq, Repr

/-- A flit as R302 lays it out, without its CRC: `ok` is false when the CRC or the tag failed. -/
structure Flit where
  sq    : Nat
  gen   : Nat
  lastf : Bool
  spl   : Bool
  isRed : Bool
  data  : List Byte
  sbits : BitVec 16
  ok    : Bool
  /-- The gt at which it was last sent (R304). -/
  at_   : Nat := 0
  /-- The PEER of the circuit that it came by (R342). -/
  peer  : Nat := 0
deriving DecidableEq, Repr

/-- One participant of an enclave as KEYEST names it (R351). -/
structure KeyEst where
  encid  : BitVec 16
  part   : Nat
  asids  : List (BitVec 16)
  slot   : Nat
  tiles  : List TileId
  cipher : List Byte
  images : List (List Byte)
deriving DecidableEq, Repr

/-- The operands of an event: what the world outside the instruction stream names when the event happens (which core,
which handle, the bytes that arrive). Each event reads the fields that its meaning names and ignores the others. -/
structure EvArg where
  core   : CoreId := 0
  ctx    : CtxId := 0
  tile   : TileId := 0
  eng    : EngId := 0
  slot   : SlotId := 0
  handle : Handle := 0
  /-- The host function: 0 is the PF, 1-64 the VFs. -/
  fn     : Nat := 0
  /-- A gang identifier. -/
  gang   : Nat := 0
  /-- A result, a copy, a transfer, a plane or a queue. -/
  id     : Nat := 0
  ids    : List Nat := []
  port   : Nat := 0
  lam    : Fin 8 := 0
  /-- A number: an offset, a level, a sequence number, a limit. -/
  n      : Nat := 0
  len    : Nat := 0
  flag   : Bool := false
  flag2  : Bool := false
  word   : Word := 0
  words  : List Word := []
  data   : List Byte := []
  encid  : BitVec 16 := 0
  part   : Nat := 0
  tiles  : List TileId := []
  reg    : RegAt := .dev 0 0
  dreg   : DbgReg := .s 0 0
  err    : ErrAt := .mark 0
  flit   : Option Flit := none
  self   : Option SelfTest := none
  key    : Option KeyEst := none
deriving DecidableEq, Repr

/-- One constructor per row of the table: the Vintner's steps, the engine commands, the syllables class by class, the
micro-ops, a bundle that decodes to none, and then the events. -/
inductive Instr where
  -- Vintner steps (R298) and the acts of the timed ones
  | vMake (h : Handle) (srcp dstp : BitVec 9) (wmask : BitVec 8) (sep dep : BitVec 10) (at_ : Word)
  | vBreak (h : Handle) (at_ : Word)
  | vPark (port : BitVec 9) (wmask : BitVec 8) (at_ : Word)
  | vUnpark (port : BitVec 9) (wmask : BitVec 8) (at_ : Word)
  | vHold (at_ : Word)
  | vWaitq (h : Handle) (thresh : BitVec 11) (tdisp : BitVec 24) (deadline : Word)
  | vSignal (sem : BitVec 16) (sop : BitVec 2) (value : Word)
  | vJump (disp : BitVec 24)
  | vLoop (lc : BitVec 2) (count : BitVec 16) (disp : BitVec 24)
  | vGen
  | vAttach (bport : BitVec 6) (peer : BitVec 16)
  | vEnd
  -- engine commands (R180-R186)
  | cmdCopy (f : CopyF)
  | cmdCopyred (f : CopyRedF)
  | cmdRackfill (f : RackFillF)
  | cmdFill (f : FillF)
  | cmdSemsig (f : SemF)
  | cmdWaitsem (f : SemF)
  | cmdLaunch (f : LaunchF)
  -- P and K (R84, R85)
  | scopePrefix (sc : Scope) (ord : BitVec 2) (na : Bool)
  | nop
  | br (disp : BitVec 32)
  | brt (b : BReg) (disp : BitVec 32)
  | brf (b : BReg) (disp : BitVec 32)
  | jmp (sa : Reg)
  | call (disp : BitVec 32)
  | callr (sa : Reg)
  | ret
  | chk (isV : Bool) (r : Reg) (disp : BitVec 32)
  | rgn (caskmax : BitVec 10) (blim : BitVec 4)
  | rgnc
  | twait (t : TokSel)
  | sfr (src : FrSrc)
  | gbar
  | wgt (sa : Reg)
  | yieldCore
  | trap (code : BitVec 16)
  | endTask
  | brk
  -- A (R86)
  | add (w : Width) (sd sa sb : Reg)
  | sub (w : Width) (sd sa sb : Reg)
  | and (w : Width) (sd sa sb : Reg)
  | or (w : Width) (sd sa sb : Reg)
  | xor (w : Width) (sd sa sb : Reg)
  | andn (w : Width) (sd sa sb : Reg)
  | shl (w : Width) (sd sa sb : Reg)
  | shr (w : Width) (sd sa sb : Reg)
  | sar (w : Width) (sd sa sb : Reg)
  | rol (w : Width) (sd sa sb : Reg)
  | mul (w : Width) (sd sa sb : Reg)
  | mulh (w : Width) (sd sa sb : Reg)
  | mulhn (w : Width) (sd sa sb : Reg)
  | div (w : Width) (sd sa sb : Reg)
  | divn (w : Width) (sd sa sb : Reg)
  | rem (w : Width) (sd sa sb : Reg)
  | remn (w : Width) (sd sa sb : Reg)
  | min (w : Width) (sd sa sb : Reg)
  | max (w : Width) (sd sa sb : Reg)
  | minn (w : Width) (sd sa sb : Reg)
  | maxn (w : Width) (sd sa sb : Reg)
  | cmpEq (w : Width) (bd : BReg) (sa sb : Reg)
  | cmpNe (w : Width) (bd : BReg) (sa sb : Reg)
  | cmpLt (w : Width) (bd : BReg) (sa sb : Reg)
  | cmpLtn (w : Width) (bd : BReg) (sa sb : Reg)
  | cmpLe (w : Width) (bd : BReg) (sa sb : Reg)
  | cmpLen (w : Width) (bd : BReg) (sa sb : Reg)
  | sel (sd sa : Reg) (bc : BReg)
  | selNot (sd sa : Reg) (bc : BReg)
  | clz (w : Width) (sd sa : Reg)
  | ctz (w : Width) (sd sa : Reg)
  | pop (w : Width) (sd sa : Reg)
  | bext (w : Width) (sd sa sb : Reg)
  | bins (w : Width) (sd sa sb : Reg)
  | sxt (w : Width) (sd sa : Reg)
  | zxt (w : Width) (sd sa : Reg)
  | adds (k : BitVec 2) (sd sa sb : Reg)
  | mov (sd sa : Reg)
  | rdsr (sd : Reg) (ix : Reg)
  | wrsr (ix : Reg) (sb : Reg)
  | bopAnd (bd ba bb : BReg)
  | bopOr (bd ba bb : BReg)
  | bopXor (bd ba bb : BReg)
  | bopAndn (bd ba bb : BReg)
  | fadds (sd sa sb : Reg)
  | fsubs (sd sa sb : Reg)
  | fmuls (sd sa sb : Reg)
  | fcvtsF2i (sd sa : Reg)
  | fcvtsI2f (sd sa : Reg)
  | fcvtsBf16 (sd sa : Reg)
  | fcvtsF16 (sd sa : Reg)
  -- AI (R87)
  | addi (sd sa : Reg) (i : BitVec 32)
  | andi (sd sa : Reg) (i : BitVec 32)
  | ori (sd sa : Reg) (i : BitVec 32)
  | xori (sd sa : Reg) (i : BitVec 32)
  | shli (sd sa : Reg) (n : BitVec 6)
  | shri (sd sa : Reg) (n : BitVec 6)
  | sari (sd sa : Reg) (n : BitVec 6)
  | cmpiEq (bd : BReg) (sa : Reg) (i : BitVec 32)
  | cmpiLt (bd : BReg) (sa : Reg) (i : BitVec 32)
  | cmpiLtn (bd : BReg) (sa : Reg) (i : BitVec 32)
  | movi (sd : Reg) (i : BitVec 32)
  | movh (sd sa : Reg) (i : BitVec 32)
  | muli (sd sa : Reg) (i : BitVec 32)
  | addpc (sd : Reg) (i : BitVec 32)
  -- M (R88)
  | ld8 (d : Reg) (f : LdF)
  | ld8n (d : Reg) (f : LdF)
  | ld16 (d : Reg) (f : LdF)
  | ld16n (d : Reg) (f : LdF)
  | ld32 (d : Reg) (f : LdF)
  | ld32n (d : Reg) (f : LdF)
  | ld64 (d : Reg) (f : LdF)
  | st8 (d : Reg) (f : StF)
  | st16 (d : Reg) (f : StF)
  | st32 (d : Reg) (f : StF)
  | st64 (d : Reg) (f : StF)
  | vld (d : Reg) (f : VLdF)
  | vldImg (d : Reg) (f : VLdF)
  | vst (d : Reg) (f : VStF)
  | vstImg (d : Reg) (f : VStF)
  | vldg (d : Reg) (f : GatF)
  | vsts (d : Reg) (f : ScaF)
  -- MA (R89)
  | amoAdd (f : AmoF)
  | amoMin (f : AmoF)
  | amoMax (f : AmoF)
  | amoMinn (f : AmoF)
  | amoMaxn (f : AmoF)
  | amoAnd (f : AmoF)
  | amoOr (f : AmoF)
  | amoXor (f : AmoF)
  | amoSwap (f : AmoF)
  | amoCas (f : AmoF)
  | redAdd (f : RedF)
  | redFadd (f : RedF)
  | fence (sc : Scope) (ord : BitVec 2)
  | ldblk (t : Tok) (base : Reg) (off : BitVec 32) (n : BitVec 6)
  | blkrel (t : Tok) (base : Reg) (off : BitVec 32)
  | pref (base : Reg) (off : BitVec 32) (n : BitVec 4)
  -- E (R90)
  | push (q : BitVec 3) (sn : Reg) (ptok : Tok) (bf : BReg) (cons : List Tok)
  | tkclr (t : Tok)
  | tkst (bd : BReg) (t : Tok)
  | tksig (t : Tok)
  | qst (q : BitVec 3) (sd : Reg)
  -- VA/VB (R91) and VX (R92, R196)
  | vcas (f : CasF)
  | vmov (vd vs : Reg) (msk : MReg)
  | vbc (vd ss : Reg) (msk : MReg)
  | vget (sd vs si : Reg)
  | vgetSx (sd vs si : Reg)
  | vgetS (sd vs si : Reg)
  | vput (vd ss si : Reg)
  | vxcLd (vd sa : Reg) (off : BitVec 32)
  | vxcSt (vs sa : Reg) (off : BitVec 32)
  | vprm (vd vs vi : Reg)
  | vprmG16 (vd vs vi : Reg)
  | vcmpFeq (md : MReg) (x y : Reg) (loose : Bool)
  | vcmpFne (md : MReg) (x y : Reg) (loose : Bool)
  | vcmpFlt (md : MReg) (x y : Reg) (loose : Bool)
  | vcmpFle (md : MReg) (x y : Reg) (loose : Bool)
  | vcmpIeq (md : MReg) (x y : Reg) (loose : Bool)
  | vcmpIne (md : MReg) (x y : Reg) (loose : Bool)
  | vcmpIlt (md : MReg) (x y : Reg) (loose : Bool)
  | vcmpIltn (md : MReg) (x y : Reg) (loose : Bool)
  | mopAnd (md ma mb : MReg)
  | mopOr (md ma mb : MReg)
  | mopXor (md ma mb : MReg)
  | mopAndn (md ma mb : MReg)
  | mcnt (sd : Reg) (ma : MReg)
  | mcntFirst (sd : Reg) (ma : MReg)
  | cvt (vd vs : Reg) (kind : BitVec 4) (msk : MReg)
  | unpk (vd vs : Reg) (kind : BitVec 4) (part : BitVec 3)
  | pack (vd vs : Reg) (kind : BitVec 4) (part : BitVec 3)
  | rnd (vd sk sb : Reg) (msk : MReg)
  | dpush (vs : Reg) (msk : MReg) (tag : BitVec 6)
  | dpop (vd sl : Reg)
  | dcnt (sd : Reg)
  | vtree (vd vs : Reg) (msk : MReg)
  | vtreeG (vd vs : Reg) (msk : MReg)
  | vtreeI (vd vs : Reg) (msk : MReg)
  | vtreeGI (vd vs : Reg) (msk : MReg)
  | viota (vd : Reg) (msk : MReg)
  | viotaRank (vd : Reg) (ma : MReg) (msk : MReg)
  | vsx (md : MReg) (vs : Reg)
  | vsset (vd : Reg) (ma : MReg)
  | vssetOr (vd : Reg) (ma : MReg)
  | vssetClr (vd : Reg) (ma : MReg)
  -- X (R93, R218)
  | mcall (idx : BitVec 8) (ptok : Tok) (cons : List Tok)
  | mpw (n : MReg) (ss : Reg)
  | mpr (sd : Reg) (n : MReg)
  | mprMq (sd : Reg)
  | mwr (ss : Reg) (ptok : Tok) (cons : List Tok)
  | macz (plane : Bool) (int : Bool) (ptok : Tok) (cons : List Tok)
  | mst (plane : Bool) (okind : BitVec 4) (rm : BitVec 3) (ss : Reg) (ptok : Tok) (cons : List Tok)
  -- T (R95) and F (R96)
  | tps32 (vd vs : Reg) (msk : MReg)
  | tps16 (vd vs : Reg) (msk : MReg)
  | tps8 (vd vs : Reg) (msk : MReg)
  | snd (h : Handle) (vs : Reg) (bd : BReg)
  | rcv (vd : Reg) (h : Handle)
  | cst (sd : Reg) (bd : BReg) (h : Handle)
  | chq (sd : Reg) (bd : BReg) (h : Handle)
  -- S (R97, R326)
  | csrr (sd : Reg) (ix : BitVec 12)
  | csrw (ix : BitVec 12) (sb : Reg)
  | tlbiAsid (sa : Reg)
  | tlbiPage (sa sb : Reg)
  | tlbiAll
  | lnch (sd sa sb : Reg)
  | semw (sa sb : Reg)
  | semwT (bd : BReg) (sa sb : Reg)
  | semsigAdd (sd sa sb : Reg)
  | semsigMax (sd sa sb : Reg)
  | semset (sd sa sb : Reg)
  | irq (sa : Reg)
  | wfe (sd : Reg)
  | eret
  | cxsv (sd sa sb : Reg)
  | cxld (sd sa sb : Reg)
  | qpop (sd sa : Reg)
  | fltp (sd : Reg)
  | fltrReenter (sd sa sb : Reg)
  | fltrKill (sd sa sb : Reg)
  | fltrResume (sd sa sb : Reg)
  | fltrCmd (sd : Reg)
  | kill (sd sa : Reg)
  | vprog (sd sa sb : Reg)
  | vprogStop (sd sb : Reg)
  | retire (sd sa : Reg)
  -- micro-ops (R94, R223)
  | moEnd
  | moPopa (rack : BitVec 3)
  | moPopb (rack : BitVec 3)
  | moPeeka (rack : BitVec 3)
  | moMma (plane : Bool) (ka kb : BitVec 4) (ng : BitVec 6)
  | moSclRow (rack : BitVec 3)
  | moSclCol (rack : BitVec 3)
  | moSclClr
  | moZero (plane : Bool) (int : Bool)
  | moDrn (plane : Bool) (okind : BitVec 4) (rm : BitVec 3) (mpd : BitVec 3) (rstr : BitVec 16) (clr : Bool)
  | moLoop (target : BitVec 12) (lc : BitVec 2) (count : BitVec 16)
  | moPadd (mpd : BitVec 3) (imm : BitVec 32)
  | moShr (rack : BitVec 3) (cmask : BitVec 8) (drack : BitVec 3)
  | moWait (t : Tok)
  | moTok (t : Tok)
  | moPushr (plane : Bool) (okind : BitVec 4) (rm : BitVec 3) (rack : BitVec 3) (clr : Bool)
  | moNop
  | moTrap (code : BitVec 16)
  | unassigned (e : DecodeErr)
  -- package, scheduler, core, host, fabric, security and reliability events, the acts of timed steps among them;
  -- their operands stand in an EvArg
  | packageReset | selfTestComplete | podJoin | podReferenceLoss | resultLanding | lateResult | memoryDataArrival
  | atomicReturn | redFaddFlagReturn | loopAccessPerform | pushSend | pageWalkComplete | tlbiComplete
  | preemptionArrival | gangStopped | agingRise | gangReservationConfirm | windowMove | gangStart | xpkgWithdraw
  | contextSwitch | contextSaveComplete | contextRestoreComplete | reentry | coreRetire | watchdogExpiry
  | contextFree | gangCompletion | completionRecordDelivery | faultRecordDelivery | barrierRelease | twaitResume
  | wgtResume | rcvSkewExpiry | engineTake | commandComplete | engineYield | blockFillComplete
  | matrixCommandStart | matrixCommandComplete | routineComplete | drainComplete | shrTransferComplete
  | revokeZeroise | eventEntry | evttimeTimer | launchSlotWrite | peerPacket | apertureRead | apertureWrite
  | cdoorbellWrite | cstatRunWrite | tscfgWrite | registerWrite | dbgHalt | dbgResume | dbgStep
  | debugRegisterWrite | replayConfigure | replayCheckpointBegin | encreate | attest | kemKeyPairGenerate | keyest
  | revoke | grant | endestroy | pstate | powerStateExit | retry | wavelengthRestore | thermalTrip
  | correctedError | uncorrectableError | prunerWindow | scrubThrottleWindow | scrubPassEnd | laserBankFailure
  | ringTuningLoss | boundaryLinkDown | linkReplayRequest | dataFlit | reduceFlit | hello | ack | nack | stale
  | credit | transportTimeout | breakDataDrop | circuitLive | wavelengthLock | makeAct | breakAct | parkAct
  | unparkAct | holdExpiry | waitqDeadline | boundaryLinkEstablish
deriving DecidableEq, Repr

end Sys2Proof
end

