-- ==== Sys2Proof/Machine/Kinds.lean ====
section
/-! DEFINITION. Machine/Kinds.lean: the thirteen kinds in memory and in containers: decoding, block quantisation,
narrowing and final rounding (R39-R58). Elements come in runs of 16, so that a block kind sees its blocks. -/

namespace Sys2Proof.Machine

/-- A container: a 32-bit value and its sticky bit (R46). -/
structure Cont where
  v : W32 := 0
  s : Bool := false
deriving DecidableEq, Repr

/-- The kind of a code 0-12 (R39). -/
def kindOf : Nat → Option Kind
  | 0 => some .f32 | 1 => some .bf16 | 2 => some .f16 | 3 => some .e4m3 | 4 => some .e5m2 | 5 => some .f4
  | 6 => some .bq9 | 7 => some .bq6 | 8 => some .bq4 | 9 => some .i32 | 10 => some .i16 | 11 => some .i8
  | 12 => some .n8 | _ => none

/-- The magnitude bits k of a block kind (R43). -/
def blockK : Kind → Option Nat
  | .bq9 => some 7 | .bq6 => some 4 | .bq4 => some 2 | _ => none

/-- The format of a floating kind (R39). -/
def fmtOf : Kind → Option Fmt
  | .f32 => some fmtF32 | .bf16 => some fmtBf16 | .f16 => some fmtF16 | .e4m3 => some fmtE4m3
  | .e5m2 => some fmtE5m2 | .f4 => some fmtF4 | _ => none

/-- The bits of one element of an integer kind, and whether it is signed (R39). -/
def intOf : Kind → Option (Nat × Bool)
  | .i32 => some (32, true) | .i16 => some (16, true) | .i8 => some (8, true) | .n8 => some (8, false) | _ => none

/-- The bits that 16 elements take in memory (R39, R42, R43). -/
def bitsOf16 : Kind → Nat
  | .f32 | .i32 => 512 | .bf16 | .f16 | .i16 => 256 | .e4m3 | .e5m2 | .i8 | .n8 => 128
  | .f4 => 64 | .bq9 => 144 | .bq6 => 96 | .bq4 => 64

/-- The bytes that `n` elements take in memory; `n` is a multiple of 16 for a block kind and even for f4. -/
def footprint (k : Kind) (n : Nat) : Nat := bitsOf16 k * n / 128

/-- A signed integer of `n` bits. -/
def sintOf (n v : Nat) : Int := if v < 2 ^ (n - 1) then (v : Int) else (v : Int) - 2 ^ n

/-- The `n`-bit pattern of an integer. -/
def patOf (n : Nat) (z : Int) : Nat := (z % (2 ^ n : Nat)).toNat

/-! ## Decoding (R43, R44, R47) -/

/-- One element of a block: sign, magnitude and spacing (R43), NaN when E = 255 (R44). -/
def blockElem (k : Nat) (bits : Nat) (i : Nat) : FVal :=
  let e := bits % 256
  let d := bits / 256 / 2 ^ (i / 2) % 2
  let f := bits / 65536 / 2 ^ (i * (k + 1)) % 2 ^ (k + 1)
  if e = 255 then .nan
  else .fin (f / 2 ^ k % 2 == 1) (f % 2 ^ k) ((e : Int) - 127 - (d : Int) - ((k : Int) - 1))

/-- Element `i` of a run of 16 given as one number, little-endian: its exact value. -/
def elemVal (k : Kind) (bits : Nat) (i : Nat) : FVal :=
  match blockK k with
  | some bk => blockElem bk bits i
  | none =>
    let w := bitsOf16 k / 16
    let p := bits / 2 ^ (i * w) % 2 ^ w
    match fmtOf k with
    | some f => f.decode p
    | none => match intOf k with
      | some (n, true) => FVal.int (sintOf n p)
      | _ => FVal.int (p : Int)

/-- Element `i` of a run of 16 widened to its container value (R41, R47). -/
def elemCont (k : Kind) (bits : Nat) (i : Nat) : W32 :=
  let w := bitsOf16 k / 16
  let p := bits / 2 ^ (i * w) % 2 ^ w
  match k with
  | .i32 => BitVec.ofNat 32 p
  | .f32 => if (f32Val (BitVec.ofNat 32 p)).isNan then nan32 else BitVec.ofNat 32 p
  | .i16 => BitVec.ofInt 32 (sintOf 16 p)
  | .i8 => BitVec.ofInt 32 (sintOf 8 p)
  | .n8 => BitVec.ofNat 32 p
  | _ => match elemVal k bits i with
    | .nan => nan32
    | x => f32Of x

/-! ## Block quantisation (R45) -/

/-- A value of a block with infinities replaced by the largest f32, and the flag of the replacement. -/
def blockPrep : FVal → FVal × Fl
  | .inf n => (.fin n (2 ^ 24 - 1) 104, Fl.overflow)
  | x => (x, 0)

/-- The larger of two magnitudes, as a pair. -/
def magMax (a b : Nat × Int) : Nat × Int :=
  if a.1 = 0 then b else if b.1 = 0 then a else if magLt a.1 a.2 b.1 b.2 then b else a

/-- The magnitude of a finite value. -/
def magOf : FVal → Nat × Int
  | .fin _ m e => (m, e)
  | _ => (0, 0)

/-- What R45 chooses for a block: NaN block, E, and d of the pairs. -/
structure BlockSel where
  nan : Bool
  e   : Nat
  d   : List Nat
deriving DecidableEq, Repr

/-- d of each pair of a list of prepared values (R45). -/
def pairD (e : Nat) : List FVal → List Nat
  | a :: b :: l =>
    let m := magMax (magOf a) (magOf b)
    (if m.1 != 0 && magLt m.1 m.2 1 ((e : Int) - 127) then 1 else 0) :: pairD e l
  | _ => []

/-- R45 on 16 prepared values. -/
def blockSel (xs : List FVal) : BlockSel :=
  if xs.any FVal.isNan then { nan := true, e := 255, d := [] }
  else
    let m := xs.foldl (fun a x => magMax a (magOf x)) (0, 0)
    let e := if m.1 = 0 then 0
      else
        let l := ilog m.1 m.2 + 127
        if l < 0 then 0 else if 254 < l then 254 else l.toNat
    { nan := false, e := e, d := pairD e xs }

/-- The exponent of the spacing q_p of element `i` of a block (R43). -/
def BlockSel.qexp (b : BlockSel) (k i : Nat) : Int :=
  (b.e : Int) - 127 - ((b.d.getD (i / 2) 0 : Nat) : Int) - ((k : Int) - 1)

/-- The final rounding of one element of a block at its spacing: the field of k + 1 bits (R53, R54). -/
def blockField (k : Nat) (qe : Int) (mu : RM) (x : FVal) (s : Bool) (rnd : Nat) : Nat × Fl :=
  match x with
  | .fin neg m e =>
    let c := cutAt m e qe
    let lim := 2 ^ k - 1
    let sg := if neg then 2 ^ k else 0
    if c.exact then
      if c.t ≤ lim then (sg + c.t, Fl.when s Fl.dropped) else (sg + lim, Fl.overflow ||| Fl.inexact)
    else
      let t := if c.up mu neg s rnd then c.t + 1 else c.t
      if lim < t then (sg + lim, Fl.overflow ||| Fl.inexact) else (sg + t, Fl.inexact)
  | _ => (0, 0)

/-- An input of a final rounding: its exact value, S and its random word's upper half. -/
structure RIn where
  x   : FVal
  s   : Bool
  rnd : Nat
deriving DecidableEq, Repr

/-- The fields of a block from element `i` on, as one number counted from the first field, with each element's flags. An infinite
element raises overflow as R54 says, and what the rounding of the finite value in its place raises beside it (DEDUCED, log 93). -/
def blockFields (k : Nat) (b : BlockSel) (mu : RM) : Nat → List RIn → Nat × List Fl
  | _, [] => (0, [])
  | i, r :: l =>
    let (x, f0) := blockPrep r.x
    let (f, fl) := blockField k (b.qexp k i) mu x r.s r.rnd
    let (v, fs) := blockFields k b mu (i + 1) l
    (f + 2 ^ (k + 1) * v, (f0 ||| fl) :: fs)

/-- The pairs' micro-exponents as a byte. -/
def dByte : List Nat → Nat
  | [] => 0
  | d :: l => d + 2 * dByte l

/-- A whole block finally rounded (R45, R53): its bits and each element's flags. A NaN raises invalid at the NaN
elements. -/
def blockRound (k : Nat) (mu : RM) (rs : List RIn) : Nat × List Fl :=
  let b := blockSel (rs.map (fun r => (blockPrep r.x).1))
  if b.nan then (255, rs.map (fun r => Fl.when r.x.isNan Fl.invalid))
  else
    let (v, fs) := blockFields k b mu 0 rs
    (b.e + 256 * dByte b.d + 65536 * v, fs)

/-! ## Final rounding of a run of elements (R52-R58) -/

/-- A value rounded to an integer kind: rounded to an integer, clamped, NaN to 0. Overflow is raised when it clamps,
inexact when only the fraction went (R70, R181, R229). -/
def intRound (n : Nat) (signed : Bool) (mu : RM) (x : FVal) (s : Bool) : Nat × Fl :=
  let hi : Int := if signed then 2 ^ (n - 1) - 1 else 2 ^ n - 1
  let lo : Int := if signed then -(2 ^ (n - 1)) else 0
  match x with
  | .nan => (0, Fl.invalid)
  | .inf neg => (patOf n (if neg then lo else hi), Fl.overflow)
  | .fin neg m e =>
    let (z, ch) := roundInt mu neg m e s
    if z < lo then (patOf n lo, Fl.overflow) else if hi < z then (patOf n hi, Fl.overflow)
    else (patOf n z, if ch then Fl.inexact else Fl.when s Fl.dropped)

/-- One element of a kind that is no block, finally rounded from an exact value. -/
def elemRound (k : Kind) (mu : RM) (r : RIn) : Nat × Fl :=
  match fmtOf k with
  | some f => f.finalRound mu r.x r.s r.rnd
  | none => match intOf k with
    | some (n, sg) => intRound n sg mu r.x r.s
    | none => (0, 0)

/-- Elements laid one after another, `w` bits each, with their flags. -/
def layElems (w : Nat) : List (Nat × Fl) → Nat × List Fl
  | [] => (0, [])
  | (b, f) :: l =>
    let (v, fs) := layElems w l
    (b + 2 ^ w * v, f :: fs)

/-- A run of up to 16 exact values finally rounded to kind K: its bits and each element's flags. -/
def roundRun (k : Kind) (mu : RM) (rs : List RIn) : Nat × List Fl :=
  match blockK k with
  | some bk => blockRound bk mu rs
  | none => layElems (bitsOf16 k / 16) (rs.map (elemRound k mu))

/-- A container stored to an integer kind (R58): its pattern clamped, S dropped with its flag. -/
def contInt (n : Nat) (signed : Bool) (c : Cont) : Nat × Fl :=
  let z := c.v.toInt
  let hi : Int := if signed then 2 ^ (n - 1) - 1 else 2 ^ n - 1
  let lo : Int := if signed then -(2 ^ (n - 1)) else 0
  let z' := if z < lo then lo else if hi < z then hi else z
  (patOf n z', Fl.when (z' != z) Fl.overflow ||| Fl.when c.s Fl.dropped)

/-- A run of 16 containers as a vector store of kind K writes it (R53, R55, R58), with their random words. -/
def storeRun (k : Kind) (mu : RM) (cs : List Cont) (rnds : List Nat) : Nat × List Fl :=
  match intOf k with
  | some (n, sg) => layElems n (cs.map (contInt n sg))
  | none =>
    match k with
    | .f32 => layElems 32 (cs.map (fun c => (c.v.toNat, Fl.when c.s Fl.dropped)))
    | _ => roundRun k mu (List.zipWith (fun (c : Cont) r => { x := f32Val c.v, s := c.s, rnd := r }) cs rnds)

/-! ## Narrowing in registers (R50) -/

/-- `cvt` of one container to a floating kind other than f32. -/
def cvtFloat (f : Fmt) (c : Cont) : Cont × Fl :=
  match f32Val c.v with
  | .nan => match f.nanBits with
    | some _ => ({ v := nan32, s := c.s }, 0)
    | none => ({ v := 0, s := c.s }, Fl.invalid)
  | .inf neg => match f.infBits with
    | some _ => (c, 0)
    | none => ({ v := f32Of (f.decode (f.signed neg f.maxBits)), s := true }, Fl.overflow)
  | .fin neg m e =>
    let qe := f.qexp m e - 2
    let k := cutAt m e qe
    let t := k.odd false
    match f.infBits, f.decode f.maxBits with
    | none, .fin _ mm me =>
      if magLt mm me t qe then ({ v := f32Of (.fin neg mm me), s := true }, Fl.overflow)
      else ({ v := f32Of (.fin neg t qe), s := c.s || !k.exact }, 0)
    | _, _ => ({ v := f32Of (.fin neg t qe), s := c.s || !k.exact }, 0)

/-- `cvt` of one container of a block that holds no NaN. -/
def cvtBlockElem (k : Nat) (qe : Int) (c : Cont) : Cont × Fl :=
  match f32Val c.v with
  | .nan => (c, 0)
  | .inf neg => ({ v := f32Of (.fin neg (2 ^ k - 1) qe), s := true }, Fl.overflow)
  | .fin neg m e =>
    let cu := cutAt m e (qe - 2)
    let t := cu.odd false
    if 4 * (2 ^ k - 1) < t then ({ v := f32Of (.fin neg (2 ^ k - 1) qe), s := true }, Fl.overflow)
    else ({ v := f32Of (.fin neg t (qe - 2)), s := c.s || !cu.exact }, 0)

/-- The containers of a block from position `i` on. -/
def cvtBlockElems (k : Nat) (b : BlockSel) : Nat → List Cont → List (Cont × Fl)
  | _, [] => []
  | i, c :: l => cvtBlockElem k (b.qexp k i) c :: cvtBlockElems k b (i + 1) l

/-- `cvt` of a run of 16 containers (R50, R203): every container's result, whatever the mask selects afterwards. -/
def cvtRun (k : Kind) (cs : List Cont) : List (Cont × Fl) :=
  match blockK k with
  | some bk =>
    let b := blockSel (cs.map (fun c => (blockPrep (f32Val c.v)).1))
    if b.nan then cs.map (fun c => ({ v := nan32, s := c.s }, Fl.invalid))
    else cvtBlockElems bk b 0 cs
  | none => match fmtOf k with
    | some f => cs.map (cvtFloat f)
    | none => cs.map (fun c => (c, 0))

end Sys2Proof.Machine
end

