-- ==== Sys2Proof/Machine/Maps.lean ====
section
/-! DEFINITION. Machine/Maps.lean: sparse maps from numbers to values, and lists used as arrays. -/

namespace Sys2Proof.Machine

/-- The value at a key, or the default. -/
def mapGet {α : Type} (d : α) : NMap α → Nat → α
  | [], _ => d
  | (k, v) :: l, n => if k = n then v else mapGet d l n

/-- Set the value at a key, keeping the keys in rising order. -/
def mapSet {α : Type} : NMap α → Nat → α → NMap α
  | [], n, x => [(n, x)]
  | (k, v) :: l, n, x => if k = n then (n, x) :: l else if n < k then (n, x) :: (k, v) :: l else (k, v) :: mapSet l n x

/-- The key is present. -/
def mapHas {α : Type} : NMap α → Nat → Bool
  | [], _ => false
  | (k, _) :: l, n => k = n || mapHas l n

/-- Remove a key. -/
def mapDel {α : Type} : NMap α → Nat → NMap α
  | [], _ => []
  | (k, v) :: l, n => if k = n then mapDel l n else (k, v) :: mapDel l n

/-- Replace the element at an index. -/
def listSet {α : Type} : List α → Nat → α → List α
  | [], _, _ => []
  | _ :: l, 0, x => x :: l
  | a :: l, n + 1, x => a :: listSet l n x

/-- The numbers from `a`, `n` of them. -/
def fromTo (a : Nat) : Nat → List Nat
  | 0 => []
  | n + 1 => a :: fromTo (a + 1) n

/-- A list of `n` values, the value of each index. -/
def tabulate {α : Type} (n : Nat) (f : Nat → α) : List α := (fromTo 0 n).map f

/-- Cut a list into runs of `n`, `fuel` of them at most. -/
def chunks {α : Type} (n : Nat) : Nat → List α → List (List α)
  | 0, _ => []
  | fuel + 1, l => if l.isEmpty then [] else l.take n :: chunks n fuel (l.drop n)

/-- The first element that meets a test, and its index. -/
def findIdx {α : Type} (p : α → Bool) : List α → Nat → Option Nat
  | [], _ => none
  | a :: l, i => if p a then some i else findIdx p l (i + 1)

/-- Change the elements that meet a test. -/
def mapWhere {α : Type} (p : α → Bool) (f : α → α) (l : List α) : List α := l.map (fun a => if p a then f a else a)

/-- The bytes of a value, `n` of them, little-endian (R3). -/
def bytesOf : Nat → Nat → List Byte
  | 0, _ => []
  | n + 1, v => BitVec.ofNat 8 (v % 256) :: bytesOf n (v / 256)

/-- The value of bytes, little-endian (R3). -/
def leNat : List Byte → Nat
  | [] => 0
  | b :: l => b.toNat + 256 * leNat l

/-- The least `m` for which the test holds among `n` numbers from `a`. -/
def leastFrom (p : Nat → Bool) (a : Nat) : Nat → Option Nat
  | 0 => none
  | n + 1 => if p a then some a else leastFrom p (a + 1) n

end Sys2Proof.Machine
end

