-- ==== Sys2Proof/Machine/State.lean ====
section
/-! DEFINITION. Machine/State.lean: every piece of state the spec gives the package, as plain data, the reasons a step can
stop, and the state after reset. Sparse maps hold what differs from the value a reader names as the default. -/

namespace Sys2Proof

/-- The secret that the unclonable function gives (R345). -/
opaque Config.puf : Nat

end Sys2Proof

namespace Sys2Proof.Machine

/-! ## The register-level state of one instruction stream -/

/-- Flags on their way to FLAGS: slot, bundle, flags, the gt by which they are readable, and whether they are written to both
copies, live and checkpoint (R64, R168, R232). -/
structure RedFl where
  slot : Nat
  pc   : Nat
  fl   : Fl
  due  : Nat
  both : Bool := true
deriving DecidableEq, Repr

/-- A token: ARMED and the outstanding producers P (R174). -/
structure TokS where
  armed : Bool := false
  p     : Nat := 0
deriving DecidableEq, Repr

/-- Where a result lands (R98, R100). -/
inductive Dst where
  | s (r : Reg)
  | b (r : BReg)
  | v (r : Reg)
  | m (r : MReg)
  | void
deriving DecidableEq, Repr

/-- A value on its way to a register. A vector write names the containers it selects, and whether it changes only the
S plane (R192, R212). -/
inductive Val where
  | w (x : Word)
  | b (x : Bool)
  | m (x : BitVec 512)
  | v (sel : BitVec 512) (sOnly : Bool) (cs : List Cont)
deriving DecidableEq, Repr

/-- How the bytes of a load or atomic become a register value (R154, R161-R164, R166). -/
inductive Dec where
  | sc (n : Nat) (signed : Bool)
  | vec (k : Kind)
  | img
  | gat (k : Kind)
  | amo
deriving DecidableEq, Repr

/-- The data of a result in flight: in hand, awaited from a request, or a poison bit alone (R102, R156). -/
inductive Src where
  | have (v : Val)
  | wait (req : Nat) (d : Dec)
  | poison
deriving DecidableEq, Repr

/-- The load forms plain, `.s` and `.w` (R156, R157). -/
inductive LdForm where
  | plain | sp | wt
deriving DecidableEq, Repr

/-- A result in flight. Its number rises in issue order and, within a bundle, in slot order (R100). `flags` are FLAGS
bits with their container index, set as it lands (R62, R63). `strad` is the offset from the opening bundle of the
region in which it lands, once it straddles a commit; `rep` marks its replay in a re-entry (R264). `late` marks an
atomic's result whose cycle has passed and that lands once its value returns (R167). -/
structure Pend where
  id    : Nat
  ic    : Nat
  slot  : Nat
  pc    : Nat
  dst   : Dst
  pois  : Bool := false
  src   : Src
  form  : LdForm := .plain
  flags : List (Nat × Nat) := []
  /-- Of a vector result, stage by stage, what its floating-point units gave, each with the containers that it is for (R284). -/
  fp    : List (BitVec 512 × List W32) := []
  strad : Option Nat := none
  rep   : Bool := false
  late  : Bool := false
deriving DecidableEq, Repr

/-- The scope prefix of the bundle in issue (R84, R165). -/
structure Pfx where
  scope : Scope
  ord   : BitVec 2
  na    : Bool
deriving DecidableEq, Repr

/-- The scalar side that a context and a Cellarer share (R105, R321), and the bundle in issue: its number in issue
cycles, its address, its length in bytes, the slot of the syllable in issue, and its scope prefix. -/
structure Hart where
  s     : NMap Word := []
  sp    : BitVec 64 := 0
  b     : BitVec 16 := 1
  tk    : NMap TokS := []
  fr    : Word := 0
  /-- FR writes not yet in effect, with their issue cycle of effect (R60). -/
  frq   : NMap Word := []
  /-- Special-register writes of the bundle in issue, in effect from the next bundle on (R129). -/
  srq   : NMap Word := []
  flags : Word := 0
  fevt0 : Word := 0
  fevt1 : Word := 0
  pc    : Nat := 0
  /-- A taken branch: delay bundles left, and its target (R132). -/
  redir : Option (Nat × Nat) := none
  /-- The taken branch is an `eret`, which sets EIE as its target issues (R326). -/
  eretP : Bool := false
  pend  : List Pend := []
  nid   : Nat := 0
  ic    : Nat := 0
  bpc   : Nat := 0
  blen  : Nat := 0
  slot  : Nat := 0
  pfx   : Option Pfx := none
  /-- The bundle carries `rgnc` or `end` (R251); the first result number it gives out. -/
  closes : Bool := false
  first : Nat := 0
  /-- No bundle issues before this issue cycle (R170). -/
  gapTo : Nat := 0
deriving DecidableEq, Repr

/-! ## Memory accesses under way -/

/-- A physical piece of an access: a memory key, a length in bytes, and the key slot it uses (R237, R347). -/
structure Seg where
  key : Nat
  len : Nat
  ks  : Nat := 0
deriving DecidableEq, Repr

/-- The returning atomics of R166. -/
inductive AmoOp where
  | add | min | max | minn | maxn | and | or | xor | swap | cas
deriving DecidableEq, Repr

/-- What a request does at its home when it performs. -/
inductive ReqOp where
  | load
  | amo (op : AmoOp) (w64 : Bool) (a b : Word)
deriving DecidableEq, Repr

/-- A load or atomic whose value comes from memory: its pieces, the bytes its own context's stores supply (R154), the
value fixed at its performing, and the gt from which its data is at the core. -/
structure Req where
  id   : Nat
  op   : ReqOp := .load
  segs : List Seg
  fwd  : List (Option Byte) := []
  acq  : Option Scope := none
  rel  : Option Scope := none
  na   : Bool := false
  /-- Copies older than these stamps do not serve it: of its own reticle's homes, and of the others (R252). -/
  barR : Nat := 0
  barP : Nat := 0
  got  : Option (List Byte) := none
  /-- A byte came from a unit marked bad (R283). -/
  bad  : Bool := false
  arr  : Option Nat := none
  /-- The stamp of its performing, and whether a copy served a byte of it. -/
  done : Nat := 0
  copied : Bool := false
  /-- Its core controls its arrival: a load of its own Loop that no track has delayed (R102, R264). -/
  sure : Bool := false
deriving DecidableEq, Repr

/-- A withheld or a committed global write (R159, R160, R168). -/
inductive WOp where
  | st (bs : List Byte)
  | add (w64 : Bool) (a : Word)
  | fadd (a : W32)
deriving DecidableEq, Repr

/-- A global write with its pieces, its release scope, the bundle and slot that issued it, and once committed the gt of
its commit. -/
structure WEnt where
  id   : Nat
  segs : List Seg
  va   : Nat := 0
  op   : WOp
  rel  : Option Scope := none
  pc   : Nat := 0
  slot : Nat := 0
  na   : Bool := false
  cgt  : Nat := 0
deriving DecidableEq, Repr

/-- A Loop or cluster-window access on its way to its perform cycle (R240): the issuer, the cycle, the addressed core,
its track class, the bytes written or the request read, the clocks it needs, and whether it has moved (R241). -/
structure LoopAcc where
  id     : Nat
  core   : CoreId
  ctx    : CtxId
  slot   : Nat
  pc     : Nat := 0
  /-- The issue cycle of the issuer at which it performs, or none once its context has stopped: then at once (R243). -/
  ic     : Option Nat
  target : CoreId
  /-- An access of the issuing core's own Loop through the 0xFE window (class 1 of R241). -/
  own    : Bool
  /-- The tracks it claims as a mask, 0 for the gather and copy ports. -/
  tracks : BitVec 16
  clocks : Nat
  /-- Pieces read or written, as Loop keys. -/
  segs   : List Seg
  wr     : Option (List Byte)
  req    : Option Nat
  /-- Issue cycles from performing to landing. -/
  lag    : Nat
  moved  : Bool := false
  /-- The gt at which it would have performed, once it has moved (R358). -/
  movedAt : Nat := 0
  /-- The scope of a store that releases, and whether the commit that it performs after is still to come (R251). -/
  scope  : Option Scope := none
  held   : Bool := false
  /-- Bytes that a later store of its context, which performed first, has written: in issue order theirs is the last value (R250). -/
  skip   : List Nat := []
deriving DecidableEq, Repr

/-! ## A task's context -/

/-- The states of a resident context (R24). -/
inductive TSt where
  | free | reserved | ready | running | parked | parkedPlace | ended
deriving DecidableEq, Repr

/-- An open region (R136-R141). -/
structure Region where
  entry   : Nat := 0
  caskmax : Nat := 0
  blim    : Nat := 0
  anon    : Bool := true
  cnt     : Nat := 0
  rrc     : Nat := 0
  openIc  : Nat := 0
  /-- The opening bundle is to issue (again) without committing (R136, R140). -/
  fresh   : Bool := true
  /-- Its opening bundle has issued once. -/
  opened  : Bool := false
  /-- The gt of the `rgn` commit that opened it (R37, R151). -/
  gt      : Nat := 0
  yield   : Bool := false
deriving DecidableEq, Repr

/-- The atomic result latch (R167): FULL with the value and the stamp of its performing. -/
inductive Latch where
  | empty
  | pending (req : Nat)
  | full (m : Word) (done : Nat)
deriving DecidableEq, Repr

/-- A block of `ldblk` (R171): its token, first address, lines, the lines that it may pin, its producer, whether it fills or has
been released while filling, and the lines that it pins, with their ways (R172, R244, R246). -/
structure Block where
  tok      : Tok
  ea       : Nat
  lines    : Nat
  keys     : List Nat
  prod     : Nat
  filling  : Bool
  released : Bool := false
  pins     : List (Nat × Nat) := []
deriving DecidableEq, Repr

/-- A push that has reserved its slot: queue, the 64 command bytes, its producer, the tokens it consumes, its bundle. -/
structure PushRes where
  q    : Nat
  cmd  : List Byte
  prod : Nat
  cons : List Tok
  pc   : Nat
deriving DecidableEq, Repr

/-- The pushes of one commit, and the writes and Loop stores that must perform before they are sent (R176, R254). -/
structure Batch where
  pushes : List PushRes
  writes : List Nat
  loops  : List Nat
  /-- The issue cycle of the committing bundle, whose own Loop stores count too. -/
  ic     : Nat := 0
deriving DecidableEq, Repr

/-- An entry of the deferral queue (R208). -/
structure DEnt where
  v   : W32
  s   : Bool
  idx : Nat
  tag : Nat
deriving DecidableEq, Repr

/-- A push of the deferral queue before it performs: its issue cycle of performing, its entries, and whether its region
has committed (R209, R211). -/
structure DPush where
  ic   : Nat
  ents : List DEnt
  comm : Bool
  /-- Of one that straddles a commit, the offset of its performing from the opening bundle (R264). -/
  off  : Option Nat := none
deriving DecidableEq, Repr

/-- An accumulator cell: a floating value, or the i32 of an integer plane, with S (R65, R69). -/
structure AccCell where
  f : FVal := .fin false 0 0
  i : BitVec 32 := 0
  s : Bool := false
deriving DecidableEq, Repr

/-- An accumulator plane: its INT tag and its rows; an absent row or cell is +0 (R65, R230). -/
structure Plane where
  int  : Bool := false
  rows : List (List AccCell) := []
deriving DecidableEq, Repr

/-- What a commit checkpoints and a discard restores (R137, R233). Fabric heads stand at the handles. -/
structure Ckpt where
  flags : Word := 0
  fevt0 : Word := 0
  fevt1 : Word := 0
  rkcfg : NMap Word := []
  rkptr : NMap Word := []
  acc0  : Plane := {}
  acc1  : Plane := {}
  dq    : List DEnt := []
  bar   : Nat := 0
deriving DecidableEq, Repr

/-- Why a core issues nothing (R101). -/
inductive Stall where
  | twait (mask : BitVec 32)
  | gbar (n : Nat)
  | wgt (t : Nat)
  | rcv (h : Handle) (vd : Reg) (slot : Nat) (start : Nat)
  | snd (h : Handle) (img : List Byte) (bd : BReg) (slot : Nat)
  /-- A `rgnc` or `end` bundle has issued and its commit waits for straddlers (R139, R264). -/
  | commit
  /-- A `rgn` bundle waits to commit and will then issue (R136, R264). -/
  | rgn
  /-- S syllables of the Cellarer (R326). -/
  | semw (ref : BitVec 16) (v : Word)
  | wfe (sd : Reg)
  /-- A fetch that missed the TLBs, at an address, waits for its walk (R280). -/
  | fetch (va : Nat)
  /-- What the `tlbi` covers (0 an ASID, 1 a page, 2 everything) and the gt at which it began. -/
  | tlbi (kind asid va gt : Nat)
  | cxsv (c : CoreId) (k : CtxId) (sd : Reg)
  /-- A `cxld` waits for a window to move or a save of the core to end (R35, R326). -/
  | cxld (c : CoreId) (g : Nat) (sd : Reg)
  /-- An `rgnc`, `end` or `trap` acts at the end of its issue cycle, which another syllable of its bundle has frozen (R101, R139, R147,
  R148). -/
  | last (i : Instr)
deriving DecidableEq, Repr

/-- The attempts of a rerun pair (R285). -/
structure Rerun where
  second : Bool
  crc    : BitVec 32
  aCyc   : Nat
  aCrc   : BitVec 32
  /-- The bundle and slot of an uncorrectable error of the pair, for PERSIST (R283). -/
  errPc  : Nat
  errSl  : Nat
  /-- The gt at which the pair was begun (R268). -/
  gt     : Nat := 0
  /-- The events of the issue cycle in course, each with its slot. -/
  evs    : List (Nat × List Byte) := []
deriving DecidableEq, Repr

/-- The 64-byte fault record (R269), its words first to last. -/
abbrev FRec := List Word

/-- Where a record goes: the ring of a tile (and a semaphore with it), or the host with a vector (R270). -/
inductive RecDest where
  | ring (t : TileId) (sem : Option (BitVec 16))
  | host (vec : Option Nat)
deriving DecidableEq, Repr

/-- A record on its way to a full ring: the tile that raised it, and where that tile's table routed it at its raising (R270,
R271). -/
structure RecWait where
  tile : TileId
  dest : RecDest
  frec : FRec
  more : Option FRec := none
deriving DecidableEq, Repr

/-! ## The matrix unit -/

/-- A queued matrix command (R217). -/
inductive MOp where
  | mcall (idx : Nat)
  | mwr (a o : Word)
  | macz (plane int : Bool)
  | mst (plane : Bool) (okind : BitVec 4) (rm : RM) (a o : Word)
deriving DecidableEq, Repr

/-- A command of the matrix queue: its context and bundle, what it captured at issue, its producer and the producers
that it waits for, and whether its region has committed (R217, R222, R232). -/
structure MCmd where
  id    : Nat
  ctx   : CtxId
  pc    : Nat
  op    : MOp
  prod  : Nat
  waits : List Nat
  mp    : NMap Word
  fr    : Word
  comm  : Bool := false
deriving DecidableEq, Repr

/-- A latched panel: its rack and its count (R224). -/
structure PLatch where
  rack : Nat
  n    : Nat
deriving DecidableEq, Repr

/-- The command in execution: a routine's pc, counters, MP copy, latches and scales (R222). -/
structure Routine where
  cmd  : MCmd
  pc   : Nat := 0
  lc   : NMap Nat := []
  mp   : NMap Word := []
  la   : Option PLatch := none
  lb   : Option PLatch := none
  rows : Option (List W32) := none
  cols : Option (List W32) := none
  /-- The routine is past its `mo.end` and waits for its drains (R222), or past its entry (started). -/
  started : Bool := false
  ended   : Bool := false
  /-- Flags its drains and products raised, readable at completion (R222). -/
  fl   : Fl := 0
  /-- The gt from which its next micro-op executes (R223). -/
  busy : Nat := 0
  /-- The plane of the `mo.mma` whose results are to land, and what it held before (R284). -/
  mma  : Option (Bool × Plane) := none
deriving DecidableEq, Repr

/-! ## Resident contexts -/

/-- A resident context. -/
structure Ctx where
  st     : TSt := .free
  hart   : Hart := {}
  v      : NMap (List Cont) := []
  vp     : BitVec 64 := 0
  m      : NMap (BitVec 512) := []
  mp     : NMap Word := []
  acc0   : Plane := {}
  acc1   : Plane := {}
  arg    : Word := 0
  etab   : Nat := 0
  msbase : Nat := 0
  mslen  : Nat := 0
  rkcfg  : NMap Word := []
  rkptr  : NMap Word := []
  taskid : Word := 0
  asid   : BitVec 16 := 0
  gang   : Word := 0
  strict : Bool := false
  fpUnit : Nat := 0
  fpCnt  : Nat := 0
  save   : Nat := 0
  /-- Watchdog budget left in gt; none when disabled (R272). -/
  wdog   : Option Nat := none
  reg    : Region := {}
  ck     : Ckpt := {}
  cask   : List WEnt := []
  wbuf   : List WEnt := []
  reqs   : List Req := []
  landed : List Pend := []
  latch  : Latch := .empty
  redfl  : List RedFl := []
  /-- Flags that have come back and are set with the results of the next issue cycle (R63). -/
  flq    : List RedFl := []
  blocks : List Block := []
  pushes : List PushRes := []
  batches : List Batch := []
  dq     : List DEnt := []
  dqPop  : Nat := 0
  dqIn   : List DPush := []
  /-- Those that straddled the last commit and have performed in the open region: a re-entry replays them (R211, R264). -/
  dqOld  : List DPush := []
  bar    : Nat := 0
  arrived : Option Nat := none
  stall  : Option Stall := none
  /-- Beside the stall of a slot-12 or slot-13 syllable, the wait of a K syllable of its bundle, with its slot (R101). -/
  stallK : Option (Stall × Nat) := none
  /-- A discard's re-entry: the gt from which its bundle may issue (R267). -/
  reAt   : Option Nat := none
  /-- Stamps of acquires, at RETICLE and above it: no copy older than these serves a later access homed there (R252). -/
  acqRet : Nat := 0
  acqPkg : Nat := 0
  /-- The stamp of the last performing of a load or atomic of the task. -/
  perfAt : Nat := 0
  /-- An acquire fence in force until its next bundle, and a release fence in force until the next commit (R251). -/
  relF   : Option Scope := none
  acqF   : Option Scope := none
  /-- The release fence that a `rgn` commit ended, with the issue cycle of its bundle: an atomic of that bundle is issued at the commit
  (R251). -/
  relB   : Option (Nat × Scope) := none
  brkSkip : Bool := false
  rerun  : Option Rerun := none
  frec   : Option RecWait := none
  /-- The gang's stop has reached the task: at its next commit (R32). -/
  stopAtCommit : Bool := false
  /-- The Cellarer is to save the context (R26, R34). -/
  saving : Bool := false
  /-- A committed routine suspended while its gang is stopped (R234). -/
  susp   : Option Routine := none
  /-- The gt at which the stall in force began, and the slot of its syllable (R82, R358). -/
  stallAt : Nat := 0
  stallSl : Nat := 0
  /-- Addresses of the next bundle whose walks have ended (R280). -/
  walked : List Nat := []
  /-- The gt of the last panel written to a rack, and how many were then (R226, R236). -/
  rkAt   : NMap (Nat × Nat) := []
deriving DecidableEq, Repr

/-- A drain in the background: its plane, the bytes and where they go (R229), or the rack panel they become. -/
structure Drain where
  cmd   : Nat
  ctx   : CtxId
  plane : Bool
  segs  : List Seg
  bytes : List Byte
  rack  : Option Nat
  /-- The gt at which it ends (R223). -/
  endGt : Nat
deriving DecidableEq, Repr

/-- A shared-panel transfer in the background (R231): the sender's rack and panel count, the receivers' rack and cores
still to be served. -/
structure Shr where
  id    : Nat
  cmd   : Nat
  ctx   : CtxId
  rack  : Nat
  n     : Nat
  drack : Nat
  cores : List CoreId
  bytes : List Byte
  endGt : Nat
  /-- The command and the micro-op that sent it, for its fault record. -/
  mcmd  : MCmd
  pc    : Nat
deriving DecidableEq, Repr

/-- A translation held by a TLB (R280): ASID, first address and size of its page, and what the walk found, with the entry
read. -/
structure TlbEnt where
  asid : Nat
  va   : Nat
  size : Nat
  pa   : Nat
  key  : Nat
  r    : Bool
  w    : Bool
  x    : Bool
  ent  : Word := 0
deriving DecidableEq, Repr

/-- A core (R16, R24, R25, R220, R280, R286, R355-R357). -/
structure Core where
  ctxs    : List Ctx := [{}, {}, {}]
  run     : Option CtxId := none
  /-- The next issue cycle. -/
  ic      : Nat := 0
  /-- The core has taken its clock of this gt. -/
  cycled  : Bool := false
  /-- A `.w` result holds the core: the gt from which it does, its bundle and its slot (R82, R358). -/
  waitAt  : Option (Nat × Nat × Nat) := none
  /-- A context switch under way: the gt at which it ends, and the context that will run (R25). -/
  switch  : Option (Nat × CtxId) := none
  /-- The context that ran last. -/
  last    : Option CtxId := none
  mstore  : NMap Word := []
  mq      : List MCmd := []
  rt      : Option Routine := none
  drains  : List Drain := []
  shrs    : List Shr := []
  tlb     : List TlbEnt := []
  retired : Bool := false
  halted  : Bool := false
  /-- The gt of the halt in force (R358). -/
  haltAt  : Nat := 0
  dbgctl  : Word := 0
  dbgpwi  : Word := 0
  dbgbp   : NMap Word := []
deriving DecidableEq, Repr

/-! ## Engines, tokens and commands -/

/-- Who a command, a producer or a record belongs to: a member of a gang, by core, or a Cellarer. -/
inductive Owner where
  | mem (gang : Nat) (core : CoreId)
  | cell (t : TileId)
deriving DecidableEq, Repr

/-- An outstanding producer of a token (R174). `push` marks a push of the open region, `rout` a matrix command. -/
structure Prod where
  id    : Nat
  owner : Owner
  tok   : Tok
  push  : Bool := false
  rout  : Bool := false
deriving DecidableEq, Repr

/-- Where a sent command stands (R18, R185, R188, R260). -/
inductive CmdSt where
  | queued
  | running (e : EngId)
  | trigger
  | parked20
  | parked21
deriving DecidableEq, Repr

/-- A sent command: its queue, tile and owner, its bytes, its age, its producer and those it waits for, its resume
offset, and what a resumed COPYRED stream needs. -/
structure Cmd where
  id    : Nat
  tile  : TileId
  q     : Nat
  owner : Owner
  asid  : Nat
  pc    : Nat
  taskid : Word
  bytes : List Byte
  prod  : Nat
  waits : List Nat
  st    : CmdSt := .queued
  /-- How far it has come: destination bytes of a COPY, granules of a FILL, panels of a RACKFILL, flits of a COPYRED (R189). -/
  resume : Nat := 0
  /-- What is still to be written of the row that a COPY has read (R181). -/
  row   : List Byte := []
  done  : Bool := false
  /-- The gt at which it was sent (R18, R176). -/
  sent  : Nat := 0
  /-- The sample of a gt found the value that a WAITSEM waits for (R185, R334). -/
  met   : Bool := false
deriving DecidableEq, Repr

/-! ## Gangs -/

/-- Where a member stands (R24, R26). -/
inductive MSt where
  | wanted
  | held (k : CtxId)
  | resident (k : CtxId)
  | saved (parked : Bool)
  | restoring (k : CtxId) (parked : Bool)
  | ended (ok : Bool)
deriving DecidableEq, Repr

/-- What stays with a saved member beside its save area: a rerun pair, the watchdog budget it has used, how far its
acquires reach, and what its suspended routine has no place for there (R37, R222, R235, R252, R272). -/
structure Keep where
  rerun  : Option Rerun := none
  used   : Nat := 0
  acqRet : Nat := 0
  acqPkg : Nat := 0
  perfAt : Nat := 0
  /-- The bundle of a suspended routine's `mcall`, and the flags it has raised (R63, R222, R235). -/
  suspPc : Nat := 0
  suspFl : Fl := 0
deriving DecidableEq, Repr

/-- A member of a gang: its core, its placement and task indices, its entry, and where it stands. -/
structure Member where
  core  : CoreId
  place : Nat
  task  : Nat
  entry : Nat
  /-- The address of its micro section, and its words. -/
  micro : Nat × Nat := (0, 0)
  st    : MSt := .wanted
  /-- A park resolution waits for a context (R328). -/
  reent : Bool := false
  /-- A record of a member with no context waits for its ring (R271). -/
  frec  : Option RecWait := none
  keep  : Keep := {}
deriving DecidableEq, Repr

/-- The states of a gang. -/
inductive GSt where
  | ready
  | starting (t : Nat)
  | running
  | stopping
deriving DecidableEq, Repr

/-- A gang (R22, R23, R28-R33, R331, R333). -/
structure Gang where
  id     : Nat
  home   : TileId
  lq     : Nat
  src    : Nat
  pkt    : List Word
  eff    : Nat
  st     : GSt := .ready
  since  : Nat
  /-- The gt from which its wait at the current level counts (R30). -/
  aged   : Nat := 0
  order  : Nat
  mems   : List Member
  started : Bool := false
  status : Nat := 0
  reason : Nat := 0
  /-- The gt at which the status was reached (R333). -/
  statGt : Nat := 0
  xpkg   : Bool := false
  /-- The gt from which `gbar` of each tile completes, and the number completed, per tile (R143). -/
  bars   : NMap Nat := []
  barAt  : NMap Nat := []
  /-- Clusters of a retired core and where their members move (R286). -/
  moveTo : NMap Nat := []
deriving DecidableEq, Repr

/-- A packet in a launch queue: its words, its source and the gt it entered (R330). -/
structure QPkt where
  pkt : List Word
  src : Nat
  gt  : Nat
deriving DecidableEq, Repr

/-- A launch queue (R330). -/
structure LQ where
  pkts : List QPkt := []
  drop : Nat := 0
  head : Nat := 0
  tail : Nat := 0
  /-- Packets popped and not yet accepted, by which `lnch` knows a packet's source (R333). -/
  popped : List QPkt := []
deriving DecidableEq, Repr

/-! ## Tiles -/

/-- A Cellarer (R321-R325). -/
structure Cell where
  hart    : Hart := {}
  run     : Bool := true
  faulted : Bool := false
  eie     : Bool := false
  cpc     : Nat := 0
  evtpend : BitVec 8 := 0
  evtmask : Word := 0
  evec    : Word := 0
  epc     : Word := 0
  casid   : BitVec 16 := 0
  evttime : Word := BitVec.allOnes 64
  /-- GT has reached the EVTTIME last written, and TIMER has been set for it. -/
  fired   : Bool := false
  cycled  : Bool := false
  stall   : Option Stall := none
  /-- The wait of a K syllable beside the stall of an S syllable of its bundle, with its slot. -/
  stallK  : Option (Stall × Nat) := none
  reqs    : List Req := []
  blocks  : List Block := []
  acqRet  : Nat := 0
  acqPkg  : Nat := 0
  perfAt  : Nat := 0
  acqF    : Option Scope := none
deriving DecidableEq, Repr

/-- A copy of a line homed elsewhere, or a line of a block, in a tile's cache: its key, the stamp of its reading, its bytes, the
tag of its line, and its way (R171, R244, R246-R248). -/
structure Copy where
  key   : Nat
  stamp : Nat
  bs    : List Byte
  tag   : Nat := 0
  way   : Nat := 15
deriving DecidableEq, Repr

/-- A key slot of a tile: VALID, ENCID, PART, and the number of the key it holds (R347). -/
structure KeySlot where
  valid : Bool := false
  encid : BitVec 16 := 0
  part  : Nat := 0
  epoch : Nat := 0
deriving DecidableEq, Repr

/-- A page-table walk begun and not ended, or queued, with the cores whose misses share it; of a stale one nothing is kept (R280,
R281). -/
structure Walk where
  asid  : Nat
  va    : Nat
  gt    : Nat
  cores : List CoreId
  stale : Bool := false
deriving DecidableEq, Repr

/-- A tile. -/
structure Tile where
  scrw    : Nat := 0
  ewm     : BitVec 16 := 0xFFFF
  copies  : List Copy := []
  frt     : NMap Word := []
  frec    : List FRec := []
  frlost  : Nat := 0
  cethr   : BitVec 32 := 0xFFFFFFFF
  pren    : Bool := true
  ovr     : Bool := false
  factor  : Nat := 1
  temp    : Nat := 0
  /-- The junction temperature that the sensor of the tile's die last read (R366). -/
  junc    : Nat := 0
  cecount : Nat := 0
  /-- Corrected errors of the current window; the gt at which the current scrub pass began; the throttle's end. -/
  ceWin   : Nat := 0
  passAt  : Nat := 0
  throttle : Nat := 0
  pwrReq  : Nat := 0
  pwrSt   : Nat := 0
  /-- The gt at which a power-state exit completes. -/
  pwrAt   : Option Nat := none
  dbg     : Nat := 0
  trccfg  : Word := 0
  trclost : Nat := 0
  trcpos  : Nat := 0
  sem     : NMap Word := []
  lq      : NMap LQ := []
  /-- Token shadow: of a saved owner, the producers completed per token since its save (R260). -/
  shadow  : List (Owner × NMap Nat) := []
  walks   : List Walk := []
  walkq   : List Walk := []
  tlb     : List TlbEnt := []
  keys    : NMap KeySlot := []
  /-- The memory keys that the tile has been given, each with its number (R347, R351). -/
  memKeys : List (List Byte × Nat) := []
  /-- The tile returns to C1 once the REVOKE that has woken it is done (R363). -/
  backC1  : Bool := false
  cell    : Cell := {}
  serial  : Nat := 0
deriving DecidableEq, Repr

/-! ## The fabric -/

/-- Handle states (R293). -/
inductive HSt where
  | free | scheduled | settling | live | broken | dead
deriving DecidableEq, Repr

/-- What a MAKE gives a handle (R298, R299). -/
structure Make where
  srcp  : Nat
  dstp  : Nat
  mask  : BitVec 8
  sep   : Nat
  dep   : Nat
  slot  : SlotId
  g     : Nat
  asid  : Nat
  gang  : Word
  /-- The PEER of its source port, a boundary port, as ATTACH had given it (R342). -/
  peer  : Nat := 0
deriving DecidableEq, Repr

/-- Data that a BREAK caught and that no MAKE under the same endpoints can send again: its first SEQ, the gt of the BREAK, and where
its report goes (R307). -/
structure Caught where
  seq  : Nat
  gt   : Nat
  tile : TileId
  asid : Nat
  gang : Word
deriving DecidableEq, Repr

/-- A circuit handle (R292, R293, R295, R304-R307, R313). -/
structure Hnd where
  st      : HSt := .free
  /-- The state under a SCHEDULED one: what the handle is without its pending MAKE (R297). -/
  base    : HSt := .free
  srcp    : Nat := 0
  dstp    : Nat := 0
  mask    : BitVec 8 := 0
  sep     : Nat := 0
  dep     : Nat := 0
  g       : Nat := 0
  ver     : Nat := 0
  slot    : Option SlotId := none
  asid    : Nat := 0
  gang    : Word := 0
  nxt     : Option Make := none
  madeAt  : Nat := 0
  brokeAt : Nat := 0
  hello   : Bool := false
  next    : Nat := 0
  nextCk  : Nat := 0
  /-- The first SEQ never transmitted under the current endpoints. -/
  sentTo  : Nat := 0
  /-- LIMIT, in force from the first MAKE on. -/
  limit   : Nat := 0
  unacked : List Flit := []
  tmo     : Nat := 0
  /-- SEQs that are to go out, in order; the end of the flit that goes out, in thousandths of a gt; the wavelengths it goes out on
  (R292). -/
  wire    : List Nat := []
  wireEnd : Nat := 0
  eff     : BitVec 8 := 0
  /-- The first SEQ that the link has not acknowledged (R316); the width before a loss that has left less than 2, until the flit boundary
  at which the circuit dies (R292, R317). -/
  linkTo  : Nat := 0
  dying   : Nat := 0
  /-- The committed head last reported to a sender in another package (R305). -/
  credAt  : Nat := 0
  caught  : List Caught := []
  expect  : Nat := 0
  /-- The PEER of the boundary port it comes from, as ATTACH gave it (R342). -/
  peer    : Nat := 0
  rq      : List Flit := []
  /-- Flits popped since reset of the head, live and committed (R305, R313). -/
  head    : Nat := 0
  headCk  : Nat := 0
  /-- Flits popped and not yet committed, oldest first. -/
  poppedF : List Flit := []
  key     : Option (List Byte) := none
deriving DecidableEq, Repr

/-- A timed step in the package timer queue, with what its slot held when the step was read: G, ASID, gang and, of a MAKE from a
boundary port, the PEER of that port (R297, R299, R342). -/
structure TEnt where
  slot : SlotId
  g    : Nat
  step : Instr
  idx  : Nat
  read : Nat
  at_  : Nat
  asid : Nat := 0
  gang : Word := 0
  peer : Nat := 0
deriving DecidableEq, Repr

/-- A program slot of the Vintner (R296). -/
structure Slot where
  asid  : Nat := 0
  hbase : Nat := 0
  hlast : Nat := 0
  g     : Nat := 0
  late  : Nat := 0
  step  : Nat := 0
  /-- Records read so far, for cause 9 (R300). -/
  seen  : Nat := 0
  /-- STATE of VSTAT: 0 idle, 1 running, 2 in HOLD, 3 in WAITQ, 4 faulted. -/
  st    : Nat := 0
  first : Nat := 0
  gang  : Word := 0
  lc    : NMap Nat := []
  /-- The waiting step and the gt at which it was read; a timed step that waits for the queue; the index of the step that waits. -/
  wait  : Option (Instr × Nat) := none
  full  : Option Instr := none
  at_   : Nat := 0
  /-- The gt at which the timed step was read that waits for the queue (R297). -/
  fullAt : Nat := 0
  tile  : TileId := 0
  ports : List (Fin 64) := []
  /-- The PEER that ATTACH gave for each boundary port (R342). -/
  peers : NMap Nat := []
  cycled : Bool := false
deriving DecidableEq, Repr

/-- A wavelength of a port that is waking: the gt of its lock (R315). -/
structure Waking where
  lam : Fin 8
  lock : Nat
deriving DecidableEq, Repr

/-- A port: parked and failed wavelengths, those waking, its replay buffer of the last 128 flits by handle and SEQ, and what is left of
the link replays in progress on its circuits (R291, R292, R303, R315, R316). -/
structure Port where
  parked  : BitVec 8 := 0
  failed  : BitVec 8 := 0
  failedR : BitVec 8 := 0
  waking  : List Waking := []
  buf     : List (Nat × Nat) := []
  replay  : List (Nat × Nat) := []
deriving DecidableEq, Repr

/-! ## The host, security and service state -/

/-- A host function: its completion and fault rings, its aperture, its VFMAP and what it has been sent (R335-R340). -/
structure Fn where
  cbase   : Word := 0
  cen     : Bool := false
  clog    : Nat := 4
  crhead  : Nat := 0
  crtail  : Nat := 0
  fbase   : Word := 0
  fen     : Bool := false
  flog    : Nat := 4
  frhead  : Nat := 0
  frtail  : Nat := 0
  hapctl  : Word := 0
  haperr  : Nat := 0
  vfmap   : Word := 0
  /-- Completion records waiting for their ring, each with the vector to send after it (R333, R339). -/
  cwait   : List (List Byte × Option Nat) := []
  /-- The PF's MSI-X: enabled, function-masked, the vectors that are not masked, and those pending (R340). -/
  msixEn   : Bool := false
  msixMask : Bool := false
  unmasked : List Nat := []
  pendV    : List Nat := []
deriving DecidableEq, Repr

/-- What the package has sent to the outside: ring entries, vectors, management events, read data (R339, R340). -/
inductive HostOut where
  | ring (fn : Nat) (addr : Nat) (bs : List Byte)
  | vector (fn : Nat) (vec : Nat)
  | event (name : String) (args : List Nat)
  | report (bs : List Byte) (sig : List Byte)
  | data (fn : Nat) (bs : List Byte)
deriving DecidableEq, Repr

/-- A participant of an enclave (R349, R351). -/
structure Part where
  id      : Nat
  asids   : List Nat
  slots   : List Nat
  tiles   : List TileId
  link    : List Byte
  images  : List (List Byte)
  revoked : Bool := false
  /-- A REVOKE is under way; its step 1 waits for tiles to leave C1 (R363); the gt of its step 3. -/
  revoking : Bool := false
  waking   : Bool := false
  revokedAt : Nat := 0
deriving DecidableEq, Repr

/-- An enclave (R349, R354). -/
structure Enclave where
  id    : Nat
  owner : List Byte
  tiles : List TileId
  parts : List Part
  taint : Bool := false
  grants : List Nat := []
  /-- ENDESTROY has been asked for (R349). -/
  dying : Bool := false
deriving DecidableEq, Repr

/-- An ML-KEM key pair awaiting KEYEST, by its number (R351). -/
structure KemPair where
  encid : BitVec 16
  part  : Nat
  num   : Nat
deriving DecidableEq, Repr

/-- An entry of the order log (R359): 0 an atomic, 1 a reduction, 2 a semaphore operation, 3 a launch accepted, 4 a message
received, 5 an engine command completed; which one, and its gt. -/
structure LogEnt where
  kind : Nat
  id   : Nat
  gt   : Nat
deriving DecidableEq, Repr

/-- A completed checkpoint (R359): the global lines written since the one before, with their bytes, the context images, the gt of its
end, and the order log up to there. -/
structure Checkpoint where
  lines  : List (Nat × List Byte)
  images : List (CoreId × CtxId × List Byte)
  gt     : Nat
  log    : List LogEnt
deriving DecidableEq, Repr

/-- The replay machinery of R359: interval and region, a checkpoint in progress with the contexts still to commit and the
images taken, the global lines written since the last, the order log since then, the gt from which a full log has dropped events, the
gaps marked, and the completed checkpoints. -/
structure Replay where
  ms     : Nat := 0
  base   : Nat := 0
  len    : Nat := 0
  inProg : Bool := false
  todo   : List (CoreId × CtxId) := []
  images : List (CoreId × CtxId × List Byte) := []
  lines  : List Nat := []
  log    : List LogEnt := []
  gapFrom : Option Nat := none
  gaps   : List (Nat × Nat) := []
  done   : List Checkpoint := []
deriving DecidableEq, Repr

/-- What has happened since package reset: the self-test is complete, a task has run, GT has been loaded from a pod reference (R15,
R21). -/
structure Boot where
  tested : Bool := false
  ran    : Bool := false
  joined : Bool := false
deriving DecidableEq, Repr

/-- Who acts in the instruction in execution. -/
inductive Cur where
  | idle
  | core (c : CoreId) (k : CtxId)
  | cell (t : TileId)
  | seq (c : CoreId)
  | eng (t : TileId) (e : EngId)
  | slot (n : SlotId)
deriving DecidableEq, Repr

/-- The acts of which a run consists: what the machine does next (log 1). -/
inductive Act where
  /-- A row of the table happens: an event with its operands. -/
  | ev (i : Instr) (a : EvArg)
  | core (c : CoreId)
  /-- A stall of a core that ends before its clock (R101, R240). -/
  | stallEnd (c : CoreId)
  | cell (t : TileId)
  /-- A Cellarer whose bundle samples semaphores after the other operations of the gt (R334). -/
  | cellLate (t : TileId)
  | seq (c : CoreId)
  | eng (t : TileId) (e : EngId)
  | slot (n : SlotId)
  /-- A Cellarer acts on its oldest CQ command (R323). -/
  | cq (t : TileId)
  /-- The accesses due in this clock claim their tracks and perform (R240-R242). -/
  | loop
  /-- The oldest committed write of a context performs at its home; a load, an atomic performs at its home. -/
  | performWrite (c : CoreId) (k : CtxId)
  | performReq (c : CoreId) (k : CtxId) (id : Nat)
  | performCell (t : TileId) (id : Nat)
  /-- A tile's cache drops a copy, a TLB an entry; a walk begins. -/
  | dropCopy (t : TileId) (key : Nat)
  | dropTlb (t : TileId) (core : Option CoreId) (n : Nat)
  | beginWalk (t : TileId) (core : Option CoreId) (asid va : Nat)
  /-- The semaphores of fault records with DEST 3 gain 1; the triggers sample their semaphores (R334). -/
  | recSems
  | sample
  /-- The host reads a register; the debugger reads one of a halted core's context (R14, R335, R356). -/
  | hostRead (r : RegAt) (len : Nat)
  /-- The PF's configuration space or the I3C endpoint reads the self-test record (R365). -/
  | readRecord
  | dbgRead (c : CoreId) (k : CtxId) (r : DbgReg)
  /-- The host masks or unmasks a vector of the PF's MSI-X table, and sets MSI-X Enable and Function Mask (R340). -/
  | msixVec (v : Nat) (mask : Bool)
  | msixCtl (en mask : Bool)
  /-- A sensor reports the temperature of a tile's hottest stack, or of its die's junction; the host asks to replay from a checkpoint
  (R287, R359, R366). -/
  | sensor (t : TileId) (temp : Nat)
  | junction (t : TileId) (temp : Nat)
  | replayFrom (gt : Nat)
  | tick
deriving DecidableEq, Repr

/-- The package. -/
structure State where
  gt      : Nat
  agenda  : List Act
  cur     : Cur
  arg     : EvArg
  /-- The bundle in execution has been stopped by a fault. -/
  abort   : Bool
  /-- The number of the next identifier and free value. -/
  fresh   : Nat
  mem     : List Host.Cell
  tags    : NMap Nat
  epochs  : NMap Nat
  bad     : List Nat
  cores   : NMap Core
  tiles   : NMap Tile
  loopq   : List LoopAcc
  tracks  : NMap Nat
  prods   : List Prod
  cmds    : List Cmd
  gangs   : List Gang
  slots   : NMap Slot
  timerq  : List TEnt
  handles : NMap Hnd
  ports   : NMap Port
  laserF  : BitVec 32
  links   : NMap Nat
  fns     : NMap Fn
  act     : NMap Word
  actCnt  : NMap Nat
  actWin  : Nat
  asidtab : Word
  sct     : List Word
  form    : Nat
  feats   : BitVec 4
  pkgid   : BitVec 16
  fwEntry : Nat
  podRef  : Bool
  flash   : List FlashImage
  counter : Nat
  secret  : Nat
  safe    : Bool
  sleep   : Bool
  stRec   : List Byte
  hostOut : List HostOut
  encs    : List Enclave
  kems    : List KemPair
  replay  : Replay
  /-- Semaphores of fault records delivered in this gt with DEST 3, which have still to gain 1 (R334). -/
  semRecs : List (BitVec 16)
  boot    : Boot
deriving DecidableEq, Repr

/-- The reasons the model stops. -/
inductive Fault where
  /-- Raised by no instruction: a word that the fetch interface was given is none (safe). -/
  | noInstruction
deriving DecidableEq, Repr

/-- The reasons the model refuses an instruction. -/
inductive Refusal where
  /-- An instruction that has no meaning yet, by its mnemonic (safe). -/
  | notModelled (mnemonic : String)
deriving DecidableEq, Repr

/-- The outcome of an instruction or of a step. -/
abbrev Out := Host.Outcome State Fault Refusal

/-- A Scope Cost Table entry (R14). -/
def sctEntry (cmt vis fen : Nat) : Word :=
  BitVec.ofNat 64 (2 ^ 63 + cmt * 2 ^ 32 + vis * 2 ^ 16 + fen)

/-- The self-test record of a bring-up that passed, on a part whose features, failed banks and retired cores are none, at GT 0: FMT 1,
STAGE 7, RESULT 0, and DEVREC of the ZW16 (R364). -/
def passedRecord : List Byte :=
  [1, 0, 7, 0] ++ List.replicate 68 0 ++ bytesOf 8 0x01001001 ++ List.replicate 48 0

/-- The part after package reset and bring-up (R19, R21, R324, R334, R346, R364): GT 0, every register at its stated
reset value; what the spec leaves open is named in the log (4, 5, 6). -/
def State.reset : State :=
  { gt := 0, agenda := [], cur := .idle, arg := {}, abort := false, fresh := 0,
    mem := [], tags := [], epochs := [], bad := [],
    cores := [], tiles := [], loopq := [], tracks := [], prods := [], cmds := [], gangs := [],
    slots := [], timerq := [], handles := [], ports := [], laserF := 0, links := [],
    fns := [], act := [], actCnt := [], actWin := 0, asidtab := 0,
    sct := [sctEntry 0 0 0, sctEntry 0 3 1, sctEntry 0 14 4, sctEntry 0 40 12, sctEntry 256 96 24, sctEntry 512 180 48,
            sctEntry 768 400 96, sctEntry 768 2000 400], form := 1, feats := 0, pkgid := 0, fwEntry := 0, podRef := false,
    flash := [], counter := 0, secret := Config.puf, safe := false, sleep := false,
    stRec := passedRecord, hostOut := [], encs := [], kems := [], replay := {}, semRecs := [], boot := { tested := true } }

end Sys2Proof.Machine
end

