-- ==== Sys2Proof/Config.lean ====
section
/-! DEFINITION. Config.lean: what an implementation or the world outside fixes: free values with no body, so that no proof
can see them (log 3). A claim that holds of the model holds whatever they are. -/

namespace Sys2Proof.Config

open Sys2Proof.Machine

/-- What happens next when the agenda is empty: the acts of the outside world and of the parts whose timing the spec
leaves open, by the number of the choice (log 1). -/
opaque inputs : Nat → List Act

/-- A free 64-bit value, by its number (log 3). -/
opaque freeWord : Nat → Word

/-- A free byte, by two numbers: what a line written under another key reads as (log 21). -/
opaque freeByte : Nat → Nat → Byte

/-- SHA-256 (R346, R349). -/
opaque sha256 : List Byte → List Byte

/-- SLH-DSA-SHA2-256s (FIPS 205): whether a signature of a message verifies under a key (R346, R349). -/
opaque slhVerify : List Byte → List Byte → List Byte → Bool

/-- The signature of a message under the identity key of a secret (R345, R350). -/
opaque slhSign : Nat → List Byte → List Byte

/-- The digest of the root public key (R346), and the key itself. -/
opaque rootKey : List Byte

/-- The public identity of a secret (R345). -/
opaque identity : Nat → List Byte

/-- How many events the order log holds in a target region of some bytes, whose form the spec does not give (R359, log 86). -/
opaque logCap : Nat → Nat

/-- The device memory key of a tile, derived from the identity secret (R347). -/
opaque deviceKey : Nat → Nat → List Byte

/-- ML-KEM-1024 (FIPS 203): the encapsulation key of a pair by its number, and decapsulation (R351). -/
opaque kemPublic : Nat → List Byte
opaque kemDecap : Nat → List Byte → List Byte

/-- HKDF-SHA-256 of a secret and an info string (R351, R352). -/
opaque hkdf : List Byte → List Byte → List Byte

/-- AES-256-GCM: the payload and the truncated tag of a flit under a key, an IV and header bytes (R352). -/
opaque gcmSeal : List Byte → List Byte → List Byte → List Byte → List Byte

/-- What the configuration image says: feature bits, PKGID, the Cellarer entry (R6, R322, R324, R346). -/
opaque cfgFeats : List Byte → BitVec 4
opaque cfgPkgid : List Byte → BitVec 16
opaque cfgEntry : List Byte → Nat

end Sys2Proof.Config
end

