-- ==== Sys2Proof/WellFormed.lean ====
section
/-! DEFINITION. WellFormed.lean: which operand values an encoding admits (R81, R84-R97, R196, R204, R218, R223,
R298, R326, R180-R186). An instruction outside these values has no word; the decoder never answers one. Rows that are
events have no encoding: their operands are bounded by their types, and by the few checks here. -/

namespace Sys2Proof

/-- A KIND field of a vector access: 0-12, or 15 for FR.DKIND; 13 and 14 are unassigned (R88). -/
def kindFieldOk (k : BitVec 4) : Bool := k.toNat ≤ 12 || k.toNat == 15

/-- A KIND field of a gather or scatter: 5 to 8 are unassigned too (R164). -/
def gatherFieldOk (k : BitVec 4) : Bool := kindFieldOk k && !(5 ≤ k.toNat && k.toNat ≤ 8)

/-- SP with WT is unassigned (R88). -/
def spWtOk (sp wt : Bool) : Bool := !(sp && wt)

/-- A consumed-token list holds at most three tokens (R90). -/
def consOk (cons : List Tok) : Bool := cons.length ≤ 3

/-- The largest PART that KIND admits in `pack` and `unpk`, plus one: 2,048 / F (R204); 0 for a code that is no kind. -/
def partCount (k : BitVec 4) : Nat :=
  match k.toNat with
  | 0 | 9 => 1
  | 1 | 2 | 10 => 2
  | 3 | 4 | 11 | 12 => 4
  | 5 | 8 => 8
  | 6 => 3
  | 7 => 5
  | _ => 0

/-- Stage codes 20-25 stand only in OP3 (R91). -/
def CasOp.onlyLast : CasOp → Bool
  | .frcp | .frsq | .fex2 | .flg2 | .fth | .fsgm => true
  | _ => false

/-- RMODE 6 is unassigned (R218, R223). -/
def rmodeOk (r : BitVec 3) : Bool := r.toNat != 6

/-- OKIND 13-15 are unassigned (R218, R223). -/
def okindOk (k : BitVec 4) : Bool := k.toNat ≤ 12

/-- The read-only special registers, to which `wrsr` is unassigned (R86, R129). -/
def wrsrRefused (i : Nat) : Bool :=
  i == 0 || i == 1 || i == 2 || i == 3 || i == 4 || i == 5 || i == 6 || i == 13 || i == 14 || i == 15 || i == 34

/-- The indices of the special-register map (R86, R128). -/
def rdsrAssigned (i : Nat) : Bool := i ≤ 32 || i == 34 || i == 35

/-- The indices of the special registers that a Cellarer has (R321). -/
def cellSr (i : Nat) : Bool := i == 0 || i == 8 || i == 9 || i == 10 || i == 11 || i == 34

/-- The operand values that an instruction's encoding admits. -/
def Instr.wf : Instr → Bool
  | .rgn caskmax blim => caskmax.toNat ≤ 512 && blim.toNat ≤ 8
  | .rdsr _ ix => rdsrAssigned ix.val
  | .wrsr ix _ => rdsrAssigned ix.val && !wrsrRefused ix.val
  | .ld8 _ f | .ld8n _ f | .ld16 _ f | .ld16n _ f | .ld32 _ f | .ld32n _ f | .ld64 _ f => spWtOk f.sp f.wt
  | .vld _ f => spWtOk f.sp f.wt && kindFieldOk f.kind
  | .vldImg _ f => spWtOk f.sp f.wt && f.kind.toNat == 15
  | .vst _ f => kindFieldOk f.kind
  | .vstImg _ f => f.kind.toNat == 15
  | .vldg _ f => spWtOk f.sp f.wt && gatherFieldOk f.kind
  | .vsts _ f => gatherFieldOk f.kind
  | .amoCas f => f.r.val ≤ 62
  | .redFadd f => !f.w64
  | .fence _ o => o.toNat != 0
  | .push _ sn _ _ cons => sn.val ≤ 56 && consOk cons
  | .vcas f => !f.op1.onlyLast && !f.op2.onlyLast
  | .cvt _ _ k _ => 1 ≤ k.toNat && k.toNat ≤ 8
  | .unpk _ _ k p | .pack _ _ k p => p.toNat < partCount k
  | .dpop vd _ => vd.val ≤ 62
  | .mcall _ _ cons | .macz _ _ _ cons => consOk cons
  | .mwr ss _ cons => ss.val ≤ 62 && consOk cons
  | .mst _ k r ss _ cons => okindOk k && rmodeOk r && ss.val ≤ 62 && consOk cons
  | .tps32 vd vs _ | .tps16 vd vs _ | .tps8 vd vs _ => vd.val ≤ 60 && vs.val ≤ 60
  | .csrr _ ix => ix.toNat ≤ 8
  | .csrw ix _ => ix.toNat ≤ 8
  | .lnch _ sa _ => sa.val ≤ 56
  | .qpop sd _ => sd.val ≤ 56
  | .fltp sd => sd.val ≤ 56
  | .vprog _ sa _ => sa.val ≤ 62
  | .moMma _ _ _ ng => ng.toNat != 0
  | .moDrn _ k r _ _ _ => okindOk k && rmodeOk r
  | .moPushr _ k r _ _ => okindOk k && rmodeOk r
  | .vWaitq _ th _ _ => 1 ≤ th.toNat && th.toNat ≤ 1024
  | .vSignal _ sop _ => sop.toNat ≤ 2
  | .cmdCopy f => f.dk.toNat ≤ 12 && f.sk.toNat ≤ 12 && f.rm.toNat ≤ 5
  | .cmdCopyred f => f.dk.toNat ≤ 8 && f.lk.toNat ≤ 8 && f.rm.toNat ≤ 5
  | .cmdSemsig f => f.sop.toNat ≤ 2
  | .cmdWaitsem f => f.sop.toNat == 0
  | _ => true

end Sys2Proof
end

