-- ==== Sys2Proof/Decode.lean ====
section
/-! DEFINITION. Decode.lean: bundles, micro-ops, step records and engine commands from their bits (R77-R97, R180-R186,
R196, R218, R223, R298, R326), total on any bits, and after it the encoder. Words are natural numbers here: a field is
a quotient and a remainder. A bundle's words come in fetch order, bit 0 of a word its least significant (R3, R77). -/

namespace Sys2Proof

/-! ## Fields -/

/-- Bits `lo` to `lo + len - 1` of a word. -/
def bitsOf (w lo len : Nat) : Nat := w / 2 ^ lo % 2 ^ len

/-- One bit of a word. -/
def bitOf (w i : Nat) : Bool := w / 2 ^ i % 2 == 1

/-- The scalar or vector register in the six bits from `lo`. -/
def regAt (w lo : Nat) : Reg := Fin.ofNat 64 (bitsOf w lo 6)

/-- A predicate register in the four bits from `lo`. -/
def bregAt (w lo : Nat) : BReg := Fin.ofNat 16 (bitsOf w lo 4)

/-- A mask register in the three bits from `lo`. -/
def mregAt (w lo : Nat) : MReg := Fin.ofNat 8 (bitsOf w lo 3)

/-- A token in the five bits from `lo`. -/
def tokAt (w lo : Nat) : Tok := Fin.ofNat 32 (bitsOf w lo 5)

/-- A field of `n` bits as a bit vector. -/
def bvAt (n w lo : Nat) : BitVec n := BitVec.ofNat n (bitsOf w lo n)

/-- A signed field of `n` bits, sign-extended to 32. -/
def sextTo32 (n v : Nat) : BitVec 32 := BitVec.ofNat 32 (if v < 2 ^ (n - 1) then v else v + (2 ^ 32 - 2 ^ n))

/-- A displacement: the short field, or the extension with the short field zero (R85). -/
def dispOf (n w : Nat) : Option Nat → Option (BitVec 32)
  | none => some (sextTo32 n (bitsOf w 0 n))
  | some x => if bitsOf w 0 n = 0 then some (BitVec.ofNat 32 x) else none

/-- `v` when the check holds: a failed check is an illegal syllable (R81). -/
def guardOpt {α : Type} (c : Bool) (v : Option α) : Option α := if c then v else none

/-- The scope of a code (R11). -/
def scopeOf (c : Nat) : Scope :=
  match c % 8 with
  | 0 => .lanegroup | 1 => .core | 2 => .cluster | 3 => .layer | 4 => .tile | 5 => .reticle | 6 => .package | _ => .pod

/-- The code of a scope (R11). -/
def Scope.code : Scope → Nat
  | .lanegroup => 0 | .core => 1 | .cluster => 2 | .layer => 3 | .tile => 4 | .reticle => 5 | .package => 6 | .pod => 7

/-- The width that MOD names (R86). -/
def widthOf (m : Nat) : Width :=
  match m % 4 with
  | 0 => .w64 | 1 => .w32 | 2 => .w16 | _ => .w8

/-- The MOD code of a width. -/
def Width.code : Width → Nat
  | .w64 => 0 | .w32 => 1 | .w16 => 2 | .w8 => 3

/-- The cascade operation of a code (R91). -/
def casOpOf : Nat → Option CasOp
  | 0 => some .pass | 1 => some .fadd | 2 => some .fsub | 3 => some .fmul | 4 => some .fmin | 5 => some .fmax
  | 6 => some .fabs | 7 => some .fneg | 8 => some .iadd | 9 => some .isub | 10 => some .imul | 11 => some .iand
  | 12 => some .ior | 13 => some .ixor | 14 => some .shl | 15 => some .shr | 16 => some .sar | 17 => some .imin
  | 18 => some .imax | 19 => some .fsel | 20 => some .frcp | 21 => some .frsq | 22 => some .fex2 | 23 => some .flg2
  | 24 => some .fth | 25 => some .fsgm | 26 => some .i2f | 27 => some .f2i | 28 => some .fsq | 29 => some .frnd
  | _ => none

/-- The code of a cascade operation (R91). -/
def CasOp.code : CasOp → Nat
  | .pass => 0 | .fadd => 1 | .fsub => 2 | .fmul => 3 | .fmin => 4 | .fmax => 5 | .fabs => 6 | .fneg => 7
  | .iadd => 8 | .isub => 9 | .imul => 10 | .iand => 11 | .ior => 12 | .ixor => 13 | .shl => 14 | .shr => 15
  | .sar => 16 | .imin => 17 | .imax => 18 | .fsel => 19 | .frcp => 20 | .frsq => 21 | .fex2 => 22 | .flg2 => 23
  | .fth => 24 | .fsgm => 25 | .i2f => 26 | .f2i => 27 | .fsq => 28 | .frnd => 29

/-- The consumed tokens of an extension: the count in bits 31:30, token 1 in bits 4:0 (R90). -/
def consOf (x : Nat) : Option (List Tok) :=
  let t1 := tokAt x 0
  let t2 := tokAt x 5
  let t3 := tokAt x 10
  guardOpt (bitsOf x 15 15 == 0)
    (match bitsOf x 30 2 with
     | 0 => guardOpt (bitsOf x 0 15 == 0) (some [])
     | 1 => guardOpt (bitsOf x 5 10 == 0) (some [t1])
     | 2 => guardOpt (bitsOf x 10 5 == 0) (some [t1, t2])
     | _ => some [t1, t2, t3])

/-- An optional token extension. -/
def consOpt : Option Nat → Option (List Tok)
  | none => some []
  | some x => consOf x

/-- An optional mask extension: MSK in bits 2:0, the rest zero; m0 without it (R196). -/
def mskOpt : Option Nat → Option MReg
  | none => some 0
  | some x => guardOpt (bitsOf x 3 29 == 0) (some (mregAt x 0))

/-- An optional 32-bit offset, 0 without it. -/
def offOpt : Option Nat → BitVec 32
  | none => 0
  | some x => BitVec.ofNat 32 x

/-! ## Syllables, class by class -/

/-- P (R84). -/
def decodeP (w : Nat) (x : Option Nat) : Option Instr :=
  guardOpt (x.isNone && bitsOf w 0 20 == 0)
    (some (.scopePrefix (scopeOf (bitsOf w 23 3)) (bvAt 2 w 21) (bitOf w 20)))

/-- K (R85). -/
def decodeK (w : Nat) (x : Option Nat) : Option Instr :=
  let z21 := bitsOf w 0 21 == 0 && x.isNone
  let sa := regAt w 15
  let saOnly := bitsOf w 0 15 == 0 && x.isNone
  match bitsOf w 21 5 with
  | 0 => guardOpt z21 (some .nop)
  | 1 => guardOpt (bitsOf w 17 4 == 0) ((dispOf 17 w x).map .br)
  | 2 => (dispOf 17 w x).map (.brt (bregAt w 17))
  | 3 => (dispOf 17 w x).map (.brf (bregAt w 17))
  | 4 => guardOpt saOnly (some (.jmp sa))
  | 5 => (dispOf 21 w x).map .call
  | 6 => guardOpt saOnly (some (.callr sa))
  | 7 => guardOpt z21 (some .ret)
  | 8 => (dispOf 14 w x).map (.chk (bitOf w 20) (regAt w 14))
  | 9 => guardOpt (bitsOf w 0 7 == 0 && x.isNone && bitsOf w 11 10 ≤ 512 && bitsOf w 7 4 ≤ 8)
          (some (.rgn (bvAt 10 w 11) (bvAt 4 w 7)))
  | 10 => guardOpt z21 (some .rgnc)
  | 11 => match x with
          | none => guardOpt (bitsOf w 0 16 == 0) (some (.twait (.one (tokAt w 16))))
          | some m => guardOpt (bitsOf w 0 21 == 0) (some (.twait (.mask (BitVec.ofNat 32 m))))
  | 12 => match x with
          | none => guardOpt (bitsOf w 0 15 == 0) (some (.sfr (.reg sa)))
          | some i => guardOpt (bitsOf w 0 21 == 0) (some (.sfr (.imm (BitVec.ofNat 32 i))))
  | 13 => guardOpt z21 (some .gbar)
  | 14 => guardOpt saOnly (some (.wgt sa))
  | 15 => guardOpt z21 (some .yieldCore)
  | 16 => guardOpt (bitsOf w 16 5 == 0 && x.isNone) (some (.trap (bvAt 16 w 0)))
  | 17 => guardOpt z21 (some .endTask)
  | 18 => guardOpt z21 (some .brk)
  | _ => none

/-- A (R86). -/
def decodeA (w : Nat) (x : Option Nat) : Option Instr :=
  let sd := regAt w 14
  let sa := regAt w 8
  let sb := regAt w 2
  let m := bitsOf w 0 2
  let wd := widthOf m
  let bd := bregAt w 14
  let bdOk := bitsOf w 18 2 == 0
  let sbz := bitsOf w 2 6 == 0
  guardOpt x.isNone
    (match bitsOf w 20 6 with
     | 0 => some (.add wd sd sa sb)
     | 1 => some (.sub wd sd sa sb)
     | 2 => some (.and wd sd sa sb)
     | 3 => some (.or wd sd sa sb)
     | 4 => some (.xor wd sd sa sb)
     | 5 => some (.andn wd sd sa sb)
     | 6 => some (.shl wd sd sa sb)
     | 7 => some (.shr wd sd sa sb)
     | 8 => some (.sar wd sd sa sb)
     | 9 => some (.rol wd sd sa sb)
     | 10 => some (.mul wd sd sa sb)
     | 11 => some (.mulh wd sd sa sb)
     | 12 => some (.mulhn wd sd sa sb)
     | 13 => some (.div wd sd sa sb)
     | 14 => some (.divn wd sd sa sb)
     | 15 => some (.rem wd sd sa sb)
     | 16 => some (.remn wd sd sa sb)
     | 17 => some (.min wd sd sa sb)
     | 18 => some (.max wd sd sa sb)
     | 19 => some (.minn wd sd sa sb)
     | 20 => some (.maxn wd sd sa sb)
     | 21 => guardOpt bdOk (some (.cmpEq wd bd sa sb))
     | 22 => guardOpt bdOk (some (.cmpNe wd bd sa sb))
     | 23 => guardOpt bdOk (some (.cmpLt wd bd sa sb))
     | 24 => guardOpt bdOk (some (.cmpLtn wd bd sa sb))
     | 25 => guardOpt bdOk (some (.cmpLe wd bd sa sb))
     | 26 => guardOpt bdOk (some (.cmpLen wd bd sa sb))
     | 27 => guardOpt (bitsOf w 6 2 == 0)
              (match m with
               | 0 => some (.sel sd sa (bregAt w 2))
               | 1 => some (.selNot sd sa (bregAt w 2))
               | _ => none)
     | 28 => guardOpt sbz (some (.clz wd sd sa))
     | 29 => guardOpt sbz (some (.ctz wd sd sa))
     | 30 => guardOpt sbz (some (.pop wd sd sa))
     | 31 => some (.bext wd sd sa sb)
     | 32 => some (.bins wd sd sa sb)
     | 33 => guardOpt sbz (some (.sxt wd sd sa))
     | 34 => guardOpt sbz (some (.zxt wd sd sa))
     | 35 => some (.adds (bvAt 2 w 0) sd sa sb)
     | 36 => guardOpt (sbz && m == 0) (some (.mov sd sa))
     | 37 => guardOpt (sbz && m == 0 && rdsrAssigned sa.val) (some (.rdsr sd sa))
     | 38 => guardOpt (bitsOf w 14 6 == 0 && m == 0 && rdsrAssigned sa.val && !wrsrRefused sa.val) (some (.wrsr sa sb))
     | 39 => guardOpt (bdOk && bitsOf w 12 2 == 0 && bitsOf w 6 2 == 0)
              (match m with
               | 0 => some (.bopAnd bd (bregAt w 8) (bregAt w 2))
               | 1 => some (.bopOr bd (bregAt w 8) (bregAt w 2))
               | 2 => some (.bopXor bd (bregAt w 8) (bregAt w 2))
               | _ => some (.bopAndn bd (bregAt w 8) (bregAt w 2)))
     | 40 => guardOpt (m == 0) (some (.fadds sd sa sb))
     | 41 => guardOpt (m == 0) (some (.fsubs sd sa sb))
     | 42 => guardOpt (m == 0) (some (.fmuls sd sa sb))
     | 43 => guardOpt sbz
              (match m with
               | 0 => some (.fcvtsF2i sd sa)
               | 1 => some (.fcvtsI2f sd sa)
               | 2 => some (.fcvtsBf16 sd sa)
               | _ => some (.fcvtsF16 sd sa))
     | _ => none)

/-- AI (R87). -/
def decodeAI (w : Nat) (x : Option Nat) : Option Instr :=
  let sd := regAt w 15
  let sa := regAt w 9
  let saz := bitsOf w 9 6 == 0
  match dispOf 9 w x with
  | none => none
  | some i =>
    let shOk := i.toNat ≤ 63
    let n : BitVec 6 := BitVec.ofNat 6 i.toNat
    let bd := bregAt w 15
    let bdOk := bitsOf w 19 2 == 0
    match bitsOf w 21 5 with
    | 0 => some (.addi sd sa i)
    | 1 => some (.andi sd sa i)
    | 2 => some (.ori sd sa i)
    | 3 => some (.xori sd sa i)
    | 4 => guardOpt shOk (some (.shli sd sa n))
    | 5 => guardOpt shOk (some (.shri sd sa n))
    | 6 => guardOpt shOk (some (.sari sd sa n))
    | 7 => guardOpt bdOk (some (.cmpiEq bd sa i))
    | 8 => guardOpt bdOk (some (.cmpiLt bd sa i))
    | 9 => guardOpt bdOk (some (.cmpiLtn bd sa i))
    | 10 => guardOpt saz (some (.movi sd i))
    | 11 => guardOpt x.isSome (some (.movh sd sa i))
    | 12 => some (.muli sd sa i)
    | 13 => guardOpt saz (some (.addpc sd i))
    | _ => none

/-- M (R88). -/
def decodeM (w : Nat) (x : Option Nat) : Option Instr :=
  let d := regAt w 16
  let base := regAt w 10
  let trk : BitVec 4 := bvAt 4 w 6
  let sp := bitOf w 5
  let wt := bitOf w 4
  let lat : BitVec 3 := bvAt 3 w 1
  let img := bitOf w 0
  let flagsz := bitsOf w 1 5 == 0
  let ld : LdF := { base := base, off := offOpt x, trk := trk, sp := sp, wt := wt, lat := lat }
  let st : StF := { base := base, off := offOpt x, trk := trk }
  let loadOk := !img && spWtOk sp wt
  let storeOk := !img && flagsz
  let kind : BitVec 4 := match x with
    | none => 15
    | some e => BitVec.ofNat 4 (bitsOf e 28 4)
  let voff : BitVec 28 := match x with
    | none => 0
    | some e => BitVec.ofNat 28 e
  let vkOk := if img then kind.toNat == 15 else kindFieldOk kind
  match bitsOf w 22 4 with
  | 0 => guardOpt loadOk (some (.ld8 d ld))
  | 1 => guardOpt loadOk (some (.ld8n d ld))
  | 2 => guardOpt loadOk (some (.ld16 d ld))
  | 3 => guardOpt loadOk (some (.ld16n d ld))
  | 4 => guardOpt loadOk (some (.ld32 d ld))
  | 5 => guardOpt loadOk (some (.ld32n d ld))
  | 6 => guardOpt loadOk (some (.ld64 d ld))
  | 7 => guardOpt storeOk (some (.st8 d st))
  | 8 => guardOpt storeOk (some (.st16 d st))
  | 9 => guardOpt storeOk (some (.st32 d st))
  | 10 => guardOpt storeOk (some (.st64 d st))
  | 11 =>
    let f : VLdF := { base := base, off := voff, kind := kind, trk := trk, sp := sp, wt := wt, lat := lat }
    guardOpt (vkOk && spWtOk sp wt) (some (if img then .vldImg d f else .vld d f))
  | 12 =>
    let f : VStF := { base := base, off := voff, kind := kind, trk := trk }
    guardOpt (vkOk && flagsz) (some (if img then .vstImg d f else .vst d f))
  | 13 => match x with
    | none => none
    | some e => guardOpt (loadOk && gatherFieldOk kind)
        (some (.vldg d { base := base, vi := regAt e 22, off := BitVec.ofNat 22 e, kind := kind, trk := trk,
                         sp := sp, wt := wt, lat := lat }))
  | 14 => match x with
    | none => none
    | some e => guardOpt (storeOk && gatherFieldOk kind)
        (some (.vsts d { base := base, vi := regAt e 22, off := BitVec.ofNat 22 e, kind := kind, trk := trk }))
  | _ => none

/-- MA (R89). -/
def decodeMA (w : Nat) (x : Option Nat) : Option Instr :=
  let r := regAt w 15
  let base := regAt w 9
  let wid := bitsOf w 7 2
  let sc := scopeOf (bitsOf w 4 3)
  let aux := bitsOf w 0 4
  let f : AmoF := { r := r, base := base, off := offOpt x, w64 := wid == 1, scope := sc, wt := bitOf w 3, lat := bvAt 3 w 0 }
  let g : RedF := { r := r, base := base, off := offOpt x, w64 := wid == 1, scope := sc }
  let amoOk := wid ≤ 1
  let tokOk := bitOf w 20 == false
  let scz := bitsOf w 4 3 == 0
  match bitsOf w 21 5 with
  | 0 => guardOpt amoOk (some (.amoAdd f))
  | 1 => guardOpt amoOk (some (.amoMin f))
  | 2 => guardOpt amoOk (some (.amoMax f))
  | 3 => guardOpt amoOk (some (.amoMinn f))
  | 4 => guardOpt amoOk (some (.amoMaxn f))
  | 5 => guardOpt amoOk (some (.amoAnd f))
  | 6 => guardOpt amoOk (some (.amoOr f))
  | 7 => guardOpt amoOk (some (.amoXor f))
  | 8 => guardOpt amoOk (some (.amoSwap f))
  | 9 => guardOpt (amoOk && r.val ≤ 62) (some (.amoCas f))
  | 10 => guardOpt (amoOk && aux == 0) (some (.redAdd g))
  | 11 => guardOpt (wid == 2 && aux == 0) (some (.redFadd g))
  | 12 => guardOpt (r.val == 0 && base.val == 0 && wid == 0 && bitsOf w 2 2 == 0 && bitsOf w 0 2 != 0 && x.isNone) (some (.fence sc (bvAt 2 w 0)))
  | 13 => guardOpt (tokOk && scz) (some (.ldblk (tokAt w 15) base (offOpt x) (BitVec.ofNat 6 (16 * wid + aux))))
  | 14 => guardOpt (tokOk && scz && wid == 0 && aux == 0) (some (.blkrel (tokAt w 15) base (offOpt x)))
  | 15 => guardOpt (r.val == 0 && scz && wid == 0) (some (.pref base (offOpt x) (BitVec.ofNat 4 aux)))
  | _ => none

/-- E (R90). -/
def decodeE (w : Nat) (x : Option Nat) : Option Instr :=
  let q : BitVec 3 := bvAt 3 w 20
  let sn := regAt w 14
  let t := tokAt w 9
  let b := bregAt w 5
  let low := bitsOf w 0 5 == 0
  match bitsOf w 23 3 with
  | 0 => guardOpt (low && sn.val ≤ 56) ((consOpt x).map (.push q sn t b))
  | 1 => guardOpt (low && x.isNone && q.toNat == 0 && sn.val == 0 && b.val == 0) (some (.tkclr t))
  | 2 => guardOpt (low && x.isNone && q.toNat == 0 && sn.val == 0) (some (.tkst b t))
  | 3 => guardOpt (low && x.isNone && q.toNat == 0 && sn.val == 0 && b.val == 0) (some (.tksig t))
  | 4 => guardOpt (low && x.isNone && t.val == 0 && b.val == 0) (some (.qst q sn))
  | _ => none

/-- A VA/VB pair (R91, R194). -/
def decodeV (wa wb : Nat) (xa xb : Option Nat) : Option Instr :=
  match casOpOf (bitsOf wa 21 5), casOpOf (bitsOf wb 21 5), casOpOf (bitsOf wb 16 5) with
  | some o1, some o2, some o3 =>
    guardOpt (xa.isNone && xb.isNone && !o1.onlyLast && !o2.onlyLast)
      (some (.vcas { op1 := o1, op2 := o2, op3 := o3, vd := regAt wa 15, va := regAt wa 9, vb := regAt wa 3,
                     vc := regAt wb 10, ve := regAt wb 4, mask := mregAt wa 0, zm := bitOf wb 3, selm := mregAt wb 0 }))
  | _, _, _ => none

/-- VX (R92, R196, R204). -/
def decodeVX (w : Nat) (x : Option Nat) : Option Instr :=
  let d := regAt w 14
  let s1 := regAt w 8
  let s2 := regAt w 2
  let m := bitsOf w 0 2
  let noX := x.isNone
  let m0 := m == 0
  let s1z := s1.val == 0
  let s2z := s2.val == 0
  let md := mregAt w 14
  let mdOk := bitsOf w 17 3 == 0
  let ma := mregAt w 8
  let maOk := bitsOf w 11 3 == 0
  let mb := mregAt w 2
  let mbOk := bitsOf w 5 3 == 0
  match bitsOf w 20 6 with
  | 0 => guardOpt (s2z && m0) ((mskOpt x).map (.vmov d s1))
  | 1 => guardOpt (s2z && m0) ((mskOpt x).map (.vbc d s1))
  | 2 => guardOpt noX
      (match m with
       | 0 => some (.vget d s1 s2)
       | 1 => some (.vgetSx d s1 s2)
       | 2 => some (.vgetS d s1 s2)
       | _ => none)
  | 3 => guardOpt (noX && m0) (some (.vput d s1 s2))
  | 4 => guardOpt s2z
      (match m with
       | 0 => some (.vxcLd d s1 (offOpt x))
       | 1 => some (.vxcSt d s1 (offOpt x))
       | _ => none)
  | 5 => guardOpt noX
      (match m with
       | 0 => some (.vprm d s1 s2)
       | 1 => some (.vprmG16 d s1 s2)
       | _ => none)
  | 6 => guardOpt (noX && m ≤ 1)
      (match bitsOf w 17 3 with
       | 0 => some (.vcmpFeq md s1 s2 (m == 1))
       | 1 => some (.vcmpFne md s1 s2 (m == 1))
       | 2 => some (.vcmpFlt md s1 s2 (m == 1))
       | 3 => some (.vcmpFle md s1 s2 (m == 1))
       | 4 => some (.vcmpIeq md s1 s2 (m == 1))
       | 5 => some (.vcmpIne md s1 s2 (m == 1))
       | 6 => some (.vcmpIlt md s1 s2 (m == 1))
       | _ => some (.vcmpIltn md s1 s2 (m == 1)))
  | 7 => guardOpt (noX && mdOk && maOk && mbOk)
      (match m with
       | 0 => some (.mopAnd md ma mb)
       | 1 => some (.mopOr md ma mb)
       | 2 => some (.mopXor md ma mb)
       | _ => some (.mopAndn md ma mb))
  | 8 => guardOpt (noX && maOk && s2z)
      (match m with
       | 0 => some (.mcnt d ma)
       | 1 => some (.mcntFirst d ma)
       | _ => none)
  | 9 =>
    let k : BitVec 4 := bvAt 4 w 2
    guardOpt (bitsOf w 6 2 == 0 && m0 && 1 ≤ k.toNat && k.toNat ≤ 8) ((mskOpt x).map (.cvt d s1 k))
  | 10 => match x with
    | none => none
    | some e => guardOpt (s2z && m0 && bitsOf e 7 25 == 0 && bitsOf e 4 3 < partCount (bvAt 4 e 0))
        (some (.unpk d s1 (bvAt 4 e 0) (bvAt 3 e 4)))
  | 11 => match x with
    | none => none
    | some e => guardOpt (s2z && m0 && bitsOf e 7 25 == 0 && bitsOf e 4 3 < partCount (bvAt 4 e 0))
        (some (.pack d s1 (bvAt 4 e 0) (bvAt 3 e 4)))
  | 12 => guardOpt m0 ((mskOpt x).map (.rnd d s1 s2))
  | 13 => guardOpt (noX && m0 && mbOk) (some (.dpush s1 mb (bvAt 6 w 14)))
  | 14 => guardOpt (noX && m0 && s2z && d.val ≤ 62) (some (.dpop d s1))
  | 15 => guardOpt (noX && m0 && s1z && s2z) (some (.dcnt d))
  | 16 => guardOpt s2z
      (match m with
       | 0 => (mskOpt x).map (.vtree d s1)
       | 1 => (mskOpt x).map (.vtreeG d s1)
       | 2 => (mskOpt x).map (.vtreeI d s1)
       | _ => (mskOpt x).map (.vtreeGI d s1))
  | 17 => guardOpt s2z
      (match m with
       | 0 => guardOpt s1z ((mskOpt x).map (.viota d))
       | 1 => guardOpt maOk ((mskOpt x).map (.viotaRank d ma))
       | _ => none)
  | 18 => guardOpt (noX && m0 && mdOk && s2z) (some (.vsx md s1))
  | 19 => guardOpt (noX && maOk && s2z)
      (match m with
       | 0 => some (.vsset d ma)
       | 1 => some (.vssetOr d ma)
       | 2 => some (.vssetClr d ma)
       | _ => none)
  | _ => none

/-- X (R93, R218). -/
def decodeX (w : Nat) (x : Option Nat) : Option Instr :=
  let ridx := bitsOf w 15 8
  let ptok := tokAt w 10
  let sr := regAt w 4
  let low := bitsOf w 0 4 == 0
  let ptz := ptok.val == 0
  guardOpt low
    (match bitsOf w 23 3 with
     | 0 => guardOpt (sr.val == 0) ((consOpt x).map (.mcall (bvAt 8 w 15) ptok))
     | 1 => guardOpt (ridx < 8 && ptz && x.isNone) (some (.mpw (mregAt w 15) sr))
     | 2 => guardOpt (ridx ≤ 8 && ptz && x.isNone) (some (if ridx == 8 then .mprMq sr else .mpr sr (mregAt w 15)))
     | 3 => guardOpt (ridx == 0 && sr.val ≤ 62) ((consOpt x).map (.mwr sr ptok))
     | 4 => guardOpt (ridx < 4 && sr.val == 0) ((consOpt x).map (.macz (bitOf w 15) (bitOf w 16) ptok))
     | 5 => guardOpt (sr.val ≤ 62 && rmodeOk (bvAt 3 w 19) && okindOk (bvAt 4 w 15))
              ((consOpt x).map (.mst (bitOf w 22) (bvAt 4 w 15) (bvAt 3 w 19) sr ptok))
     | _ => none)

/-- T (R95). -/
def decodeT (w : Nat) (x : Option Nat) : Option Instr :=
  let vd := regAt w 18
  let vs := regAt w 12
  let m := mregAt w 9
  guardOpt (x.isNone && bitsOf w 0 9 == 0 && vd.val ≤ 60 && vs.val ≤ 60)
    (match bitsOf w 24 2 with
     | 0 => some (.tps32 vd vs m)
     | 1 => some (.tps16 vd vs m)
     | 2 => some (.tps8 vd vs m)
     | _ => none)

/-- F (R96; which fields an operation uses is R310-R313's syntax: `rcv` has no predicate, `snd` its queue flag). -/
def decodeF (w : Nat) (x : Option Nat) : Option Instr :=
  let ch : Handle := Fin.ofNat 256 (bitsOf w 15 8)
  let v := regAt w 9
  let bd := bregAt w 5
  guardOpt (x.isNone && bitsOf w 0 5 == 0)
    (match bitsOf w 23 3 with
     | 0 => some (.snd ch v bd)
     | 1 => guardOpt (bd.val == 0) (some (.rcv v ch))
     | 2 => some (.cst v bd ch)
     | 3 => some (.chq v bd ch)
     | _ => none)

/-- S (R97, R326). -/
def decodeS (w : Nat) (x : Option Nat) : Option Instr :=
  let sd := regAt w 14
  let sa := regAt w 8
  let sb := regAt w 2
  let m := bitsOf w 0 2
  let noX := x.isNone
  let m0 := m == 0
  let sdz := sd.val == 0
  let saz := sa.val == 0
  let sbz := sb.val == 0
  match bitsOf w 20 6 with
  | 0 => match x with
    | none => none
    | some e => guardOpt (saz && sbz && m0 && e ≤ 8) (some (.csrr sd (bvAt 12 e 0)))
  | 1 => match x with
    | none => none
    | some e => guardOpt (sdz && saz && m0 && e ≤ 8) (some (.csrw (bvAt 12 e 0) sb))
  | 2 => guardOpt (noX && sdz)
      (match m with
       | 0 => guardOpt sbz (some (.tlbiAsid sa))
       | 1 => some (.tlbiPage sa sb)
       | 2 => guardOpt (saz && sbz) (some .tlbiAll)
       | _ => none)
  | 3 => guardOpt (noX && m0 && sa.val ≤ 56) (some (.lnch sd sa sb))
  | 4 => guardOpt noX
      (match m with
       | 0 => guardOpt sdz (some (.semw sa sb))
       | 1 => guardOpt (bitsOf w 18 2 == 0) (some (.semwT (bregAt w 14) sa sb))
       | _ => none)
  | 5 => guardOpt noX
      (match m with
       | 0 => some (.semsigAdd sd sa sb)
       | 1 => some (.semsigMax sd sa sb)
       | _ => none)
  | 6 => guardOpt (noX && m0) (some (.semset sd sa sb))
  | 7 => guardOpt (noX && m0 && sdz && sbz) (some (.irq sa))
  | 8 => guardOpt (noX && m0 && saz && sbz) (some (.wfe sd))
  | 9 => guardOpt (noX && m0 && sdz && saz && sbz) (some .eret)
  | 10 => guardOpt (noX && m0) (some (.cxsv sd sa sb))
  | 11 => guardOpt (noX && m0) (some (.cxld sd sa sb))
  | 12 => guardOpt (noX && m0 && sbz && sd.val ≤ 56) (some (.qpop sd sa))
  | 13 => guardOpt (noX && m0 && saz && sbz && sd.val ≤ 56) (some (.fltp sd))
  | 14 => guardOpt noX
      (match m with
       | 0 => some (.fltrReenter sd sa sb)
       | 1 => some (.fltrKill sd sa sb)
       | 2 => some (.fltrResume sd sa sb)
       | _ => guardOpt (saz && sbz) (some (.fltrCmd sd)))
  | 15 => guardOpt (noX && m0 && sbz) (some (.kill sd sa))
  | 16 => guardOpt noX
      (match m with
       | 0 => guardOpt (sa.val ≤ 62) (some (.vprog sd sa sb))
       | 1 => guardOpt saz (some (.vprogStop sd sb))
       | _ => none)
  | 17 => guardOpt (noX && m0 && sbz) (some (.retire sd sa))
  | _ => none

/-! ## Bundles -/

/-- A syllable of a bundle as fetched: its word and its extension. -/
structure Syl where
  w : Nat
  x : Option Nat
deriving DecidableEq, Repr

/-- The class of a syllable (R77). -/
def Syl.cls (s : Syl) : Nat := bitsOf s.w 27 4

/-- A decoded bundle: its length in words, and its instructions with their slots in ascending order (R78, R79). -/
structure Bundle where
  len  : Nat
  syls : List (Nat × Instr)
deriving DecidableEq, Repr

/-- Split the fetched words into syllables: `none` when no E = 1 syllable ends the bundle within them (R77, R80). -/
def splitBundle : List Nat → Option (List Syl)
  | [] => none
  | w :: ws =>
    if bitOf w 26 then
      match ws with
      | [] => none
      | x :: ws' =>
        if bitOf w 31 then some [{ w := w, x := some x }]
        else (splitBundle ws').map ({ w := w, x := some x } :: ·)
    else if bitOf w 31 then some [{ w := w, x := none }]
    else (splitBundle ws).map ({ w := w, x := none } :: ·)

/-- The words a list of syllables occupies. -/
def sylWords (l : List Syl) : Nat :=
  l.foldl (fun n s => n + (if s.x.isSome then 2 else 1)) 0

/-- The number of syllables of a class. -/
def countCls (l : List Syl) (c : Nat) : Nat := (l.filter (fun s => s.cls == c)).length

/-- CLS values stand in non-decreasing order (R80). -/
def clsSorted : List Syl → Bool
  | [] => true
  | [_] => true
  | a :: b :: l => a.cls ≤ b.cls && clsSorted (b :: l)

/-- The exclusive control syllables of R80: `rgn`, `rgnc`, `twait`, `gbar`, `wgt`, `yield`, `trap`, `end`, `brk`. -/
def Syl.exclusive (s : Syl) : Bool :=
  s.cls == 1 && (let op := bitsOf s.w 21 5
    op == 9 || op == 10 || op == 11 || op == 13 || op == 14 || op == 15 || op == 16 || op == 17 || op == 18)

/-- A returning atomic (R80). -/
def Syl.isAmo (s : Syl) : Bool := s.cls == 5 && bitsOf s.w 21 5 ≤ 9

/-- A `rgn` (R80). -/
def Syl.isRgn (s : Syl) : Bool := s.cls == 1 && bitsOf s.w 21 5 == 9

/-- R80: the bundle as a whole; the rule of returning atomics is the core's alone (R321). -/
def bundleOk (cell : Bool) (l : List Syl) : Bool :=
  l.all (fun s => s.cls ≤ 13) && clsSorted l &&
  countCls l 0 ≤ 1 && countCls l 1 ≤ 2 && countCls l 2 + countCls l 3 ≤ 2 && countCls l 4 + countCls l 5 ≤ 2 &&
  countCls l 6 ≤ 1 && countCls l 7 ≤ 1 && countCls l 8 == countCls l 7 && countCls l 9 ≤ 1 && countCls l 10 ≤ 1 &&
  countCls l 11 ≤ 1 && countCls l 12 ≤ 1 && countCls l 13 ≤ 1 &&
  (l.filter Syl.exclusive).length ≤ 1 &&
  (cell || !(l.any Syl.isAmo) || l.any Syl.isRgn)

/-- The slot of a syllable of class `c`, the `n`-th of its shared class pair (R79). -/
def slotOf (c n : Nat) : Nat :=
  match c with
  | 0 => 0
  | 1 => 1 + n
  | 2 | 3 => 3 + n
  | 4 | 5 => 5 + n
  | 6 => 7
  | 7 | 8 => 8
  | c => c

/-- What R81 refuses on the Cellarer, read from the raw fields. -/
def cellRefuses (s : Syl) : Bool :=
  let c := s.cls
  let kop := bitsOf s.w 21 5
  let aop := bitsOf s.w 20 6
  let mop := bitsOf s.w 22 4
  (7 ≤ c && c ≤ 12) ||
  (c == 4 && ((11 ≤ mop && mop ≤ 14) || bitOf s.w 5)) ||
  (c == 1 && (kop == 9 || kop == 10 || kop == 15 || kop == 13 || kop == 8)) ||
  (c == 2 && (aop == 37 || aop == 38) && !cellSr (bitsOf s.w 8 6))

/-- One syllable that is not half of a VA/VB pair. -/
def decodeSyl (s : Syl) : Option Instr :=
  match s.cls with
  | 0 => decodeP s.w s.x
  | 1 => decodeK s.w s.x
  | 2 => decodeA s.w s.x
  | 3 => decodeAI s.w s.x
  | 4 => decodeM s.w s.x
  | 5 => decodeMA s.w s.x
  | 6 => decodeE s.w s.x
  | 9 => decodeVX s.w s.x
  | 10 => decodeX s.w s.x
  | 11 => decodeT s.w s.x
  | 12 => decodeF s.w s.x
  | 13 => decodeS s.w s.x
  | _ => none

/-- The slot number of a syllable given how many of classes K, A/AI and M/MA stand before it. -/
def Syl.slot (s : Syl) (k a m : Nat) : Nat :=
  match s.cls with
  | 1 => slotOf 1 k
  | 2 | 3 => slotOf 2 a
  | 4 | 5 => slotOf 4 m
  | c => slotOf c 0

/-- R81, syllable by syllable in ascending slot; the first failing one decides. -/
def decodeSyls (cell : Bool) (k a m : Nat) : List Syl → Except DecodeErr (List (Nat × Instr))
  | [] => .ok []
  | s :: l =>
    let n := s.slot k a m
    if s.cls == 13 && !cell then .error (.privilege n)
    else if cell && cellRefuses s then .error (.illegalSyllable n)
    else if s.cls == 7 then
      match l with
      | [] => .error .illegalBundle
      | b :: l' =>
        match decodeV s.w b.w s.x b.x with
        | none => .error (.illegalSyllable n)
        | some i => (decodeSyls cell k a m l').map ((n, i) :: ·)
    else
      match decodeSyl s with
      | none => .error (.illegalSyllable n)
      | some i =>
        let c := s.cls
        (decodeSyls cell (if c == 1 then k + 1 else k) (if c == 2 || c == 3 then a + 1 else a)
          (if c == 4 || c == 5 then m + 1 else m) l).map ((n, i) :: ·)

/-- Decode a whole bundle from at most 16 fetched words (R78-R81). -/
def decodeBundle (cell : Bool) (ws : List Nat) : Except DecodeErr Bundle :=
  match splitBundle (ws.take 16) with
  | none => .error .illegalBundle
  | some l =>
    if bundleOk cell l then
      (decodeSyls cell 0 0 0 l).map (fun is => { len := sylWords l, syls := is })
    else .error .illegalBundle

/-! ## Micro-ops (R94, R223) -/

/-- A 64-bit micro-op; `none` where a field holds an unassigned value. -/
def decodeMicro (w : Nat) : Option Instr :=
  let rack : BitVec 3 := bvAt 3 w 57
  let rackOnly := bitsOf w 0 57 == 0
  let z60 := bitsOf w 0 60 == 0
  let plane := bitOf w 59
  let tokOnly := bitsOf w 0 55 == 0
  match bitsOf w 60 4 with
  | 0 => guardOpt z60 (some .moEnd)
  | 1 => guardOpt rackOnly (some (.moPopa rack))
  | 2 => guardOpt rackOnly (some (.moPopb rack))
  | 3 => guardOpt rackOnly (some (.moPeeka rack))
  | 4 => guardOpt (bitsOf w 0 45 == 0 && bitsOf w 45 6 != 0)
          (some (.moMma plane (bvAt 4 w 55) (bvAt 4 w 51) (bvAt 6 w 45)))
  | 5 => guardOpt (bitsOf w 0 55 == 0)
          (match bitsOf w 55 2 with
           | 0 => some (.moSclRow rack)
           | 2 => some (.moSclCol rack)
           | 1 => guardOpt (rack.toNat == 0) (some .moSclClr)
           | _ => none)
  | 6 => guardOpt (bitsOf w 0 58 == 0) (some (.moZero plane (bitOf w 58)))
  | 7 => guardOpt (bitsOf w 0 32 == 0 && okindOk (bvAt 4 w 55) && rmodeOk (bvAt 3 w 52))
          (some (.moDrn plane (bvAt 4 w 55) (bvAt 3 w 52) (bvAt 3 w 49) (bvAt 16 w 33) (bitOf w 32)))
  | 8 => guardOpt (bitsOf w 0 30 == 0) (some (.moLoop (bvAt 12 w 48) (bvAt 2 w 46) (bvAt 16 w 30)))
  | 9 => guardOpt (bitsOf w 32 25 == 0) (some (.moPadd (bvAt 3 w 57) (bvAt 32 w 0)))
  | 10 => guardOpt (bitsOf w 0 46 == 0) (some (.moShr rack (bvAt 8 w 49) (bvAt 3 w 46)))
  | 11 => guardOpt tokOnly (some (.moWait (tokAt w 55)))
  | 12 => guardOpt tokOnly (some (.moTok (tokAt w 55)))
  | 13 => guardOpt (bitsOf w 0 48 == 0 && okindOk (bvAt 4 w 55) && rmodeOk (bvAt 3 w 52))
          (some (.moPushr plane (bvAt 4 w 55) (bvAt 3 w 52) (bvAt 3 w 49) (bitOf w 48)))
  | 14 => guardOpt z60 (some .moNop)
  | _ => guardOpt (bitsOf w 0 44 == 0) (some (.moTrap (bvAt 16 w 44)))

/-! ## Step records (R298, R300) -/

/-- A step, or the fault CAUSE that R300 gives a record that is none: 0 for a reserved code, 1 for a broken field. -/
def stepIf (c : Bool) (i : Instr) : Except Nat Instr := if c then .ok i else .error 1

/-- A 128-bit step record. -/
def decodeStep (w : Nat) : Except Nat Instr :=
  let h : Handle := Fin.ofNat 256 (bitsOf w 8 8)
  let z4 := bitsOf w 4 4 == 0
  let at_ : Word := bvAt 64 w 64
  let atz := bitsOf w 64 64 == 0
  let z (lo : Nat) := bitsOf w lo (64 - lo) == 0
  match bitsOf w 0 4 with
  | 0 => stepIf (z 4 && atz) .vEnd
  | 1 => stepIf (z4 && z 62) (.vMake h (bvAt 9 w 16) (bvAt 9 w 25) (bvAt 8 w 34) (bvAt 10 w 42) (bvAt 10 w 52) at_)
  | 2 => stepIf (z4 && z 16) (.vBreak h at_)
  | 3 => stepIf (z 4) (.vHold at_)
  | 4 => stepIf (z4 && z 25) (.vPark (bvAt 9 w 8) (bvAt 8 w 17) at_)
  | 5 => stepIf (z4 && z 25) (.vUnpark (bvAt 9 w 8) (bvAt 8 w 17) at_)
  | 6 => stepIf (z4 && bitsOf w 27 5 == 0 && z 56 && 1 ≤ bitsOf w 16 11 && bitsOf w 16 11 ≤ 1024)
          (.vWaitq h (bvAt 11 w 16) (bvAt 24 w 32) at_)
  | 7 => stepIf (z4 && z 26 && bitsOf w 24 2 ≤ 2) (.vSignal (bvAt 16 w 8) (bvAt 2 w 24) at_)
  | 8 => stepIf (z4 && z 32 && atz) (.vJump (bvAt 24 w 8))
  | 9 => stepIf (z4 && bitsOf w 10 6 == 0 && z 56 && atz) (.vLoop (bvAt 2 w 8) (bvAt 16 w 16) (bvAt 24 w 32))
  | 10 => stepIf (z 4 && atz) .vGen
  | 11 => stepIf (z4 && bitsOf w 14 2 == 0 && z 32 && atz) (.vAttach (bvAt 6 w 8) (bvAt 16 w 16))
  | _ => .error 0

/-! ## Engine commands (R180-R186) -/

/-- Byte `off` of a command, as a number of `n` bytes, little-endian. -/
def cmdAt (w off n : Nat) : Nat := bitsOf w (8 * off) (8 * n)

/-- A bit-vector field of `n` bytes at byte `off`. -/
def cmdBv (n w off : Nat) : BitVec (8 * n) := BitVec.ofNat (8 * n) (cmdAt w off n)

/-- The header of a command (R180). -/
def cmdHdrOf (w : Nat) : CmdHdr :=
  { na := bitOf w 8, sig := bitOf w 9, ro := bitOf w 10, semref := cmdBv 2 w 2 }

/-- A 512-bit command; `none` where a field rule that its layout states is broken (R188). FLG bit 2 is RACKFILL's own, and no zero
field: other commands ignore it (DEDUCED, log 105). -/
def decodeCmd (w : Nat) : Option Instr :=
  let hdr := cmdHdrOf w
  let z (off n : Nat) := cmdAt w off n == 0
  guardOpt (bitsOf w 11 5 == 0)
    (match cmdAt w 0 1 with
     | 1 => guardOpt (bitsOf w 43 5 == 0 && z 6 2 && z 34 2 && z 60 4 && bitsOf w 32 4 ≤ 12 && bitsOf w 36 4 ≤ 12
               && bitsOf w 40 3 ≤ 5)
         (some (.cmdCopy {
           hdr := hdr, dk := bvAt 4 w 36, sk := bvAt 4 w 32, rm := bvAt 3 w 40, src := cmdBv 8 w 8,
           dst := cmdBv 8 w 16, n0 := cmdBv 4 w 24, n1 := cmdBv 2 w 28, n2 := cmdBv 2 w 30, n3 := cmdBv 2 w 32,
           ss1 := cmdBv 4 w 36, ss2 := cmdBv 4 w 40, ss3 := cmdBv 4 w 44, ds1 := cmdBv 4 w 48, ds2 := cmdBv 4 w 52,
           ds3 := cmdBv 4 w 56 }))
     | 2 => guardOpt (bitsOf w 43 5 == 0 && bitsOf w 50 6 == 0 && z 7 1 && z 30 34 && bitsOf w 32 4 ≤ 8
               && bitsOf w 36 4 ≤ 8 && bitsOf w 40 3 ≤ 5)
         (some (.cmdCopyred {
           hdr := hdr, dk := bvAt 4 w 36, lk := bvAt 4 w 32, rm := bvAt 3 w 40, first := bitOf w 48,
           last := bitOf w 49, loc := cmdBv 8 w 8, dst := cmdBv 8 w 16, n := cmdBv 4 w 24, inch := cmdBv 1 w 28,
           outch := cmdBv 1 w 29 }))
     | 3 => guardOpt (bitsOf w 35 5 == 0 && z 5 3 && z 36 28)
         (some (.cmdRackfill {
           hdr := hdr, rack := bvAt 3 w 32, src := cmdBv 8 w 8, rowb := cmdBv 4 w 16,
           rows := cmdBv 4 w 20, sstr := cmdBv 4 w 24, npan := cmdBv 4 w 28, pstr := cmdBv 4 w 32 }))
     | 4 => guardOpt (z 4 4 && z 32 32)
         (some (.cmdFill {
           hdr := hdr, dst := cmdBv 8 w 8, nbytes := cmdBv 8 w 16, pat := cmdBv 8 w 24 }))
     | 5 => guardOpt (cmdAt w 4 1 ≤ 2 && z 5 3 && z 10 6 && z 24 40)
         (some (.cmdSemsig {
           hdr := hdr, sop := cmdBv 1 w 4, tsem := cmdBv 2 w 8, value := cmdBv 8 w 16 }))
     | 6 => guardOpt (bitsOf w 36 4 == 0 && bitsOf w 44 4 == 0 && z 6 2 && z 16 48)
         (some (.cmdLaunch {
           hdr := hdr, lq := bvAt 4 w 32, ltile := bvAt 4 w 40, pkt := cmdBv 8 w 8 }))
     | 7 => guardOpt (z 4 4 && z 10 6 && z 24 40)
         (some (.cmdWaitsem {
           hdr := hdr, sop := cmdBv 1 w 4, tsem := cmdBv 2 w 8, value := cmdBv 8 w 16 }))
     | _ => none)

/-! ## The encoder -/

/-- A value fits a signed field of `n` bits. -/
def fitsSigned (n : Nat) (i : BitVec 32) : Bool :=
  i.toNat < 2 ^ (n - 1) || 2 ^ 32 - 2 ^ (n - 1) ≤ i.toNat

/-- A syllable with E = 1, its class and its payload. -/
def eSyl (cls pay : Nat) : List Nat := [0x80000000 + cls * 0x8000000 + pay]

/-- A syllable with E = 1 and XT = 1, and its extension. -/
def eSylX (cls pay x : Nat) : List Nat := [0x84000000 + cls * 0x8000000 + pay, x]

/-- A syllable whose extension is given only when it is wanted. -/
def eSylO (cls pay : Nat) (want : Bool) (x : Nat) : List Nat := if want then eSylX cls pay x else eSyl cls pay

/-- A syllable with an `n`-bit short field that the extension replaces when the value does not fit (R85, R109). -/
def eDisp (n cls pay : Nat) (i : BitVec 32) : List Nat :=
  if fitsSigned n i then eSyl cls (pay + i.toNat % 2 ^ n) else eSylX cls pay i.toNat

/-- K with all of its payload given. -/
def eK (op pay : Nat) : List Nat := eSyl 1 (op * 0x200000 + pay)

/-- A (R86). -/
def eA (op sd sa sb m : Nat) : List Nat := eSyl 2 (op * 0x100000 + sd * 0x4000 + sa * 0x100 + sb * 4 + m)

/-- AI (R87). -/
def eAI (op sd sa : Nat) (i : BitVec 32) : List Nat := eDisp 9 3 (op * 0x200000 + sd * 0x8000 + sa * 0x200) i

/-- AI with a count of 0-63. -/
def eAIn (op sd sa : Nat) (n : BitVec 6) : List Nat := eSyl 3 (op * 0x200000 + sd * 0x8000 + sa * 0x200 + n.toNat)

/-- The number of a truth value. -/
def b2n (b : Bool) : Nat := if b then 1 else 0

/-- A scalar load (R88). -/
def eLd (op : Nat) (d : Reg) (f : LdF) : List Nat :=
  eSylO 4 (op * 0x400000 + d.val * 0x10000 + f.base.val * 0x400 + f.trk.toNat * 0x40 + b2n f.sp * 0x20 + b2n f.wt * 0x10
    + f.lat.toNat * 2) (f.off.toNat != 0) f.off.toNat

/-- A scalar store (R88). -/
def eSt (op : Nat) (d : Reg) (f : StF) : List Nat :=
  eSylO 4 (op * 0x400000 + d.val * 0x10000 + f.base.val * 0x400 + f.trk.toNat * 0x40) (f.off.toNat != 0) f.off.toNat

/-- A vector load (R88). -/
def eVld (d : Reg) (f : VLdF) (img : Nat) : List Nat :=
  eSylO 4 (11 * 0x400000 + d.val * 0x10000 + f.base.val * 0x400 + f.trk.toNat * 0x40 + b2n f.sp * 0x20
    + b2n f.wt * 0x10 + f.lat.toNat * 2 + img) (f.kind.toNat != 15 || f.off.toNat != 0)
    (f.kind.toNat * 0x10000000 + f.off.toNat)

/-- A vector store (R88). -/
def eVst (d : Reg) (f : VStF) (img : Nat) : List Nat :=
  eSylO 4 (12 * 0x400000 + d.val * 0x10000 + f.base.val * 0x400 + f.trk.toNat * 0x40 + img)
    (f.kind.toNat != 15 || f.off.toNat != 0) (f.kind.toNat * 0x10000000 + f.off.toNat)

/-- MA (R89), its optional offset. -/
def eMA (op r base wid sc aux : Nat) (off : BitVec 32) : List Nat :=
  eSylO 5 (op * 0x200000 + r * 0x8000 + base * 0x200 + wid * 0x80 + sc * 0x10 + aux) (off.toNat != 0) off.toNat

/-- A returning atomic (R89). -/
def eAmo (op : Nat) (f : AmoF) : List Nat :=
  eMA op f.r.val f.base.val (b2n f.w64) f.scope.code (b2n f.wt * 8 + f.lat.toNat) f.off

/-- The extension of a list of consumed tokens (R90). -/
def eCons : List Tok → Nat
  | [] => 0
  | [a] => 0x40000000 + a.val
  | [a, b] => 0x80000000 + b.val * 0x20 + a.val
  | a :: b :: c :: _ => 0xC0000000 + c.val * 0x400 + b.val * 0x20 + a.val

/-- VX (R92). -/
def eVX (op d s1 s2 m : Nat) : List Nat := eSyl 9 (op * 0x100000 + d * 0x4000 + s1 * 0x100 + s2 * 4 + m)

/-- VX with its optional mask (R196). -/
def eVXm (op d s1 s2 m : Nat) (msk : MReg) : List Nat :=
  eSylO 9 (op * 0x100000 + d * 0x4000 + s1 * 0x100 + s2 * 4 + m) (msk.val != 0) msk.val

/-- X (R93). -/
def eX (op ridx ptok sr : Nat) (cons : List Tok) : List Nat :=
  eSylO 10 (op * 0x800000 + ridx * 0x8000 + ptok * 0x400 + sr * 0x10) (!cons.isEmpty) (eCons cons)

/-- S (R97). -/
def eS (op sd sa sb m : Nat) : List Nat := eSyl 13 (op * 0x100000 + sd * 0x4000 + sa * 0x100 + sb * 4 + m)

/-- T (R95). -/
def eT (op vd vs m : Nat) : List Nat := eSyl 11 (op * 0x1000000 + vd * 0x40000 + vs * 0x1000 + m * 0x200)

/-- F (R96). -/
def eF (op h v b : Nat) : List Nat := eSyl 12 (op * 0x800000 + h * 0x8000 + v * 0x200 + b * 0x20)

/-- E (R90). -/
def eE (op q sn t b : Nat) (cons : List Tok) : List Nat :=
  eSylO 6 (op * 0x800000 + q * 0x100000 + sn * 0x4000 + t * 0x200 + b * 0x20) (!cons.isEmpty) (eCons cons)

/-- A value as `n` words of 32 bits, the least significant first. -/
def words32 : Nat → Nat → List Nat
  | 0, _ => []
  | n + 1, v => v % 0x100000000 :: words32 n (v / 0x100000000)

/-- A micro-op (R94): its code and the bits below it. -/
def eMo (code pay : Nat) : List Nat := words32 2 (code * 2 ^ 60 + pay)

/-- A step record (R298): its code, bits 63:8 and AT. -/
def eStep (code pay at_ : Nat) : List Nat := words32 4 (code + pay + at_ * 2 ^ 64)

/-- The header of a command with its code (R180). -/
def eHdr (op : Nat) (h : CmdHdr) : Nat :=
  op + b2n h.na * 0x100 + b2n h.sig * 0x200 + b2n h.ro * 0x400 + h.semref.toNat * 0x10000

/-- The words of a well-formed instruction: a bundle of that one syllable, a micro-op, a step record or a command;
an event has none. -/
def encode : Instr → List Nat
  | .vMake h s d wm se de at_ =>
      eStep 1 (h.val * 2 ^ 8 + s.toNat * 2 ^ 16 + d.toNat * 2 ^ 25 + wm.toNat * 2 ^ 34 + se.toNat * 2 ^ 42
        + de.toNat * 2 ^ 52) at_.toNat
  | .vBreak h at_ => eStep 2 (h.val * 2 ^ 8) at_.toNat
  | .vHold at_ => eStep 3 0 at_.toNat
  | .vPark p wm at_ => eStep 4 (p.toNat * 2 ^ 8 + wm.toNat * 2 ^ 17) at_.toNat
  | .vUnpark p wm at_ => eStep 5 (p.toNat * 2 ^ 8 + wm.toNat * 2 ^ 17) at_.toNat
  | .vWaitq h th td dl => eStep 6 (h.val * 2 ^ 8 + th.toNat * 2 ^ 16 + td.toNat * 2 ^ 32) dl.toNat
  | .vSignal sem sop v => eStep 7 (sem.toNat * 2 ^ 8 + sop.toNat * 2 ^ 24) v.toNat
  | .vJump d => eStep 8 (d.toNat * 2 ^ 8) 0
  | .vLoop lc n d => eStep 9 (lc.toNat * 2 ^ 8 + n.toNat * 2 ^ 16 + d.toNat * 2 ^ 32) 0
  | .vGen => eStep 10 0 0
  | .vAttach b p => eStep 11 (b.toNat * 2 ^ 8 + p.toNat * 2 ^ 16) 0
  | .vEnd => eStep 0 0 0
  | .cmdCopy f => words32 16 (eHdr 1 f.hdr + f.sk.toNat * 2 ^ 32 + f.dk.toNat * 2 ^ 36 + f.rm.toNat * 2 ^ 40
      + f.src.toNat * 2 ^ 64 + f.dst.toNat * 2 ^ 128 + f.n0.toNat * 2 ^ 192 + f.n1.toNat * 2 ^ 224
      + f.n2.toNat * 2 ^ 240 + f.n3.toNat * 2 ^ 256 + f.ss1.toNat * 2 ^ 288 + f.ss2.toNat * 2 ^ 320
      + f.ss3.toNat * 2 ^ 352 + f.ds1.toNat * 2 ^ 384 + f.ds2.toNat * 2 ^ 416 + f.ds3.toNat * 2 ^ 448)
  | .cmdCopyred f => words32 16 (eHdr 2 f.hdr + f.lk.toNat * 2 ^ 32 + f.dk.toNat * 2 ^ 36 + f.rm.toNat * 2 ^ 40
      + b2n f.first * 2 ^ 48 + b2n f.last * 2 ^ 49 + f.loc.toNat * 2 ^ 64 + f.dst.toNat * 2 ^ 128
      + f.n.toNat * 2 ^ 192 + f.inch.toNat * 2 ^ 224 + f.outch.toNat * 2 ^ 232)
  | .cmdRackfill f => words32 16 (eHdr 3 f.hdr + f.rack.toNat * 2 ^ 32 + f.src.toNat * 2 ^ 64 + f.rowb.toNat * 2 ^ 128
      + f.rows.toNat * 2 ^ 160 + f.sstr.toNat * 2 ^ 192 + f.npan.toNat * 2 ^ 224 + f.pstr.toNat * 2 ^ 256)
  | .cmdFill f => words32 16 (eHdr 4 f.hdr + f.dst.toNat * 2 ^ 64 + f.nbytes.toNat * 2 ^ 128 + f.pat.toNat * 2 ^ 192)
  | .cmdSemsig f => words32 16 (eHdr 5 f.hdr + f.sop.toNat * 2 ^ 32 + f.tsem.toNat * 2 ^ 64 + f.value.toNat * 2 ^ 128)
  | .cmdWaitsem f => words32 16 (eHdr 7 f.hdr + f.tsem.toNat * 2 ^ 64 + f.value.toNat * 2 ^ 128)
  | .cmdLaunch f => words32 16 (eHdr 6 f.hdr + f.lq.toNat * 2 ^ 32 + f.ltile.toNat * 2 ^ 40 + f.pkt.toNat * 2 ^ 64)
  | .scopePrefix sc o na => eSyl 0 (sc.code * 0x800000 + o.toNat * 0x200000 + b2n na * 0x100000)
  | .nop => eK 0 0
  | .br d => eDisp 17 1 (1 * 0x200000) d
  | .brt b d => eDisp 17 1 (2 * 0x200000 + b.val * 0x20000) d
  | .brf b d => eDisp 17 1 (3 * 0x200000 + b.val * 0x20000) d
  | .jmp sa => eK 4 (sa.val * 0x8000)
  | .call d => eDisp 21 1 (5 * 0x200000) d
  | .callr sa => eK 6 (sa.val * 0x8000)
  | .ret => eK 7 0
  | .chk v r d => eDisp 14 1 (8 * 0x200000 + b2n v * 0x100000 + r.val * 0x4000) d
  | .rgn c b => eK 9 (c.toNat * 0x800 + b.toNat * 0x80)
  | .rgnc => eK 10 0
  | .twait (.one t) => eK 11 (t.val * 0x10000)
  | .twait (.mask m) => eSylX 1 (11 * 0x200000) m.toNat
  | .sfr (.reg s) => eK 12 (s.val * 0x8000)
  | .sfr (.imm i) => eSylX 1 (12 * 0x200000) i.toNat
  | .gbar => eK 13 0
  | .wgt sa => eK 14 (sa.val * 0x8000)
  | .yieldCore => eK 15 0
  | .trap c => eK 16 c.toNat
  | .endTask => eK 17 0
  | .brk => eK 18 0
  | .add w d a b => eA 0 d.val a.val b.val w.code
  | .sub w d a b => eA 1 d.val a.val b.val w.code
  | .and w d a b => eA 2 d.val a.val b.val w.code
  | .or w d a b => eA 3 d.val a.val b.val w.code
  | .xor w d a b => eA 4 d.val a.val b.val w.code
  | .andn w d a b => eA 5 d.val a.val b.val w.code
  | .shl w d a b => eA 6 d.val a.val b.val w.code
  | .shr w d a b => eA 7 d.val a.val b.val w.code
  | .sar w d a b => eA 8 d.val a.val b.val w.code
  | .rol w d a b => eA 9 d.val a.val b.val w.code
  | .mul w d a b => eA 10 d.val a.val b.val w.code
  | .mulh w d a b => eA 11 d.val a.val b.val w.code
  | .mulhn w d a b => eA 12 d.val a.val b.val w.code
  | .div w d a b => eA 13 d.val a.val b.val w.code
  | .divn w d a b => eA 14 d.val a.val b.val w.code
  | .rem w d a b => eA 15 d.val a.val b.val w.code
  | .remn w d a b => eA 16 d.val a.val b.val w.code
  | .min w d a b => eA 17 d.val a.val b.val w.code
  | .max w d a b => eA 18 d.val a.val b.val w.code
  | .minn w d a b => eA 19 d.val a.val b.val w.code
  | .maxn w d a b => eA 20 d.val a.val b.val w.code
  | .cmpEq w d a b => eA 21 d.val a.val b.val w.code
  | .cmpNe w d a b => eA 22 d.val a.val b.val w.code
  | .cmpLt w d a b => eA 23 d.val a.val b.val w.code
  | .cmpLtn w d a b => eA 24 d.val a.val b.val w.code
  | .cmpLe w d a b => eA 25 d.val a.val b.val w.code
  | .cmpLen w d a b => eA 26 d.val a.val b.val w.code
  | .sel d a b => eA 27 d.val a.val b.val 0
  | .selNot d a b => eA 27 d.val a.val b.val 1
  | .clz w d a => eA 28 d.val a.val 0 w.code
  | .ctz w d a => eA 29 d.val a.val 0 w.code
  | .pop w d a => eA 30 d.val a.val 0 w.code
  | .bext w d a b => eA 31 d.val a.val b.val w.code
  | .bins w d a b => eA 32 d.val a.val b.val w.code
  | .sxt w d a => eA 33 d.val a.val 0 w.code
  | .zxt w d a => eA 34 d.val a.val 0 w.code
  | .adds k d a b => eA 35 d.val a.val b.val k.toNat
  | .mov d a => eA 36 d.val a.val 0 0
  | .rdsr d i => eA 37 d.val i.val 0 0
  | .wrsr i b => eA 38 0 i.val b.val 0
  | .bopAnd d a b => eA 39 d.val a.val b.val 0
  | .bopOr d a b => eA 39 d.val a.val b.val 1
  | .bopXor d a b => eA 39 d.val a.val b.val 2
  | .bopAndn d a b => eA 39 d.val a.val b.val 3
  | .fadds d a b => eA 40 d.val a.val b.val 0
  | .fsubs d a b => eA 41 d.val a.val b.val 0
  | .fmuls d a b => eA 42 d.val a.val b.val 0
  | .fcvtsF2i d a => eA 43 d.val a.val 0 0
  | .fcvtsI2f d a => eA 43 d.val a.val 0 1
  | .fcvtsBf16 d a => eA 43 d.val a.val 0 2
  | .fcvtsF16 d a => eA 43 d.val a.val 0 3
  | .addi d a i => eAI 0 d.val a.val i
  | .andi d a i => eAI 1 d.val a.val i
  | .ori d a i => eAI 2 d.val a.val i
  | .xori d a i => eAI 3 d.val a.val i
  | .shli d a n => eAIn 4 d.val a.val n
  | .shri d a n => eAIn 5 d.val a.val n
  | .sari d a n => eAIn 6 d.val a.val n
  | .cmpiEq d a i => eAI 7 d.val a.val i
  | .cmpiLt d a i => eAI 8 d.val a.val i
  | .cmpiLtn d a i => eAI 9 d.val a.val i
  | .movi d i => eAI 10 d.val 0 i
  | .movh d a i => eSylX 3 (11 * 0x200000 + d.val * 0x8000 + a.val * 0x200) i.toNat
  | .muli d a i => eAI 12 d.val a.val i
  | .addpc d i => eAI 13 d.val 0 i
  | .ld8 d f => eLd 0 d f
  | .ld8n d f => eLd 1 d f
  | .ld16 d f => eLd 2 d f
  | .ld16n d f => eLd 3 d f
  | .ld32 d f => eLd 4 d f
  | .ld32n d f => eLd 5 d f
  | .ld64 d f => eLd 6 d f
  | .st8 d f => eSt 7 d f
  | .st16 d f => eSt 8 d f
  | .st32 d f => eSt 9 d f
  | .st64 d f => eSt 10 d f
  | .vld d f => eVld d f 0
  | .vldImg d f => eVld d f 1
  | .vst d f => eVst d f 0
  | .vstImg d f => eVst d f 1
  | .vldg d f => eSylX 4 (13 * 0x400000 + d.val * 0x10000 + f.base.val * 0x400 + f.trk.toNat * 0x40 + b2n f.sp * 0x20
      + b2n f.wt * 0x10 + f.lat.toNat * 2) (f.kind.toNat * 0x10000000 + f.vi.val * 0x400000 + f.off.toNat)
  | .vsts d f => eSylX 4 (14 * 0x400000 + d.val * 0x10000 + f.base.val * 0x400 + f.trk.toNat * 0x40)
      (f.kind.toNat * 0x10000000 + f.vi.val * 0x400000 + f.off.toNat)
  | .amoAdd f => eAmo 0 f
  | .amoMin f => eAmo 1 f
  | .amoMax f => eAmo 2 f
  | .amoMinn f => eAmo 3 f
  | .amoMaxn f => eAmo 4 f
  | .amoAnd f => eAmo 5 f
  | .amoOr f => eAmo 6 f
  | .amoXor f => eAmo 7 f
  | .amoSwap f => eAmo 8 f
  | .amoCas f => eAmo 9 f
  | .redAdd f => eMA 10 f.r.val f.base.val (b2n f.w64) f.scope.code 0 f.off
  | .redFadd f => eMA 11 f.r.val f.base.val 2 f.scope.code 0 f.off
  | .fence sc o => eMA 12 0 0 0 sc.code o.toNat 0
  | .ldblk t b off n => eMA 13 t.val b.val (n.toNat / 16) 0 (n.toNat % 16) off
  | .blkrel t b off => eMA 14 t.val b.val 0 0 0 off
  | .pref b off n => eMA 15 0 b.val 0 0 n.toNat off
  | .push q sn t b cons => eE 0 q.toNat sn.val t.val b.val cons
  | .tkclr t => eE 1 0 0 t.val 0 []
  | .tkst b t => eE 2 0 0 t.val b.val []
  | .tksig t => eE 3 0 0 t.val 0 []
  | .qst q sd => eE 4 q.toNat sd.val 0 0 []
  | .vcas f => [0x38000000 + f.op1.code * 0x200000 + f.vd.val * 0x8000 + f.va.val * 0x200 + f.vb.val * 8 + f.mask.val,
      0xC0000000 + f.op2.code * 0x200000 + f.op3.code * 0x10000 + f.vc.val * 0x400 + f.ve.val * 0x10
        + b2n f.zm * 8 + f.selm.val]
  | .vmov d s m => eVXm 0 d.val s.val 0 0 m
  | .vbc d s m => eVXm 1 d.val s.val 0 0 m
  | .vget d v i => eVX 2 d.val v.val i.val 0
  | .vgetSx d v i => eVX 2 d.val v.val i.val 1
  | .vgetS d v i => eVX 2 d.val v.val i.val 2
  | .vput d s i => eVX 3 d.val s.val i.val 0
  | .vxcLd d a off => eSylO 9 (4 * 0x100000 + d.val * 0x4000 + a.val * 0x100) (off.toNat != 0) off.toNat
  | .vxcSt d a off => eSylO 9 (4 * 0x100000 + d.val * 0x4000 + a.val * 0x100 + 1) (off.toNat != 0) off.toNat
  | .vprm d s i => eVX 5 d.val s.val i.val 0
  | .vprmG16 d s i => eVX 5 d.val s.val i.val 1
  | .vcmpFeq m x y l => eVX 6 (0 * 8 + m.val) x.val y.val (b2n l)
  | .vcmpFne m x y l => eVX 6 (1 * 8 + m.val) x.val y.val (b2n l)
  | .vcmpFlt m x y l => eVX 6 (2 * 8 + m.val) x.val y.val (b2n l)
  | .vcmpFle m x y l => eVX 6 (3 * 8 + m.val) x.val y.val (b2n l)
  | .vcmpIeq m x y l => eVX 6 (4 * 8 + m.val) x.val y.val (b2n l)
  | .vcmpIne m x y l => eVX 6 (5 * 8 + m.val) x.val y.val (b2n l)
  | .vcmpIlt m x y l => eVX 6 (6 * 8 + m.val) x.val y.val (b2n l)
  | .vcmpIltn m x y l => eVX 6 (7 * 8 + m.val) x.val y.val (b2n l)
  | .mopAnd d a b => eVX 7 d.val a.val b.val 0
  | .mopOr d a b => eVX 7 d.val a.val b.val 1
  | .mopXor d a b => eVX 7 d.val a.val b.val 2
  | .mopAndn d a b => eVX 7 d.val a.val b.val 3
  | .mcnt d a => eVX 8 d.val a.val 0 0
  | .mcntFirst d a => eVX 8 d.val a.val 0 1
  | .cvt d s k m => eVXm 9 d.val s.val k.toNat 0 m
  | .unpk d s k p => eSylX 9 (10 * 0x100000 + d.val * 0x4000 + s.val * 0x100) (p.toNat * 16 + k.toNat)
  | .pack d s k p => eSylX 9 (11 * 0x100000 + d.val * 0x4000 + s.val * 0x100) (p.toNat * 16 + k.toNat)
  | .rnd d k b m => eVXm 12 d.val k.val b.val 0 m
  | .dpush s m t => eVX 13 t.toNat s.val m.val 0
  | .dpop d l => eVX 14 d.val l.val 0 0
  | .dcnt d => eVX 15 d.val 0 0 0
  | .vtree d s m => eVXm 16 d.val s.val 0 0 m
  | .vtreeG d s m => eVXm 16 d.val s.val 0 1 m
  | .vtreeI d s m => eVXm 16 d.val s.val 0 2 m
  | .vtreeGI d s m => eVXm 16 d.val s.val 0 3 m
  | .viota d m => eVXm 17 d.val 0 0 0 m
  | .viotaRank d a m => eVXm 17 d.val a.val 0 1 m
  | .vsx d s => eVX 18 d.val s.val 0 0
  | .vsset d a => eVX 19 d.val a.val 0 0
  | .vssetOr d a => eVX 19 d.val a.val 0 1
  | .vssetClr d a => eVX 19 d.val a.val 0 2
  | .mcall i t c => eX 0 i.toNat t.val 0 c
  | .mpw n s => eX 1 n.val 0 s.val []
  | .mpr d n => eX 2 n.val 0 d.val []
  | .mprMq d => eX 2 8 0 d.val []
  | .mwr s t c => eX 3 0 t.val s.val c
  | .macz p i t c => eX 4 (b2n p + 2 * b2n i) t.val 0 c
  | .mst p k r s t c => eX 5 (b2n p * 128 + r.toNat * 16 + k.toNat) t.val s.val c
  | .tps32 d s m => eT 0 d.val s.val m.val
  | .tps16 d s m => eT 1 d.val s.val m.val
  | .tps8 d s m => eT 2 d.val s.val m.val
  | .snd h v b => eF 0 h.val v.val b.val
  | .rcv v h => eF 1 h.val v.val 0
  | .cst d b h => eF 2 h.val d.val b.val
  | .chq d b h => eF 3 h.val d.val b.val
  | .csrr d i => eSylX 13 (d.val * 0x4000) i.toNat
  | .csrw i b => eSylX 13 (0x100000 + b.val * 4) i.toNat
  | .tlbiAsid a => eS 2 0 a.val 0 0
  | .tlbiPage a b => eS 2 0 a.val b.val 1
  | .tlbiAll => eS 2 0 0 0 2
  | .lnch d a b => eS 3 d.val a.val b.val 0
  | .semw a b => eS 4 0 a.val b.val 0
  | .semwT d a b => eS 4 d.val a.val b.val 1
  | .semsigAdd d a b => eS 5 d.val a.val b.val 0
  | .semsigMax d a b => eS 5 d.val a.val b.val 1
  | .semset d a b => eS 6 d.val a.val b.val 0
  | .irq a => eS 7 0 a.val 0 0
  | .wfe d => eS 8 d.val 0 0 0
  | .eret => eS 9 0 0 0 0
  | .cxsv d a b => eS 10 d.val a.val b.val 0
  | .cxld d a b => eS 11 d.val a.val b.val 0
  | .qpop d a => eS 12 d.val a.val 0 0
  | .fltp d => eS 13 d.val 0 0 0
  | .fltrReenter d a b => eS 14 d.val a.val b.val 0
  | .fltrKill d a b => eS 14 d.val a.val b.val 1
  | .fltrResume d a b => eS 14 d.val a.val b.val 2
  | .fltrCmd d => eS 14 d.val 0 0 3
  | .kill d a => eS 15 d.val a.val 0 0
  | .vprog d a b => eS 16 d.val a.val b.val 0
  | .vprogStop d b => eS 16 d.val 0 b.val 1
  | .retire d a => eS 17 d.val a.val 0 0
  | .moEnd => eMo 0 0
  | .moPopa r => eMo 1 (r.toNat * 2 ^ 57)
  | .moPopb r => eMo 2 (r.toNat * 2 ^ 57)
  | .moPeeka r => eMo 3 (r.toNat * 2 ^ 57)
  | .moMma p ka kb ng => eMo 4 (b2n p * 2 ^ 59 + ka.toNat * 2 ^ 55 + kb.toNat * 2 ^ 51 + ng.toNat * 2 ^ 45)
  | .moSclRow r => eMo 5 (r.toNat * 2 ^ 57)
  | .moSclCol r => eMo 5 (r.toNat * 2 ^ 57 + 2 ^ 56)
  | .moSclClr => eMo 5 (2 ^ 55)
  | .moZero p i => eMo 6 (b2n p * 2 ^ 59 + b2n i * 2 ^ 58)
  | .moDrn p k r d s c => eMo 7 (b2n p * 2 ^ 59 + k.toNat * 2 ^ 55 + r.toNat * 2 ^ 52 + d.toNat * 2 ^ 49
      + s.toNat * 2 ^ 33 + b2n c * 2 ^ 32)
  | .moLoop t l n => eMo 8 (t.toNat * 2 ^ 48 + l.toNat * 2 ^ 46 + n.toNat * 2 ^ 30)
  | .moPadd d i => eMo 9 (d.toNat * 2 ^ 57 + i.toNat)
  | .moShr r c d => eMo 10 (r.toNat * 2 ^ 57 + c.toNat * 2 ^ 49 + d.toNat * 2 ^ 46)
  | .moWait t => eMo 11 (t.val * 2 ^ 55)
  | .moTok t => eMo 12 (t.val * 2 ^ 55)
  | .moPushr p k r k2 c => eMo 13 (b2n p * 2 ^ 59 + k.toNat * 2 ^ 55 + r.toNat * 2 ^ 52 + k2.toNat * 2 ^ 49
      + b2n c * 2 ^ 48)
  | .moNop => eMo 14 0
  | .moTrap c => eMo 15 (c.toNat * 2 ^ 44)
  | _ => []

/-- The value of words given least significant first. -/
def unwords32 : List Nat → Nat
  | [] => 0
  | w :: l => w + 0x100000000 * unwords32 l

/-- A bundle of one syllable is that syllable. -/
def soleInstr (r : Except DecodeErr Bundle) : Option Instr :=
  match r with
  | .ok { len := _, syls := [(_, i)] } => some i
  | _ => none

/-- What the machine reads from the bits of one instruction: up to 64 bits as a bundle of one syllable, of a core or
else of a Cellarer; else a micro-op; from 65 to 128 bits a step record; above, an engine command. -/
def decodeTableWord (nbits w : Nat) : Option Instr :=
  if nbits ≤ 64 then
    -- the words above `nbits` are zero; E may stand on the syllable or not in the table's bits
    match soleInstr (decodeBundle false (words32 2 w)) with
    | some i => some i
    | none =>
      match soleInstr (decodeBundle true (words32 2 w)) with
      | some i => some i
      | none => decodeMicro w
  else if nbits ≤ 128 then
    match decodeStep w with
    | .ok i => some i
    | .error _ => none
  else decodeCmd w

end Sys2Proof
end

