-- ==== Sys2Proof/Machine/Mem.lean ====
section
/-! DEFINITION. Machine/Mem.lean: the accessors of nested state, the byte memory in its canonical form, the device
registers as they read, physical addresses, and translation (R152, R237, R239, R276-R281, R347, R348). -/

namespace Sys2Proof.Machine

/-! ## Accessors -/

def State.core (s : State) (c : CoreId) : Core := mapGet {} s.cores c.val
def State.setCore (s : State) (c : CoreId) (x : Core) : State := { s with cores := mapSet s.cores c.val x }
def State.updCore (s : State) (c : CoreId) (f : Core → Core) : State := s.setCore c (f (s.core c))
def State.tile (s : State) (t : TileId) : Tile := mapGet {} s.tiles t.val
def State.setTile (s : State) (t : TileId) (x : Tile) : State := { s with tiles := mapSet s.tiles t.val x }
def State.updTile (s : State) (t : TileId) (f : Tile → Tile) : State := s.setTile t (f (s.tile t))
def Core.ctx (c : Core) (k : CtxId) : Ctx := c.ctxs.getD k.val {}
def Core.setCtx (c : Core) (k : CtxId) (x : Ctx) : Core := { c with ctxs := listSet c.ctxs k.val x }
def State.ctx (s : State) (c : CoreId) (k : CtxId) : Ctx := (s.core c).ctx k
def State.setCtx (s : State) (c : CoreId) (k : CtxId) (x : Ctx) : State := s.updCore c (·.setCtx k x)
def State.updCtx (s : State) (c : CoreId) (k : CtxId) (f : Ctx → Ctx) : State := s.setCtx c k (f (s.ctx c k))
def State.cell (s : State) (t : TileId) : Cell := (s.tile t).cell
def State.setCell (s : State) (t : TileId) (x : Cell) : State := s.updTile t ({ · with cell := x })
def State.updCell (s : State) (t : TileId) (f : Cell → Cell) : State := s.setCell t (f (s.cell t))
def State.hnd (s : State) (h : Handle) : Hnd := mapGet {} s.handles h.val
def State.setHnd (s : State) (h : Handle) (x : Hnd) : State := { s with handles := mapSet s.handles h.val x }
def State.updHnd (s : State) (h : Handle) (f : Hnd → Hnd) : State := s.setHnd h (f (s.hnd h))
def State.slot (s : State) (n : SlotId) : Slot := mapGet {} s.slots n.val
def State.setSlot (s : State) (n : SlotId) (x : Slot) : State := { s with slots := mapSet s.slots n.val x }
def State.updSlot (s : State) (n : SlotId) (f : Slot → Slot) : State := s.setSlot n (f (s.slot n))
def State.fn (s : State) (n : Nat) : Fn := mapGet {} s.fns n
def State.setFn (s : State) (n : Nat) (x : Fn) : State := { s with fns := mapSet s.fns n x }
def State.updFn (s : State) (n : Nat) (f : Fn → Fn) : State := s.setFn n (f (s.fn n))
def State.port (s : State) (p : Nat) : Port := mapGet {} s.ports p
def State.setPort (s : State) (p : Nat) (x : Port) : State := { s with ports := mapSet s.ports p x }
/-- The order log of replay gains an entry, when replay is configured; a full log drops events from now on (R359). -/
def Replay.logged (r : Replay) (kind id gt : Nat) : Replay :=
  if r.ms = 0 || r.gapFrom.isSome then r
  else if Config.logCap r.len ≤ r.log.length then { r with gapFrom := some gt }
  else { r with log := r.log ++ [{ kind := kind, id := id, gt := gt }] }

def State.logEv (s : State) (kind id : Nat) : State := { s with replay := s.replay.logged kind id s.gt }
/-- The next identifier. -/
def State.bump (s : State) : State := { s with fresh := s.fresh + 1 }

/-- The tile of a core (R10). -/
def tileOf (c : CoreId) : TileId := Fin.ofNat 16 (c.val / 32)
/-- The cluster index of a core within its tile (R10). -/
def clusterOf (c : CoreId) : Nat := c.val / 8 % 4
/-- Core `n` of the cluster of a core. -/
def peerOf (c : CoreId) (n : Nat) : CoreId := Fin.ofNat 512 (c.val / 8 * 8 + n % 8)
/-- The reticle of a tile (R8). -/
def reticleOf (t : TileId) : Nat := t.val / 4

/-- The key slot of a tile (R347): slot 0 is always valid. -/
def Tile.key (t : Tile) (k : Nat) : KeySlot := mapGet { valid := k == 0 } t.keys k

/-! ## Bytes -/

/-- A byte of memory: one that nothing has written reads 0 (log 4). -/
def memGet (m : List Host.Cell) (k : Nat) : Byte := mapGet 0 m k

/-- Write a byte, keeping the canonical form: rising keys, no entry equal to what an unlisted key reads as. -/
def memSet (m : List Host.Cell) (k : Nat) (b : Byte) : List Host.Cell := if b = 0 then mapDel m k else mapSet m k b

/-- Write consecutive bytes. -/
def memPut (m : List Host.Cell) (k : Nat) : List Byte → List Host.Cell
  | [] => m
  | b :: l => memPut (memSet m k b) (k + 1) l

/-- The keys of a memory rise, above a bound, and no byte is 0. -/
def memWfFrom (lo : Nat) : List Host.Cell → Bool
  | [] => true
  | (k, b) :: l => lo ≤ k && b != 0 && memWfFrom (k + 1) l

/-- The canonical form of a memory. -/
def memWf (m : List Host.Cell) : Bool := memWfFrom 0 m

/-- The key of byte `a` of a core's Loop (R239). -/
def loopKey (c : CoreId) (a : Nat) : Nat := 2 ^ 52 + c.val * 2 ^ 21 + a % 2 ^ 21

/-- Keys from 2^52 on are Loop bytes; below, physical addresses (R237). -/
def isLoopKey (k : Nat) : Bool := 2 ^ 52 ≤ k

/-- What a physical address selects (R237). -/
inductive PaSel where
  | hbm (t : TileId) (off : Nat)
  | scratch (t : TileId) (off : Nat)
  | dev (block : Nat) (off : Nat)
  | unassigned
deriving DecidableEq, Repr

/-- The physical map (R237), whatever the size of scratch. -/
def paSel (pa : Nat) : PaSel :=
  let top := pa / 2 ^ 48 % 16
  if 2 ^ 52 ≤ pa then .unassigned
  else if top = 0 && pa / 2 ^ 40 % 256 = 0 then .hbm (Fin.ofNat 16 (pa / 2 ^ 36 % 16)) (pa % 2 ^ 36)
  else if top = 8 && pa / 2 ^ 30 % 2 ^ 18 = 0 then .scratch (Fin.ofNat 16 (pa / 2 ^ 26 % 16)) (pa % 2 ^ 26)
  else if top = 15 && pa / 2 ^ 25 % 2 ^ 23 = 0 then
    let b := pa / 2 ^ 20 % 32
    if b = 0 || 16 ≤ b then .dev b (pa % 2 ^ 20) else .unassigned
  else .unassigned

/-- The home tile of a physical address (R237). -/
def homeOf (pa : Nat) : TileId :=
  match paSel pa with
  | .hbm t _ => t
  | .scratch t _ => t
  | .dev b _ => if b = 0 then 0 else Fin.ofNat 16 b
  | .unassigned => 0

/-- The tile of a register block 16 + t. -/
def blockTile (b : Nat) : TileId := Fin.ofNat 16 b

/-- FNCAP (R341): version 1 of each format. -/
def fncap : Word := 0x0001000100010001

/-- Bit v - 1 of a field of FNCAP says that version v is supported (R341). -/
def fmtIn (cap : Word) (lo v : Nat) : Bool := 1 ≤ v && v ≤ 16 && cap.getLsbD (lo + v - 1)

/-- DEVREC (R6). -/
def State.devrec (s : State) : Word :=
  BitVec.ofNat 64 (s.feats.toNat * 2 ^ 32 + 0x01001000 + s.form)

/-- An SCT entry as it reads (R4, R13-R15, R21): bits 62:48 are reserved, and POD reads VALID = 0 without the pod. -/
def State.sctAt (s : State) (n : Nat) : Word :=
  let w := s.sct.getD n 0 &&& 0x8000FFFFFFFFFFFF
  if n = 7 && (!s.podRef || !s.feats.getLsbD 2) then w &&& BitVec.ofNat 64 (2 ^ 63 - 1) else w

/-- The scope at which an operation acts: POD acts as PACKAGE where SCT7 is not valid (R13, R21). -/
def State.scopeEff (s : State) (sc : Scope) : Scope :=
  match sc with
  | .pod => if (s.sctAt 7).getLsbD 63 then .pod else .package
  | sc => sc

/-- A CSTAT value (R324). -/
def cstatOf (t : TileId) (c : Cell) : Word :=
  BitVec.ofNat 64 (t.val * 16 + (if c.faulted then 4 else 0) + (if c.eie then 2 else 0) + (if c.run then 1 else 0))

/-- VSTAT (R296). -/
def Slot.vstat (v : Slot) : Word :=
  BitVec.ofNat 64 (v.asid % 65536 * 2 ^ 48 + v.hbase % 256 * 2 ^ 40 + v.hlast % 256 * 2 ^ 32 + v.g % 16 * 2 ^ 28
    + min v.late 255 * 2 ^ 20 + v.step % 2 ^ 17 * 8 + v.st % 8)

/-- LQSTAT (R330). -/
def LQ.stat (q : LQ) : Word :=
  BitVec.ofNat 64 (min q.drop 65535 * 2 ^ 48 + q.head % 65536 * 2 ^ 16 + q.tail % 65536)

/-- KSTAT (R347). -/
def KeySlot.stat (k : KeySlot) : Word :=
  BitVec.ofNat 64 ((if k.valid then 2 ^ 63 else 0) + k.encid.toNat * 2 ^ 32 + k.part % 256 * 2 ^ 24)

/-- The register code of a destination (R285). -/
def Dst.code : Dst → Nat
  | .s r => r.val
  | .b r => 0x100 + r.val
  | .v r => 0x200 + r.val
  | .m r => 0x300 + r.val
  | .void => 0

/-- A pending-write table entry (R356): data that came from memory, or that the replay store holds, is in hand, the result of a
unit at work is not (log 64). -/
def pendWord (c : Core) (x : Ctx) (p : Pend) : Word :=
  let inHand := match p.src with
    | .wait r _ => x.reqs.any (fun q => q.id == r && q.arr.isSome)
    | _ => p.rep
  BitVec.ofNat 64 (p.dst.code * 2 ^ 48 + p.slot % 16 * 2 ^ 44 + (if inHand then 2 ^ 43 else 0)
    + (if p.strad.isSome then 2 ^ 42 else 0) + (p.ic - c.ic) % 2 ^ 32)

/-- A core by tile and its number in the tile. -/
def coreAt (t : TileId) (n : Nat) : CoreId := Fin.ofNat 512 (t.val * 32 + n % 32)

/-- DBGCTL (R355). -/
def dbgctlOf (s : State) (t : TileId) (n : Nat) : Word :=
  let c := s.core (coreAt t n)
  BitVec.ofNat 64 ((s.tile t).dbg % 4 * 16 + c.dbgctl.toNat % 16 / 4 * 4 + (if c.halted then 2 else 0) + c.dbgctl.toNat % 2)

/-- DBGPWD: the selected entry of the running context's table, 0 beyond the last (R356). -/
def dbgpwdOf (s : State) (t : TileId) (n : Nat) : Word :=
  let c := s.core (coreAt t n)
  match c.run with
  | none => 0
  | some k =>
    let x := c.ctx k
    match x.hart.pend[c.dbgpwi.toNat]? with
    | none => 0
    | some p => pendWord c x p

/-- The 8-byte register at an aligned offset of a tile's block, as it reads (R244, R270, R287, R324, R330, R334, R347,
R355-R360); an offset that no map lists reads 0 (R237). -/
def tileReg (s : State) (t : TileId) (off : Nat) : Word :=
  let x := s.tile t
  let n (b w : Nat) := (off - b) / w
  if off = 0x0000 then BitVec.ofNat 64 (x.scrw * 2 ^ 32 + x.ewm.toNat * 2 ^ 16)
  else if off = 0x0010 then BitVec.ofNat 64 (x.cethr.toNat * 2 ^ 16 + (if x.pren then 1 else 0))
  else if off = 0x0018 then
    BitVec.ofNat 64 ((if x.ovr then 2 ^ 56 else 0) + x.factor % 256 * 2 ^ 48 + x.temp % 256 * 2 ^ 40 + min x.cecount (2 ^ 32 - 1))
  else if off = 0x0020 then BitVec.ofNat 64 x.frlost
  else if off = 0x0028 then BitVec.ofNat 64 (x.pwrReq % 16 * 16 + x.pwrSt % 16)
  else if off = 0x0030 then x.trccfg
  else if off = 0x0038 then BitVec.ofNat 64 x.trclost
  else if off = 0x0040 then cstatOf t x.cell
  else if off = 0x0048 then BitVec.ofNat 64 x.cell.cpc
  else if off = 0x0050 then BitVec.ofNat 64 x.cell.evtpend.toNat
  else if off = 0x0058 then x.cell.evtmask
  else if off = 0x0060 then x.cell.evec
  else if off = 0x0068 then x.cell.epc
  else if off = 0x0070 then BitVec.ofNat 64 x.cell.casid.toNat
  else if off = 0x0078 then x.cell.evttime
  else if off = 0x0080 then BitVec.ofNat 64 s.pkgid.toNat
  else if 0x0100 ≤ off && off < 0x0180 then (mapGet {} x.lq (n 0x100 8) : LQ).stat
  else if 0x1000 ≤ off && off < 0x1800 then mapGet 0 x.frt (n 0x1000 8)
  else if 0x2000 ≤ off && off < 0x2100 then dbgctlOf s t (n 0x2000 8)
  else if 0x2400 ≤ off && off < 0x2600 then
    if off % 16 = 0 then (s.core (coreAt t (n 0x2400 16))).dbgpwi else dbgpwdOf s t (n 0x2400 16)
  else if 0x2800 ≤ off && off < 0x2C00 then mapGet 0 (s.core (coreAt t (n 0x2800 32))).dbgbp ((off - 0x2800) % 32 / 8)
  else if 0x3000 ≤ off && off < 0x3800 then (x.key (n 0x3000 8)).stat
  else if 0x10000 ≤ off && off < 0x18000 then mapGet 0 x.sem (n 0x10000 8)
  else 0

/-- The 8-byte register at an aligned offset of the package information block, as a task reads it (R14, R276, R296,
R343). -/
def pkgReg (s : State) (off : Nat) : Word :=
  if off = 0x0080 then s.asidtab
  else if 0x0100 ≤ off && off < 0x0140 then s.sctAt ((off - 0x100) / 8)
  else if 0x0200 ≤ off && off < 0x0240 then (s.slot (Fin.ofNat 8 ((off - 0x200) / 8))).vstat
  else 0

/-- A device register as it reads. -/
def devReg (s : State) (block off : Nat) : Word :=
  if block = 0 then pkgReg s off else tileReg s (blockTile block) off

/-- A byte at a key, read under a key slot: a Loop byte, a device register's byte, or a byte of a line, which reads as
a free value when its line was written under another key of the slot (R347). -/
def State.byteAt (s : State) (ks : Nat) (key : Nat) : Byte :=
  if isLoopKey key then memGet s.mem key
  else
    match paSel key with
    | .dev b off => (devReg s b (off / 8 * 8)).extractLsb' (off % 8 * 8) 8
    | .hbm t _ =>
      if ((s.tile t).key ks).epoch = mapGet 0 s.epochs (key / 64) then memGet s.mem key else Config.freeByte key s.fresh
    | _ => memGet s.mem key

/-- Consecutive bytes from a key. -/
def State.bytesAt (s : State) (ks key : Nat) : Nat → List Byte
  | 0 => []
  | n + 1 => s.byteAt ks key :: s.bytesAt ks (key + 1) n

/-- The bytes of a list of pieces. -/
def State.segBytes (s : State) (l : List Seg) : List Byte := l.flatMap (fun g => s.bytesAt g.ks g.key g.len)

/-- Write bytes of HBM, scratch or a Loop, not of a device: a line written whole takes the tag and the key of its slot
(R348). -/
def State.putRaw (s : State) (key : Nat) (bs : List Byte) : State := { s with mem := memPut s.mem key bs }

/-- Tag the whole lines of a piece (R347, R348). -/
def tagLines (ks epoch : Nat) (tags epochs : NMap Nat) (line : Nat) : Nat → NMap Nat × NMap Nat
  | 0 => (tags, epochs)
  | n + 1 =>
    tagLines ks epoch (if mapGet 0 tags line = ks then tags else mapSet tags line ks)
      (if mapGet 0 epochs line = epoch then epochs else mapSet epochs line epoch) (line + 1) n

/-- The first whole line of a piece, and how many whole lines it has. -/
def wholeLines (key len : Nat) : Nat × Nat :=
  let a := (key + 63) / 64
  (a, (key + len) / 64 - a)

/-- A copy of a tile that covers a line gets the bytes written to it, and from a whole line its tag too (R247, R348). -/
def copyPut (ks key : Nat) (bs : List Byte) (c : Copy) : Copy :=
  let new := tabulate 64 (fun i =>
    let k := c.key * 64 + i
    if key ≤ k && k < key + bs.length then bs.getD (k - key) 0 else c.bs.getD i 0)
  { c with bs := new, tag := if key ≤ c.key * 64 && c.key * 64 + 64 ≤ key + bs.length then ks else c.tag }

/-- The global lines of a write join those of the checkpoint interval, when replay is configured (R359). -/
def State.noteLines (s : State) (key len : Nat) : State :=
  if s.replay.ms = 0 then s
  else
    let ls := (fromTo (key / 64) ((key + len + 63) / 64 - key / 64)).filter (fun l => !(s.replay.lines.contains l))
    { s with replay := { s.replay with lines := s.replay.lines ++ ls } }

/-- A line of HBM last written under another key of its slot is about to be written in part: what the controller reads of it
becomes its bytes, under the slot's present key (R347). -/
def State.rekey (s : State) (ks line : Nat) : State :=
  match paSel (line * 64) with
  | .hbm t _ =>
    let ep := ((s.tile t).key ks).epoch
    if ep = mapGet 0 s.epochs line then s
    else { s.putRaw (line * 64) (s.bytesAt ks (line * 64) 64) with epochs := mapSet s.epochs line ep, fresh := s.fresh + 1 }
  | _ => s

/-- The units that a write replaces whole are no longer marked bad (R283). -/
def State.clearBad (s : State) (key len : Nat) : State :=
  let (l, n) := wholeLines key len
  { s with bad := if s.bad.isEmpty then [] else s.bad.filter (fun b => b < l || l + n ≤ b) }

/-- Write memory bytes at a home and in the copy of the writer's tile, if it holds one (R247, R348); a whole line clears its
bad mark (R283). -/
def State.putBytes (s : State) (t : TileId) (ks key : Nat) (bs : List Byte) : State :=
  if isLoopKey key then (s.putRaw key bs).clearBad key bs.length
  else
    let (l, n) := wholeLines key bs.length
    let s0 := if bs.isEmpty then s else
      let head := key / 64
      let last := (key + bs.length - 1) / 64
      let sa := if key % 64 != 0 || bs.length < 64 then s.rekey ks head else s
      if (key + bs.length) % 64 != 0 && last != head then sa.rekey ks last else sa
    let s1 := s0.putRaw key bs
    let ep := ((s.tile (homeOf key)).key ks).epoch
    let (tg, eps) := if n = 0 then (s1.tags, s1.epochs) else tagLines ks ep s1.tags s1.epochs l n
    let s2 := ({ s1 with tags := tg, epochs := eps }.clearBad key bs.length).noteLines key bs.length
    let hit (c : Copy) := c.key * 64 < key + bs.length && key < c.key * 64 + 64
    if (s2.tile t).copies.any hit then s2.updTile t (fun x => { x with copies := mapWhere hit (copyPut ks key bs) x.copies })
    else s2

/-! ## Access rights -/

/-- What an access does (R279). -/
inductive Acc where
  | fetch | read | write | rw
deriving DecidableEq, Repr

/-- A translation or access fault: its code, CAUSE, DETAIL and address (R269, R279). -/
structure XF where
  code   : Nat
  cause  : Nat
  detail : Word := 0
  addr   : Nat := 0
deriving DecidableEq, Repr

def Acc.reads : Acc → Bool
  | .read | .rw => true
  | _ => false

def Acc.writes : Acc → Bool
  | .write | .rw => true
  | _ => false

/-- The tags of the lines of a piece all are the slot's. -/
def tagsAre (tag : Nat → Nat) (ks line : Nat) : Nat → Bool
  | 0 => true
  | n + 1 => tag line = ks && tagsAre tag ks (line + 1) n

/-- The tag of a line as an agent of a tile reads it: that of the tile's copy of a line homed elsewhere, if it holds one, else the
line's (R348). -/
def lineTag (s : State) (via : Option TileId) (line : Nat) : Nat :=
  match via with
  | none => mapGet 0 s.tags line
  | some t =>
    if homeOf (line * 64) = t then mapGet 0 s.tags line
    else match (s.tile t).copies.find? (fun c => c.key == line) with
      | some c => c.tag
      | none => mapGet 0 s.tags line

/-- The key-slot rule of R348 on a piece: the slot is valid; a line that is read, or written in part, carries its tag. -/
def tagOk (s : State) (via : Option TileId) (t : TileId) (ks key len : Nat) (acc : Acc) : Bool :=
  let first := key / 64
  let n := (key + len + 63) / 64 - first
  let whole (l : Nat) : Bool := key ≤ l * 64 && l * 64 + 64 ≤ key + len
  ((s.tile t).key ks).valid &&
    (if acc = .rw then tagsAre (lineTag s none) ks first n
     else if acc.reads || acc = .fetch then tagsAre (lineTag s via) ks first n
     else
       (whole first || mapGet 0 s.tags first = ks) && (whole (first + n - 1) || mapGet 0 s.tags (first + n - 1) = ks))

/-- The checks on bytes that lie in one range of the physical map when the access is made (R237, R238, R348). `task` is false for
a Cellarer or the host, and `via` the tile whose copies may serve it. -/
def rangeFault (s : State) (via : Option TileId) (task : Bool) (acc : Acc) (ks key len : Nat) : Option (Nat × Nat) :=
  match paSel key with
  | .unassigned => some (5, 4)
  | .dev _ _ => if (task && acc.writes) || acc = .fetch then some (5, 2) else none
  | .hbm t _ => if tagOk s via t ks key len acc then none else some (5, 2)
  | .scratch t off =>
    if (s.tile t).scrw * 2 ^ 22 < off + len then some (5, 4)
    else if tagOk s via t ks key len acc then none else some (5, 2)

/-- The bytes from an address to the end of its range of the physical map: a stack, a tile's scratch, a register block. -/
def rangeLeft (key : Nat) : Nat :=
  match paSel key with
  | .hbm _ off => 2 ^ 36 - off
  | .scratch _ off => 2 ^ 26 - off
  | .dev _ off => 2 ^ 20 - off
  | .unassigned => 1

/-- The checks on a physical piece, range by range: a piece may run on from one into the next. -/
def pieceFaultVia (s : State) (via : Option TileId) (task : Bool) (acc : Acc) (ks : Nat) : Nat → Nat → Nat → Option (Nat × Nat)
  | 0, _, _ => none
  | fuel + 1, key, len =>
    let n := min len (rangeLeft key)
    match rangeFault s via task acc ks key n with
    | some f => some f
    | none => if n = len then none else pieceFaultVia s via task acc ks fuel (key + n) (len - n)

/-- The ranges that a piece can meet at most: none is smaller than a register block. -/
def rangeFuel (len : Nat) : Nat := len / 2 ^ 20 + 3

/-- The checks on a physical piece at its home. -/
def pieceFault (s : State) (task : Bool) (acc : Acc) (ks key len : Nat) : Option (Nat × Nat) :=
  pieceFaultVia s none task acc ks (rangeFuel len) key len

/-! ## Translation (R276-R280) -/

/-- A service-mesh outage of a tile makes global accesses homed there fault with cause 4 (R317). -/
def meshOut (s : State) (t : TileId) : Bool :=
  let dead (p : Nat) := let x := s.port p
    -- fewer than two wavelengths left
    (fromTo 0 8).foldl (fun n i => if x.failed.getLsbD i then n else n + 1) 0 < 2
  dead (t.val * 16 + 14) && dead (t.val * 16 + 15)

/-- The participant an ASID is bound to (R349). -/
def boundPart (s : State) (asid : Nat) : Option Part :=
  (s.encs.flatMap (fun e => e.parts)).find? (fun p => p.asids.contains asid)

/-- Read an 8-byte table entry at its home (R280), with the rule for bound ASIDs (R349). -/
def readEntry (s : State) (asid pa : Nat) : Except XF Word :=
  if meshOut s (homeOf pa) then .error { code := 5, cause := 4 }
  else match boundPart s asid with
  | some p =>
    let ks := mapGet 0 s.tags (pa / 64)
    if p.slots.contains ks then
      match pieceFault s true .read ks pa 8 with
      | some (c, k) => .error { code := c, cause := k }
      | none => .ok (BitVec.ofNat 64 (leNat (s.bytesAt ks pa 8)))
    else .error { code := 5, cause := 3 }
  | none =>
    match pieceFault s true .read 0 pa 8 with
    | some (c, k) => .error { code := c, cause := k }
    | none => .ok (BitVec.ofNat 64 (leNat (s.bytesAt 0 pa 8)))

/-- Bits `lo` to `lo + n - 1` of a word, as a number. -/
def wbits (w : Word) (lo n : Nat) : Nat := (w.toNat >>> lo) % 2 ^ n

/-- The first VA bit and the width of the index of a walk level (R276). -/
def levelBits : Nat → Nat × Nat
  | 0 => (39, 17)
  | 1 => (30, 9)
  | 2 => (21, 9)
  | _ => (12, 9)

/-- Walk from a table at a level down (R276-R279). -/
def walkFrom (s : State) (asid va : Nat) : Nat → Nat → Nat → Except XF TlbEnt
  | 0, _, _ => .error { code := 5, cause := 3 }
  | fuel + 1, level, table =>
    let (lo, n) := levelBits level
    let idx := va / 2 ^ lo % 2 ^ n
    match readEntry s asid (table + 8 * idx) with
    | .error f => .error f
    | .ok e =>
      if wbits e 0 1 = 0 then .error { code := 4, cause := level, detail := e }
      else
        let bad : Except XF TlbEnt := .error { code := 5, cause := 3, detail := e }
        let leaf := wbits e 1 1 = 1
        if wbits e 2 1 != 0 || wbits e 7 5 != 0 || wbits e 52 4 != 0 then bad
        else if !leaf then
          if level = 3 || wbits e 2 5 != 0 || wbits e 56 8 != 0 then bad
          else walkFrom s asid va fuel (level + 1) (wbits e 12 40 * 4096)
        else if level = 0 then bad
        else
          let z := 2 ^ lo
          let pa := wbits e 12 40 * 4096
          let perm (r w x : Nat) : Bool × Bool × Bool := (wbits e r 1 = 1, wbits e w 1 = 1, wbits e x 1 = 1)
          let (r, w, x) := perm 3 4 5
          if wbits e 6 1 = 1 then
            let base := pa - idx % 16 * z
            if pa % z != 0 || pa < idx % 16 * z || base % (16 * z) != 0 then bad
            else .ok { asid := asid, va := va / (16 * z) * (16 * z), size := 16 * z, pa := base, key := wbits e 56 8,
                       r := r, w := w, x := x, ent := e }
          else if pa % z != 0 then bad
          else .ok { asid := asid, va := va / z * z, size := z, pa := pa, key := wbits e 56 8, r := r, w := w, x := x,
                     ent := e }

/-- A whole walk (R276). -/
def walk (s : State) (asid va : Nat) : Except XF TlbEnt :=
  if wbits s.asidtab 0 1 = 0 then .error { code := 5, cause := 4 }
  else
    match readEntry s asid (wbits s.asidtab 19 33 * 2 ^ 19 + 8 * (asid % 65536)) with
    | .error f => .error f
    | .ok e =>
      if wbits e 0 1 = 0 then .error { code := 4, cause := 4, detail := e }
      else if wbits e 1 19 != 0 || wbits e 52 12 != 0 then .error { code := 5, cause := 3, detail := e }
      else walkFrom s asid va 4 0 (wbits e 20 32 * 2 ^ 20)

/-- An entry maps an address. -/
def TlbEnt.hit (e : TlbEnt) (asid va : Nat) : Bool := e.asid = asid && e.va ≤ va && va < e.va + e.size

/-- The entry of a TLB that translates an address: the core's, or the tile's (R280). -/
def tlbHit (s : State) (t : TileId) (core : Option CoreId) (asid va : Nat) : Option TlbEnt :=
  let ctl := match core with
    | some c => (s.core c).tlb
    | none => []
  match ctl.find? (·.hit asid va) with
  | some e => some e
  | none => (s.tile t).tlb.find? (·.hit asid va)

/-- The entry that translates an address: a TLB's, or that of a walk (R280); with translation off every global access faults
(R276). -/
def lookup (s : State) (t : TileId) (core : Option CoreId) (asid va : Nat) : Except XF TlbEnt :=
  if wbits s.asidtab 0 1 = 0 then .error { code := 5, cause := 4 }
  else match tlbHit s t core asid va with
    | some e => .ok e
    | none => walk s asid va

/-- The permissions of an entry allow an access (R279). -/
def TlbEnt.allows (e : TlbEnt) : Acc → Bool
  | .fetch => e.x
  | .read => e.r
  | .write => e.w
  | .rw => e.r && e.w

/-- Translate one address for an access (R276-R279): the physical address, the key slot, and the bytes left in the
page. -/
def xlate (s : State) (t : TileId) (core : Option CoreId) (asid va : Nat) (acc : Acc) : Except XF (Nat × Nat × Nat × TlbEnt) :=
  match lookup s t core asid va with
  | .error f => .error { f with addr := va }
  | .ok e =>
    if e.allows acc then .ok (e.pa + (va - e.va), e.key, e.va + e.size - va, e)
    else .error { code := 5, cause := 2, detail := e.ent, addr := va }

/-- The pieces of an access of `len` bytes from `va`, page by page, with the entries used; the first breach wins. Its record
carries the entry read, and for an unassigned physical address that address (R269). -/
def xlateVia (s : State) (via : Option TileId) (task : Bool) (t : TileId) (core : Option CoreId) (asid : Nat) (acc : Acc) :
    Nat → Nat → Nat → Except XF (List Seg × List TlbEnt)
  | 0, _, _ => .ok ([], [])
  | fuel + 1, va, len =>
    if len = 0 then .ok ([], [])
    else
      match xlate s t core asid va acc with
      | .error f => .error f
      | .ok (pa, ks, left, e) =>
        let n := min len left
        match pieceFaultVia s via task acc ks (rangeFuel n) pa n with
        | some (c, k) => .error { code := c, cause := k, detail := e.ent, addr := if k = 4 then pa else va }
        | none =>
          if meshOut s (homeOf pa) then .error { code := 5, cause := 4, detail := e.ent, addr := pa }
          else
            match xlateVia s via task t core asid acc fuel (va + n) (len - n) with
            | .error f => .error f
            | .ok (l, es) => .ok ({ key := pa, len := n, ks := ks } :: l, e :: es)

/-- The pieces of an access: a core's may be served by the copies of its tile (R247). -/
def xlateSegs (s : State) (task : Bool) (t : TileId) (core : Option CoreId) (asid : Nat) (acc : Acc) (fuel va len : Nat) :
    Except XF (List Seg × List TlbEnt) :=
  xlateVia s (if core.isSome then some t else none) task t core asid acc fuel va len

/-- Pieces an access of `len` bytes can need at most. -/
def segFuel (len : Nat) : Nat := len / 4096 + 2

/-- Add an entry to a TLB of a given size, the oldest entry leaving a full one (R280; replacement is the model's choice,
log 9). -/
def tlbAdd (cap : Nat) (e : TlbEnt) (l : List TlbEnt) : List TlbEnt :=
  if l.contains e then l else (e :: l).take cap

/-- Fill the TLBs with the entries an access used (R280). -/
def State.fillTlbs (s : State) (t : TileId) (core : Option CoreId) : List TlbEnt → State
  | [] => s
  | e :: l =>
    let s1 := if (s.tile t).tlb.contains e then s else s.updTile t (fun x => { x with tlb := tlbAdd 16384 e x.tlb })
    let s2 := match core with
      | none => s1
      | some c => if (s1.core c).tlb.contains e then s1 else s1.updCore c (fun x => { x with tlb := tlbAdd 256 e x.tlb })
    s2.fillTlbs t core l

/-- A Cellarer's access with CASID 0: ea[51:0] is physical and ea[63:52] must be zero (R321). -/
def cellPhys (s : State) (via : Option TileId) (ea len : Nat) (acc : Acc) : Except XF (List Seg × List TlbEnt) :=
  if 2 ^ 52 ≤ ea then .error { code := 5, cause := if acc = .fetch then 6 else 0, addr := ea }
  else
    match pieceFaultVia s via false acc 0 (rangeFuel len) ea len with
    | some (c, k) => .error { code := c, cause := k, addr := ea }
    | none => if meshOut s (homeOf ea) then .error { code := 5, cause := 4, addr := ea } else .ok ([{ key := ea, len := len, ks := 0 }], [])

/-- The pieces of a global access under a Cellarer's CASID (R321), where the copies of a tile may serve it. -/
def cellSegsVia (s : State) (via : Option TileId) (t : TileId) (ea len : Nat) (acc : Acc) : Except XF (List Seg × List TlbEnt) :=
  let asid := (s.cell t).casid.toNat
  if asid = 0 then cellPhys s via ea len acc
  else if 2 ^ 56 ≤ ea then .error { code := 5, cause := if acc = .fetch then 6 else 0, addr := ea }
  else xlateVia s via false t none asid acc (segFuel len) ea len

/-- The pieces of a global access by a Cellarer (R321). -/
def cellSegs (s : State) (t : TileId) (ea len : Nat) (acc : Acc) : Except XF (List Seg × List TlbEnt) := cellSegsVia s (some t) t ea len acc

/-- The pieces meet a device register: of the Cellarer's doing only its own stores and S syllables write those (R238). -/
def touchesDev (l : List Seg) : Bool :=
  l.any (fun g => !(isLoopKey g.key) && match paSel g.key, paSel (g.key + g.len - 1) with
    | .dev _ _, _ => true
    | _, .dev _ _ => true
    | _, _ => false)

end Sys2Proof.Machine
end

