-- ==== Sys2Proof/Machine/Flags.lean ====
section
/-! DEFINITION. Machine/Flags.lean: the flag register and the first-event record (R61-R64), and the flag results of the
integer and floating operations of a container (R62, R195). -/

namespace Sys2Proof.Machine

/-- The first bit of a slot's field of FLAGS (R61). -/
def flagBase : Nat → Nat
  | 3 => 0 | 4 => 6 | 5 => 12 | 6 => 18 | 8 => 24 | 9 => 30 | _ => 36

/-- A flag that lands: its slot, its bit 0-5 within the slot's field, its container index, its bundle. -/
structure FlagEv where
  slot : Nat
  bit  : Nat
  cidx : Nat
  pc   : Nat
deriving DecidableEq, Repr

/-- The events of a flag set with one container index. -/
def flagEvs (slot pc cidx : Nat) (f : Fl) : List FlagEv :=
  (fromTo 0 6).filterMap (fun i => if f.getLsbD i then some { slot := slot, bit := i, cidx := cidx, pc := pc } else none)

/-- R63's order of events that land in one cycle: slot, flag bit, container index. -/
def FlagEv.before (a b : FlagEv) : Bool :=
  if a.slot != b.slot then a.slot < b.slot else if a.bit != b.bit then a.bit < b.bit else a.cidx < b.cidx

/-- The FLAGS bit of an event. -/
def FlagEv.pos (e : FlagEv) : Nat := flagBase e.slot + e.bit

/-- The three flag registers (R61, R63). -/
structure FlagRegs where
  flags : Word
  fevt0 : Word
  fevt1 : Word
deriving DecidableEq, Repr

/-- FEVT0 and FEVT1 of an event (R63). -/
def FlagEv.record (e : FlagEv) : Word × Word :=
  (BitVec.ofNat 64 (e.pc % 2 ^ 56), BitVec.ofNat 64 (2 ^ 63 + e.cidx % 512 * 2 ^ 16 + e.slot % 16 * 16 + e.bit))

/-- The first of a list of events in R63's order. -/
def firstEv : List FlagEv → Option FlagEv
  | [] => none
  | e :: l => match firstEv l with
    | none => some e
    | some f => if f.before e then some f else some e

/-- The events of one cycle land: every bit is set; the first that set a bit from 0 is recorded while VALID = 0. -/
def landFlags (r : FlagRegs) (es : List FlagEv) : FlagRegs :=
  let new := es.filter (fun e => !r.flags.getLsbD e.pos)
  let fl := es.foldl (fun w e => w ||| (1#64 <<< e.pos)) r.flags
  if r.fevt1.getLsbD 63 then { r with flags := fl }
  else
    match firstEv new with
    | none => { r with flags := fl }
    | some e => { flags := fl, fevt0 := e.record.1, fevt1 := e.record.2 }

/-- The flags of a vector operation's containers as events: each flag with its lowest container index (R63, R193). -/
def foldFlags (idx : Nat) : List Fl → List (Nat × Nat) → List (Nat × Nat)
  | [], acc => acc
  | f :: l, acc =>
    foldFlags (idx + 1) l
      ((fromTo 0 6).foldl (fun a i => if f.getLsbD i && !(a.any (fun p => p.1 == i)) then a ++ [(i, idx)] else a) acc)

/-- Scalar flags as a result carries them: container index 0. -/
def scalarFlags (f : Fl) : List (Nat × Nat) := foldFlags 0 [f] []

end Sys2Proof.Machine
end

