-- ==== Sys2Proof/Machine/Operands.lean ====
section
/-! DEFINITION. Machine/Operands.lean: how an instruction reads its operands and schedules its results: registers and
poison, widths and extensions, effective addresses, landing cycles (R86, R87, R98, R99, R103, R115, R116, R152). -/

namespace Sys2Proof.Machine

/-- A fault of the syllable in execution (R266, R269). -/
structure Trap where
  code   : Nat
  cause  : Nat := 0
  detail : Word := 0
  addr   : Nat := 0
  /-- FLG bits that the fault itself sets: 8 PERSIST, 16 STORED (R269). -/
  flg    : Nat := 0
deriving DecidableEq, Repr

/-- What a syllable does to the registers it works on: a new state of them, or a fault. -/
inductive Res (α : Type) where
  | ok (a : α)
  | trap (t : Trap)
deriving Repr

def Res.bind {α β : Type} (x : Res α) (f : α → Res β) : Res β :=
  match x with
  | .ok a => f a
  | .trap t => .trap t

/-- Fault codes (R266). -/
def fIllSyl : Nat := 0x01
def fIllBun : Nat := 0x02
def fPriv : Nat := 0x03
def fXlate : Nat := 0x04
def fAccess : Nat := 0x05
def fNoLive : Nat := 0x06
def fLate : Nat := 0x07
def fTiming : Nat := 0x08
def fShadow : Nat := 0x09
def fUncorr : Nat := 0x0A
def fCask : Nat := 0x0B
def fLimit : Nat := 0x0C
def fLivelock : Nat := 0x0D
def fBranch : Nat := 0x0E
def fQueue : Nat := 0x0F
def fMicro : Nat := 0x10
def fTps : Nat := 0x11
def fDefer : Nat := 0x12
def fUser : Nat := 0x13
def fBreak : Nat := 0x14
def fWatch : Nat := 0x15
def fParkXl : Nat := 0x20
def fParkNr : Nat := 0x21
def fRetire : Nat := 0x22
def fCeRate : Nat := 0x23
def fScrubOvr : Nat := 0x24
def fScrubBad : Nat := 0x25

/-! ## Registers -/

/-- A scalar register; s0 reads 0 (R105). -/
def Hart.rs (h : Hart) (r : Reg) : Word := if r.val = 0 then 0 else mapGet 0 h.s r.val

/-- The poison bit of a scalar register; s0 is never poisoned (R103). -/
def Hart.sPois (h : Hart) (r : Reg) : Bool := r.val != 0 && h.sp.getLsbD r.val

/-- A predicate register; b0 reads true (R105). -/
def Hart.rb (h : Hart) (r : BReg) : Bool := r.val = 0 || h.b.getLsbD r.val

/-- A token (R174). -/
def Hart.tok (h : Hart) (t : Tok) : TokS := mapGet {} h.tk t.val

/-- The token is signalled (R174). -/
def TokS.signalled (t : TokS) : Bool := t.armed && t.p = 0

/-- Write a token. -/
def Hart.setTok (h : Hart) (t : Tok) (x : TokS) : Hart := { h with tk := mapSet h.tk t.val x }

/-- Write a scalar register and its poison; a write to s0 is discarded (R105). -/
def Hart.setS (h : Hart) (r : Reg) (x : Word) (pois : Bool) : Hart :=
  if r.val = 0 then h
  else { h with s := mapSet h.s r.val x,
                sp := if pois then h.sp ||| (1#64 <<< r.val) else h.sp &&& ~~~(1#64 <<< r.val) }

/-- Write a predicate register; a write to b0 is discarded (R105). -/
def Hart.setB (h : Hart) (r : BReg) (x : Bool) : Hart :=
  if r.val = 0 then h
  else { h with b := if x then h.b ||| (1#16 <<< r.val) else h.b &&& ~~~(1#16 <<< r.val) }

/-- A vector register's containers; an absent one is 512 zeros (R105). -/
def zeroConts : List Cont := tabulate 512 (fun _ => {})

def Ctx.rv (x : Ctx) (r : Reg) : List Cont := mapGet zeroConts x.v r.val

/-- The poison bit of a vector register. -/
def Ctx.vPois (x : Ctx) (r : Reg) : Bool := x.vp.getLsbD r.val

/-- A mask register; m0 reads all ones (R105). -/
def Ctx.rm (x : Ctx) (r : MReg) : BitVec 512 := if r.val = 0 then BitVec.allOnes 512 else mapGet 0 x.m r.val

/-- A parameter register (R219). -/
def Ctx.rmp (x : Ctx) (r : Nat) : Word := mapGet 0 x.mp r

/-! ## Results -/

/-- Schedule a result of the syllable in issue: it lands `lat` issue cycles after the bundle (R98, R99). -/
def Hart.emit (h : Hart) (lat : Nat) (dst : Dst) (src : Src) (pois : Bool) (form : LdForm) (flags : List (Nat × Nat))
    (fp : List (BitVec 512 × List W32) := []) : Hart :=
  { h with
    pend := h.pend ++ [{ id := h.nid, ic := h.ic + lat, slot := h.slot, pc := h.bpc, dst := dst, pois := pois, src := src,
                         form := form, flags := flags, fp := fp }],
    nid := h.nid + 1 }

/-- Schedule a scalar result. -/
def Hart.outS (h : Hart) (lat : Nat) (r : Reg) (x : Word) (pois : Bool) : Hart :=
  h.emit lat (.s r) (.have (.w x)) pois .plain []

/-- Schedule a scalar result with flags; a poisoned one raises none (R62). -/
def Hart.outSF (h : Hart) (lat : Nat) (r : Reg) (x : Word) (pois : Bool) (f : Fl) : Hart :=
  h.emit lat (.s r) (.have (.w x)) pois .plain (if pois then [] else scalarFlags f)

/-- Schedule a predicate result. -/
def Hart.outB (h : Hart) (lat : Nat) (r : BReg) (x : Bool) : Hart :=
  h.emit lat (.b r) (.have (.b x)) false .plain []

/-- A poisoned read that faults: the late-arrival fault (R103). -/
def lateTrap {α : Type} : Res α := .trap { code := fLate }

/-- Go on only when the condition fails to be poisoned. -/
def needClean {α : Type} (pois : Bool) (k : Res α) : Res α := if pois then lateTrap else k

/-! ## Operand forms -/

/-- The bits of a width (R86). -/
def wid : Width → Nat
  | .w64 => 64 | .w32 => 32 | .w16 => 16 | .w8 => 8

/-- The low `w` bits of a register (R115). -/
def low (w : Nat) (x : Word) : Nat := x.toNat % 2 ^ w

/-- A w-bit pattern as a signed number. -/
def signedOf (w : Nat) (n : Nat) : Int := if n < 2 ^ (w - 1) then (n : Int) else (n : Int) - 2 ^ w

/-- A w-bit result sign-extended to 64 bits (Ext S of R117). -/
def extS (w : Nat) (n : Nat) : Word := BitVec.ofInt 64 (signedOf w (n % 2 ^ w))

/-- A w-bit result zero-extended (Ext Z of R117). -/
def extZ (w : Nat) (n : Nat) : Word := BitVec.ofNat 64 (n % 2 ^ w)

/-- The w-bit pattern of an integer. -/
def wrap (w : Nat) (z : Int) : Nat := (z % (2 ^ w : Nat)).toNat

/-- A 32-bit immediate, sign-extended (R87). -/
def imm64 (i : BitVec 32) : Word := i.signExtend 64

/-- The effective address of an M or MA syllable (R152). -/
def Hart.ea (h : Hart) (base : Reg) (off : BitVec 32) : Nat := (h.rs base + off.signExtend 64).toNat

/-- The latency of a LAT code (R99). -/
def latOf (c : BitVec 3) : Nat :=
  match c.toNat with
  | 0 => 32 | 1 => 64 | 2 => 128 | 3 => 256 | 4 => 384 | 5 => 512 | 6 => 768 | _ => 1024

/-- ARND of FR (R59). -/
def arnd (fr : Word) : RM := RM.of (wbits fr 0 2)

/-- FRND of FR (R59). -/
def frnd (fr : Word) : RM := RM.of (wbits fr 2 3)

/-- DKIND of FR (R59). -/
def dkind (fr : Word) : Nat := wbits fr 5 4

/-- SRV of FR (R59). -/
def srv (fr : Word) : Reg := Fin.ofNat 64 (wbits fr 9 6)

/-- The kind of a KIND field: 15 takes FR.DKIND (R88, R161). -/
def kindField (fr : Word) (k : BitVec 4) : Option Kind := kindOf (if k.toNat = 15 then dkind fr else k.toNat)

/-- The window of an effective address (R152). -/
inductive Window where
  | loop (off : Nat)
  | cluster (core : Nat) (off : Nat)
  | glob (va : Nat)
  | bad
deriving DecidableEq, Repr

def windowOf (ea : Nat) : Window :=
  match ea / 2 ^ 56 with
  | 0 => .glob ea
  | 0xFE => if ea / 2 ^ 21 % 2 ^ 35 = 0 then .loop (ea % 2 ^ 21) else .bad
  | 0xFD => if ea / 2 ^ 24 % 2 ^ 32 = 0 then .cluster (ea / 2 ^ 21 % 8) (ea % 2 ^ 21) else .bad
  | _ => .bad

end Sys2Proof.Machine
end

