-- ==== Sys2Proof/Machine/Ops.lean ====
section
/-! DEFINITION. Machine/Ops.lean: the operations that instructions and events share: whose registers an instruction acts on,
semaphores and events, tokens and producers, fault records and their routing, the discard and the commit of a region,
and TAKING A FAULT, one operation for cores and one for Cellarers, with the return from one beside them (R136-R141,
R174, R190, R263-R271, R322, R334). -/

namespace Sys2Proof.Machine

/-! ## The agent in execution -/

/-- The scalar registers the instruction in execution acts on. -/
def State.hart (s : State) : Hart :=
  match s.cur with
  | .core c k => (s.ctx c k).hart
  | .cell t => (s.cell t).hart
  | _ => {}

/-- Write them back. -/
def State.setHart (s : State) (h : Hart) : State :=
  match s.cur with
  | .core c k => s.updCtx c k (fun x => { x with hart := h })
  | .cell t => s.updCell t (fun x => { x with hart := h })
  | _ => s

/-- The issue belongs to a Cellarer (R81, R321). -/
def State.onCell (s : State) : Bool :=
  match s.cur with
  | .cell _ => true
  | _ => false

/-- The tile of the agent in execution. -/
def State.curTile (s : State) : TileId :=
  match s.cur with
  | .core c _ => tileOf c
  | .seq c => tileOf c
  | .cell t => t
  | .eng t _ => t
  | .slot n => (s.slot n).tile
  | .idle => 0

/-! ## Semaphores and events (R324, R334) -/

/-- Set a bit of EVTPEND of a tile's Cellarer. -/
def State.evt (s : State) (t : TileId) (bit : Nat) : State :=
  s.updCell t (fun c => { c with evtpend := c.evtpend ||| (1#8 <<< bit) })

/-- The tile and index of a SEMREF (R180). -/
def semTile (r : BitVec 16) : TileId := Fin.ofNat 16 (r.toNat / 4096)
def semIdx (r : BitVec 16) : Nat := r.toNat % 4096

/-- A semaphore's value. -/
def State.sem (s : State) (r : BitVec 16) : Word := mapGet 0 (s.tile (semTile r)).sem (semIdx r)

/-- Write a semaphore; a change sets EVTPEND.SEM of its tile. -/
def State.setSem (s : State) (r : BitVec 16) (v : Word) : State :=
  let s1 := s.updTile (semTile r) (fun t => { t with sem := mapSet t.sem (semIdx r) v })
  if s.sem r = v then s1 else s1.evt (semTile r) 2

/-- SOP 0 add, 1 set, 2 maximum (R185). -/
def semApply (sop : Nat) (old v : Word) : Word :=
  if sop = 0 then old + v else if sop = 1 then v else if old.toNat < v.toNat then v else old

/-- Apply an operation to a semaphore. -/
def State.semOp (s : State) (sop : Nat) (r : BitVec 16) (v : Word) : State :=
  (s.setSem r (semApply sop (s.sem r) v)).logEv 2 r.toNat

/-! ## Gangs and their members -/

/-- The gang of an identifier. -/
def State.gang (s : State) (g : Nat) : Option Gang := s.gangs.find? (fun x => x.id == g)

/-- Change a gang. -/
def State.updGang (s : State) (g : Nat) (f : Gang → Gang) : State := { s with gangs := mapWhere (fun x => x.id == g) f s.gangs }

/-- Change a member of a gang. -/
def State.updMember (s : State) (g : Nat) (c : CoreId) (f : Member → Member) : State :=
  s.updGang g (fun x => { x with mems := mapWhere (fun m => m.core == c) f x.mems })

/-- The member of a gang on a core. -/
def State.member (s : State) (g : Nat) (c : CoreId) : Option Member :=
  match s.gang g with
  | none => none
  | some x => x.mems.find? (fun m => m.core == c)

/-- The resident context of a gang's task on a core; a reserved one holds no task yet (R24, R260). -/
def State.ctxOf (s : State) (g : Nat) (c : CoreId) : Option CtxId :=
  match (fromTo 0 3).find? (fun k => let x := s.ctx c (Fin.ofNat 3 k); x.st != .free && x.st != .reserved && x.gang.toNat == g) with
  | none => none
  | some k => some (Fin.ofNat 3 k)

/-- A syllable of the bundle issued last holds a context, or a Cellarer (R101). -/
def Ctx.stalled (x : Ctx) : Bool := x.stall.isSome || x.stallK.isSome
def Cell.stalled (x : Cell) : Bool := x.stall.isSome || x.stallK.isSome

/-- The owner that a context is. -/
def Ctx.owner (x : Ctx) (c : CoreId) : Owner := .mem x.gang.toNat c

/-! ## Tokens and producers (R174, R260) -/

/-- A producer is added to a token: ARMED := 1, P := P + 1. -/
def Hart.addProd (h : Hart) (t : Tok) : Hart := h.setTok t { armed := true, p := (h.tok t).p + 1 }

/-- A producer is removed from a token. -/
def Hart.dropProd (h : Hart) (t : Tok) : Hart := h.setTok t { (h.tok t) with p := (h.tok t).p - 1 }

/-- Record a new outstanding producer; its number is the state's next one. -/
def State.newProd (s : State) (o : Owner) (t : Tok) (push rout : Bool) : State × Nat :=
  ({ s with prods := { id := s.fresh, owner := o, tok := t, push := push, rout := rout } :: s.prods,
            fresh := s.fresh + 1 }, s.fresh)

/-- Add one completion of a token to a saved owner's shadow (R260). -/
def shadowAdd (o : Owner) (t : Tok) : List (Owner × NMap Nat) → List (Owner × NMap Nat)
  | [] => [(o, [(t.val, 1)])]
  | (p, m) :: l => if p = o then (p, mapSet m t.val (mapGet 0 m t.val + 1)) :: l else (p, m) :: shadowAdd o t l

/-- The owner's token loses a producer: in its registers while it is resident, in the tile's shadow while saved. -/
def State.tokDown (s : State) (o : Owner) (t : Tok) : State :=
  match o with
  | .cell tl => s.updCell tl (fun c => { c with hart := c.hart.dropProd t })
  | .mem g c =>
    match s.ctxOf g c with
    | some k => s.updCtx c k (fun x => { x with hart := x.hart.dropProd t })
    | none =>
      match s.member g c with
      | none => s
      | some _ => s.updTile (tileOf c) (fun x => { x with shadow := shadowAdd o t x.shadow })

/-- A producer completes or is cancelled. -/
def State.endProd (s : State) (id : Nat) : State :=
  match s.prods.find? (fun p => p.id == id) with
  | none => s
  | some p => ({ s with prods := s.prods.filter (fun q => q.id != id) }).tokDown p.owner p.tok

def State.endProds (s : State) : List Nat → State
  | [] => s
  | i :: l => (s.endProd i).endProds l

/-- The producers of some tokens that are outstanding (R177, R217). -/
def State.prodsOf (s : State) (o : Owner) (ts : List Tok) : List Nat :=
  (s.prods.filter (fun p => p.owner == o && ts.contains p.tok)).map (fun p => p.id)

/-- Every recorded producer has completed. -/
def State.prodsDone (s : State) (l : List Nat) : Bool := l.all (fun i => !(s.prods.any (fun p => p.id == i)))

/-! ## Records (R269-R271, R318, R333, R339, R340) -/

/-- Disposition codes (R266, R267, R269). -/
def dispOf (code : Nat) : Nat :=
  if code = fLate || code = fTiming then 0 else if code = fXlate then 1 else if code = fBreak then 2
  else if code = fShadow || code = fUncorr then 3 else if code = fRetire then 6
  else if code < 0x20 then 4 else 5

/-- A fault record's words (R269). -/
def mkRec (code disp slot flg coreid asid : Nat) (taskid gang : Word) (pc addr gt rrc cause : Nat) (detail : Word) : FRec :=
  [BitVec.ofNat 64 (code + disp * 2 ^ 8 + slot * 2 ^ 16 + flg * 2 ^ 24 + coreid * 2 ^ 32 + asid * 2 ^ 48),
   taskid, gang, BitVec.ofNat 64 pc, BitVec.ofNat 64 addr, BitVec.ofNat 64 gt,
   BitVec.ofNat 64 (rrc + cause * 2 ^ 32), detail]

/-- The code of a record. -/
def recCode (r : FRec) : Nat := (r.getD 0 0).toNat % 256

/-- The bytes of a record. -/
def recBytes (r : FRec) : List Byte := r.flatMap (fun w => bytesOf 8 w.toNat)

/-- The FRT entry of a tile at a code, as a destination (R270). A record of a Cellarer's own program whose entry names
that Cellarer goes to the host, with no vector: VEC is read only with DEST 2. -/
def recDest (s : State) (t : TileId) (self : Bool) (code : Nat) : RecDest :=
  let e := mapGet 0 (s.tile t).frt code
  let tl : TileId := Fin.ofNat 16 (wbits e 4 4)
  match wbits e 0 3 with
  | 1 => if self && tl = t then .host none else .ring tl none
  | 2 => .host (some (wbits e 8 11))
  | 3 => .ring tl (some (BitVec.ofNat 16 (tl.val * 4096 + wbits e 20 12)))
  | _ => if self then .host none else .ring t none

/-- Send something to the outside. -/
def State.out (s : State) (o : HostOut) : State := { s with hostOut := s.hostOut ++ [o] }

/-- A request is refused. -/
def State.refused (s : State) (what : String) : State := s.out (.event "REFUSED" [what.length, s.gt])

/-- A request of the management function: the Safe Talkative State accepts none but RETRY (R365). -/
def State.request (s : State) (what : String) (r : Out) : Out := if s.safe then .next (s.refused what) else r

/-- A vector of the PF's MSI-X table is sent, or pending while it is masked, as PCIe has it (R340). -/
def Fn.vecOpen (f : Fn) (v : Nat) : Bool := f.msixEn && !f.msixMask && f.unmasked.contains v

def State.sendVec (s : State) (v : Nat) : State :=
  if (s.fn 0).vecOpen v then s.out (.vector 0 v)
  else s.updFn 0 (fun f => { f with pendV := if f.pendV.contains v then f.pendV else f.pendV ++ [v] })

/-- The PF's fault ring has room (R271, R339). -/
def Fn.fRoom (f : Fn) : Bool := f.fen && (f.frtail + 2 ^ 32 - f.frhead) % 2 ^ 32 < 2 ^ f.flog

/-- A function's completion ring has room (R339). -/
def Fn.cRoom (f : Fn) : Bool := f.cen && (f.crtail + 2 ^ 32 - f.crhead) % 2 ^ 32 < 2 ^ f.clog

/-- Deliver a record to its destination, if its ring has room (R271); a semaphore gains 1 in its turn among the operations of the gt
(R334). -/
def State.deliverTo (s : State) (d : RecDest) (r : FRec) : State × Bool :=
  match d with
  | .host vec =>
    let f := s.fn 0
    if f.fRoom then
      let s1 := s.out (.ring 0 ((f.fbase.toNat / 4096 * 4096) + f.frtail % 2 ^ f.flog * 64) (recBytes r))
      let s2 := s1.updFn 0 (fun f => { f with frtail := (f.frtail + 1) % 2 ^ 32 })
      (match vec with
       | some v => s2.sendVec v
       | none => s2, true)
    else (s, false)
  | .ring tl sem =>
    if (s.tile tl).frec.length < 256 then
      let s1 := (s.updTile tl (fun x => { x with frec := x.frec ++ [r] })).evt tl 1
      match sem with
      | none => (s1, true)
      | some ref => ({ s1 with semRecs := s1.semRecs ++ [ref] }, true)
    else (s, false)

/-- The semaphores of the records delivered with DEST 3 gain 1 (R271, R334). -/
def State.gainSems (s : State) : List (BitVec 16) → State
  | [] => s
  | r :: l => (s.semOp 0 r 1).gainSems l

def State.recSems (s : State) : State := { s with semRecs := [] }.gainSems s.semRecs

/-- Deliver a record by the table of a tile, if its ring has room (R270, R271). -/
def State.deliver (s : State) (t : TileId) (self : Bool) (r : FRec) : State × Bool :=
  s.deliverTo (recDest s t self (recCode r)) r

/-- A report record to a destination: dropped and counted when its ring is full, at the tile that raised it (R271, log 65). -/
def State.reportTo (s : State) (t : TileId) (d : RecDest) (r : FRec) : State :=
  let (s1, ok) := s.deliverTo d r
  if ok then s1 else s1.updTile t (fun x => { x with frlost := min (x.frlost + 1) (2 ^ 64 - 1) })

/-- A report record by the table of a tile. -/
def State.report (s : State) (t : TileId) (self : Bool) (r : FRec) : State :=
  s.reportTo t (recDest s t self (recCode r)) r

/-- A record of a context that waits in its single slot when its ring is full (R271); while another waits there it is dropped and
counted as a report is (DESIGN CHOICE, log 84). -/
def State.recOrWait (s : State) (c : CoreId) (k : CtxId) (r : FRec) (more : Option FRec) : State :=
  let d := recDest s (tileOf c) false (recCode r)
  let (s1, ok) := s.deliverTo d r
  if ok then
    match more with
    | none => s1
    | some m => s1.reportTo (tileOf c) d m
  else if (s1.ctx c k).frec.isSome then s1.reportTo (tileOf c) d r
  else s1.updCtx c k (fun x => { x with frec := some { tile := tileOf c, dest := d, frec := r, more := more } })

/-- A record of a member: it waits at its context, or at the member when it has none, while its ring is full (R271); while another
waits there it is dropped and counted (log 84). -/
def State.memberRec (s : State) (g : Nat) (m : Member) (r : FRec) (more : Option FRec) : State :=
  match m.st with
  | .resident k => s.recOrWait m.core k r more
  | _ =>
    let t := tileOf m.core
    let d := recDest s t false (recCode r)
    match s.deliverTo d r, more with
    | (s1, true), none => s1
    | (s1, true), some q => s1.reportTo t d q
    | (s1, false), _ =>
      if (s1.member g m.core).any (·.frec.isSome) then s1.reportTo t d r
      else s1.updMember g m.core (fun x => { x with frec := some { tile := t, dest := d, frec := r, more := more } })

/-- A record that waits is delivered, if its ring has room now. -/
def State.deliverWait (s : State) (w : RecWait) : State × Bool :=
  match s.deliverTo w.dest w.frec, w.more with
  | (s1, true), some q => (s1.reportTo w.tile w.dest q, true)
  | r, _ => r

/-- A completion record (R333): queued for the ring of a function, with the vector that follows it. -/
def State.complRec (s : State) (fn : Nat) (gang status reason lq tile src : Nat) (vec : Option Nat) : State :=
  let bs := bytesOf 8 gang ++ bytesOf 4 (status + reason * 256 + lq * 65536 + tile * 2 ^ 24) ++ bytesOf 4 src
  s.updFn fn (fun f => { f with cwait := f.cwait ++ [(bs, vec)] })

/-- The ring of a packet's source: its function, or the PF (R333). -/
def srcFn (src : Nat) : Nat := if src ≤ 64 then src else 0

/-! ## Deviation records (R358) -/

/-- One deviation record of a core, when the tile is in C0 at D1 or above with TRCEN (R362); a full ring counts it as lost. -/
def State.trace (s : State) (t : TileId) (pc slot cause cycles : Nat) : State :=
  let x := s.tile t
  if 1 ≤ x.dbg && x.trccfg.getLsbD 0 && x.pwrSt = 0 then
    if x.trcpos < 65536 then
      let base := wbits x.trccfg 12 40 * 4096
      let w0 := pc % 2 ^ 56 + slot % 16 * 2 ^ 56 + cause * 2 ^ 60
      let w1 := cycles % 2 ^ 32 + s.gt % 2 ^ 32 * 2 ^ 32
      (s.putBytes t 0 (base + 16 * x.trcpos) (bytesOf 8 w0 ++ bytesOf 8 w1)).updTile t
        (fun y => { y with trcpos := y.trcpos + 1 })
    else s.updTile t (fun y => { y with trclost := min (y.trclost + 1) (2 ^ 64 - 1) })
  else s

/-! ## Discard (R190, R211, R233, R263, R313) -/

/-- The task of a context is the source endpoint of a handle, by the endpoints in force (R294, R297). -/
def isSrc (x : Ctx) (c : CoreId) (h : Hnd) : Bool :=
  let (sep, asid, gang) := match h.st, h.nxt with
    | .scheduled, some m => (m.sep, m.asid, m.gang)
    | _, _ => (h.sep, h.asid, h.gang)
  h.st != .free && sep = c.val && asid = x.asid.toNat && gang = x.gang

/-- The task of a context is the destination endpoint of a handle. -/
def isDst (x : Ctx) (c : CoreId) (h : Hnd) : Bool :=
  let (dep, asid, gang) := match h.st, h.nxt with
    | .scheduled, some m => (m.dep, m.asid, m.gang)
    | _, _ => (h.dep, h.asid, h.gang)
  h.st != .free && dep = c.val && asid = x.asid.toNat && gang = x.gang

/-- A handle at a discard: NEXT and the receive head return to the last commit (R313). -/
def Hnd.discard (x : Ctx) (c : CoreId) (h : Hnd) : Hnd :=
  let h1 := if isSrc x c h then { h with next := h.nextCk } else h
  if isDst x c h then { h1 with rq := h1.poppedF ++ h1.rq, poppedF := [], head := h1.headCk } else h1

/-- A handle at a commit: NEXT is checkpointed and the live head becomes the committed one (R137, R313). -/
def Hnd.commit (x : Ctx) (c : CoreId) (h : Hnd) : Hnd :=
  let h1 := if isSrc x c h then { h with nextCk := h.next } else h
  if isDst x c h then { h1 with poppedF := [], headCk := h1.head } else h1

/-- SELF of a rack configuration (R225). -/
def rackSelf (cfg : Word) : Bool := cfg.getLsbD 26

/-- RKPTR of a rack after a discard: the checkpoint, but the live TAIL of a rack that is not SELF (R233). -/
def rackDiscard (cfg live ck : Word) : Word :=
  if rackSelf cfg then ck else (ck &&& 0xFFFFFFFF00000000) ||| (live &&& 0xFFFFFFFF)

def racksDiscard (cfg live ck : NMap Word) : NMap Word :=
  (fromTo 0 8).map (fun i => (i, rackDiscard (mapGet 0 cfg i) (mapGet 0 live i) (mapGet 0 ck i)))

/-- The registers and queues of a context after a discard (R263), its loads cancelled except straddlers and a latched
atomic. -/
def Ctx.discard (x : Ctx) : Ctx :=
  let pend := x.hart.pend.filter (fun p => p.strad.isSome && !p.rep)
  let keepReq (r : Req) : Bool :=
    (match x.latch with
     | .pending i => i = r.id
     | _ => false) || (pend ++ x.landed).any (fun p => match p.src with
                                                        | .wait i _ => i == r.id
                                                        | _ => false)
  { x with
    hart := { x.hart with pc := x.reg.entry, redir := none, pend := pend, flags := x.ck.flags, fevt0 := x.ck.fevt0,
                          fevt1 := x.ck.fevt1, gapTo := 0, pfx := none },
    reqs := x.reqs.filter keepReq, flq := x.flq.filter (·.both), walked := [],
    landed := x.landed.filter (·.strad.isSome), cask := [], pushes := [],
    dq := x.ck.dq, dqPop := 0,
    dqIn := x.dqIn.filter (fun d => d.comm && !x.reg.opened),
    dqOld := x.dqOld ++ x.dqIn.filter (fun d => d.comm && x.reg.opened),
    rkcfg := x.ck.rkcfg, rkptr := racksDiscard x.ck.rkcfg x.rkptr x.ck.rkptr,
    acc0 := x.ck.acc0, acc1 := x.ck.acc1,
    bar := x.ck.bar, arrived := none, stall := none, stallK := none, relF := none, acqF := none,
    reg := { x.reg with yield := false, fresh := true, cnt := 0 } }

/-- Loop accesses of a discarded context: stores perform at once, but for a release whose commit has not come, and loads that
no straddler waits for are cancelled (R104, R243, R251). -/
def loopDiscard (c : CoreId) (k : CtxId) (keep : List Nat) (l : List LoopAcc) : List LoopAcc :=
  l.filterMap (fun a =>
    if a.core = c && a.ctx = k then
      match a.req with
      | none => if a.held then none else some { a with ic := none }
      | some r => if keep.contains r then some a else none
    else some a)

/-- The matrix commands of a context that its open region issued (R233). -/
def openMatrix (x : Core) (k : CtxId) : List MCmd :=
  (x.mq ++ (match x.rt with
            | some r => [r.cmd]
            | none => [])).filter (fun m => m.ctx == k && !m.comm)

/-- The core's matrix unit after a discard by a context. -/
def Core.matrixDiscard (x : Core) (k : CtxId) : Core :=
  let dead := (openMatrix x k).map (·.id)
  { x with
    mq := x.mq.filter (fun m => !dead.contains m.id),
    rt := match x.rt with
      | some r => if dead.contains r.cmd.id then none else some r
      | none => none,
    drains := x.drains.filter (fun d => !dead.contains d.cmd),
    shrs := x.shrs.filter (fun d => !dead.contains d.cmd) }

/-- The open region of a context is undone (R263): everything but the re-entry itself. -/
def State.undo (s : State) (c : CoreId) (k : CtxId) : State :=
  let x := s.ctx c k
  let cancelled := x.pushes.map (·.prod) ++ (openMatrix (s.core c) k).map (·.prod)
  let s1 := s.endProds cancelled
  let x1 := (s1.ctx c k).discard
  let keep := x1.reqs.map (·.id)
  let s2 := s1.updCore c (fun y => (y.matrixDiscard k).setCtx k x1)
  { s2 with loopq := loopDiscard c k keep s2.loopq,
            handles := s2.handles.map (fun (p : Nat × Hnd) => (p.1, p.2.discard x c)) }

/-- Discard the open region of a context: it is undone, with a deviation record (R263, R358). No syllable causes it: the model gives its
SLOT as 15, as for a context switch and a halt (DESIGN CHOICE, log 101). -/
def State.discard (s : State) (c : CoreId) (k : CtxId) : State :=
  let x := s.ctx c k
  (s.undo c k).trace (tileOf c) x.reg.entry 15 10 ((s.core c).ic - x.reg.openIc)

/-! ## Commit (R137, R232, R264) -/

/-- The write is a store. -/
def WEnt.isSt (w : WEnt) : Bool :=
  match w.op with
  | .st _ => true
  | _ => false

/-- The Cask in performing order: the stores, then the reductions, each in issue order (R137, R168); a store that releases, and
what follows it, comes after the reductions issued before it too (R251). `reds` holds the reductions met so far. -/
def caskFrom (reds : List WEnt) : List WEnt → List WEnt
  | [] => reds
  | w :: l =>
    if !w.isSt then caskFrom (reds ++ [w]) l
    else if w.rel.isSome then reds ++ w :: caskFrom [] l
    else w :: caskFrom reds l

def caskOrder (l : List WEnt) : List WEnt := caskFrom [] l

/-- What a commit checkpoints. -/
def Ctx.checkpoint (x : Ctx) : Ckpt :=
  { flags := x.hart.flags, fevt0 := x.hart.fevt0, fevt1 := x.hart.fevt1, rkcfg := x.rkcfg, rkptr := x.rkptr,
    acc0 := x.acc0, acc1 := x.acc1, dq := x.dq, bar := x.bar }

/-- A late atomic result whose value the latch still waits for (R167). -/
def Ctx.latched (x : Ctx) (p : Pend) : Bool :=
  match x.latch, p.src with
  | .pending r, .wait i _ => r == i
  | _, _ => false

/-- The late atomic result that a commit carries as a straddler (R167). -/
def Ctx.lateLatched (x : Ctx) : List Pend := x.landed.filter (fun p => p.late && p.strad.isNone && x.latched p)

/-- A context after a commit, with the region that opens and the issue cycle of its opening bundle: results in flight
straddle (R264), pushes form a batch (R254). -/
def Ctx.commit (x : Ctx) (gt : Nat) (loops : List Nat) (reg : Region) : Ctx :=
  let ws := (caskOrder x.cask).map (fun w => { w with cgt := gt })
  { x with
    hart := { x.hart with pend := (x.hart.pend ++ x.lateLatched).map (fun p => { p with strad := some (p.ic - reg.openIc), rep := false }) },
    cask := [], wbuf := x.wbuf ++ ws,
    pushes := [],
    batches := if x.pushes.isEmpty then x.batches
               else x.batches ++ [{ pushes := x.pushes, writes := ws.map (·.id), loops := loops, ic := x.hart.ic }],
    ck := x.checkpoint, dqPop := 0, dqIn := x.dqIn.map (fun d => { d with comm := true, off := some (d.ic - reg.openIc) }), dqOld := [],
    flq := x.flq.map (fun r => { r with both := true }),
    landed := [], latch := .empty, relF := none, relB := x.relF.map (fun f => (x.hart.ic, f)), reg := reg }

/-- Commit the open region of a context and open another (R137). -/
def State.commit (s : State) (c : CoreId) (k : CtxId) (reg : Region) : State :=
  let x := s.ctx c k
  let loops := (s.loopq.filter (fun a => a.core == c && a.ctx == k && a.wr.isSome)).map (·.id)
  let pids := x.pushes.map (·.prod)
  let s1 := s.updCore c (fun y =>
    ({ y with mq := mapWhere (fun m => m.ctx == k) (fun m => { m with comm := true }) y.mq,
              rt := match y.rt with
                | some r => some (if r.cmd.ctx == k then { r with cmd := { r.cmd with comm := true } } else r)
                | none => none }).setCtx k (x.commit s.gt loops reg))
  { s1 with handles := s1.handles.map (fun (p : Nat × Hnd) => (p.1, p.2.commit x c)),
            loopq := mapWhere (fun a => a.core == c && a.ctx == k) (fun a => { a with held := false }) s1.loopq,
            prods := mapWhere (fun p => pids.contains p.id) (fun p => { p with push := false }) s1.prods,
            replay := { s1.replay with todo := s1.replay.todo.filter (fun p => p != (c, k)) } }

/-- A result's data is not yet at the core and the core does not control it (R102, R264). -/
def absentReq (s : State) (x : Ctx) (r : Nat) : Bool :=
  x.reqs.any (fun q => q.id == r && !q.sure && q.arr.all (fun a => s.gt < a))

/-- Counted Straddle entries among some results (R264). -/
def countAbsent (s : State) (x : Ctx) (l : List Pend) : Nat :=
  (l.filter (fun p => match p.src with
                      | .wait r _ => absentReq s x r
                      | _ => false)).length

/-- Matrix commands of a context, queued or running. -/
def Core.matrixBusy (y : Core) (k : CtxId) : List MCmd :=
  y.mq.filter (fun m => m.ctx == k) ++ (match y.rt with
                                         | some r => if r.cmd.ctx = k then [r.cmd] else []
                                         | none => [])

/-- Matrix commands of a context that hold an entry of its queue: a suspended routine too (R217, R234). -/
def Core.matrixOf (y : Core) (k : CtxId) : List MCmd :=
  y.matrixBusy k ++ (match (y.ctx k).susp with
                     | some r => [r.cmd]
                     | none => [])

/-- STRUSE: the counted entries in use (R128, R264). -/
def struse (s : State) (c : CoreId) (k : CtxId) : Nat :=
  let x := s.ctx c k
  countAbsent s x (x.hart.pend.filter (fun p => p.strad.isSome && !p.rep) ++ x.landed.filter (·.strad.isSome)) +
    ((s.core c).matrixOf k |>.filter (·.comm)).length

/-- The counted entries that a commit now would leave. -/
def strAfter (s : State) (c : CoreId) (k : CtxId) : Nat :=
  let x := s.ctx c k
  countAbsent s x (x.hart.pend ++ x.lateLatched) + ((s.core c).matrixOf k).length

/-! ## Ending tasks and gangs (R24, R148, R267, R328, R333) -/

/-- Release every block of a context: their lines stay, and they pin them no longer (R172). -/
def State.freeBlocks (s : State) (c : CoreId) (k : CtxId) : State :=
  let x := s.ctx c k
  (s.endProds ((x.blocks.filter (·.filling)).map (·.prod))).updCtx c k (fun x => { x with blocks := [] })

/-- A context stops issuing: its pending Loop stores perform in issue order, before the next bundle's accesses (R243). -/
def State.stopLoops (s : State) (c : CoreId) (k : CtxId) : State :=
  { s with loopq := mapWhere (fun a => a.core == c && a.ctx == k && a.req.isNone && !a.held) (fun a => { a with ic := none }) s.loopq }

/-- The core runs no context. -/
def Core.idle (y : Core) (k : CtxId) : Core := { y with run := if y.run = some k then none else y.run }

/-- A running context stops being issued, and stays resident in the state given (R25, R243). -/
def State.leave (s : State) (c : CoreId) (k : CtxId) (st : TSt) : State :=
  ((s.stopLoops c k).updCtx c k (fun x => { x with st := st, stopAtCommit := false, stall := none, stallK := none })).updCore c (·.idle k)

/-- The rerun pair of a context starts again at attempt A (R285). -/
def Ctx.pairAgain (y : Ctx) : Ctx :=
  { y with rerun := match y.rerun with
      | some r => some { r with second := false, crc := 0xFFFFFFFF, evs := [] }
      | none => none }

/-- Free a context: EVTPEND.CTXF of its tile (R324). -/
def State.freeCtxAt (s : State) (c : CoreId) (k : CtxId) : State := (s.setCtx c k {}).evt (tileOf c) 4

/-- The context becomes Ended: its core issues another, its member is ended (R24). -/
def State.endCtx (s : State) (c : CoreId) (k : CtxId) (ok : Bool) : State :=
  let g := (s.ctx c k).gang.toNat
  let s1 := ((s.stopLoops c k).freeBlocks c k).updCtx c k (fun x => { x with st := .ended, stall := none, stallK := none, reAt := none, rerun := none })
  let s2 := s1.updCore c (fun y => { y.idle k with switch := match y.switch with
                                              | some (_, k') => if k' = k then none else y.switch
                                              | none => none })
  s2.updMember g c (fun m => { m with st := .ended ok })

/-- Kill one member of a gang (R267): resident, starting or saved. On a halted core the discard waits for its resume (R355). -/
def State.killMember (s : State) (g : Nat) (m : Member) : State :=
  match m.st with
  | .ended _ => s
  | .wanted => s.updMember g m.core (fun x => { x with st := .ended false })
  | .saved _ => s.updMember g m.core (fun x => { x with st := .ended false })
  | .held k | .restoring k _ =>
    (s.freeCtxAt m.core k).updMember g m.core (fun x => { x with st := .ended false })
  | .resident k => if (s.core m.core).halted then s else (s.discard m.core k).endCtx m.core k false

def State.killMembers (s : State) (g : Nat) : List Member → State
  | [] => s
  | m :: l => (s.killMember g m).killMembers g l

/-- The status and the reason of a gang that is killed; the first to reach the home stands, and FAULT prevails over KILLED in one gt
(R333). -/
def State.markKilled (s : State) (g status reason : Nat) : State :=
  s.updGang g (fun y =>
    if y.status = 0 || (y.status = 2 && status = 1 && y.statGt = s.gt) then { y with status := status, reason := reason, statGt := s.gt }
    else y)

/-- Kill a gang with a status and a reason; the first status to reach the home stands, and FAULT prevails over KILLED in
one gt (R333). -/
def State.killGang (s : State) (g status reason : Nat) : State :=
  match s.gang g with
  | none => s
  | some x => (s.markKilled g status reason).killMembers g x.mems

/-! ## Taking a fault -/

/-- FLG of a record of a context (R269). -/
def recFlg (x : Ctx) (t : Trap) : Nat := (if x.rerun.isSome then 4 else 0) + t.flg

/-- The record of a fault of a context. -/
def ctxRec (s : State) (c : CoreId) (x : Ctx) (slot pc : Nat) (t : Trap) : FRec :=
  mkRec t.code (dispOf t.code) slot (recFlg x t) c.val x.asid.toNat x.taskid x.gang pc t.addr s.gt x.reg.rrc
    t.cause t.detail

/-- The task-fault disposition of a context (R267): the region is discarded, the task ends faulted, the record is routed,
and the rest of the gang is killed. On a halted core the discard waits for its resume (R355). -/
def State.taskFault (s : State) (c : CoreId) (k : CtxId) (r : FRec) (more : Option FRec) : State :=
  let g := (s.ctx c k).gang.toNat
  let s1 := if (s.core c).halted then s else (s.discard c k).endCtx c k false
  let s2 := s1.recOrWait c k r more
  s2.killGang g 1 (recCode r)

/-- The re-entry of a discarded region (R265, R267): COUNT + 1, its bundle issues at least 8 gt later; with COUNT = 8 the
region-livelock fault instead. A task that a stop has reached stays at its `rgn` bundle, ready (R37, R38, R289). -/
def State.reenter (s : State) (c : CoreId) (k : CtxId) : State :=
  let x := s.ctx c k
  if x.reg.rrc = 8 then s.taskFault c k (ctxRec s c x 0xFF x.hart.bpc { code := fLivelock }) none
  else
    let s1 := s.updCtx c k (fun x => { x with reg := { x.reg with rrc := x.reg.rrc + 1 }, reAt := some (s.gt + 8) })
    if x.stopAtCommit then (s1.updCtx c k (·.pairAgain)).leave c k .ready else s1

/-- The first attempt of a rerun pair starts on a discarded region (R285). The bundle and the slot of an uncorrectable error are kept,
for one that recurs there is persistent; another fault has a slot that none has (R283). -/
def State.startPair (s : State) (c : CoreId) (k : CtxId) (pc slot : Nat) : State :=
  (s.updCtx c k (fun x => { x with rerun := some { second := false, crc := 0xFFFFFFFF, aCyc := 0,
                                                                 aCrc := 0, errPc := pc, errSl := slot, gt := s.gt } })).reenter c k

/-- A rerun pair was begun in this gt (R268). -/
def Ctx.pairNow (x : Ctx) (gt : Nat) : Bool := x.rerun.any (fun r => !r.second && r.gt == gt)

/-- A fault whose task stays running: its region is discarded, and its record is routed unless it ends in a livelock, whose record it
is then (R265, R267, log 94). -/
def State.goesOn (s : State) (c : CoreId) (k : CtxId) (slot pc : Nat) (t : Trap) : State :=
  let x := s.ctx c k
  let s1 := s.discard c k
  if x.reg.rrc = 8 then s1 else s1.report (tileOf c) false (ctxRec s c x slot pc t)

/-- Taking a fault on a core (R266-R269, R285): `slot` and `pc` are what the record shows. In the gt in which a rerun pair was begun
no other fault is taken (R268). A rerun pair's fault takes its own disposition, and the pair starts again at attempt A. An
uncorrectable error that recurs at the same bundle and slot of a pair is persistent, a task fault (R283). A breakpoint that a task
meets once a stop has reached it discards its region (R289). The records of re-entries and rerun pairs are routed as the others are,
and a full ring drops and counts them as reports (log 94). -/
def State.coreFault (s : State) (c : CoreId) (k : CtxId) (slot pc : Nat) (t : Trap) : State :=
  let x := s.ctx c k
  if x.pairNow s.gt then s else
  let persist := t.code = fUncorr && (match x.rerun with
    | some r => r.errPc = pc && r.errSl = slot
    | none => false)
  if persist then
    let r := mkRec t.code 4 slot (recFlg x t + 8) c.val x.asid.toNat x.taskid x.gang pc t.addr s.gt x.reg.rrc t.cause
      t.detail
    s.taskFault c k r none
  else
    match dispOf t.code with
    | 0 => (s.goesOn c k slot pc t).updCtx c k (·.pairAgain) |>.reenter c k
    | 1 =>
      let r := ctxRec s c x slot pc t
      (((s.discard c k).updCtx c k (·.pairAgain)).leave c k .parked).recOrWait c k r none
    | 2 =>
      let r := ctxRec s c x slot pc t
      if x.stopAtCommit then (((s.discard c k).updCtx c k (·.pairAgain)).leave c k .parked).recOrWait c k r none
      else ((s.stopLoops c k).updCtx c k (fun y => { y with st := .parkedPlace })).recOrWait c k r none
    | 3 => (s.goesOn c k slot pc t).startPair c k pc (if t.code = fUncorr then slot else 256)
    | _ => s.taskFault c k (ctxRec s c x slot pc t) none

/-- Taking a fault on a Cellarer (R322): it stops at the faulting bundle, RUN := 0, and the record goes out with CELL. -/
def State.cellFault (s : State) (t : TileId) (slot pc : Nat) (tr : Trap) : State :=
  let s1 := s.updCell t (fun c => { c with run := false, faulted := true, stall := none, stallK := none,
                                           hart := { c.hart with redir := none, pc := pc } })
  s1.report t true (mkRec tr.code (dispOf tr.code) slot 2 0xFFFF (s.cell t).casid.toNat 0 0 pc tr.addr s.gt 0 tr.cause tr.detail)

/-- The syllable in execution raises a fault: what is left of its bundle does not perform. -/
def State.raise (s : State) (t : Trap) : State :=
  match s.cur with
  | .core c k => { s.coreFault c k (s.ctx c k).hart.slot (s.ctx c k).hart.bpc t with abort := true }
  | .cell tl => { s.cellFault tl (s.cell tl).hart.slot (s.cell tl).hart.bpc t with abort := true }
  | _ => s

/-- A fault of the whole bundle, which has no slot: SLOT 0xFF (R269). -/
def State.raiseBundle (s : State) (t : Trap) : State :=
  match s.cur with
  | .core c k => { s.coreFault c k 0xFF (s.ctx c k).hart.bpc t with abort := true }
  | .cell tl => { s.cellFault tl 0xFF (s.cell tl).hart.bpc t with abort := true }
  | _ => s

/-! ## Meanings of syllables as functions on registers -/

/-- Run a function of the scalar registers in execution. -/
def onHart (s : State) (f : Hart → Res Hart) : Out :=
  match f s.hart with
  | .ok h => .next (s.setHart h)
  | .trap t => .next (s.raise t)

/-- Run a function of the context in execution; outside a core it has no effect. -/
def onCtx (s : State) (f : Ctx → Res Ctx) : Out :=
  match s.cur with
  | .core c k =>
    match f (s.ctx c k) with
    | .ok x => .next (s.setCtx c k x)
    | .trap t => .next (s.raise t)
  | _ => .next s

end Sys2Proof.Machine
end

