-- ==== Sys2Proof/Machine/Fetch.lean ====
section
/-! DEFINITION. Machine/Fetch.lean: the fetch of a bundle's words (R78, R321), and the length of the bundles that follow
one (R134). -/

namespace Sys2Proof.Machine

/-- A byte of a line as an agent of a tile sees it: from the copy its tile holds, if it holds one, else from the home
(R246, R247). -/
def State.seen (s : State) (t : TileId) (ks key : Nat) : Byte :=
  if isLoopKey key then s.byteAt ks key
  else
    match (s.tile t).copies.find? (fun c => c.key == key / 64) with
    | some c => c.bs.getD (key % 64) 0
    | none => s.byteAt ks key

/-- The bytes of some pieces as an agent of a tile sees them. -/
def State.seenSegs (s : State) (t : TileId) (l : List Seg) : List Byte :=
  l.flatMap (fun g => (fromTo g.key g.len).map (s.seen t g.ks))

/-- One word of a fetch, by the rights of the agent. -/
def fetchWord (s : State) (t : TileId) (r : Except XF (List Seg × List TlbEnt)) : Except XF (Nat × List TlbEnt) :=
  match r with
  | .error f => .error f
  | .ok (l, es) => .ok (leNat (s.seenSegs t l), es)

/-- The words of a bundle, up to 16: `ext` is the E bit of the syllable whose extension comes next (R77). -/
def fetchWords (rd : Nat → Except XF (Nat × List TlbEnt)) : Nat → Nat → Option Bool → Except XF (List Nat × List TlbEnt)
  | 0, _, _ => .ok ([], [])
  | n + 1, va, ext =>
    match rd va with
    | .error f => .error f
    | .ok (w, es) =>
      let e := w / 2 ^ 31 % 2 = 1
      let xt := w / 2 ^ 26 % 2 = 1
      let stop : Bool := match ext with
        | some b => b
        | none => e && !xt
      if stop then .ok ([w], es)
      else
        let next : Option Bool := match ext with
          | some _ => none
          | none => if xt then some e else none
        match fetchWords rd n (va + 4) next with
        | .error f => .error f
        | .ok (ws, es2) => .ok (w :: ws, es ++ es2)

/-- The words of the bundle at an address of a context's task, with the translations used: an address with bits above 55 is
the access fault (R78). -/
def fetchCore (s : State) (c : CoreId) (asid pc : Nat) : Except XF (List Nat × List TlbEnt) :=
  let t := tileOf c
  fetchWords (fun va => fetchWord s t
    (if 2 ^ 56 ≤ va then .error { code := 5, cause := 6, addr := va } else xlateSegs s true t (some c) asid .fetch 2 va 4)) 16 pc none

/-- The words of the bundle at an address of a Cellarer's program. -/
def fetchCell (s : State) (t : TileId) (pc : Nat) : Except XF (List Nat × List TlbEnt) :=
  fetchWords (fun va => fetchWord s t (cellSegs s t va 4 .fetch)) 16 pc none

/-- The words at an address for the agent in execution. -/
def fetchCur (s : State) (pc : Nat) : Except XF (List Nat × List TlbEnt) :=
  match s.cur with
  | .core c k => fetchCore s c (s.ctx c k).asid.toNat pc
  | .cell t => fetchCell s t pc
  | _ => .error { code := fAccess, cause := 6 }

/-- The address after `n` bundles in fall-through order from an address, when their words can be fetched. -/
def fallThrough (s : State) : Nat → Nat → Option Nat
  | 0, pc => some pc
  | n + 1, pc =>
    match fetchCur s pc with
    | .error _ => none
    | .ok (ws, _) => fallThrough s n (pc + 4 * ws.length)

end Sys2Proof.Machine
end

