-- ==== Sys2Proof/Machine/Scalar.lean ====
section
/-! DEFINITION. Machine/Scalar.lean: the A and AI syllables (R115-R129). -/

namespace Sys2Proof.Machine

/-! ## Integer results (R117-R119) -/

/-- Signed and unsigned readings of the low bits. -/
def slow (w : Nat) (x : Word) : Int := signedOf w (low w x)

def addW (w : Nat) (a b : Word) : Word := extS w (low w a + low w b)
def subW (w : Nat) (a b : Word) : Word := extS w (wrap w ((low w a : Int) - low w b))
def andW (w : Nat) (a b : Word) : Word := extZ w (a &&& b).toNat
def orW (w : Nat) (a b : Word) : Word := extZ w (a ||| b).toNat
def xorW (w : Nat) (a b : Word) : Word := extZ w (a ^^^ b).toNat
def andnW (w : Nat) (a b : Word) : Word := extZ w (a &&& ~~~b).toNat
def shlW (w : Nat) (a b : Word) : Word := extZ w (low w a <<< (b.toNat % w))
def shrW (w : Nat) (a b : Word) : Word := extZ w (low w a >>> (b.toNat % w))
def sarW (w : Nat) (a b : Word) : Word := extS w (wrap w (slow w a >>> (b.toNat % w)))
def rolW (w : Nat) (a b : Word) : Word :=
  extZ w ((low w a <<< (b.toNat % w)) ||| (low w a >>> (w - b.toNat % w)))
def mulW (w : Nat) (a b : Word) : Word := extS w (low w a * low w b)
def mulhW (w : Nat) (a b : Word) : Word := extS w (wrap w (slow w a * slow w b / 2 ^ w))
def mulhnW (w : Nat) (a b : Word) : Word := extZ w (low w a * low w b / 2 ^ w)

/-- The quotient of R118, truncated towards zero. -/
def divW (w : Nat) (a b : Word) : Word :=
  if low w b = 0 then extS w (2 ^ w - 1)
  else if low w a = 2 ^ (w - 1) && low w b = 2 ^ w - 1 then extS w (low w a)
  else extS w (wrap w (Int.tdiv (slow w a) (slow w b)))

def divnW (w : Nat) (a b : Word) : Word := if low w b = 0 then extZ w (2 ^ w - 1) else extZ w (low w a / low w b)

/-- The remainder of R118, of the sign of the dividend. -/
def remW (w : Nat) (a b : Word) : Word :=
  if low w b = 0 then extS w (low w a)
  else if low w a = 2 ^ (w - 1) && low w b = 2 ^ w - 1 then 0
  else extS w (wrap w (slow w a - slow w b * Int.tdiv (slow w a) (slow w b)))

def remnW (w : Nat) (a b : Word) : Word := if low w b = 0 then extZ w (low w a) else extZ w (low w a % low w b)

def minW (w : Nat) (a b : Word) : Word := extS w (if slow w b < slow w a then low w b else low w a)
def maxW (w : Nat) (a b : Word) : Word := extS w (if slow w a < slow w b then low w b else low w a)
def minnW (w : Nat) (a b : Word) : Word := extZ w (min (low w a) (low w b))
def maxnW (w : Nat) (a b : Word) : Word := extZ w (max (low w a) (low w b))

/-- Zero bits above the highest one bit among `w`. -/
def clzW (w : Nat) (a : Word) : Word := BitVec.ofNat 64 (if low w a = 0 then w else w - 1 - Nat.log2 (low w a))

/-- Zero bits below the lowest one bit among `w`. -/
def ctzW (w : Nat) (a : Word) : Word :=
  BitVec.ofNat 64 (match (fromTo 0 w).find? (fun i => a.getLsbD i) with
    | some i => i
    | none => w)

def popW (w : Nat) (a : Word) : Word := BitVec.ofNat 64 ((fromTo 0 w).filter (fun i => a.getLsbD i)).length

/-- The field mask of R119. -/
def fieldMask (w : Nat) (b : Word) : Word :=
  BitVec.ofNat 64 (((2 ^ min (wbits b 8 7) 64 - 1) <<< wbits b 0 6) % 2 ^ w)

def bextW (w : Nat) (a b : Word) : Word := (extZ w a.toNat &&& fieldMask w b) >>> wbits b 0 6
def binsW (w : Nat) (d a b : Word) : Word :=
  (extZ w d.toNat &&& ~~~(fieldMask w b)) ||| ((extZ w a.toNat <<< wbits b 0 6) &&& fieldMask w b)

def sxtW (w : Nat) (a : Word) : Word := extS w (low w a)
def zxtW (w : Nat) (a : Word) : Word := extZ w (low w a)

/-! ## Shapes of A and AI syllables (R98, R115, R116) -/

/-- Two register sources: the result is poisoned when either is. -/
def alu2 (lat : Nat) (sd sa sb : Reg) (f : Word → Word → Word) (s : State) : Out :=
  onHart s (fun h => .ok (h.outS lat sd (f (h.rs sa) (h.rs sb)) (h.sPois sa || h.sPois sb)))

/-- One register source. -/
def alu1 (lat : Nat) (sd sa : Reg) (f : Word → Word) (s : State) : Out :=
  onHart s (fun h => .ok (h.outS lat sd (f (h.rs sa)) (h.sPois sa)))

/-- A compare: a poisoned source is the late-arrival fault. -/
def cmp2 (bd : BReg) (sa sb : Reg) (f : Word → Word → Bool) (s : State) : Out :=
  onHart s (fun h => needClean (h.sPois sa || h.sPois sb) (.ok (h.outB 1 bd (f (h.rs sa) (h.rs sb)))))

/-- A compare with an immediate. -/
def cmp1 (bd : BReg) (sa : Reg) (f : Word → Bool) (s : State) : Out :=
  onHart s (fun h => needClean (h.sPois sa) (.ok (h.outB 1 bd (f (h.rs sa)))))

/-- Predicate logic. -/
def bop2 (bd ba bb : BReg) (f : Bool → Bool → Bool) (s : State) : Out :=
  onHart s (fun h => .ok (h.outB 1 bd (f (h.rb ba) (h.rb bb))))

/-- Scalar floating point with two sources (R124). -/
def fop2 (sd sa sb : Reg) (f : RM → W32 → W32 → W32 × Fl) (s : State) : Out :=
  onHart s (fun h =>
    let r := f (arnd h.fr) ((h.rs sa).setWidth 32) ((h.rs sb).setWidth 32)
    .ok (h.outSF 4 sd (r.1.setWidth 64) (h.sPois sa || h.sPois sb) r.2))

/-- A scalar conversion (R125). -/
def fop1 (sd sa : Reg) (f : Word → Word → Word × Fl) (s : State) : Out :=
  onHart s (fun h =>
    let r := f h.fr (h.rs sa)
    .ok (h.outSF 4 sd r.1 (h.sPois sa) r.2))

/-! ## A -/

def execAdd (w : Width) (sd sa sb : Reg) (s : State) : Out := alu2 1 sd sa sb (addW (wid w)) s
def execSub (w : Width) (sd sa sb : Reg) (s : State) : Out := alu2 1 sd sa sb (subW (wid w)) s
def execAnd (w : Width) (sd sa sb : Reg) (s : State) : Out := alu2 1 sd sa sb (andW (wid w)) s
def execOr (w : Width) (sd sa sb : Reg) (s : State) : Out := alu2 1 sd sa sb (orW (wid w)) s
def execXor (w : Width) (sd sa sb : Reg) (s : State) : Out := alu2 1 sd sa sb (xorW (wid w)) s
def execAndn (w : Width) (sd sa sb : Reg) (s : State) : Out := alu2 1 sd sa sb (andnW (wid w)) s
def execShl (w : Width) (sd sa sb : Reg) (s : State) : Out := alu2 1 sd sa sb (shlW (wid w)) s
def execShr (w : Width) (sd sa sb : Reg) (s : State) : Out := alu2 1 sd sa sb (shrW (wid w)) s
def execSar (w : Width) (sd sa sb : Reg) (s : State) : Out := alu2 1 sd sa sb (sarW (wid w)) s
def execRol (w : Width) (sd sa sb : Reg) (s : State) : Out := alu2 1 sd sa sb (rolW (wid w)) s
def execMul (w : Width) (sd sa sb : Reg) (s : State) : Out := alu2 3 sd sa sb (mulW (wid w)) s
def execMulh (w : Width) (sd sa sb : Reg) (s : State) : Out := alu2 3 sd sa sb (mulhW (wid w)) s
def execMulhn (w : Width) (sd sa sb : Reg) (s : State) : Out := alu2 3 sd sa sb (mulhnW (wid w)) s
def execDiv (w : Width) (sd sa sb : Reg) (s : State) : Out := alu2 12 sd sa sb (divW (wid w)) s
def execDivn (w : Width) (sd sa sb : Reg) (s : State) : Out := alu2 12 sd sa sb (divnW (wid w)) s
def execRem (w : Width) (sd sa sb : Reg) (s : State) : Out := alu2 12 sd sa sb (remW (wid w)) s
def execRemn (w : Width) (sd sa sb : Reg) (s : State) : Out := alu2 12 sd sa sb (remnW (wid w)) s
def execMin (w : Width) (sd sa sb : Reg) (s : State) : Out := alu2 1 sd sa sb (minW (wid w)) s
def execMax (w : Width) (sd sa sb : Reg) (s : State) : Out := alu2 1 sd sa sb (maxW (wid w)) s
def execMinn (w : Width) (sd sa sb : Reg) (s : State) : Out := alu2 1 sd sa sb (minnW (wid w)) s
def execMaxn (w : Width) (sd sa sb : Reg) (s : State) : Out := alu2 1 sd sa sb (maxnW (wid w)) s

def execCmpEq (w : Width) (bd : BReg) (sa sb : Reg) (s : State) : Out :=
  cmp2 bd sa sb (fun a b => low (wid w) a == low (wid w) b) s
def execCmpNe (w : Width) (bd : BReg) (sa sb : Reg) (s : State) : Out :=
  cmp2 bd sa sb (fun a b => low (wid w) a != low (wid w) b) s
def execCmpLt (w : Width) (bd : BReg) (sa sb : Reg) (s : State) : Out :=
  cmp2 bd sa sb (fun a b => slow (wid w) a < slow (wid w) b) s
def execCmpLtn (w : Width) (bd : BReg) (sa sb : Reg) (s : State) : Out :=
  cmp2 bd sa sb (fun a b => low (wid w) a < low (wid w) b) s
def execCmpLe (w : Width) (bd : BReg) (sa sb : Reg) (s : State) : Out :=
  cmp2 bd sa sb (fun a b => slow (wid w) a ≤ slow (wid w) b) s
def execCmpLen (w : Width) (bd : BReg) (sa sb : Reg) (s : State) : Out :=
  cmp2 bd sa sb (fun a b => low (wid w) a ≤ low (wid w) b) s

/-- A conditional move: no result where the condition fails (R122). -/
def selOn (cond : Bool) (sd sa : Reg) (h : Hart) : Hart := if cond then h.outS 1 sd (h.rs sa) (h.sPois sa) else h

def execSel (sd sa : Reg) (bc : BReg) (s : State) : Out := onHart s (fun h => .ok (selOn (h.rb bc) sd sa h))
def execSelNot (sd sa : Reg) (bc : BReg) (s : State) : Out := onHart s (fun h => .ok (selOn (!h.rb bc) sd sa h))

def execClz (w : Width) (sd sa : Reg) (s : State) : Out := alu1 1 sd sa (clzW (wid w)) s
def execCtz (w : Width) (sd sa : Reg) (s : State) : Out := alu1 1 sd sa (ctzW (wid w)) s
def execPop (w : Width) (sd sa : Reg) (s : State) : Out := alu1 1 sd sa (popW (wid w)) s
def execBext (w : Width) (sd sa sb : Reg) (s : State) : Out := alu2 1 sd sa sb (bextW (wid w)) s

/-- `bins` reads its destination too (R119). -/
def execBins (w : Width) (sd sa sb : Reg) (s : State) : Out :=
  onHart s (fun h =>
    .ok (h.outS 1 sd (binsW (wid w) (h.rs sd) (h.rs sa) (h.rs sb)) (h.sPois sd || h.sPois sa || h.sPois sb)))

def execSxt (w : Width) (sd sa : Reg) (s : State) : Out := alu1 1 sd sa (sxtW (wid w)) s
def execZxt (w : Width) (sd sa : Reg) (s : State) : Out := alu1 1 sd sa (zxtW (wid w)) s
def execAdds (k : BitVec 2) (sd sa sb : Reg) (s : State) : Out := alu2 1 sd sa sb (fun a b => a + (b <<< k.toNat)) s
def execMov (sd sa : Reg) (s : State) : Out := alu1 1 sd sa (fun a => a) s

def execBopAnd (bd ba bb : BReg) (s : State) : Out := bop2 bd ba bb (fun a b => a && b) s
def execBopOr (bd ba bb : BReg) (s : State) : Out := bop2 bd ba bb (fun a b => a || b) s
def execBopXor (bd ba bb : BReg) (s : State) : Out := bop2 bd ba bb (fun a b => a != b) s
def execBopAndn (bd ba bb : BReg) (s : State) : Out := bop2 bd ba bb (fun a b => a && !b) s

def execFadds (sd sa sb : Reg) (s : State) : Out := fop2 sd sa sb fadd32 s
def execFsubs (sd sa sb : Reg) (s : State) : Out := fop2 sd sa sb fsub32 s
def execFmuls (sd sa sb : Reg) (s : State) : Out := fop2 sd sa sb fmul32 s

/-- The conversions of R125, from FR and the source. -/
def f2iW (fr a : Word) : Word × Fl :=
  let r := toSigned 64 (frnd fr).noSr (f32Val (a.setWidth 32))
  (BitVec.ofInt 64 r.1, r.2)
def i2fW (fr a : Word) : Word × Fl :=
  let r := round32 (arnd fr) (FVal.int a.toInt)
  (r.1.setWidth 64, r.2)
def toFmtW (k : Fmt) (fr a : Word) : Word × Fl :=
  let r := k.finalRound (frnd fr).noSr (f32Val (a.setWidth 32)) false 0
  (BitVec.ofNat 64 r.1, r.2)

def execFcvtsF2i (sd sa : Reg) (s : State) : Out := fop1 sd sa f2iW s
def execFcvtsI2f (sd sa : Reg) (s : State) : Out := fop1 sd sa i2fW s
def execFcvtsBf16 (sd sa : Reg) (s : State) : Out := fop1 sd sa (toFmtW fmtBf16) s
def execFcvtsF16 (sd sa : Reg) (s : State) : Out := fop1 sd sa (toFmtW fmtF16) s

/-! ## AI (R126) -/

def execAddi (sd sa : Reg) (i : BitVec 32) (s : State) : Out := alu1 1 sd sa (fun a => a + imm64 i) s
def execAndi (sd sa : Reg) (i : BitVec 32) (s : State) : Out := alu1 1 sd sa (fun a => a &&& imm64 i) s
def execOri (sd sa : Reg) (i : BitVec 32) (s : State) : Out := alu1 1 sd sa (fun a => a ||| imm64 i) s
def execXori (sd sa : Reg) (i : BitVec 32) (s : State) : Out := alu1 1 sd sa (fun a => a ^^^ imm64 i) s
def execShli (sd sa : Reg) (n : BitVec 6) (s : State) : Out := alu1 1 sd sa (fun a => a <<< n.toNat) s
def execShri (sd sa : Reg) (n : BitVec 6) (s : State) : Out := alu1 1 sd sa (fun a => a >>> n.toNat) s
def execSari (sd sa : Reg) (n : BitVec 6) (s : State) : Out := alu1 1 sd sa (fun a => a.sshiftRight n.toNat) s
def execCmpiEq (bd : BReg) (sa : Reg) (i : BitVec 32) (s : State) : Out := cmp1 bd sa (fun a => a == imm64 i) s
def execCmpiLt (bd : BReg) (sa : Reg) (i : BitVec 32) (s : State) : Out := cmp1 bd sa (fun a => a.slt (imm64 i)) s
def execCmpiLtn (bd : BReg) (sa : Reg) (i : BitVec 32) (s : State) : Out := cmp1 bd sa (fun a => a.ult (imm64 i)) s
def execMovi (sd : Reg) (i : BitVec 32) (s : State) : Out := onHart s (fun h => .ok (h.outS 1 sd (imm64 i) false))
def execMovh (sd sa : Reg) (i : BitVec 32) (s : State) : Out := alu1 1 sd sa (fun a => i ++ a.setWidth 32) s
def execMuli (sd sa : Reg) (i : BitVec 32) (s : State) : Out := alu1 3 sd sa (fun a => a * imm64 i) s
def execAddpc (sd : Reg) (i : BitVec 32) (s : State) : Out :=
  onHart s (fun h => .ok (h.outS 1 sd (BitVec.ofNat 64 h.bpc + imm64 i) false))

/-! ## Special registers (R128, R129, R59, R220, R225) -/

/-- The lines that the stores of a Cask hold. -/
def storeLines : List WEnt → List Nat → List Nat
  | [], acc => acc
  | w :: l, acc =>
    match w.op with
    | .st bs =>
      let first := w.va / 64
      storeLines l ((fromTo first ((w.va + bs.length + 63) / 64 - first)).foldl
        (fun a x => if a.contains x then a else x :: a) acc)
    | _ => storeLines l acc

/-- The reductions of a Cask. -/
def redCount (l : List WEnt) : Nat :=
  (l.filter (fun w => match w.op with
                      | .st _ => false
                      | _ => true)).length

/-- Lines of the Cask in use (R160). -/
def caskUse (l : List WEnt) : Nat := (storeLines l []).length + redCount l

/-- DQCNT (R208). -/
def Ctx.dqcnt (x : Ctx) : Word := BitVec.ofNat 64 (x.dqPop % 4096 * 4096 + x.dq.length % 4096)

/-- MSWIN (R220). -/
def Ctx.mswin (x : Ctx) : Word := BitVec.ofNat 64 (x.etab % 64 * 2 ^ 32 + x.mslen % 8192 * 2 ^ 16 + x.msbase % 4096)

/-- The effective priority of a context's gang (R28, R30). -/
def prioOf (s : State) (x : Ctx) : Nat :=
  match s.gang x.gang.toNat with
  | some g => g.eff
  | none => 0

/-- A special register of a context, as `rdsr` reads it (R128). -/
def readSr (s : State) (c : CoreId) (k : CtxId) (ix : Nat) : Word :=
  let x := s.ctx c k
  if ix = 0 then BitVec.ofNat 64 s.gt
  else if ix = 1 then BitVec.ofNat 64 c.val
  else if ix = 2 then BitVec.ofNat 64 k.val
  else if ix = 3 then x.taskid
  else if ix = 4 then x.asid.setWidth 64
  else if ix = 5 then BitVec.ofNat 64 (prioOf s x % 4)
  else if ix = 6 then x.gang
  else if ix = 7 then BitVec.ofNat 64 (x.reg.rrc % 16)
  else if ix = 8 then x.hart.fr
  else if ix = 9 then x.hart.flags
  else if ix = 10 then x.hart.fevt0
  else if ix = 11 then x.hart.fevt1
  else if ix = 12 then x.dqcnt
  else if ix = 13 then (if x.strict then 1 else 0)
  else if ix = 14 then BitVec.ofNat 64 (caskUse x.cask)
  else if ix = 15 then BitVec.ofNat 64 (struse s c k)
  else if ix < 24 then mapGet 0 x.rkcfg (ix - 16)
  else if ix < 32 then mapGet 0 x.rkptr (ix - 24)
  else if ix = 32 then x.mswin
  else if ix = 34 then s.devrec
  else if ix = 35 then x.arg
  else 0

/-- A special register of a Cellarer (R321). -/
def readCellSr (s : State) (h : Hart) (ix : Nat) : Word :=
  if ix = 0 then BitVec.ofNat 64 s.gt
  else if ix = 8 then h.fr
  else if ix = 9 then h.flags
  else if ix = 10 then h.fevt0
  else if ix = 11 then h.fevt1
  else if ix = 34 then s.devrec
  else 0

def execRdsr (sd : Reg) (ix : Reg) (s : State) : Out :=
  match s.cur with
  | .core c k => onHart s (fun h => .ok (h.outS 1 sd (readSr s c k ix.val) false))
  | _ => onHart s (fun h => .ok (h.outS 1 sd (readCellSr s h ix.val) false))

/-- R59: an FR value that a write refuses. -/
def frBad (v : Word) : Bool := v.toNat / 2 ^ 15 != 0 || 6 ≤ wbits v 2 3 || 13 ≤ wbits v 5 4

/-- A write of FR takes effect four issue cycles on (R60). -/
def setFr (v : Word) (h : Hart) : Res Hart :=
  if frBad v then .trap { code := fIllSyl } else .ok { h with frq := h.frq ++ [(h.ic + 4, v)] }

/-- The fields of RKCFG and RKPTR (R225). -/
def rkCap (cfg : Word) : Nat := wbits cfg 40 8
def rkPanl (cfg : Word) : Nat := wbits cfg 27 13
def rkBase (cfg : Word) : Nat := wbits cfg 0 15
def rkHead (p : Word) : Nat := wbits p 32 32
def rkTail (p : Word) : Nat := wbits p 0 32
def rkHeld (p : Word) : Nat := (rkTail p + 2 ^ 32 - rkHead p) % 2 ^ 32

/-- The value tests of R225. -/
def rackBad (cfg ptr : Word) : Bool :=
  (rkCap cfg != 0 && rkPanl cfg = 0) || (cfg.getLsbD 63 && rackSelf cfg)
    || 2 ^ 21 < 64 * (rkBase cfg + rkCap cfg * rkPanl cfg) || rkCap cfg < rkHeld ptr

/-- The rack that a command fills, if it is a RACKFILL. -/
def fillRack (bs : List Byte) : Option Nat :=
  match decodeCmd (leNat bs) with
  | some (.cmdRackfill f) => some f.rack.toNat
  | _ => none

/-- A RACKFILL to a rack of a context is unfinished: pushed, waiting to be sent, queued or running. -/
def rackFilling (s : State) (c : CoreId) (x : Ctx) (n : Nat) : Bool :=
  x.pushes.any (fun p => fillRack p.cmd == some n) ||
  x.batches.any (fun b => b.pushes.any (fun p => fillRack p.cmd == some n)) ||
  s.cmds.any (fun d => d.owner == x.owner c && !d.done && fillRack d.bytes == some n)

/-- Queue a write for the end of the bundle. -/
def Hart.later (h : Hart) (ix : Nat) (v : Word) : Hart := { h with srq := h.srq ++ [(ix, v)] }

/-- Queue a rack write after its use test and its value tests (R225). -/
def setRack (s : State) (c : CoreId) (k : CtxId) (n ix : Nat) (cfg ptr v : Word) (h : Hart) : Res Hart :=
  let x := s.ctx c k
  if !((s.core c).matrixOf k).isEmpty || rackFilling s c x n then .trap { code := fQueue, cause := 8 }
  else if rackBad cfg ptr then .trap { code := fIllSyl }
  else .ok (h.later ix v)

/-- A `wrsr` of a context (R129). -/
def wrsrCore (s : State) (c : CoreId) (k : CtxId) (ix : Nat) (v : Word) (h : Hart) : Res Hart :=
  let x := s.ctx c k
  if ix = 8 then setFr v h
  else if ix = 7 || ix = 12 then .ok h
  else if 16 ≤ ix && ix < 24 then setRack s c k (ix - 16) ix v (mapGet 0 x.rkptr (ix - 16)) v h
  else if 24 ≤ ix && ix < 32 then setRack s c k (ix - 24) ix (mapGet 0 x.rkcfg (ix - 24)) v v h
  else if ix = 32 then
    if x.mslen ≤ 64 * wbits v 32 6 + 63 then .trap { code := fIllSyl } else .ok (h.later ix v)
  else .ok (h.later ix v)

def execWrsr (ix : Reg) (sb : Reg) (s : State) : Out :=
  match s.cur with
  | .core c k => onHart s (fun h => needClean (h.sPois sb) (wrsrCore s c k ix.val (h.rs sb) h))
  | _ => onHart s (fun h => needClean (h.sPois sb) (if ix.val = 8 then setFr (h.rs sb) h else .ok (h.later ix.val (h.rs sb))))

/-- A queued write of the flag registers takes effect (R61, R63). -/
def Hart.applySr (h : Hart) (ix : Nat) (v : Word) : Hart :=
  if ix = 9 then { h with flags := h.flags &&& ~~~v }
  else if ix = 10 then { h with fevt0 := BitVec.ofNat 64 (v.toNat % 2 ^ 56) }
  else if ix = 11 then { h with fevt1 := v &&& 0x8000000001FF00FF }
  else h

/-- A queued write of a context's register takes effect. Reserved bits are ignored (R4). -/
def Ctx.applySr (x : Ctx) (ix : Nat) (v : Word) : Ctx :=
  if ix < 16 then { x with hart := x.hart.applySr ix v }
  else if ix < 24 then { x with rkcfg := mapSet x.rkcfg (ix - 16) (v &&& 0xFFFFFFFFFC007FFF) }
  else if ix < 32 then
    let n := ix - 24
    let keep := (v &&& 0xFFFFFFFF00000000) ||| (mapGet 0 x.ck.rkptr n &&& 0xFFFFFFFF)
    { x with rkptr := mapSet x.rkptr n v, ck := { x.ck with rkptr := mapSet x.ck.rkptr n keep } }
  else if ix = 32 then { x with etab := wbits v 32 6 }
  else if ix = 35 then { x with arg := v }
  else x

end Sys2Proof.Machine
end

