-- ==== Sys2Proof/Machine/Sched.lean ====
section
/-! DEFINITION. Machine/Sched.lean: the operations of gang scheduling: which gangs compete for a core, stopping members and
gangs, eviction, microstore windows, reservations, and the barrier (R23-R37, R143, R239). -/

namespace Sys2Proof.Machine

/-! ## Gangs and cores -/

/-- Every context number. -/
def ctxIds : List CtxId := [0, 1, 2]

/-- A context holds a task or a reservation. -/
def Ctx.busy (x : Ctx) : Bool := x.st != .free

/-- The gang of a context. -/
def gangAt (s : State) (c : CoreId) (k : CtxId) : Option Gang :=
  if (s.ctx c k).busy then s.gang (s.ctx c k).gang.toNat else none

/-- The effective priority of the gang of a context; 4 when there is none. -/
def effAt (s : State) (c : CoreId) (k : CtxId) : Nat :=
  match gangAt s c k with
  | some g => g.eff
  | none => 4

/-- A member has not ended. -/
def Member.live (m : Member) : Bool :=
  match m.st with
  | .ended _ => false
  | _ => true

/-- A gang has a live member on a core. -/
def Gang.on (g : Gang) (c : CoreId) : Bool := g.mems.any (fun m => m.core == c && m.live)

/-- R29: which of two ready gangs comes first. -/
def Gang.ahead (a b : Gang) : Bool :=
  if a.eff != b.eff then a.eff < b.eff
  else if a.since != b.since then a.since < b.since
  else if a.lq != b.lq then a.lq < b.lq
  else a.order < b.order

/-- The ready gangs with a live member on a core. -/
def readyOn (s : State) (c : CoreId) : List Gang := s.gangs.filter (fun g => g.st == .ready && g.on c)

/-- The stalls that a stop discards at once (R32). -/
def Stall.waits : Stall → Bool
  | .rcv _ _ _ _ | .snd _ _ _ _ | .twait _ | .gbar _ | .wgt _ => true
  | _ => false

/-- The context waits in such a stall. -/
def Ctx.waits (x : Ctx) : Bool := x.stall.any (·.waits) || x.stallK.any (·.1.waits)

/-- A member's region is discarded and it stops (R32): the re-entry count does not rise. -/
def State.stopNow (s : State) (c : CoreId) (k : CtxId) : State :=
  let parked := (s.ctx c k).st == .parkedPlace
  ((s.discard c k).updCtx c k (·.pairAgain)).leave c k (if parked then .parked else .ready)

/-- Bundles that the open region may still issue (R32). -/
def Ctx.remaining (x : Ctx) : Nat := 2 ^ (8 + x.reg.blim) - x.reg.cnt

/-- The open region was opened by a `rgn` that has committed in this gt. -/
def Ctx.openedNow (x : Ctx) (gt : Nat) : Bool := !x.reg.anon && x.reg.opened && x.reg.gt = gt && x.reg.cnt = 1

/-- A stop reaches a member (R32, R33, R37, R151, R289). In the gt of a `rgn` commit that commit is the stop point: its bundle is
undone. On a halted core it waits for the resume (R355). -/
def State.stopMember (s : State) (c : CoreId) (k : CtxId) : State :=
  let x := s.ctx c k
  match x.st with
  | .running =>
    if (s.core c).halted then s
    else if x.reAt.isSome then (s.updCtx c k (·.pairAgain)).leave c k .ready
    else if x.openedNow s.gt then (s.undo c k).leave c k .ready
    else if x.waits then s.stopNow c k
    else if x.remaining ≤ 2048 then s.updCtx c k (fun y => { y with stopAtCommit := true })
    else s.stopNow c k
  | .parkedPlace => if (s.core c).halted then s else s.stopNow c k
  | _ =>
    s.updCore c (fun y => { y with switch := match y.switch with
      | some (t, k') => if k' = k then none else some (t, k')
      | none => none })

/-- The stop reaches every member of a list. -/
def State.stopMembers (s : State) (g : Nat) : List Member → State
  | [] => s
  | m :: l =>
    match s.ctxOf g m.core with
    | some k => (s.stopMember m.core k).stopMembers g l
    | none => s.stopMembers g l

/-- A gang is stopped as a whole (R33). -/
def State.stopGang (s : State) (g : Nat) : State :=
  match s.gang g with
  | some x =>
    if x.st = .running then (s.updGang g (fun y => { y with st := .stopping })).stopMembers g x.mems else s
  | none => s

/-- The stop reaches again the members that it found on halted cores (R355). -/
def State.stopHeld (s : State) (g : Nat) : List Member → State
  | [] => s
  | m :: l =>
    (match s.ctxOf g m.core with
     | some k => if (s.ctx m.core k).stopAtCommit then s else s.stopMember m.core k
     | none => s).stopHeld g l

/-- Every member of a stopping gang has stopped. -/
def gangHalted (s : State) (g : Gang) : Bool :=
  g.mems.all (fun m => match s.ctxOf g.id m.core with
    | some k => let st := (s.ctx m.core k).st; st != .running && st != .parkedPlace
    | none => true)

/-- What a commit acts on after it: a stop, or a `yield` offer that a ready gang takes (R31, R32, R37). Answers whether
the task has stopped. -/
def State.afterCommit (s : State) (c : CoreId) (k : CtxId) (yield : Bool) : State × Bool :=
  let x := s.ctx c k
  if x.stopAtCommit then (s.leave c k .ready, true)
  else if yield && (readyOn s c).any (fun g => g.eff ≤ effAt s c k) then
    (((s.leave c k .ready).stopGang x.gang.toNat), true)
  else (s, false)

/-! ## The barrier (R143) -/

/-- The tasks of a gang on a tile have all arrived at barrier `n`; one that has ended counts as arrived. -/
def allArrived (s : State) (g : Gang) (t : TileId) (n : Nat) : Bool :=
  g.mems.all (fun m => tileOf m.core != t || !m.live || (match s.ctxOf g.id m.core with
    | some k => (s.ctx m.core k).arrived == some n
    | none => false))

/-- The barrier of a gang on a tile completes when the last member has arrived: C is 16 gt on. -/
def State.barrierCheck (s : State) (gid : Nat) (t : TileId) : State :=
  match s.gang gid with
  | none => s
  | some g =>
    let n := mapGet 0 g.bars t.val + 1
    let waiting := g.mems.any (fun m => tileOf m.core == t && m.live)
    if waiting && allArrived s g t n then
      s.updGang gid (fun y => { y with bars := mapSet y.bars t.val n, barAt := mapSet y.barAt t.val (s.gt + 16) })
    else s

/-! ## Loop footprints and microstore windows (R35, R239) -/

/-- Two ranges of 64 KiB units overlap. -/
def fpOverlap (u1 n1 u2 n2 : Nat) : Bool := u1 < u2 + n2 && u2 < u1 + n1

/-- The footprint of a packet (R331). -/
def pktFpUnit (p : List Word) : Nat := wbits (p.getD 5 0) 0 5
def pktFpCnt (p : List Word) : Nat := wbits (p.getD 5 0) 5 6
def pktMslen (p : List Word) : Nat := wbits (p.getD 0 0) 48 16
def pktPrio (p : List Word) : Nat := wbits (p.getD 0 0) 18 2

/-- The busy contexts of a core. -/
def busyCtxs (s : State) (c : CoreId) : List CtxId := ctxIds.filter (fun k => (s.ctx c k).busy)

/-- The lowest free run of `n` microstore words beside some windows (R35). -/
def freeRun (wins : List (Nat × Nat)) (n : Nat) : Option Nat :=
  let ok (a : Nat) : Bool := a + n ≤ 4096 && wins.all (fun (w : Nat × Nat) => !(a < w.1 + w.2 && w.1 < a + n))
  -- a lowest run starts at 0 or at the end of a window
  (([0] ++ wins.map (fun (w : Nat × Nat) => w.1 + w.2)).filter ok).foldl (fun m a => match m with
    | none => some a
    | some b => some (min a b)) none

/-- The windows of some contexts. -/
def winsOf (s : State) (c : CoreId) (ks : List CtxId) : List (Nat × Nat) := ks.map (fun k => ((s.ctx c k).msbase, (s.ctx c k).mslen))

/-- Words of the store that no window holds. -/
def freeWords (wins : List (Nat × Nat)) : Nat := 4096 - (wins.map (·.2)).foldl (· + ·) 0

/-- R34: a context that an arriving gang may evict. -/
def evictable (s : State) (g : Gang) (c : CoreId) (k : CtxId) : Bool :=
  let x := s.ctx c k
  match gangAt s c k with
  | none => false
  | some v => v.id != g.id && v.eff != 0 && g.eff < v.eff &&
      (x.st == .ready || x.st == .parked || x.st == .reserved)

/-- R34's choice among contexts: the lowest effective priority, and among equals the one that became ready last. -/
def victim (s : State) (g : Gang) (c : CoreId) (ks : List CtxId) : Option CtxId :=
  (ks.filter (evictable s g c)).foldl (fun m k => match m with
    | none => some k
    | some j =>
      match gangAt s c j, gangAt s c k with
      | some a, some b => if a.ahead b then some k else some j
      | _, _ => m) none

/-- What stands between a gang and a context on a core: nothing, an eviction, a window move, or a wait. -/
inductive Need where
  | none
  | evict (k : CtxId)
  | move
  | wait
deriving DecidableEq, Repr

/-- What a reservation on a core needs next (R23, R34, R35, R239). -/
def needOf (s : State) (g : Gang) (c : CoreId) : Need :=
  let busy := busyCtxs s c
  let ovl := busy.filter (fun k => let x := s.ctx c k; fpOverlap x.fpUnit x.fpCnt (pktFpUnit g.pkt) (pktFpCnt g.pkt))
  let n := pktMslen g.pkt
  if busy.any (fun k => (s.ctx c k).saving) then .wait
  else if !ovl.isEmpty then
    if ovl.all (evictable s g c) then match victim s g c ovl with
      | some k => .evict k
      | none => .wait
    else .wait
  else if busy.length = 3 then match victim s g c busy with
    | some k => .evict k
    | none => .wait
  else if (freeRun (winsOf s c busy) n).isSome then .none
  else if n ≤ freeWords (winsOf s c busy) then .move
  else match victim s g c busy with
    | some k => .evict k
    | none => .wait

/-- Move the windows of a core's contexts towards word 0, in the order of their bases (R35). -/
def packWindows (ms : NMap Word) : Nat → List (CtxId × Nat × Nat) → List (CtxId × Nat) × NMap Word
  | _, [] => ([], [])
  | base, (k, b, n) :: l =>
    let (ks, m) := packWindows ms (base + n) l
    ((k, base) :: ks, (fromTo 0 n).filterMap (fun i => let w := mapGet 0 ms (b + i); if w = 0 then none else some (base + i, w)) ++ m)

/-- Insert a window by its base. -/
def insWin (w : CtxId × Nat × Nat) : List (CtxId × Nat × Nat) → List (CtxId × Nat × Nat)
  | [] => [w]
  | v :: l => if w.2.1 ≤ v.2.1 then w :: v :: l else v :: insWin w l

/-- The windows of a core in the order of their bases. -/
def sortedWins (s : State) (c : CoreId) : List (CtxId × Nat × Nat) :=
  (busyCtxs s c).foldl (fun l k => insWin (k, (s.ctx c k).msbase, (s.ctx c k).mslen) l) []

/-- No context whose window a move changes has a matrix command queued or running (R35). -/
def windowsStill (s : State) (c : CoreId) : Bool :=
  (packWindows (s.core c).mstore 0 (sortedWins s c)).1.all (fun (p : CtxId × Nat) =>
    (s.ctx c p.1).msbase = p.2 || ((s.core c).matrixBusy p.1).isEmpty)

/-- The window move of a core (R35). -/
def State.moveWindows (s : State) (c : CoreId) : State :=
  let (bs, ms) := packWindows (s.core c).mstore 0 (sortedWins s c)
  bs.foldl (fun s (p : CtxId × Nat) => s.updCtx c p.1 (fun x => { x with msbase := p.2 })) (s.updCore c (fun y => { y with mstore := ms }))

/-! ## Reservations (R23, R327) -/

/-- TASKID (R331). -/
def taskidOf (gang : Word) (m : Member) : Word :=
  BitVec.ofNat 64 (gang.toNat % 2 ^ 32 * 2 ^ 32 + m.task % 4096 * 2 ^ 9 + m.place % 512)

/-- The save area of a member (R331, R273). -/
def saveOf (pkt : List Word) (m : Member) : Nat :=
  ((pkt.getD 3 0).toNat + m.place * (0x60000 + pktFpCnt pkt * 65536)) % 2 ^ 64

/-- A fresh context for a member (R105, R140, R327, R331). -/
def freshCtx (g : Gang) (m : Member) (base : Nat) : Ctx :=
  let w0 := g.pkt.getD 0 0
  { st := .reserved, hart := { pc := m.entry }, arg := g.pkt.getD 2 0, msbase := base, mslen := pktMslen g.pkt,
    taskid := taskidOf (BitVec.ofNat 64 g.id) m, asid := w0.extractLsb' 32 16, gang := BitVec.ofNat 64 g.id,
    strict := w0.getLsbD 16, fpUnit := pktFpUnit g.pkt, fpCnt := pktFpCnt g.pkt, save := saveOf g.pkt m,
    wdog := if wbits (g.pkt.getD 5 0) 16 16 = 0 then none else some (wbits (g.pkt.getD 5 0) 16 16 * 2 ^ 20),
    reg := { entry := m.entry } }

/-- Write words of the microstore. -/
def storeWords (ms : NMap Word) (a : Nat) : List Word → NMap Word
  | [] => ms
  | w :: l => storeWords (if w = 0 then mapDel ms a else mapSet ms a w) (a + 1) l

/-- The words of a member's micro section, read under its ASID; zeros where they cannot be read. -/
def microWords (s : State) (g : Gang) (m : Member) : List Word :=
  let n := 8 * m.micro.2
  match xlateSegs s true (tileOf m.core) none (wbits (g.pkt.getD 0 0) 32 16) .read (segFuel n) m.micro.1 n with
  | .ok (segs, _) => (chunks 8 m.micro.2 (s.segBytes segs)).map (fun b => BitVec.ofNat 64 (leNat b))
  | .error _ => []

/-- The lowest free context of a core. -/
def freeCtx (s : State) (c : CoreId) : Option CtxId := ctxIds.find? (fun k => !(s.ctx c k).busy)

/-- Reserve a context for a member whose needs are met: a fresh member gets its registers and its micro section, a saved
one waits for its restore. -/
def State.reserve (s : State) (g : Gang) (m : Member) : State :=
  match freeCtx s m.core with
  | none => s
  | some k =>
    let base := (freeRun (winsOf s m.core (busyCtxs s m.core)) (pktMslen g.pkt)).getD 0
    let x := freshCtx g m base
    let mw := microWords s g m
    let zeros := List.replicate (pktMslen g.pkt - mw.length) (0 : Word)
    match m.st with
    | .wanted =>
      let s1 := s.updCore m.core (fun y => { (y.setCtx k x) with mstore := storeWords y.mstore base (mw ++ zeros) })
      s1.updMember g.id m.core (fun n => { n with st := .held k })
    | .saved p => (s.setCtx m.core k x).updMember g.id m.core (fun n => { n with st := .restoring k p })
    | _ => s

/-- A reservation of a gang that has not started is withdrawn: a fresh context is freed, a resident one stays. -/
def State.withdraw (s : State) (g : Nat) : List Member → State
  | [] => s
  | m :: l =>
    match m.st with
    | .held k => ((s.freeCtxAt m.core k).updMember g m.core (fun x => { x with st := .wanted })).withdraw g l
    | _ => s.withdraw g l

/-- A gang that was starting is ready again (R37). -/
def State.unstart (s : State) (g : Nat) : State :=
  match s.gang g with
  | some x => (s.withdraw g x.mems).updGang g (fun y => { y with st := .ready })
  | none => s

/-- Begin an eviction (R34): a context that has not started is withdrawn, another is to be saved. -/
def State.evict (s : State) (c : CoreId) (k : CtxId) : State :=
  let g := (s.ctx c k).gang.toNat
  let s1 := match s.gang g with
    | some x => (match x.st with
      | .starting _ | .ready => s.unstart g
      | _ => s)
    | none => s
  if (s1.ctx c k).busy then s1.updCtx c k (fun x => { x with saving := true }) else s1

end Sys2Proof.Machine
end

