-- ==== Sys2Proof/Machine/Retire.lean ====
section
/-! DEFINITION. Machine/Retire.lean: CRC-32, retiring a core with the move of its gangs, and what a rerun pair does where a
region commits (R112, R285, R286). -/

namespace Sys2Proof.Machine

/-! ## CRC-32 (IEEE 802.3) -/

/-- One bit of the reflected CRC register. -/
def crcBit (c : BitVec 32) : BitVec 32 := if c.getLsbD 0 then (c >>> 1) ^^^ 0xEDB88320 else c >>> 1

/-- One byte. -/
def crcByte (c : BitVec 32) (b : Byte) : BitVec 32 :=
  let x := c ^^^ b.setWidth 32
  crcBit (crcBit (crcBit (crcBit (crcBit (crcBit (crcBit (crcBit x)))))))

/-- The register after some bytes. -/
def crcBytes (c : BitVec 32) (l : List Byte) : BitVec 32 := l.foldl crcByte c

/-- CRC-32 of a message. -/
def crc32 (l : List Byte) : BitVec 32 := ~~~(crcBytes 0xFFFFFFFF l)

/-- Bytes of a slot join the event stream of a rerun pair (R285). -/
def Ctx.eventAt (x : Ctx) (slot : Nat) (bs : List Byte) : Ctx :=
  match x.rerun with
  | none => x
  | some r => { x with rerun := some { r with evs := r.evs ++ [(slot, bs)] } }

/-- Bytes of the syllable in execution join it. -/
def Ctx.event (x : Ctx) (bs : List Byte) : Ctx := x.eventAt x.hart.slot bs

/-- Events of one issue cycle in slot order, those of one slot as they came. -/
def slotOrder (l : List (Nat × List Byte)) : List (Nat × List Byte) :=
  (fromTo 0 16).flatMap (fun n => l.filter (fun p => p.1 == n))

/-- An issue cycle of the event stream ends: its events enter the signature in slot order (R285). -/
def Rerun.flush (r : Rerun) : Rerun := { r with crc := crcBytes r.crc ((slotOrder r.evs).flatMap (·.2)), evs := [] }

/-- The event stream of an attempt begins at its `rgn` bundle (R285). -/
def Rerun.restart (r : Rerun) : Rerun := { r with crc := 0xFFFFFFFF, evs := [] }

/-! ## Retiring a core (R286) -/

/-- The launch permits moving (FLAGS bit 1). -/
def Gang.mayMove (g : Gang) : Bool := (g.pkt.getD 0 0).getLsbD 17

/-- The cluster of a core, over the package. -/
def clusterNum (c : CoreId) : Nat := c.val / 8

/-- Core `n` of a cluster. -/
def clusterCore (cl n : Nat) : CoreId := Fin.ofNat 512 (cl * 8 + n)

/-- A cluster can take the moved members: no retired core, no member of the gang nor one that is to come, a free context for each. -/
def clusterFits (s : State) (g : Gang) (froms : Nat) (cl : Nat) : Bool :=
  (fromTo 0 8).all (fun n => !(s.core (clusterCore cl n)).retired)
    && g.mems.all (fun m => clusterNum m.core != cl) && g.moveTo.all (fun (p : Nat × Nat) => p.2 != cl)
    && g.mems.all (fun m => clusterNum m.core != froms || (freeCtx s (clusterCore cl (m.core.val % 8))).isSome)

/-- The lowest-numbered cluster of a tile that fits. -/
def moveTarget (s : State) (g : Gang) (c : CoreId) : Option Nat :=
  (fromTo ((tileOf c).val * 4) 4).find? (clusterFits s g (clusterNum c))

/-- A member moves to the cluster chosen for its own, keeping its CORE field. -/
def Gang.relocate (g : Gang) (c : CoreId) : Gang :=
  match g.moveTo.find? (fun p => p.1 == clusterNum c) with
  | none => g
  | some p => { g with mems := mapWhere (fun m => m.core == c) (fun m => { m with core := clusterCore p.2 (c.val % 8) }) g.mems }

/-- The endpoints that a task holds follow it to its new core (R319). -/
def Hnd.follow (asid : Nat) (gang : Word) (old new : Nat) (h : Hnd) : Hnd :=
  let h1 := if h.asid = asid && h.gang = gang then
      { h with sep := if h.sep = old then new else h.sep, dep := if h.dep = old then new else h.dep }
    else h
  { h1 with nxt := h1.nxt.map (fun m => if m.asid = asid && m.gang = gang then
      { m with sep := if m.sep = old then new else m.sep, dep := if m.dep = old then new else m.dep } else m) }

/-- The member of a gang on a core moves to the cluster chosen for its own: its tokens, the commands that it has sent and its token
shadow are those of the member on its new core (R260, R286, log 99). -/
def State.relocateAt (s : State) (g : Nat) (c : CoreId) : State :=
  match s.gang g with
  | none => s
  | some x =>
    match x.moveTo.find? (fun p => p.1 == clusterNum c) with
    | none => s
    | some p =>
      let new := clusterCore p.2 (c.val % 8)
      let own (o : Owner) : Owner := if o = .mem g c then .mem g new else o
      { (s.updGang g (·.relocate c)).updTile (tileOf c) (fun x => { x with shadow := x.shadow.map (fun (p : Owner × NMap Nat) => (own p.1, p.2)) }) with
        prods := s.prods.map (fun p => { p with owner := own p.owner }),
        cmds := s.cmds.map (fun d => { d with owner := own d.owner }),
        handles := s.handles.map (fun (q : Nat × Hnd) =>
          (q.1, q.2.follow (wbits (x.pkt.getD 0 0) 32 16) (BitVec.ofNat 64 g) c.val new.val)) }

/-- A member that has no context moves, once no record of it waits (R271). -/
def State.moveMember (s : State) (g : Nat) (c : CoreId) : State :=
  if (s.member g c).any (·.frec.isSome) then s else s.relocateAt g c

/-- Members of a cluster begin their move: a resident one is to be saved, another changes its core at once. -/
def State.beginMove (s : State) (g : Nat) (cl : Nat) : List Member → State
  | [] => s
  | m :: l =>
    if clusterNum m.core != cl || !m.live then s.beginMove g cl l
    else
      match m.st with
      | .resident k => (s.updCtx m.core k (fun x => { x with saving := true })).beginMove g cl l
      | .restoring k p =>
        (((s.freeCtxAt m.core k).updMember g m.core (fun x => { x with st := .saved p })).moveMember g m.core).beginMove g cl l
      | .held k =>
        (((s.freeCtxAt m.core k).updMember g m.core (fun x => { x with st := .wanted })).moveMember g m.core).beginMove g cl l
      | _ => (s.moveMember g m.core).beginMove g cl l

/-- The record of a retired core for a member, with DISP 6 for a move and 4 for a task fault. -/
def retireRec (s : State) (g : Gang) (m : Member) (disp : Nat) : FRec :=
  match m.st with
  | .resident k =>
    let x := s.ctx m.core k
    mkRec fRetire disp 0xFF 0 m.core.val x.asid.toNat x.taskid x.gang x.hart.pc 0 s.gt x.reg.rrc 0 0
  | _ => mkRec fRetire disp 0xFF 0 m.core.val (wbits (g.pkt.getD 0 0) 32 16) (taskidOf (BitVec.ofNat 64 g.id) m)
      (BitVec.ofNat 64 g.id) 0 0 s.gt 0 0 0

/-- The gang of a member that cannot be moved takes the task-fault disposition, with code 0x22. -/
def State.retireFault (s : State) (g : Gang) (m : Member) : State :=
  let s1 := match m.st with
    | .resident k => (s.discard m.core k).endCtx m.core k false
    | _ => s
  (s1.memberRec g.id m (retireRec s g m 4) none).killGang g.id 1 fRetire

/-- The clusters of a stopped gang that hold a retired core, one after another: each moves, or the gang faults. -/
def State.moveClusters (s : State) (gid : Nat) : Nat → State
  | 0 => s
  | n + 1 =>
  match s.gang gid with
  | none => s
  | some g =>
    match g.mems.find? (fun m => m.live && (s.core m.core).retired && !(mapHas g.moveTo (clusterNum m.core))) with
    | none => s
    | some m =>
      match (if g.mayMove then moveTarget s g m.core else none) with
      | some cl =>
        let s1 := (s.memberRec gid m (retireRec s g m 6) none).updGang gid (fun y => { y with moveTo := mapSet y.moveTo (clusterNum m.core) cl })
        (s1.beginMove gid (clusterNum m.core) g.mems).moveClusters gid n
      | none => s.retireFault g m

/-- A gang that has stopped and has live members on retired cores: their clusters move, or the gang faults (R286). -/
def State.moveOrFault (s : State) (gid : Nat) : State := s.moveClusters gid 64

/-- Stop every gang of a list for a retired core. -/
def State.retireGangs (s : State) (c : CoreId) : List Gang → State
  | [] => s
  | g :: l =>
    if !(g.on c) then s.retireGangs c l
    else
      match g.st with
      | .running => (s.stopGang g.id).retireGangs c l
      | .stopping => s.retireGangs c l
      | .starting _ => ((s.unstart g.id).moveOrFault g.id).retireGangs c l
      | .ready => (s.moveOrFault g.id).retireGangs c l

/-- A core is retired (R286). -/
def State.retireCore (s : State) (c : CoreId) : State :=
  (s.updCore c (fun y => { y with retired := true })).retireGangs c s.gangs

/-! ## A rerun pair at a commit point (R285) -/

/-- At a commit point: whether the commit goes on. Attempt A is discarded and B begins; B commits when it agrees with A, and
otherwise the core is retired: its task has stopped at the region, which no retired core issues again (R286). -/
def State.atCommit (s : State) (c : CoreId) (k : CtxId) : State × Bool :=
  let x := s.ctx c k
  match x.rerun with
  | none => (s, true)
  | some r =>
    let cyc := (s.core c).ic - x.reg.openIc
    let sig := r.flush.crc
    if !r.second then
      let next : Rerun := { r.restart with second := true, aCyc := cyc, aCrc := sig }
      (((s.discard c k).updCtx c k (fun y => { y with rerun := some next })).reenter c k, false)
    else if r.aCyc = cyc && r.aCrc = sig then (s.updCtx c k (fun y => { y with rerun := none }), true)
    else ((((s.discard c k).updCtx c k (fun y => { y with rerun := none })).leave c k .ready).retireCore c, false)

end Sys2Proof.Machine
end

