-- ==== Sys2Proof/Machine/Control.lean ====
section
/-! DEFINITION. Machine/Control.lean: the P and K syllables: branches, regions, waiting, traps and the end of a task
(R84, R130-R151, R165). -/

namespace Sys2Proof.Machine

/-! ## Shared operations -/

/-- The wait that stands beside a stall that begins: of a syllable of a lower slot of its bundle, if one waits. -/
def beside (stall : Option Stall) (slot : Nat) (old : Option (Stall × Nat)) : Option (Stall × Nat) :=
  match stall with
  | some st => some (st, slot)
  | none => old

/-- The agent in execution stalls (R101): two syllables of one bundle may each wait. -/
def State.setStall (s : State) (st : Stall) : State :=
  match s.cur with
  | .core c k => s.updCtx c k (fun x =>
      { x with stall := some st, stallK := beside x.stall x.stallSl x.stallK, stallAt := s.gt, stallSl := x.hart.slot })
  | .cell t => s.updCell t (fun x => { x with stall := some st, stallK := beside x.stall 0 x.stallK })
  | _ => s

/-- An `rgnc`, `end` or `trap` waits for the end of its issue cycle. -/
def State.postpone (s : State) : List (Nat × Instr) → State
  | [] => s
  | (n, i) :: _ =>
    match s.cur with
    | .core c k => s.updCtx c k (fun x => { x with stallK := some (.last i, n) })
    | .cell t => s.updCell t (fun x => { x with stallK := some (.last i, n) })
    | _ => s

/-- A syllable of the bundle in execution has stalled it. -/
def State.stalls (s : State) : Bool :=
  match s.cur with
  | .core c k => (s.ctx c k).stall.isSome
  | .cell t => (s.cell t).stall.isSome
  | _ => false

/-- A core's stall ends: the gt lost become a deviation record of the syllable that stalled (R82, R358). -/
def State.unstall (s : State) (c : CoreId) (k : CtxId) (cause : Nat) : State :=
  let x := s.ctx c k
  (s.updCtx c k (fun x => { x with stall := none })).trace (tileOf c) x.hart.bpc x.stallSl cause (s.gt - x.stallAt)

/-- The stall of a K syllable. -/
def Ctx.waitK (x : Ctx) : Option Stall :=
  match x.stallK with
  | some (st, _) => some st
  | none => x.stall

/-- The wait of a K syllable ends, with its deviation record. -/
def State.resumeK (s : State) (c : CoreId) (k : CtxId) (cause : Nat) : State :=
  let x := s.ctx c k
  match x.stallK with
  | some (_, sl) => (s.updCtx c k (fun x => { x with stallK := none })).trace (tileOf c) x.hart.bpc sl cause (s.gt - x.stallAt)
  | none => s.unstall c k cause

/-- The branch-shadow fault (R133). -/
def shadowTrap : Trap := { code := fBranch }

/-- A branch is taken at this bundle: three delay bundles follow it. The first of two that are taken wins, and the
second writes no link (R83, R132-R134). -/
def takeBranch (target : Nat) (link : Option Word) (h : Hart) : Res Hart :=
  match h.redir with
  | none =>
    let h1 := { h with redir := some (4, target) }
    .ok (match link with
      | some a => h1.outS 1 62 a false
      | none => h1)
  | some (n, _) => if n = 4 then .ok h else .trap shadowTrap

/-- The target of a displacement from the bundle's address (R130, R131). -/
def Hart.target (h : Hart) (disp : BitVec 32) : Nat := (BitVec.ofNat 56 h.bpc + (disp.signExtend 56 <<< 2)).toNat

/-- A branch to a register: a poisoned source is late, a misaligned or wide one the access fault (R131). -/
def regBranch (r : Reg) (link : Option Word) (h : Hart) : Res Hart :=
  needClean (h.sPois r)
    (if (h.rs r).toNat % 4 != 0 || 2 ^ 56 ≤ (h.rs r).toNat then
      .trap { code := fAccess, cause := 6, addr := (h.rs r).toNat }
     else takeBranch (h.rs r).toNat link h)

/-- The return address: after the third delay bundle in fall-through order (R134). -/
def linkOf (s : State) : Option Nat := fallThrough s 3 (s.hart.bpc + s.hart.blen)

/-- A calling branch: its link is a free value where the delay bundles cannot be read (log 13). -/
def callOut (s : State) (f : Word → Hart → Res Hart) : Out :=
  match linkOf s with
  | some a => onHart s (f (BitVec.ofNat 64 a))
  | none => onHart s.bump (f (Config.freeWord s.fresh))

/-- The tokens that `twait` names (R142). -/
def selMask : TokSel → BitVec 32
  | .one t => 1#32 <<< t.val
  | .mask m => m

/-- The tokens of a mask. -/
def maskToks (m : BitVec 32) : List Tok := (fromTo 0 32).filterMap (fun i => if m.getLsbD i then some (Fin.ofNat 32 i) else none)

/-- Every token of a mask is signalled (R142). -/
def Hart.allSignalled (h : Hart) (m : BitVec 32) : Bool := (maskToks m).all (fun t => (h.tok t).signalled)

/-- The producer numbers of the open region's pushes. -/
def openPushes (s : State) : List Nat :=
  match s.cur with
  | .core c k => (s.ctx c k).pushes.map (·.prod)
  | _ => []

/-- Some token of a mask has a producer that a push of the open region added (R174). -/
def ownPushToken (s : State) (m : BitVec 32) : Bool :=
  s.prods.any (fun p => (openPushes s).contains p.id && m.getLsbD p.tok.val)

/-- The region that `rgn` opens at this bundle (R136). -/
def newRegion (entry caskmax blim ic gt : Nat) : Region :=
  { entry := entry, caskmax := caskmax, blim := blim, anon := false, openIc := ic, gt := gt }

/-- The anonymous region that the next bundle opens (R139). -/
def anonRegion (entry ic : Nat) : Region := { entry := entry, openIc := ic }

/-! ## P and K -/

def execScopePrefix (sc : Scope) (ord : BitVec 2) (na : Bool) (s : State) : Out :=
  onHart s (fun h => .ok { h with pfx := some { scope := sc, ord := ord, na := na } })

def execNop (s : State) : Out := .next s

def execBr (disp : BitVec 32) (s : State) : Out := onHart s (fun h => takeBranch (h.target disp) none h)
def execBrt (b : BReg) (disp : BitVec 32) (s : State) : Out :=
  onHart s (fun h => if h.rb b then takeBranch (h.target disp) none h else .ok h)
def execBrf (b : BReg) (disp : BitVec 32) (s : State) : Out :=
  onHart s (fun h => if h.rb b then .ok h else takeBranch (h.target disp) none h)
def execJmp (sa : Reg) (s : State) : Out := onHart s (regBranch sa none)
def execCall (disp : BitVec 32) (s : State) : Out :=
  callOut s (fun a h => takeBranch (h.target disp) (some a) h)
def execCallr (sa : Reg) (s : State) : Out := callOut s (fun a h => regBranch sa (some a) h)
def execRet (s : State) : Out := onHart s (regBranch 62 none)

/-- `chk` tests a poison bit and raises no fault (R135). -/
def execChk (isV : Bool) (r : Reg) (disp : BitVec 32) (s : State) : Out :=
  onCtx s (fun x =>
    if (if isV then x.vPois r else x.hart.sPois r) then
      (takeBranch (x.hart.target disp) none x.hart).bind (fun h => .ok { x with hart := h })
    else .ok x)

/-- `rgn` (R136): on re-entry it commits nothing; otherwise it waits for Straddle room, commits, and opens its region, where a
stop may hold the task before the bundle issues (R32, R37). -/
def execRgn (caskmax : BitVec 10) (blim : BitVec 4) (s : State) : Out :=
  match s.cur with
  | .core c k =>
    let x := s.ctx c k
    let ic := (s.core c).ic
    match x.hart.redir with
    | some _ => .next (s.raise shadowTrap)
    | none =>
      if x.reg.fresh && !x.reg.anon then
        .next (s.updCtx c k (fun y => { y with reg := { y.reg with fresh := false, opened := true, cnt := 1, openIc := ic } }))
      else if 64 < strAfter s c k then .next { s.setStall .rgn with abort := true }
      else
        match s.atCommit c k with
        | (s1, false) => .next { s1 with abort := true }
        | (s1, true) =>
          match (s1.commit c k (newRegion x.hart.bpc caskmax.toNat blim.toNat ic s.gt)).afterCommit c k x.reg.yield with
          | (s2, true) => .next { s2 with abort := true }
          | (s2, false) => .next (s2.updCtx c k (fun y => { y with reg := { y.reg with fresh := false, opened := true, cnt := 1 } }))
  | _ => .next s

/-- The commit at the end of a `rgnc` bundle (R139). -/
def State.closeRegion (s : State) (c : CoreId) (k : CtxId) : State :=
  let x := s.ctx c k
  match s.atCommit c k with
  | (s1, false) => { s1 with abort := true }
  | (s1, true) =>
    let next := x.hart.bpc + x.hart.blen
    let s2 := s1.commit c k (anonRegion next ((s.core c).ic + 1))
    ((s2.updCtx c k (fun y => { y with hart := { y.hart with pc := next } })).afterCommit c k x.reg.yield).1

def execRgnc (s : State) : Out :=
  match s.cur with
  | .core c k =>
    match (s.ctx c k).hart.redir with
    | some _ => .next (s.raise shadowTrap)
    | none => .next (if 64 < strAfter s c k then s.setStall .commit else s.closeRegion c k)
  | _ => .next s

/-- `twait` (R142). It sees the tokens as they are when its slot acts: what a later slot of its own bundle does to them comes after
(DEDUCED, log 103). -/
def execTwait (t : TokSel) (s : State) : Out :=
  if ownPushToken s (selMask t) then .next (s.raise { code := fQueue, cause := 5 })
  else if s.hart.allSignalled (selMask t) then .next s
  else .next (s.setStall (.twait (selMask t)))

def execSfr (src : FrSrc) (s : State) : Out :=
  onHart s (fun h =>
    match src with
    | .reg r => needClean (h.sPois r) (setFr (h.rs r) h)
    | .imm i => setFr (i.setWidth 64) h)

/-- `gbar` (R143). -/
def execGbar (s : State) : Out :=
  match s.cur with
  | .core c k =>
    let x := s.ctx c k
    let n := x.bar + 1
    match s.gang x.gang.toNat with
    | none => .next s
    | some g =>
      if n ≤ mapGet 0 g.bars (tileOf c).val then .next (s.updCtx c k (fun y => { y with bar := n }))
      else
        let s1 := (s.updCtx c k (fun y => { y with arrived := some n })).setStall (.gbar n)
        .next (s1.barrierCheck x.gang.toNat (tileOf c))
  | _ => .next s

/-- `wgt` (R144): no stall when the condition holds at the next gt. -/
def execWgt (sa : Reg) (s : State) : Out :=
  if s.hart.sPois sa then .next (s.raise { code := fLate })
  else if (s.hart.rs sa).toNat ≤ s.gt + 1 then .next s
  else .next (s.setStall (.wgt (s.hart.rs sa).toNat))

def execYieldCore (s : State) : Out := onCtx s (fun x => .ok { x with reg := { x.reg with yield := true } })

def execTrap (code : BitVec 16) (s : State) : Out := .next (s.raise { code := fUser, detail := code.setWidth 64 })

/-- A link that the bundle's own branches wrote (R148). -/
def Hart.dropLink (h : Hart) : Hart :=
  { h with pend := h.pend.filter (fun p => !(p.dst == .s 62 && h.first ≤ p.id && p.slot ≤ 2)), redir := none }

/-- The end itself: the commit, and Ended (R148); a Cellarer's program stops (R321). -/
def State.finishEnd (s : State) : State :=
  match s.cur with
  | .core c k =>
    match s.atCommit c k with
    | (s1, false) => { s1 with abort := true }
    | (s1, true) =>
      let g := (s.ctx c k).gang.toNat
      ((s1.commit c k (anonRegion s.hart.bpc ((s.core c).ic + 1))).endCtx c k true).barrierCheck g (tileOf c)
  | .cell t => s.updCell t (fun x => { x with run := false })
  | _ => s

/-- `end`: a branch taken in its bundle is ignored; one taken before it makes it the branch-shadow fault (R133, R148). -/
def execEndTask (s : State) : Out :=
  match s.hart.redir with
  | some (n, _) => if n < 4 then .next (s.raise shadowTrap) else .next (s.setHart s.hart.dropLink).finishEnd
  | none => .next s.finishEnd

/-- `brk` (R149): the breakpoint fault, unless the debugger suppresses it once. -/
def execBrk (s : State) : Out :=
  match s.cur with
  | .core c k =>
    if (s.ctx c k).brkSkip then .next (s.updCtx c k (fun x => { x with brkSkip := false }))
    else .next (s.raise { code := fBreak })
  | _ => .next (s.raise { code := fBreak })

/-- Whether a syllable is a branch that would be taken (R133). -/
def branchTaken (i : Instr) (h : Hart) (vp : BitVec 64) : Bool :=
  match i with
  | .br _ | .jmp _ | .call _ | .callr _ | .ret | .eret => true
  | .brt b _ => h.rb b
  | .brf b _ => !h.rb b
  | .chk isV r _ => if isV then vp.getLsbD r.val else h.sPois r
  | _ => false

end Sys2Proof.Machine
end

