-- ==== Sys2Proof/Machine/Device.lean ====
section
/-! DEFINITION. Machine/Device.lean: writes of device registers (R4, R237, R238, R244, R245, R270, R276, R287, R322, R324,
R334, R343, R355-R358). -/

namespace Sys2Proof.Machine

/-- Who writes a device register. -/
inductive Writer where
  | cell (t : TileId)
  | host
deriving DecidableEq, Repr

/-! ## TSCFG (R244, R245) -/

/-- Drop the entries of a map whose keys lie in a range. -/
def mapCut {α : Type} (lo hi : Nat) (m : NMap α) : NMap α := m.filter (fun p => p.1 < lo || hi ≤ p.1)

/-- The memory key of a scratch byte of a tile. -/
def scratchKey (t : TileId) (off : Nat) : Nat := 8 * 2 ^ 48 + t.val * 2 ^ 26 + off

/-- Lines in ways that become scratch are pinned no longer (R245). -/
def Block.cutWays (n : Nat) (b : Block) : Block := { b with pins := b.pins.filter (fun p => n ≤ p.2) }

/-- The blocks that a context holds lose the pins in ways that become scratch. -/
def Ctx.cutPins (n : Nat) (x : Ctx) : Ctx := { x with blocks := x.blocks.map (Block.cutWays n) }

/-- So do those of a tile's cores and of its Cellarer. -/
def State.cutPins (s : State) (t : TileId) (n : Nat) : State :=
  let cut (p : Nat × Core) : Nat × Core :=
    if p.1 / 32 = t.val then (p.1, { p.2 with ctxs := p.2.ctxs.map (Ctx.cutPins n) }) else p
  ({ s with cores := s.cores.map cut }).updCell t (fun c => { c with blocks := c.blocks.map (Block.cutWays n) })

/-- SCRW changes: the scratch bytes between the two sizes read zero and are untagged; the lines in ways that become scratch leave
the cache and are unpinned (R245). -/
def State.setScrw (s : State) (t : TileId) (n : Nat) : State :=
  let old := (s.tile t).scrw
  let lo := scratchKey t (min old n * 2 ^ 22)
  let hi := scratchKey t (max old n * 2 ^ 22)
  let s1 := { s with mem := mapCut lo hi s.mem, tags := mapCut (lo / 64) (hi / 64) s.tags,
                     epochs := mapCut (lo / 64) (hi / 64) s.epochs }
  (s1.cutPins t n).updTile t (fun x => { x with scrw := n, copies := x.copies.filter (fun c => n ≤ c.way) })

/-- A write of TSCFG. -/
def State.tscfg (s : State) (t : TileId) (v : Word) : State :=
  let n := min (wbits v 32 5) 16
  (if n = (s.tile t).scrw then s else s.setScrw t n).updTile t (fun x => { x with ewm := v.extractLsb' 16 16 })

/-! ## The debug control register (R355-R357) -/

/-- A stall in `rcv` does not count the gt of a halt in its skew window (R355). -/
def Stall.after (n : Nat) : Stall → Stall
  | .rcv h v slot start => .rcv h v slot (start + n)
  | st => st

/-- The matrix unit of a core resumes after a halt of `n` gt: what was under way has as long to go as it had (R223, R355). -/
def Core.thaw (n : Nat) (y : Core) : Core :=
  { y with rt := y.rt.map (fun r => { r with busy := r.busy + n }), drains := y.drains.map (fun d => { d with endGt := d.endGt + n }),
           shrs := y.shrs.map (fun d => { d with endGt := d.endGt + n }) }

/-- The debugger resumes a core: it runs again, and a task parked in place issues its bundle once without its
breakpoint. The record of the halt has SLOT 15 (log 101). -/
def State.dbgResumeCore (s : State) (c : CoreId) : State :=
  let y := s.core c
  let pc := y.run.elim 0 (fun k => let x := y.ctx k; if x.stalled then x.hart.bpc else x.hart.pc)
  let s1 := if y.halted then s.trace (tileOf c) pc 15 12 (s.gt - y.haltAt) else s
  let s2 := s1.updCore c (fun z => { z.thaw (if y.halted then s.gt - y.haltAt else 0) with halted := false })
  match y.run with
  | some k =>
    let s2 := if y.halted then s2.updCtx c k (fun x => { x with stall := x.stall.map (·.after (s.gt - y.haltAt)) }) else s2
    if (s2.ctx c k).st = .parkedPlace then s2.updCtx c k (fun x => { x with st := .running, brkSkip := true }) else s2
  | none => s2

/-- A write of DBGCTL; below D2 it is ignored. -/
def State.dbgctlWrite (s : State) (t : TileId) (n : Nat) (v : Word) : State :=
  let c := coreAt t n
  if (s.tile t).dbg < 2 then s
  else
    let s1 := s.updCore c (fun y => { y with dbgctl := v &&& 13 })
    if v.getLsbD 0 then
      if (s.core c).halted then s1 else s1.updCore c (fun y => { y with halted := true, haltAt := s.gt })
    else s1.dbgResumeCore c

/-! ## The Cellarer's registers (R322, R324) -/

/-- The host or the Cellarer writes CSTAT: RUN from 0 to 1 by the host restarts the program at CPC. -/
def State.cstatWrite (s : State) (w : Writer) (t : TileId) (v : Word) : State :=
  s.updCell t (fun c =>
    let c1 := { c with eie := v.getLsbD 1 }
    match w with
    | .cell _ => c1
    | .host =>
      if v.getLsbD 0 && !c.run then
        { c1 with run := true, faulted := false, stall := none, stallK := none, hart := { c1.hart with pc := c.cpc, redir := none, eretP := false } }
      else { c1 with run := v.getLsbD 0 })

/-- A control register by its index (R324). -/
def cellReg (s : State) (t : TileId) (ix : Nat) : Word :=
  if ix ≤ 8 then tileReg s t (0x40 + 8 * ix) else 0

/-- A write of a control register by its index. -/
def State.cellRegWrite (s : State) (w : Writer) (t : TileId) (ix : Nat) (v : Word) : State :=
  match ix with
  | 0 => s.cstatWrite w t v
  | 1 => if w = .host && !(s.cell t).run then s.updCell t (fun c => { c with cpc := v.toNat }) else s
  | 2 => s.updCell t (fun c => { c with evtpend := c.evtpend &&& ~~~(v.setWidth 8) })
  | 3 => s.updCell t (fun c => { c with evtmask := v })
  | 4 => s.updCell t (fun c => { c with evec := v })
  | 5 => s.updCell t (fun c => { c with epc := v })
  | 6 => s.updCell t (fun c => { c with casid := v.setWidth 16 })
  | 7 => s.updCell t (fun c => { c with evttime := v, fired := false })
  | _ => s

/-! ## Register writes -/

/-- An FRT entry as it is stored (R270). -/
def frtStored (v : Word) : Word :=
  let m := v &&& 0xFFF7FFF7
  if 4 ≤ wbits m 0 3 then m &&& ~~~7 else m

/-- A whole 8-byte register of a tile's block is written; an offset with no writable register ignores it. -/
def State.tileRegWrite (s : State) (w : Writer) (t : TileId) (off : Nat) (v : Word) : State :=
  if off = 0x0000 then s.tscfg t v
  else if off = 0x0010 then s.updTile t (fun x => { x with cethr := v.extractLsb' 16 32, pren := v.getLsbD 0 })
  else if off = 0x0018 then if v.getLsbD 56 then s.updTile t (fun x => { x with ovr := false }) else s
  else if off = 0x0030 then s.updTile t (fun x => { x with trccfg := v &&& 0x000FFFFFFFFFF001, trcpos := 0 })
  else if 0x0040 ≤ off && off < 0x0080 then s.cellRegWrite w t ((off - 0x40) / 8) v
  else if off = 0x0088 then if w = .host then s.evt t 6 else s
  else if 0x1000 ≤ off && off < 0x1800 then s.updTile t (fun x => { x with frt := mapSet x.frt ((off - 0x1000) / 8) (frtStored v) })
  else if 0x2000 ≤ off && off < 0x2100 then s.dbgctlWrite t ((off - 0x2000) / 8) v
  else if 0x2400 ≤ off && off < 0x2600 then
    if off % 16 = 0 then s.updCore (coreAt t ((off - 0x2400) / 16)) (fun y => { y with dbgpwi := v }) else s
  else if 0x2800 ≤ off && off < 0x2C00 then
    s.updCore (coreAt t ((off - 0x2800) / 32)) (fun y =>
      { y with dbgbp := mapSet y.dbgbp ((off - 0x2800) % 32 / 8) (v &&& 0x00FFFFFFFFFFFFFD) })
  else if 0x10000 ≤ off && off < 0x18000 then s.setSem (BitVec.ofNat 16 (t.val * 4096 + (off - 0x10000) / 8)) v
  else s

/-- A whole register of the package information block: ASIDTAB and the Access Control Table, by the host (R276, R343). -/
def State.pkgRegWrite (s : State) (w : Writer) (off : Nat) (v : Word) : State :=
  if w != .host then s
  else if off = 0x0080 then { s with asidtab := v &&& 0x000FFFFFFFF80001 }
  else if 0x1000 ≤ off && off < 0x1800 then
    { s with act := mapSet s.act ((off - 0x1000) / 8) (v &&& 0x80FFFFFFFFFFFFF0) }
  else s

/-- Registers whose bits are cleared by writing 1: the bytes that a narrow write leaves out count as 0. -/
def regW1c (block off : Nat) : Bool := block != 0 && (off = 0x0018 || off = 0x0050)

/-- The stored value that a narrow write merges into. -/
def regOld (s : State) (block off : Nat) : Word :=
  if block = 0 && 0x1000 ≤ off && off < 0x1800 then mapGet 0 s.act ((off - 0x1000) / 8) else devReg s block off

/-- Bytes are written within one 8-byte register: the rest of it keeps its value (R4). -/
def State.devWrite8 (s : State) (w : Writer) (block off : Nat) (bs : List Byte) : State :=
  let base := off / 8 * 8
  let sh := 8 * (off - base)
  let mask : Word := (BitVec.ofNat 64 (2 ^ (8 * bs.length) - 1)) <<< sh
  let new : Word := (BitVec.ofNat 64 (leNat bs)) <<< sh
  let v := if regW1c block base then new else (regOld s block base &&& ~~~mask) ||| new
  if block = 0 then s.pkgRegWrite w base v else s.tileRegWrite w (blockTile block) base v

/-- A write to the device register window, register by register. -/
def State.devWrite (s : State) (w : Writer) (block : Nat) : Nat → Nat → List Byte → State
  | 0, _, _ => s
  | fuel + 1, off, bs =>
    if bs.isEmpty then s
    else
      let n := 8 - off % 8
      (s.devWrite8 w block off (bs.take n)).devWrite w block fuel (off + n) (bs.drop n)

/-- Write bytes to a piece of memory or of the device window, for a writer that may. -/
def State.writeSeg (s : State) (w : Writer) (t : TileId) (g : Seg) (bs : List Byte) : State :=
  if isLoopKey g.key then s.putBytes t g.ks g.key bs
  else
    match paSel g.key with
    | .dev b off => s.devWrite w b (bs.length / 8 + 2) off bs
    | _ => s.putBytes t g.ks g.key bs

/-- Write bytes over pieces. -/
def State.writeSegs (s : State) (w : Writer) (t : TileId) : List Seg → List Byte → State
  | [], _ => s
  | g :: l, bs => (s.writeSeg w t g (bs.take g.len)).writeSegs w t l (bs.drop g.len)

end Sys2Proof.Machine
end

