-- ==== Sys2Proof/Machine/Memory.lean ====
section
/-! DEFINITION. Machine/Memory.lean: loads and stores, scalar and vector, gathers and scatters, of a core and of a Cellarer,
and the performing of global accesses at their homes and in copies (R152-R165, R239-R247, R250-R256, R321). -/

namespace Sys2Proof.Machine

/-! ## Where an access goes -/

/-- A place: pieces in a Loop, or physical pieces with the translations used. `own` tells the 0xFE window from the
0xFD window. -/
inductive Place where
  | loop (own : Bool) (target : CoreId) (segs : List Seg)
  | glob (segs : List Seg) (ents : List TlbEnt)
deriving DecidableEq, Repr

/-- A translation or access fault as a fault of the syllable. -/
def XF.trap (f : XF) : Trap := { code := f.code, cause := f.cause, detail := f.detail, addr := f.addr }

/-- An access fault with a cause of R269. -/
def accTrap (cause ea : Nat) : Trap := { code := fAccess, cause := cause, addr := ea }

/-- Bytes lie in a footprint of 64 KiB units (R239). -/
def inFp (unit cnt off len : Nat) : Bool := unit * 65536 ≤ off && off + len ≤ (unit + cnt) * 65536

/-- The member runs on its core: its context is resident. -/
def Member.here (m : Member) : Bool :=
  match m.st with
  | .resident _ => true
  | _ => false

/-- Bytes lie in the footprint that a task may use in the Loop of a core: its own, or that of a member of its gang that runs
there (R239). -/
def fpAllows (s : State) (c : CoreId) (x : Ctx) (target : CoreId) (off len : Nat) : Bool :=
  if target = c then inFp x.fpUnit x.fpCnt off len
  else
    match s.gang x.gang.toNat with
    | some g => g.mems.any (fun m => m.core == target && m.here) && inFp (pktFpUnit g.pkt) (pktFpCnt g.pkt) off len
    | none => false

/-- The Loop pieces of an access in the cluster window, which may run on into the next core's Loop. -/
def clusterSegs (c : CoreId) (n off len : Nat) : List (CoreId × Seg) :=
  let first := min len (2 ^ 21 - off)
  (peerOf c n, { key := loopKey (peerOf c n) off, len := first }) ::
    (if first < len then [(peerOf c (n + 1), { key := loopKey (peerOf c (n + 1)) 0, len := len - first })] else [])

/-- Resolve an access of a context (R152, R153, R239, R279). `glob` admits the global window alone. -/
def placeOf (s : State) (c : CoreId) (x : Ctx) (ea len align : Nat) (acc : Acc) (globOnly : Bool) : Except Trap Place :=
  match windowOf ea with
  | .bad => .error (accTrap 0 ea)
  | .loop off =>
    if globOnly || 2 ^ 21 < off + len then .error (accTrap 0 ea)
    else if ea % align != 0 then .error (accTrap 1 ea)
    else if fpAllows s c x c off len then .ok (.loop true c [{ key := loopKey c off, len := len }])
    else .error (accTrap 5 ea)
  | .cluster n off =>
    if globOnly || 2 ^ 24 < n * 2 ^ 21 + off + len then .error (accTrap 0 ea)
    else if ea % align != 0 then .error (accTrap 1 ea)
    else
      let l := clusterSegs c n off len
      if l.all (fun (p : CoreId × Seg) => fpAllows s c x p.1 (p.2.key % 2 ^ 21) p.2.len) then
        .ok (.loop false (peerOf c n) (l.map (·.2)))
      else .error (accTrap 5 ea)
  | .glob va =>
    if 2 ^ 56 < va + len then .error (accTrap 0 ea)
    else if ea % align != 0 then .error (accTrap 1 ea)
    else
      match xlateSegs s true (tileOf c) (some c) x.asid.toNat acc (segFuel len) va len with
      | .error f => .error f.trap
      | .ok (l, es) => .ok (.glob l es)

/-- The places of many elements, all in the window of the first (R164). -/
def placesOf (s : State) (c : CoreId) (x : Ctx) (n : Nat) (acc : Acc) : List Nat → Except Trap (List Place)
  | [] => .ok []
  | ea :: l =>
    match placeOf s c x ea n n acc false with
    | .error t => .error t
    | .ok p =>
      match placesOf s c x n acc l with
      | .error t => .error t
      | .ok ps => .ok (p :: ps)

/-- Which window a place is in. -/
def Place.window : Place → Nat
  | .loop true _ _ => 0xFE
  | .loop false _ _ => 0xFD
  | .glob _ _ => 0

def Place.segs : Place → List Seg
  | .loop _ _ l => l
  | .glob l _ => l

def Place.ents : Place → List TlbEnt
  | .loop _ _ _ => []
  | .glob _ l => l

def Place.target : Place → Option CoreId
  | .loop _ t _ => some t
  | .glob _ _ => none

/-- Elements that leave the window of the first raise the access fault. -/
def sameWindow (ps : List Place) : Bool :=
  match ps with
  | [] => true
  | p :: l => l.all (fun q => q.window = p.window)

/-! ## Scope prefixes (R165) -/

/-- The scope of an acquire that the bundle's prefix gives a load. -/
def acqScope (s : State) (h : Hart) : Option Scope :=
  match h.pfx with
  | some p => if p.ord.getLsbD 0 then some (s.scopeEff p.scope) else none
  | none => none

/-- The scope of a release that it gives a store. -/
def relScope (s : State) (h : Hart) : Option Scope :=
  match h.pfx with
  | some p => if p.ord.getLsbD 1 then some (s.scopeEff p.scope) else none
  | none => none

/-- No-allocate. -/
def Hart.na (h : Hart) : Bool := match h.pfx with
  | some p => p.na
  | none => false

/-- The number of a scope in code order. -/
def scNum : Scope → Nat
  | .lanegroup => 0 | .core => 1 | .cluster => 2 | .layer => 3 | .tile => 4 | .reticle => 5 | .package => 6 | .pod => 7

/-- The wider of two releases. -/
def wider (a b : Option Scope) : Option Scope :=
  match a, b with
  | some x, some y => if scNum x < scNum y then some y else some x
  | none, y => y
  | x, none => x

/-! ## Forwarding from the context's own stores (R154, R250) -/

/-- The byte that a store writes at a key. -/
def segByte (key : Nat) : List Seg → List Byte → Option Byte
  | [], _ => none
  | g :: l, bs => if g.key ≤ key && key < g.key + g.len then bs[key - g.key]? else segByte key l (bs.drop g.len)

/-- The latest store of a list, oldest first, to a key. -/
def latestStore (key : Nat) : List WEnt → Option Byte
  | [] => none
  | w :: l =>
    match latestStore key l with
    | some b => some b
    | none => match w.op with
      | .st bs => segByte key w.segs bs
      | _ => none

/-- What a context's own stores give each byte of a load. -/
def forwardOf (ws : List WEnt) (segs : List Seg) : List (Option Byte) :=
  if ws.isEmpty then []
  else segs.flatMap (fun g => (fromTo g.key g.len).map (fun k => latestStore k ws))

/-! ## Issuing loads -/

/-- The track mask and the clocks of an access (R155, R161). -/
def scalarTrack (trk : BitVec 4) : BitVec 16 := 1#16 <<< trk.toNat
def vectorTrack (trk : BitVec 4) : BitVec 16 := if trk.getLsbD 3 then 0xFF00 else 0x00FF
def vectorClocks (len : Nat) : Nat := (len + 511) / 512

/-- A load to be issued: its destination, how its bytes are read, its form. -/
structure LoadTo where
  dst  : Dst
  dec  : Dec
  form : LdForm

/-- The form of SP and WT (R156, R157). -/
def formOf (sp wt : Bool) : LdForm := if wt then .wt else if sp then .sp else .plain

/-- Issue a load of a context from Loop pieces: it performs `at_` issue cycles on and lands `lag` later (R240). -/
def State.loopLoad (s : State) (c : CoreId) (k : CtxId) (own : Bool) (target : CoreId) (segs : List Seg)
    (tracks : BitVec 16) (clocks at_ lag : Nat) (acq : Option Scope) (ld : LoadTo) : State :=
  let id := s.fresh
  let h := (s.ctx c k).hart
  let acc : LoopAcc :=
    { id := id, core := c, ctx := k, slot := h.slot, pc := h.bpc, ic := some (h.ic + at_), target := target, own := own,
      tracks := tracks, clocks := clocks, segs := segs, wr := none, req := some id, lag := lag }
  let s1 := s.updCtx c k (fun x =>
    { x with hart := x.hart.emit (at_ + lag) ld.dst (.wait id ld.dec) false ld.form [],
             reqs := x.reqs ++ [{ id := id, segs := segs, acq := acq, sure := own }] })
  { s1 with loopq := s1.loopq ++ [acc], fresh := id + 1 }

/-- Issue a global load or atomic of a context. -/
def State.globLoad (s : State) (c : CoreId) (k : CtxId) (op : ReqOp) (segs : List Seg) (ents : List TlbEnt) (lat : Nat)
    (ld : LoadTo) : State :=
  let id := s.fresh
  let x := s.ctx c k
  let r : Req :=
    { id := id, op := op, segs := segs, fwd := forwardOf (x.wbuf ++ x.cask) segs, acq := acqScope s x.hart, na := x.hart.na,
      barR := max x.acqRet x.acqPkg, barP := x.acqPkg }
  let s1 := (s.fillTlbs (tileOf c) (some c) ents).updCtx c k (fun x =>
    { x with hart := x.hart.emit lat ld.dst (.wait id ld.dec) false ld.form [], reqs := x.reqs ++ [r] })
  { s1 with fresh := id + 1 }

/-- A `.s` load that would fault: poison at its promised cycle (R156). -/
def State.poisonLoad (s : State) (c : CoreId) (k : CtxId) (lat : Nat) (ld : LoadTo) : State :=
  s.updCtx c k (fun x => { x with hart := x.hart.emit lat ld.dst .poison true ld.form [] })

/-- The promised latency of a window (R154); of an address in no window, the LAT latency (log 67). -/
def promised (ea : Nat) (lat : Nat) : Nat :=
  match windowOf ea with
  | .loop _ => 6
  | .cluster _ _ => 14
  | _ => lat

/-- A contiguous load of a context (R154-R157, R161). -/
def coreLoad (s : State) (c : CoreId) (k : CtxId) (ea len align lat : Nat) (tracks : BitVec 16) (clocks : Nat) (ld : LoadTo) :
    Out :=
  match placeOf s c (s.ctx c k) ea len align .read false with
  | .error t => .next (if ld.form = .sp then s.poisonLoad c k (promised ea lat) ld else s.raise t)
  | .ok (.loop true t l) => .next (s.loopLoad c k true t l tracks clocks 3 3 (acqScope s (s.ctx c k).hart) ld)
  | .ok (.loop false t l) => .next (s.loopLoad c k false t l tracks clocks 10 4 (acqScope s (s.ctx c k).hart) ld)
  | .ok (.glob l es) => .next (s.globLoad c k .load l es lat ld)

/-- A load of a Cellarer: it acts as `.w` (R321). -/
def cellLoad (s : State) (t : TileId) (ea len lat : Nat) (ld : LoadTo) : Out :=
  match (if ea % len != 0 then .error { code := fAccess, cause := 1, addr := ea } else cellSegs s t ea len .read) with
  | .error (f : XF) => .next (s.raise f.trap)
  | .ok (l, es) =>
    let id := s.fresh
    let s1 := (s.fillTlbs t none es).updCell t (fun x =>
      { x with hart := x.hart.emit lat ld.dst (.wait id ld.dec) false .wt [],
               reqs := x.reqs ++ [{ id := id, segs := l, na := x.hart.na, acq := acqScope s x.hart, barR := max x.acqRet x.acqPkg,
                                    barP := x.acqPkg }] })
    .next { s1 with fresh := id + 1 }

/-- A scalar load of `n` bytes (R154). -/
def scalarLoad (n : Nat) (signed : Bool) (d : Reg) (f : LdF) (s : State) : Out :=
  let h := s.hart
  let ld : LoadTo := { dst := .s d, dec := .sc n signed, form := formOf f.sp f.wt }
  if h.sPois f.base then .next (s.raise { code := fLate })
  else
    match s.cur with
    | .core c k => coreLoad s c k (h.ea f.base f.off) n n (latOf f.lat) (scalarTrack f.trk) 1 ld
    | .cell t => cellLoad s t (h.ea f.base f.off) n (latOf f.lat) ld
    | _ => .next s

def execLd8 (d : Reg) (f : LdF) (s : State) : Out := scalarLoad 1 true d f s
def execLd8n (d : Reg) (f : LdF) (s : State) : Out := scalarLoad 1 false d f s
def execLd16 (d : Reg) (f : LdF) (s : State) : Out := scalarLoad 2 true d f s
def execLd16n (d : Reg) (f : LdF) (s : State) : Out := scalarLoad 2 false d f s
def execLd32 (d : Reg) (f : LdF) (s : State) : Out := scalarLoad 4 true d f s
def execLd32n (d : Reg) (f : LdF) (s : State) : Out := scalarLoad 4 false d f s
def execLd64 (d : Reg) (f : LdF) (s : State) : Out := scalarLoad 8 true d f s

/-! ## Stores (R159, R160) -/

/-- The Cask takes these writes within the region's budget (R160). -/
def caskFits (x : Ctx) (ws : List WEnt) : Bool := caskUse (x.cask ++ ws) ≤ x.reg.caskmax

/-- A Loop store joins those that the commands of its bundle's commit wait for (R254). -/
def Ctx.noteStore (x : Ctx) (id : Nat) : Ctx :=
  { x with batches := mapWhere (fun b => b.ic == x.hart.ic) (fun b => { b with loops := b.loops ++ [id] }) x.batches }

/-- A Loop or cluster-window store is on its way. -/
def State.addStore (s : State) (a : LoopAcc) : State :=
  ({ s with loopq := s.loopq ++ [a], fresh := s.fresh + 1 } : State).updCtx a.core a.ctx (·.noteStore a.id)

/-- Issue a Loop or cluster-window store of a context (R240). -/
def State.loopStore (s : State) (c : CoreId) (k : CtxId) (own : Bool) (target : CoreId) (segs : List Seg) (tracks : BitVec 16)
    (clocks at_ : Nat) (bs : List Byte) : State :=
  let h := (s.ctx c k).hart
  let acc : LoopAcc :=
    { id := s.fresh, core := c, ctx := k, slot := h.slot, pc := h.bpc, ic := some (h.ic + at_), target := target, own := own, tracks := tracks,
      clocks := clocks, segs := segs, wr := some bs, req := none, lag := 0, scope := relScope s h,
      held := (relScope s h).isSome }
  s.addStore acc

/-- A withheld write of the syllable in issue. -/
def State.newW (s : State) (h : Hart) (relF : Option Scope) (id va : Nat) (segs : List Seg) (op : WOp) : WEnt :=
  { id := id, segs := segs, va := va, op := op, rel := wider (relScope s h) relF, pc := h.bpc, slot := h.slot, na := h.na }

/-- Put writes into the Cask, or the Cask-overflow fault. -/
def State.withhold (s : State) (c : CoreId) (k : CtxId) (ents : List TlbEnt) (ws : List WEnt) (f : Ctx → Ctx) : Out :=
  if caskFits (s.ctx c k) ws then
    let s1 := (s.fillTlbs (tileOf c) (some c) ents).updCtx c k (fun x => f { x with cask := x.cask ++ ws })
    .next { s1 with fresh := s1.fresh + ws.length }
  else .next (s.raise { code := fCask })

/-- A Loop store that releases is legal only beside `rgnc` or `end` (R251). -/
def State.releaseOk (s : State) (h : Hart) : Bool := (relScope s h).isNone || h.closes

/-- A contiguous store of a context: its bytes, and what else the syllable leaves (flags). -/
def coreStore (s : State) (c : CoreId) (k : CtxId) (ea align : Nat) (tracks : BitVec 16) (clocks : Nat) (bs : List Byte)
    (f : Ctx → Ctx) : Out :=
  let x := s.ctx c k
  let g (y : Ctx) : Ctx := f (y.event (bytesOf 8 ea ++ bs))
  match placeOf s c x ea bs.length align .write false with
  | .error t => .next (s.raise t)
  | .ok (.loop own t l) =>
    if s.releaseOk x.hart then
      .next ((s.loopStore c k own t l tracks clocks (if own then 3 else 10) bs).updCtx c k g)
    else .next (s.raise { code := fIllSyl })
  | .ok (.glob l es) => s.withhold c k es [s.newW x.hart x.relF s.fresh ea l (.st bs)] g

/-- A store of a Cellarer performs at once (R321). -/
def cellStore (s : State) (t : TileId) (ea : Nat) (bs : List Byte) : Out :=
  match (if ea % bs.length != 0 then .error { code := fAccess, cause := 1, addr := ea } else cellSegs s t ea bs.length .write) with
  | .error (f : XF) => .next (s.raise f.trap)
  | .ok (l, es) => .next ((s.fillTlbs t none es).writeSegs (.cell t) t l bs)

/-- A scalar store of `n` bytes. -/
def scalarStore (n : Nat) (d : Reg) (f : StF) (s : State) : Out :=
  let h := s.hart
  if h.sPois f.base || h.sPois d then .next (s.raise { code := fLate })
  else
    match s.cur with
    | .core c k => coreStore s c k (h.ea f.base f.off) n (scalarTrack f.trk) 1 (bytesOf n (h.rs d).toNat) (fun x => x)
    | .cell t => cellStore s t (h.ea f.base f.off) (bytesOf n (h.rs d).toNat)
    | _ => .next s

def execSt8 (d : Reg) (f : StF) (s : State) : Out := scalarStore 1 d f s
def execSt16 (d : Reg) (f : StF) (s : State) : Out := scalarStore 2 d f s
def execSt32 (d : Reg) (f : StF) (s : State) : Out := scalarStore 4 d f s
def execSt64 (d : Reg) (f : StF) (s : State) : Out := scalarStore 8 d f s

/-! ## Vector loads and stores (R161-R163) -/

/-- The alignment of a vector access (R153). -/
def vecAlign : Kind → Nat
  | .f32 | .i32 => 4
  | .bf16 | .f16 | .i16 => 2
  | _ => 1

/-- The offset of a vector form, sign-extended to 32 bits. -/
def off28 (o : BitVec 28) : BitVec 32 := o.signExtend 32
def off22 (o : BitVec 22) : BitVec 32 := o.signExtend 32

/-- The containers of 512 elements in memory (R47, R162). -/
def widen (k : Kind) (bs : List Byte) : List Cont :=
  (chunks (bitsOf16 k / 8) 32 bs).flatMap (fun run =>
    let n := leNat run
    (fromTo 0 16).map (fun i => { v := elemCont k n i }))

/-- The register image of R46. -/
def imageOf (cs : List Cont) : List Byte :=
  cs.flatMap (fun c => bytesOf 4 c.v.toNat) ++
    (chunks 8 64 cs).flatMap (fun l => bytesOf 1 (l.foldr (fun c n => (if c.s then 1 else 0) + 2 * n) 0))

/-- The containers of a register image. -/
def ofImage (bs : List Byte) : List Cont :=
  let sp := leNat (bs.drop 2048)
  List.zipWith (fun w i => { v := BitVec.ofNat 32 (leNat w), s := sp.testBit i }) (chunks 4 512 (bs.take 2048)) (fromTo 0 512)

/-- The random bits of SR: bits 31:16 of each random word (R56, R57, R162). -/
def srWords (x : Ctx) : List Nat := (x.rv (srv x.hart.fr)).map (fun c => c.v.toNat / 65536)

/-- The final rounding of 512 containers to a kind in memory: bytes, and flags with their lowest container (R162). -/
def narrow (k : Kind) (mu : RM) (cs : List Cont) (rnds : List Nat) : List Byte × List (Nat × Nat) :=
  let runs := List.zipWith (fun a b => storeRun k mu a b) (chunks 16 32 cs) (chunks 16 32 rnds)
  (runs.flatMap (fun r => bytesOf (bitsOf16 k / 8) r.1), foldFlags 0 (runs.flatMap (fun r => r.2)) [])

/-- SR is in force and the register that supplies its words is poisoned (R162). -/
def srPois (x : Ctx) : Bool := frnd x.hart.fr = .sr && x.vPois (srv x.hart.fr)

/-- The flags of a store are readable at I + 3 (R162). -/
def Ctx.storeFlags (fl : List (Nat × Nat)) (x : Ctx) : Ctx :=
  if fl.isEmpty then x else { x with hart := x.hart.emit 3 .void (.have (.b true)) false .plain fl }

/-- A vector load. -/
def vectorLoad (d : Reg) (f : VLdF) (img : Bool) (s : State) : Out :=
  match s.cur with
  | .core c k =>
    let x := s.ctx c k
    let h := x.hart
    if h.sPois f.base then .next (s.raise { code := fLate })
    else
      let go (len align : Nat) (dec : Dec) : Out :=
        coreLoad s c k (h.ea f.base (off28 f.off)) len align (latOf f.lat) (vectorTrack f.trk) (vectorClocks len)
          { dst := .v d, dec := dec, form := formOf f.sp f.wt }
      if img then go 2112 64 .img
      else
        match kindField h.fr f.kind with
        | none => .next (s.raise { code := fIllSyl })
        | some kd => go (footprint kd 512) (vecAlign kd) (.vec kd)
  | _ => .next s

def execVld (d : Reg) (f : VLdF) (s : State) : Out := vectorLoad d f false s
def execVldImg (d : Reg) (f : VLdF) (s : State) : Out := vectorLoad d f true s

/-- A vector store. -/
def vectorStore (d : Reg) (f : VStF) (img : Bool) (s : State) : Out :=
  match s.cur with
  | .core c k =>
    let x := s.ctx c k
    let h := x.hart
    let ea := h.ea f.base (off28 f.off)
    if h.sPois f.base || x.vPois d then .next (s.raise { code := fLate })
    else if img then coreStore s c k ea 64 (vectorTrack f.trk) (vectorClocks 2112) (imageOf (x.rv d)) (fun y => y)
    else
      match kindField h.fr f.kind with
      | none => .next (s.raise { code := fIllSyl })
      | some kd =>
        if srPois x then .next (s.raise { code := fLate })
        else
          let r := narrow kd (frnd h.fr) (x.rv d) (srWords x)
          coreStore s c k ea (vecAlign kd) (vectorTrack f.trk) (vectorClocks (footprint kd 512)) r.1 (Ctx.storeFlags r.2)
  | _ => .next s

def execVst (d : Reg) (f : VStF) (s : State) : Out := vectorStore d f false s
def execVstImg (d : Reg) (f : VStF) (s : State) : Out := vectorStore d f true s

/-! ## Gathers and scatters (R164) -/

/-- The kinds that a gather or scatter admits. -/
def gatherKind (k : Kind) : Bool := (blockK k).isNone && k != .f4

/-- The address of each container (R164). -/
def gatherEas (h : Hart) (base : Reg) (off : BitVec 22) (idx : List Cont) : List Nat :=
  idx.map (fun c => (h.rs base + off.signExtend 64 + c.v.signExtend 64).toNat)

/-- The places of a gather or scatter in one window, or its fault. -/
def gatherPlaces (s : State) (c : CoreId) (x : Ctx) (n : Nat) (acc : Acc) (eas : List Nat) : Except Trap (List Place) :=
  match placesOf s c x n acc eas with
  | .error t => .error t
  | .ok ps => if sameWindow ps then .ok ps else .error (accTrap 0 (eas.getD 0 0))

def execVldg (d : Reg) (f : GatF) (s : State) : Out :=
  match s.cur with
  | .core c k =>
    let x := s.ctx c k
    let h := x.hart
    let lat := latOf f.lat
    if h.sPois f.base || x.vPois f.vi then .next (s.raise { code := fLate })
    else
      match kindField h.fr f.kind with
      | none => .next (s.raise { code := fIllSyl })
      | some kd =>
        if !gatherKind kd then .next (s.raise { code := fIllSyl })
        else
          let ld : LoadTo := { dst := .v d, dec := .gat kd, form := formOf f.sp f.wt }
          match gatherPlaces s c x (bitsOf16 kd / 128) .read (gatherEas h f.base f.off (x.rv f.vi)) with
          | .error t => .next (if ld.form = .sp then s.poisonLoad c k lat ld else s.raise t)
          | .ok ps =>
            let segs := ps.flatMap (·.segs)
            match ps.head? with
            | some (.loop own t _) => .next (s.loopLoad c k own t segs 0 1 lat 0 (acqScope s h) ld)
            | _ => .next (s.globLoad c k .load segs (ps.flatMap (·.ents)) lat ld)
  | _ => .next s

/-- Withheld writes of a scatter, element by element (R164). -/
def scatterWs (s : State) (x : Ctx) : Nat → List Nat → List Place → List (List Byte) → List WEnt
  | id, ea :: eas, p :: ps, b :: bs => s.newW x.hart x.relF id ea p.segs (.st b) :: scatterWs s x (id + 1) eas ps bs
  | _, _, _, _ => []

def execVsts (d : Reg) (f : ScaF) (s : State) : Out :=
  match s.cur with
  | .core c k =>
    let x := s.ctx c k
    let h := x.hart
    if h.sPois f.base || x.vPois f.vi || x.vPois d then .next (s.raise { code := fLate })
    else
      match kindField h.fr f.kind with
      | none => .next (s.raise { code := fIllSyl })
      | some kd =>
        if !gatherKind kd then .next (s.raise { code := fIllSyl })
        else if srPois x then .next (s.raise { code := fLate })
        else
          let n := bitsOf16 kd / 128
          let eas := gatherEas h f.base f.off (x.rv f.vi)
          let r := narrow kd (frnd h.fr) (x.rv d) (srWords x)
          let elems := chunks n 512 r.1
          let ev := (List.zipWith (fun ea b => bytesOf 8 ea ++ b) eas elems).flatMap (fun l => l)
          match gatherPlaces s c x n .write eas with
          | .error t => .next (s.raise t)
          | .ok ps =>
            let g (y : Ctx) : Ctx := (y.event ev).storeFlags r.2
            match ps.head? with
            | some (.loop own t _) =>
              if s.releaseOk h then .next ((s.loopStore c k own t (ps.flatMap (·.segs)) 0 1 10 r.1).updCtx c k g)
              else .next (s.raise { code := fIllSyl })
            | _ => s.withhold c k (ps.flatMap (·.ents)) (scatterWs s x s.fresh eas ps elems) g
  | _ => .next s

/-! ## Performing global accesses (R247, R250-R256) -/

/-- The copy that serves a byte of a load: the line is homed elsewhere, the tile holds a copy no older than the acquires
that order the load, and the load is no acquire at RETICLE or wider (R247, R252). -/
def servingCopy (s : State) (t : TileId) (r : Req) (key : Nat) : Option Copy :=
  let home := homeOf key
  if home = t || isLoopKey key || r.acq.any (fun a => scNum .reticle ≤ scNum a) then none
  else
    let bar := if reticleOf home = reticleOf t then r.barR else r.barP
    (s.tile t).copies.find? (fun c => c.key == key / 64 && bar ≤ c.stamp)

/-- A byte of a load as it performs. -/
def loadByte (s : State) (t : TileId) (r : Req) (ks key i : Nat) : Byte :=
  match r.fwd.getD i none with
  | some b => b
  | none => match servingCopy s t r key with
    | some c => c.bs.getD (key % 64) 0
    | none => s.byteAt ks key

/-- The bytes of a load, piece by piece. -/
def loadBytes (s : State) (t : TileId) (r : Req) : Nat → List Seg → List Byte
  | _, [] => []
  | i, g :: l => (List.zipWith (fun key j => loadByte s t r g.ks key (i + j)) (fromTo g.key g.len) (fromTo 0 g.len)) ++
      loadBytes s t r (i + g.len) l

/-- The lines that a load reads at a home on another tile. -/
def homeLines (s : State) (t : TileId) (r : Req) : List (Nat × Nat) :=
  (r.segs.flatMap (fun g => (fromTo (g.key / 64) ((g.key + g.len + 63) / 64 - g.key / 64)).map (fun l => (l, g.ks)))).filter
    (fun (p : Nat × Nat) => homeOf (p.1 * 64) != t && !(isLoopKey (p.1 * 64)) && (servingCopy s t r (p.1 * 64)).isNone &&
      (match paSel (p.1 * 64) with
       | .dev _ _ => false
       | _ => true))

/-- The lines that the blocks held on a tile pin, with their ways. -/
def tilePins (s : State) (t : TileId) : List (Nat × Nat) :=
  (fromTo 0 32).flatMap (fun n => [(0 : CtxId), 1, 2].flatMap (fun k => (s.ctx (coreAt t n) k).blocks.flatMap (·.pins))) ++
    (s.cell t).blocks.flatMap (·.pins)

/-- The lines of the blocks held on a tile: they are cached only as they are pinned (R246). -/
def tileBlockLines (s : State) (t : TileId) : List Nat :=
  (fromTo 0 32).flatMap (fun n => [(0 : CtxId), 1, 2].flatMap (fun k =>
    ((s.ctx (coreAt t n) k).blocks.filter (fun b => !b.released && !b.filling)).flatMap (·.keys))) ++
    ((s.cell t).blocks.filter (fun b => !b.released && !b.filling)).flatMap (·.keys)

/-- The set of a line: a cache has 65,536 (R244). -/
def setOf (line : Nat) : Nat := line % 65536

/-- The way that a line takes in its set of a tile's cache: any that no pinned line holds (R246, log 68). -/
def freeWay (s : State) (t : TileId) (pins : List (Nat × Nat)) (line : Nat) : Nat :=
  let w := (s.tile t).scrw
  let ws := (fromTo w (16 - w)).filter (fun v => !(pins.any (fun p => setOf p.1 == setOf line && p.1 != line && p.2 == v)))
  ws.getD ((Config.freeWord (s.fresh + line)).toNat % ws.length) w

/-- A copy enters a tile's cache: the copy that stood in its way of its set leaves (R244, R246). -/
def putCopy (c : Copy) (l : List Copy) : List Copy := c :: l.filter (fun d => !(setOf d.key == setOf c.key && d.way == c.way))

/-- A line read at its home refreshes the tile's copy, and may leave one, but not of a block line that could not be pinned (R246, R247). -/
def State.refresh (s : State) (t : TileId) (keep : Bool) : List (Nat × Nat) → State
  | [] => s
  | (line, ks) :: l =>
    let bs := s.bytesAt ks (line * 64) 64
    let old := (s.tile t).copies
    let has := old.any (fun c => c.key == line)
    let tag := mapGet 0 s.tags line
    let pins := tilePins s t
    let new := if has then mapWhere (fun c => c.key == line) (fun c => { c with stamp := s.fresh, bs := bs, tag := tag }) old
               else if keep && (s.tile t).scrw < 16 && (pins.any (fun p => p.1 == line) || !((tileBlockLines s t).contains line)) then
                 let way := match pins.find? (fun p => p.1 == line) with
                   | some p => p.2
                   | none => freeWay s t pins line
                 putCopy { key := line, stamp := s.fresh, bs := bs, tag := tag, way := way } old
               else old
    (s.updTile t (fun x => { x with copies := new })).refresh t keep l

/-- The lines of a block that its tile can pin: a set holds at most W / 2 pinned lines (R246). `pins` are those pinned so far. -/
def pinLines (s : State) (t : TileId) (pins : List (Nat × Nat)) : List Nat → List (Nat × Nat)
  | [] => []
  | line :: l =>
    match pins.find? (fun p => p.1 == line) with
    | some p => p :: pinLines s t pins l
    | none =>
      let inSet := (pins.filter (fun p => setOf p.1 == setOf line)).foldl (fun (l : List Nat) p => if l.contains p.1 then l else p.1 :: l) []
      if inSet.length < (16 - (s.tile t).scrw) / 2 then
        let p := (line, match (s.tile t).copies.find? (fun c => c.key == line) with
          | some c => c.way
          | none => freeWay s t pins line)
        p :: pinLines s t (p :: pins) l
      else pinLines s t pins l

/-- Some byte of a load comes from a unit that is marked bad (R283). -/
def readsBad (s : State) (segs : List Seg) : Bool :=
  !s.bad.isEmpty && segs.any (fun g =>
    (fromTo (g.key / 64) ((g.key + g.len + 63) / 64 - g.key / 64)).any (fun l => s.bad.contains l))

/-- The new value of an atomic (R166); none when memory is not written. -/
def amoNew (op : AmoOp) (w : Nat) (m a b : Nat) : Option Nat :=
  match op with
  | .add => some ((m + a) % 2 ^ w)
  | .min => some (if signedOf w a < signedOf w m then a else m)
  | .max => some (if signedOf w m < signedOf w a then a else m)
  | .minn => some (min m a)
  | .maxn => some (max m a)
  | .and => some (m &&& a)
  | .or => some (m ||| a)
  | .xor => some (m ^^^ a)
  | .swap => some a
  | .cas => if m = a then some b else none

/-- A copy of the tile serves a byte of a load. -/
def servedByCopy (s : State) (t : TileId) (r : Req) : Bool :=
  r.segs.any (fun g => (fromTo (g.key / 64) ((g.key + g.len + 63) / 64 - g.key / 64)).any (fun l => (servingCopy s t r (l * 64)).isSome))

/-- Perform a request at its home: its value is fixed, and an atomic writes (R166, R247). -/
def State.performAt (s : State) (t : TileId) (keep : Bool) (r : Req) : State × Req :=
  match r.op with
  | .load =>
    let bs := loadBytes s t r 0 r.segs
    ((s.refresh t (keep && !r.na) (homeLines s t r)).bump,
      { r with got := some bs, bad := readsBad s r.segs, done := s.fresh, copied := servedByCopy s t r })
  | .amo op w64 a b =>
    let n := if w64 then 8 else 4
    let old := s.segBytes r.segs
    let w := 8 * n
    let s1 := match amoNew op w (leNat old) (a.toNat % 2 ^ w) (b.toNat % 2 ^ w) with
      | some v => r.segs.head?.elim s (fun g => s.putBytes t g.ks g.key (bytesOf n v))
      | none => s
    -- what it has observed, a copy of its tile shows from now on (R250)
    let s2 := s1.refresh t false (r.segs.filterMap (fun g => if homeOf g.key = t then none else some (g.key / 64, g.ks)))
    (s2.bump.logEv 0 (r.segs.head?.elim 0 (fun g => g.key)), { r with got := some old, bad := readsBad s r.segs, done := s.fresh })

/-- Replace a request of a list. -/
def setReq (r : Req) (l : List Req) : List Req := mapWhere (fun q => q.id == r.id) (fun _ => r) l

/-- Two lists of pieces share a byte. -/
def segsMeet (a b : List Seg) : Bool :=
  a.any (fun g => b.any (fun h => g.key < h.key + h.len && h.key < g.key + g.len))

/-- An atomic waits for its context's earlier writes to the same bytes, and one that releases for every earlier access
(R250, R251). -/
def State.atomicWaits (s : State) (c : CoreId) (k : CtxId) (r : Req) : Bool :=
  match r.op with
  | .load => false
  | .amo _ _ _ _ =>
    let x := s.ctx c k
    x.wbuf.any (fun w => w.id < r.id && (r.rel.isSome || segsMeet w.segs r.segs)) ||
      (r.rel.isSome && (x.reqs.any (fun q => q.id < r.id && q.got.isNone) ||
        s.loopq.any (fun a => a.core == c && a.ctx == k && a.id < r.id)))

/-- An earlier load or atomic of a context to some of the same bytes has still to perform: what a context has observed it does not
observe an earlier write after (R250). -/
def readsBehind (x : Ctx) (r : Req) : Bool := x.reqs.any (fun q => q.id < r.id && q.got.isNone && segsMeet q.segs r.segs)

/-- A request of a context performs, if it has not and nothing holds it back. -/
def State.performReq (s : State) (c : CoreId) (k : CtxId) (id : Nat) (keep : Bool) : State :=
  match (s.ctx c k).reqs.find? (fun r => r.id == id && r.got.isNone && !(s.atomicWaits c k r) && !(readsBehind (s.ctx c k) r)) with
  | none => s
  | some r =>
    let (s1, r1) := s.performAt (tileOf c) keep r
    s1.updCtx c k (fun x => { x with reqs := setReq r1 x.reqs, perfAt := r1.done })

/-- A request of a Cellarer performs. -/
def State.performCell (s : State) (t : TileId) (id : Nat) : State :=
  match (s.cell t).reqs.find? (fun r => r.id == id && r.got.isNone) with
  | none => s
  | some r =>
    let (s1, r1) := s.performAt t false r
    s1.updCell t (fun x => { x with reqs := setReq r1 x.reqs, perfAt := r1.done })

/-- Perform every earlier access of a context that has not performed, for a release or a deadline (R251, R255). -/
def State.performReqs (s : State) (c : CoreId) (k : CtxId) : List Nat → State
  | [] => s
  | i :: l => (s.performReq c k i false).performReqs c k l

/-- The largest finite f32 magnitude. -/
def maxF32 : Nat := 2 ^ 24 - 1

/-- `red.fadd` at the home (R168): the word it writes, and its flags. -/
def faddHome (m a : W32) : W32 × Fl :=
  let (v, s, inv) := hopAdd (f32Val m) false (f32Val a)
  let sat : Bool := match FVal.add false (f32Val m) (f32Val a) with
    | (.fin _ mm e, _) => magLt maxF32 104 mm e && s
    | _ => false
  (match v with
   | .nan => nan32
   | v => f32Of v, Fl.when inv Fl.invalid ||| Fl.when sat Fl.overflow ||| Fl.when s Fl.inexact)

/-- A write reaches beyond the scratch of its tile as it performs (R245). -/
def beyondScratch (s : State) (w : WEnt) : Bool :=
  w.segs.any (fun g => match paSel g.key with
    | .scratch t off => (s.tile t).scrw * 2 ^ 22 < off + g.len
    | _ => false)

/-- Write bytes over pieces of memory. -/
def State.putSegs (s : State) (t : TileId) : List Seg → List Byte → State
  | [], _ => s
  | g :: l, bs => (s.putBytes t g.ks g.key (bs.take g.len)).putSegs t l (bs.drop g.len)

/-- The least scope that encloses a core and a home (R12). -/
def leastScope (c : CoreId) (home : TileId) : Scope :=
  if tileOf c = home then .tile else if reticleOf (tileOf c) = reticleOf home then .reticle else .package

/-- The gt by which the flags of a `red.fadd` are readable (R168). -/
def redDue (s : State) (c : CoreId) (w : WEnt) : Nat :=
  w.segs.foldl (fun d g =>
    let e := s.sctAt (scNum (leastScope c (homeOf g.key)))
    min d (w.cgt + wbits e 32 16 + wbits e 16 16)) (w.cgt + 2 ^ 17)

/-- A committed write performs at its home; a `red.fadd` sends its flags back (R137, R168, R245). -/
def State.performW (s : State) (c : CoreId) (k : CtxId) (w : WEnt) : State :=
  if beyondScratch s w then s.coreFault c k w.slot w.pc (accTrap 4 w.va)
  else
    match w.op with
    | .st bs => s.putSegs (tileOf c) w.segs bs
    | .add w64 a =>
      let n := if w64 then 8 else 4
      let m := leNat (s.segBytes w.segs)
      (s.putSegs (tileOf c) w.segs (bytesOf n ((m + a.toNat) % 2 ^ (8 * n)))).logEv 1 (w.segs.head?.elim 0 (fun g => g.key))
    | .fadd a =>
      let m := BitVec.ofNat 32 (leNat (s.segBytes w.segs))
      let (v, fl) := faddHome m a
      ((s.putSegs (tileOf c) w.segs (bytesOf 4 v.toNat)).logEv 1 (w.segs.head?.elim 0 (fun g => g.key))).updCtx c k (fun x =>
        { x with redfl := x.redfl ++ [{ slot := w.slot, pc := w.pc, fl := fl, due := redDue s c w }] })

/-- The accesses that a release waits for: earlier loads, atomics and Loop stores of its context (R251). -/
def State.releaseWaits (s : State) (c : CoreId) (k : CtxId) (w : WEnt) : Bool :=
  w.rel.isSome &&
    ((s.ctx c k).reqs.any (fun r => r.id < w.id && r.got.isNone) ||
      s.loopq.any (fun a => a.core == c && a.ctx == k && a.id < w.id))

/-- The oldest committed write of a context performs, unless it is a release that waits. -/
def State.performWrite (s : State) (c : CoreId) (k : CtxId) : State :=
  match (s.ctx c k).wbuf with
  | [] => s
  | w :: l => if s.releaseWaits c k w then s else (s.updCtx c k (fun x => { x with wbuf := l })).performW c k w

/-- The gt by which a committed write performs (R255). -/
def writeDue (s : State) (c : CoreId) (w : WEnt) : Nat :=
  w.segs.foldl (fun d g => min d (w.cgt + wbits (s.sctAt (scNum (leastScope c (homeOf g.key)))) 32 16)) (w.cgt + 2 ^ 16)

/-- How many writes of a context perform now because the time of one of them has come: up to the last whose time it is. -/
def dueWrites (s : State) (c : CoreId) : List WEnt → Nat
  | [] => 0
  | w :: l =>
    let n := dueWrites s c l
    if 0 < n then n + 1 else if writeDue s c w ≤ s.gt then 1 else 0

/-- The oldest write of a context performs because its time has come, after the global accesses that a release waits for. R255's time
holds even where Loop accesses before a release are still held back by a stall (DESIGN CHOICE, log 109). -/
def State.forceWrite (s : State) (c : CoreId) (k : CtxId) : State :=
  match (s.ctx c k).wbuf with
  | [] => s
  | w :: l =>
    let s1 := if w.rel.isSome then s.performReqs c k (((s.ctx c k).reqs.filter (fun r => r.id < w.id)).map (·.id)) else s
    (s1.updCtx c k (fun x => { x with wbuf := l })).performW c k w

end Sys2Proof.Machine
end

