-- ==== Sys2Proof/Machine/Atomics.lean ====
section
/-! DEFINITION. Machine/Atomics.lean: returning atomics, reductions, fences, blocks and prefetch (R166-R173, R251, R252). -/

namespace Sys2Proof.Machine

/-! ## Returning atomics (R166, R167) -/

/-- The ordering that the prefix gives an atomic, at the scope of the syllable itself (R165). -/
def ordAt (s : State) (h : Hart) (bit : Nat) (sc : Scope) : Option Scope :=
  match h.pfx with
  | some p => if p.ord.getLsbD bit then some (s.scopeEff sc) else none
  | none => none

/-- The bundle in issue has issued another returning atomic. -/
def Hart.amoIssued (h : Hart) : Bool :=
  h.pend.any (fun p => h.first ≤ p.id && (match p.src with
    | .wait _ .amo => true
    | _ => false))

/-- A register that an atomic reads when it is sent is poisoned. -/
def amoPois (h : Hart) (f : AmoF) (cas : Bool) : Bool :=
  h.sPois f.r || h.sPois f.base || (cas && h.sPois (Fin.ofNat 64 (f.r.val + 1)))

/-- The request of an atomic; after a release fence it is a release too (R251). -/
def amoReq (s : State) (h : Hart) (relF : Option Scope) (op : AmoOp) (f : AmoF) (id : Nat) (segs : List Seg) : Req :=
  { id := id, op := .amo op f.w64 (h.rs f.r) (h.rs (Fin.ofNat 64 (f.r.val + 1))), segs := segs, acq := ordAt s h 0 f.scope,
    rel := wider (ordAt s h 1 f.scope) relF, na := h.na }

/-- The release fence that stands before the commit of the bundle in issue (R251). -/
def Ctx.relNow (x : Ctx) : Option Scope :=
  match x.relB with
  | some (ic, f) => if ic = x.hart.ic then some f else none
  | none => none

/-- The place of an atomic or a reduction of a Cellarer: the device registers take its stores alone, so there it is the access fault
with cause 2, as for a task (R238, log 96). -/
def cellRmw (s : State) (t : TileId) (ea n : Nat) (acc : Acc) : Except XF (List Seg × List TlbEnt) :=
  if ea % n != 0 then .error { code := fAccess, cause := 1, addr := ea }
  else match cellSegs s t ea n acc with
    | .error e => .error e
    | .ok p => if touchesDev p.1 then .error { code := fAccess, cause := 2, addr := ea } else .ok p

/-- The result of an atomic is scheduled from a request. -/
def Ctx.amoLand (x : Ctx) (f : AmoF) (id : Nat) : Ctx :=
  { x with hart := x.hart.emit (latOf f.lat) (.s f.r) (.wait id .amo) false (formOf false f.wt) [] }

/-- An atomic of a context: sent once while the latch is EMPTY, delivered from the latch afterwards. -/
def coreAmo (op : AmoOp) (f : AmoF) (c : CoreId) (k : CtxId) (s : State) : Out :=
  let x := s.ctx c k
  let h := x.hart
  let n := if f.w64 then 8 else 4
  if h.amoIssued then .next (s.raise { code := fIllSyl })
  else
    match x.latch with
    | .pending id => .next (s.updCtx c k (·.amoLand f id))
    | .full m done =>
      let r : Req := { id := s.fresh, segs := [], got := some (bytesOf n m.toNat), arr := some s.gt, acq := ordAt s h 0 f.scope, done := done }
      .next (s.bump.updCtx c k (fun y => { y with reqs := y.reqs ++ [r] }.amoLand f s.fresh))
    | .empty =>
      if amoPois h f (op = .cas) then .next (s.raise { code := fLate })
      else
        match placeOf s c x (h.ea f.base f.off) n n .rw true with
        | .error t => .next (s.raise t)
        | .ok p =>
          let r := amoReq s h (wider x.relF x.relNow) op f s.fresh p.segs
          .next ((s.bump.fillTlbs (tileOf c) (some c) p.ents).updCtx c k (fun y =>
            { y with reqs := y.reqs ++ [r], latch := .pending r.id }.amoLand f r.id))

/-- An atomic of a Cellarer performs at once, in issue order (R321, log 10). -/
def cellAmo (op : AmoOp) (f : AmoF) (t : TileId) (s : State) : Out :=
  let h := s.hart
  let n := if f.w64 then 8 else 4
  let ea := h.ea f.base f.off
  match cellRmw s t ea n .rw with
  | .error e => .next (s.raise e.trap)
  | .ok (l, es) =>
    let (s1, r) := (s.fillTlbs t none es).performAt t false (amoReq s h none op f s.fresh l)
    .next (s1.updCell t (fun y =>
      { y with hart := y.hart.emit (latOf f.lat) (.s f.r) (.wait r.id .amo) false .wt [], reqs := y.reqs ++ [r], perfAt := r.done }))

/-- A returning atomic of the agent in execution. -/
def execAmo (op : AmoOp) (f : AmoF) (s : State) : Out :=
  match s.cur with
  | .core c k => coreAmo op f c k s
  | .cell t => cellAmo op f t s
  | _ => .next s

def execAmoAdd (f : AmoF) (s : State) : Out := execAmo .add f s
def execAmoMin (f : AmoF) (s : State) : Out := execAmo .min f s
def execAmoMax (f : AmoF) (s : State) : Out := execAmo .max f s
def execAmoMinn (f : AmoF) (s : State) : Out := execAmo .minn f s
def execAmoMaxn (f : AmoF) (s : State) : Out := execAmo .maxn f s
def execAmoAnd (f : AmoF) (s : State) : Out := execAmo .and f s
def execAmoOr (f : AmoF) (s : State) : Out := execAmo .or f s
def execAmoXor (f : AmoF) (s : State) : Out := execAmo .xor f s
def execAmoSwap (f : AmoF) (s : State) : Out := execAmo .swap f s
def execAmoCas (f : AmoF) (s : State) : Out := execAmo .cas f s

/-! ## Reductions (R168) -/

/-- A Cellarer's reduction performs at once. -/
def cellRed (op : WOp) (n : Nat) (f : RedF) (t : TileId) (s : State) : Out :=
  let ea := s.hart.ea f.base f.off
  match cellRmw s t ea n .write with
  | .error e => .next (s.raise e.trap)
  | .ok (l, es) =>
    let m := leNat (s.segBytes l)
    let (v, fl) := match op with
      | .fadd a => let r := faddHome (BitVec.ofNat 32 m) a; (r.1.toNat, r.2)
      | .add _ a => ((m + a.toNat) % 2 ^ (8 * n), 0)
      | .st _ => (m, 0)
    let s1 := ((s.fillTlbs t none es).putSegs t l (bytesOf n v)).logEv 1 (l.head?.elim 0 (fun g => g.key))
    .next (if fl = 0 then s1
           else s1.updCell t (fun y => { y with hart := y.hart.emit 1 .void (.have (.b true)) false .plain (scalarFlags fl) }))

/-- A reduction: withheld until the commit. -/
def execRed (op : WOp) (n : Nat) (f : RedF) (s : State) : Out :=
  let h := s.hart
  if h.sPois f.base || h.sPois f.r then .next (s.raise { code := fLate })
  else
    match s.cur with
    | .core c k =>
      let x := s.ctx c k
      let ea := h.ea f.base f.off
      match placeOf s c x ea n n .write true with
      | .error t => .next (s.raise t)
      | .ok p =>
        let w : WEnt := { s.newW h x.relF s.fresh ea p.segs op with rel := wider (ordAt s h 1 f.scope) x.relF }
        s.withhold c k p.ents [w] (fun y => y)
    | .cell t => cellRed op n f t s
    | _ => .next s

def execRedAdd (f : RedF) (s : State) : Out := execRed (.add f.w64 (s.hart.rs f.r)) (if f.w64 then 8 else 4) f s
def execRedFadd (f : RedF) (s : State) : Out := execRed (.fadd ((s.hart.rs f.r).setWidth 32)) 4 f s

/-! ## Fences (R170, R251, R252) -/

/-- A result is that of a load, gather or atomic. -/
def Pend.isLoad (p : Pend) : Bool :=
  match p.src with
  | .have _ => false
  | _ => true

/-- The latest of some issue cycles. -/
def latestIc (l : List Nat) : Nat := l.foldl max 0

/-- The issue cycles F of a fence (R170). -/
def fenceGap (s : State) (h : Hart) (stores : List Nat) (sc : Scope) (ord : BitVec 2) : Nat :=
  let base := max 1 (wbits (s.sctAt (scNum (s.scopeEff sc))) 0 16)
  let acq := if ord.getLsbD 0 then latestIc ((h.pend.filter (·.isLoad)).map (·.ic)) - h.ic else 0
  let rel := if ord.getLsbD 1 then latestIc stores - h.ic else 0
  max base (max acq rel)

/-- A load issued before an acquire fence is an acquire: at RETICLE or wider it reads a line homed elsewhere at its home, and one
that has been served by a copy and has not landed reads again (R252, log 69). -/
def Req.acquires (t : TileId) (sc : Option Scope) (r : Req) : Req :=
  let far : Bool := sc.any (fun a => scNum .reticle ≤ scNum a)
  let away : Bool := r.segs.any (fun g => !(isLoopKey g.key) && homeOf g.key != t)
  match r.op with
  | .load => if !(far && away) then r
    else if r.copied then { r with acq := wider r.acq sc, got := none, arr := none, bad := false, copied := false }
    else { r with acq := wider r.acq sc }
  | .amo _ _ _ _ => r

def execFence (sc : Scope) (ord : BitVec 2) (s : State) : Out :=
  match s.cur with
  | .core c k =>
    let x := s.ctx c k
    let stores := (s.loopq.filter (fun a => a.core == c && a.ctx == k && a.wr.isSome)).filterMap (·.ic)
    let gap := fenceGap s x.hart stores sc ord
    let here := some (s.scopeEff sc)
    .next (s.updCtx c k (fun y =>
      { y with hart := { y.hart with gapTo := max y.hart.gapTo (y.hart.ic + gap) },
               relF := if ord.getLsbD 1 then wider y.relF here else y.relF,
               acqF := if ord.getLsbD 0 then wider y.acqF here else y.acqF,
               reqs := if ord.getLsbD 0 then y.reqs.map (Req.acquires (tileOf c) here) else y.reqs }))
  | .cell t =>
    let gap := fenceGap s (s.cell t).hart [] sc ord
    let here := some (s.scopeEff sc)
    .next (s.updCell t (fun y =>
      { y with hart := { y.hart with gapTo := max y.hart.gapTo (y.hart.ic + gap) },
               acqF := if ord.getLsbD 0 then wider y.acqF here else y.acqF,
               reqs := if ord.getLsbD 0 then y.reqs.map (Req.acquires t here) else y.reqs }))
  | _ => .next s

/-! ## Blocks and prefetch (R171-R173) -/

/-- The owner that the agent in execution is. -/
def State.curOwner (s : State) : Owner :=
  match s.cur with
  | .core c k => (s.ctx c k).owner c
  | _ => .cell s.curTile

/-- The blocks of the agent in execution. -/
def State.blocks (s : State) : List Block :=
  match s.cur with
  | .core c k => (s.ctx c k).blocks
  | .cell t => (s.cell t).blocks
  | _ => []

def State.setBlocks (s : State) (l : List Block) : State :=
  match s.cur with
  | .core c k => s.updCtx c k (fun x => { x with blocks := l })
  | .cell t => s.updCell t (fun x => { x with blocks := l })
  | _ => s

/-- Resolve a global access of the agent in execution. -/
def State.globPlace (s : State) (ea len align : Nat) (acc : Acc) : Except Trap (List Seg × List TlbEnt) :=
  match s.cur with
  | .core c k =>
    match placeOf s c (s.ctx c k) ea len align acc true with
    | .error t => .error t
    | .ok p => .ok (p.segs, p.ents)
  | .cell t =>
    if ea % align != 0 then .error (accTrap 1 ea)
    else match cellSegs s t ea len acc with
      | .error f => .error f.trap
      | .ok p => .ok p
  | _ => .error (accTrap 0 ea)

/-- Record the translations of the agent in execution. -/
def State.fillCur (s : State) (es : List TlbEnt) : State :=
  match s.cur with
  | .core c _ => s.fillTlbs (tileOf c) (some c) es
  | _ => s.fillTlbs s.curTile none es

/-- Lines that a block can pin: those of HBM (R171). -/
def blockLines (segs : List Seg) : List Nat :=
  segs.flatMap (fun g => match paSel g.key with
    | .hbm _ _ => fromTo (g.key / 64) (g.len / 64)
    | _ => [])

/-- `ldblk` (R171). The spec leaves two points open, which the model fixes (log 70, DESIGN CHOICE): an address in the Loop or the
cluster window raises the access fault with cause 0, as R152 has it for atomics; and of several faults the queue faults come first,
then the 4 KiB crossing, then the alignment, then translation. -/
def execLdblk (t : Tok) (base : Reg) (off : BitVec 32) (n : BitVec 6) (s : State) : Out :=
  let h := s.hart
  let ea := h.ea base off
  let lines := n.toNat + 1
  let held := s.blocks.filter (fun b => !b.released)
  if h.sPois base then .next (s.raise { code := fLate })
  else if held.any (fun b => b.tok == t && b.ea == ea && b.lines == lines) then .next s
  else if 8 ≤ held.length then .next (s.raise { code := fQueue, cause := 6 })
  else if 63 ≤ (h.tok t).p then .next (s.raise { code := fQueue, cause := 2 })
  else if 4096 < ea % 4096 + 64 * lines then .next (s.raise (accTrap 1 ea))
  else
    match s.globPlace ea (64 * lines) 64 .read with
    | .error tr => .next (s.raise tr)
    | .ok (segs, es) =>
      let keys := blockLines segs
      let s1 := s.fillCur es
      if keys.isEmpty then
        let b : Block := { tok := t, ea := ea, lines := lines, keys := [], prod := 0, filling := false }
        .next ((s1.setBlocks (s1.blocks ++ [b])).setHart (h.setTok t { (h.tok t) with armed := true }))
      else
        let (s2, id) := s1.newProd s.curOwner t false false
        let b : Block := { tok := t, ea := ea, lines := lines, keys := keys, prod := id, filling := true }
        .next ((s2.setBlocks (s2.blocks ++ [b])).setHart (s2.hart.addProd t))

def execBlkrel (t : Tok) (base : Reg) (off : BitVec 32) (s : State) : Out :=
  let h := s.hart
  let ea := h.ea base off
  if h.sPois base then .next (s.raise { code := fLate })
  else
    match s.blocks.find? (fun b => b.tok == t && b.ea == ea && !b.released) with
    | none => .next s
    | some b =>
      let others := (s.prodsOf s.curOwner [t]).filter (fun i => !(b.filling && i == b.prod))
      if !others.isEmpty then .next (s.raise { code := fQueue, cause := 4 })
      else
        let rest := if b.filling then mapWhere (fun x => x == b) (fun x => { x with released := true }) s.blocks
                    else s.blocks.filter (fun x => x != b)
        .next ((s.setBlocks rest).setHart (h.setTok t { (h.tok t) with armed := false }))

/-- The lines of a prefetch that translate without a fault, in the global window, homed on another tile and not yet
held (R173). -/
def prefLines (s : State) (ea n : Nat) : List (Nat × Nat) :=
  let t := s.curTile
  (fromTo 0 n).flatMap (fun i =>
    match s.globPlace ((ea / 64 + i) * 64 % 2 ^ 64) 64 64 .read with
    | .error _ => []
    | .ok (segs, _) => segs.flatMap (fun g => match paSel g.key with
      | .dev _ _ => []
      | _ => if homeOf g.key != t && !((s.tile t).copies.any (fun c => c.key == g.key / 64)) then [(g.key / 64, g.ks)] else []))

/-- `pref` (R173). With a poisoned base it does nothing: R173's 'raises no fault' is taken to hold against R103 (log 71, DEDUCED). -/
def execPref (base : Reg) (off : BitVec 32) (n : BitVec 4) (s : State) : Out :=
  let h := s.hart
  if h.sPois base then .next s
  else .next (s.refresh s.curTile true (prefLines s (h.ea base off) (n.toNat + 1))).bump

/-- A block whose lines have arrived: it pins those that its tile can pin, unless it was released (R171, R172, R246). -/
def Block.filled (s : State) (t : TileId) (b : Block) : Block :=
  { b with filling := false, pins := if b.released then [] else pinLines s t (tilePins s t) b.keys }

/-- The lines of a block arrive: those homed elsewhere are held by the tile, but for the ones that it cannot pin, and the fill's
producer is removed (R171, R172, R246). -/
def State.fillBlock (s : State) (t : TileId) (b : Block) : State :=
  let pins := (b.filled s t).pins
  let held (l : Nat) : Bool := b.released || pins.any (fun p => p.1 == l)
  let lines := (b.keys.filter (fun l => homeOf (l * 64) != t && held l)).map (fun l => (l, mapGet 0 s.tags l))
  let s1 := s.updTile t (fun x => { x with copies := x.copies.filter (fun c => !(b.keys.contains c.key) || held c.key) })
  ((s1.refresh t true lines).bump).endProd b.prod

end Sys2Proof.Machine
end

