-- ==== Sys2Proof/Machine/Landing.lean ====
section
/-! DEFINITION. Machine/Landing.lean: results reaching their registers, late results, data coming back from memory, Loop accesses
performing, and what a bundle that does not decode raises (R60, R80, R81, R98-R104, R154, R166-R168, R209, R240-R243, R264,
R283-R285). -/

namespace Sys2Proof.Machine

/-! ## The data of a result -/

/-- What a result has to write at this gt. -/
inductive Datum where
  | val (v : Val)
  | pois
  | absent
  | bad
deriving DecidableEq, Repr

/-- Every container of a vector register. -/
def allConts (cs : List Cont) : Val := .v (BitVec.allOnes 512) false cs

/-- The register value that loaded bytes become (R154, R161-R164, R166). -/
def decodeVal (d : Dec) (bs : List Byte) : Val :=
  match d with
  | .sc n signed => .w (if signed then extS (8 * n) (leNat bs) else extZ (8 * n) (leNat bs))
  | .vec k => allConts (widen k bs)
  | .img => allConts (ofImage bs)
  | .gat k => allConts ((chunks (bitsOf16 k / 128) 512 bs).map (fun b => { v := elemCont k (leNat b) 0 }))
  | .amo => .w (BitVec.ofNat 64 (leNat bs))

/-- The data of a result, from the requests that its agent has out. -/
def datum (gt : Nat) (reqs : List Req) (p : Pend) : Datum :=
  match p.src with
  | .have v => .val v
  | .poison => .pois
  | .wait r d =>
    match reqs.find? (fun q => q.id == r) with
    | none => .absent
    | some q =>
      match q.arr, q.got with
      | some a, some bs => if a ≤ gt then (if q.bad then .bad else .val (decodeVal d bs)) else .absent
      | _, _ => .absent

/-- A result is due at an issue cycle: its cycle has come, or it is late and its value has returned (R100, R167). -/
def dueAt (gt ic : Nat) (reqs : List Req) (p : Pend) : Bool := if p.late then datum gt reqs p != .absent else p.ic ≤ ic

/-- A due result whose data is absent holds its core, being `.w` (R101, R157). -/
def holdsCore (gt ic : Nat) (reqs : List Req) (p : Pend) : Bool :=
  p.form == .wt && dueAt gt ic reqs p && datum gt reqs p == .absent

/-- A due result whose data is absent is late (R102). -/
def isLate (gt ic : Nat) (reqs : List Req) (p : Pend) : Bool :=
  p.form != .wt && dueAt gt ic reqs p && datum gt reqs p == .absent

/-! ## Writing a register -/

/-- Containers over others, where the selection has a bit (R192, R212). -/
def mergeConts (sel : BitVec 512) (sOnly : Bool) (old new : List Cont) : List Cont :=
  (List.zipWith (fun (p : Cont × Cont) i => if sel.getLsbD i then (if sOnly then { p.1 with s := p.2.s } else p.2) else p.1)
    (List.zip old new) (fromTo 0 512))

/-- The poison bit of a vector register. -/
def Ctx.setVp (x : Ctx) (r : Reg) (pois : Bool) : Ctx :=
  { x with vp := if pois then x.vp ||| (1#64 <<< r.val) else x.vp &&& ~~~(1#64 <<< r.val) }

/-- A value lands in a register of a context (R98, R103, R105). -/
def Ctx.write (x : Ctx) (d : Dst) (v : Val) (pois : Bool) : Ctx :=
  match d, v with
  | .s r, .w w => { x with hart := x.hart.setS r w pois }
  | .b r, .b b => { x with hart := x.hart.setB r b }
  | .m r, .m m => if r.val = 0 then x else { x with m := mapSet x.m r.val m }
  | .v r, .v sel sOnly cs => { x with v := mapSet x.v r.val (mergeConts sel sOnly (x.rv r) cs) }.setVp r pois
  | _, _ => x

/-- A poison bit lands alone. -/
def Ctx.writePois (x : Ctx) (d : Dst) : Ctx :=
  match d with
  | .s r => { x with hart := x.hart.setS r (x.hart.rs r) true }
  | .v r => x.setVp r true
  | _ => x

/-- The record of a register write in the event stream of a rerun pair: code, bytes, poison (R285). -/
def Ctx.regEvent (x : Ctx) (d : Dst) : List Byte :=
  match d with
  | .s r => bytesOf 2 r.val ++ bytesOf 8 (x.hart.rs r).toNat ++ [if x.hart.sPois r then 1 else 0]
  | .b r => bytesOf 2 (0x100 + r.val) ++ [if x.hart.rb r then 1 else 0, 0]
  | .v r => bytesOf 2 (0x200 + r.val) ++ imageOf (x.rv r) ++ [if x.vPois r then 1 else 0]
  | .m r => bytesOf 2 (0x300 + r.val) ++ bytesOf 64 (x.rm r).toNat ++ [0]
  | .void => []

/-- One result lands. -/
def Ctx.landOne (x : Ctx) (p : Pend) (d : Datum) : Ctx :=
  let y := match d with
    | .val v => x.write p.dst v p.pois
    | .pois => x.writePois p.dst
    | _ => x
  y.eventAt p.slot (y.regEvent p.dst)

/-- Results land in the order given. -/
def Ctx.landList (gt : Nat) (x : Ctx) : List Pend → Ctx
  | [] => x
  | p :: l => (x.landOne p (datum gt x.reqs p)).landList gt l

/-- A straddler that lands is kept for the re-entries of its region, with the data it had (R264). -/
def Pend.kept (gt : Nat) (reqs : List Req) (p : Pend) : Pend :=
  match datum gt reqs p with
  | .val v => { p with src := .have v }
  | _ => p

/-- The entries of landed straddlers, each once. -/
def keepLanded (gt : Nat) (reqs : List Req) (old : List Pend) : List Pend → List Pend
  | [] => old
  | p :: l =>
    if p.strad.isSome && !p.rep && !(old.any (fun q => q.id == p.id)) then keepLanded gt reqs (old ++ [p.kept gt reqs]) l
    else keepLanded gt reqs old l

/-- The vector registers that a list of results writes with poison: of writes in one cycle none clears another's. -/
def poisonedV (gt : Nat) (reqs : List Req) (l : List Pend) : List Reg :=
  l.filterMap (fun p => match p.dst with
    | .v r => if p.pois || datum gt reqs p == .pois then some r else none
    | _ => none)

/-- Requests that a result, a landed entry or the latch still refers to. -/
def Ctx.liveReqs (x : Ctx) : Ctx :=
  let refs (r : Req) : Bool :=
    (match x.latch with
     | .pending i => i == r.id
     | _ => false) || (x.hart.pend ++ x.landed).any (fun p => match p.src with
        | .wait i _ => i == r.id
        | _ => false)
  { x with reqs := x.reqs.filter refs }

/-- FR writes that are in effect by an issue cycle (R60). -/
def Hart.frDue (h : Hart) (ic : Nat) : Hart :=
  { h with fr := (h.frq.filter (fun p => p.1 ≤ ic)).foldl (fun _ p => p.2) h.fr, frq := h.frq.filter (fun p => ic < p.1) }

/-- Pushes of the deferral queue that perform by an issue cycle: a committed one that performs in the open region is kept for its
re-entries, and one that performs before it opens is in the queue that it opens with (R209, R211, R264). -/
def Ctx.dqDue (x : Ctx) (ic : Nat) : Ctx :=
  let due := x.dqIn.filter (fun d => d.ic ≤ ic)
  let old := due.filter (·.comm)
  { x with dq := x.dq ++ due.flatMap (·.ents), dqIn := x.dqIn.filter (fun d => ic < d.ic),
           dqOld := if x.reg.fresh then x.dqOld else x.dqOld ++ old,
           ck := if x.reg.fresh then { x.ck with dq := x.ck.dq ++ old.flatMap (·.ents) } else x.ck }

/-- The flags of a result. -/
def Pend.flagEvs (p : Pend) : List FlagEv :=
  p.flags.map (fun (f : Nat × Nat) => { slot := p.slot, bit := f.1, cidx := f.2, pc := p.pc })

/-- The flags that a reduction or a matrix command sent back. -/
def RedFl.flagEvs (r : RedFl) : List FlagEv := Machine.flagEvs r.slot r.pc 0 r.fl

/-- The flags of results that land in one cycle, with those that have come back from homes and the matrix unit: committed ones
enter the checkpoint too (R62-R64). -/
def Ctx.landFlagsOf (x : Ctx) (l : List Pend) : Ctx :=
  let back := x.flq.flatMap (·.flagEvs)
  let es := l.flatMap (·.flagEvs) ++ back
  if es.isEmpty then x
  else
    let r := landFlags { flags := x.hart.flags, fevt0 := x.hart.fevt0, fevt1 := x.hart.fevt1 } es
    let q := landFlags { flags := x.ck.flags, fevt0 := x.ck.fevt0, fevt1 := x.ck.fevt1 } ((x.flq.filter (·.both)).flatMap (·.flagEvs))
    { x with hart := { x.hart with flags := r.flags, fevt0 := r.fevt0, fevt1 := r.fevt1 }, flq := [],
             ck := { x.ck with flags := q.flags, fevt0 := q.fevt0, fevt1 := q.fevt1 } }

/-- An acquire whose result lands bars older copies from what comes after it: at RETICLE those of its reticle's homes, above
it all (R252). -/
def Ctx.acquire (x : Ctx) (p : Pend) : Ctx :=
  match p.src with
  | .wait r _ =>
    match x.reqs.find? (fun q => q.id == r) with
    | some q =>
      (match q.acq with
       | some .reticle => { x with acqRet := max x.acqRet q.done }
       | some .package | some .pod => { x with acqPkg := max x.acqPkg q.done }
       | _ => x)
    | none => x
  | _ => x

/-- A result leaves the table without landing; a straddler is kept for the re-entries of the region (R264). -/
def Ctx.shelve (x : Ctx) (p : Pend) : Ctx :=
  { x with hart := { x.hart with pend := x.hart.pend.filter (fun q => q.id != p.id || q.rep != p.rep) },
           landed := if p.strad.isSome && !p.rep && !(x.landed.any (fun q => q.id == p.id)) then x.landed ++ [p] else x.landed }

/-- Insert a result by its number. -/
def insPend (p : Pend) : List Pend → List Pend
  | [] => [p]
  | q :: l => if p.id ≤ q.id then p :: q :: l else q :: insPend p l

/-- Results in issue order, slot by slot within a bundle (R100). -/
def sortPend (l : List Pend) : List Pend := l.foldl (fun a p => insPend p a) []

/-- The results of a context that are due, but for those left out, land. -/
def Ctx.landDue (x : Ctx) (gt ic : Nat) (out : Pend → Bool) : Ctx :=
  let due := sortPend (x.hart.pend.filter (fun p => dueAt gt ic x.reqs p && !(out p) && datum gt x.reqs p != .absent))
  let bad := due.filter (fun p => datum gt x.reqs p == .bad)
  let good := due.filter (fun p => datum gt x.reqs p != .bad)
  let y := good.foldl Ctx.acquire (x.landList gt good)
  let z := (poisonedV gt x.reqs good).foldl (fun (a : Ctx) r => a.setVp r true) y
  let w := z.landFlagsOf good
  let gone (p : Pend) : Bool := due.contains p && !(bad.contains p)
  ({ w with hart := ({ w.hart with pend := w.hart.pend.filter (fun p => !(gone p)) }).frDue ic,
            landed := keepLanded gt x.reqs w.landed good }.dqDue ic).liveReqs

/-- The address of Loop byte `a` of a core as a task of another core, or of its own, names it (R152). -/
def loopAddr (c : CoreId) (key : Nat) : Nat :=
  let d := (key - 2 ^ 52) / 2 ^ 21
  let off := key % 2 ^ 21
  if d = c.val then 0xFE * 2 ^ 56 + off else 0xFD * 2 ^ 56 + d % 8 * 2 ^ 21 + off

/-- The first marked unit of some pieces, as an address: a physical one, or one of a window (R269). -/
def badAddr (s : State) (c : CoreId) (segs : List Seg) : Nat :=
  let ls := segs.flatMap (fun g => (fromTo (g.key / 64) ((g.key + g.len + 63) / 64 - g.key / 64)))
  match ls.find? (fun l => s.bad.contains l) with
  | some l => if isLoopKey (l * 64) then loopAddr c (l * 64) else l * 64
  | none => 0

/-- The uncorrectable-data fault of a result whose data came from a unit marked bad (R283): its syndrome is a free value (log 66). -/
def badTrap (s : State) (c : CoreId) (x : Ctx) (p : Pend) : Trap :=
  let addr := match p.src with
    | .wait r _ => (match x.reqs.find? (fun q => q.id == r) with
      | some q => badAddr s c q.segs
      | none => 0)
    | _ => 0
  { code := fUncorr, detail := Config.freeWord s.fresh, addr := addr, flg := 16 }

/-- The context holds a task whose region a fault can discard. -/
def Ctx.faults (x : Ctx) : Bool := x.st == .running || x.st == .ready || x.st == .parked || x.st == .parkedPlace

/-- The lowest slot, and the first issued in it, of some results (R268). -/
def lowSlot : List Pend → Option Pend
  | [] => none
  | p :: l => match lowSlot l with
    | none => some p
    | some q => if q.slot < p.slot then some q else some p

/-- The due results of a context land at its core's issue cycle, but for those left out; data from a bad unit does not, and raises
its fault (R283). -/
def State.landCtx (s : State) (c : CoreId) (k : CtxId) (out : Pend → Bool) : State :=
  let ic := (s.core c).ic
  let x := s.ctx c k
  let bad := sortPend (x.hart.pend.filter (fun p => dueAt s.gt ic x.reqs p && !(out p) && datum s.gt x.reqs p == .bad))
  let s1 := s.updCtx c k (fun y => y.landDue s.gt ic out)
  match lowSlot bad with
  | none => s1
  | some p =>
    let s2 := s1.updCtx c k (fun y => (bad.foldl Ctx.shelve y).liveReqs)
    if x.faults then s2.bump.coreFault c k p.slot p.pc (badTrap s c x p)
    else s2.updCtx c k (fun y => bad.foldl (fun z q => z.writePois q.dst) y)

/-- The class of a value: zero, finite, infinite, NaN (R284). -/
def classOf (w : W32) : Nat :=
  let e := w.toNat / 2 ^ 23 % 256
  let f := w.toNat % 2 ^ 23
  if e = 255 then (if f = 0 then 2 else 3) else if e = 0 && f = 0 then 0 else 1

/-- Q of a value: its exponent and the top six bits of its fraction (R284). -/
def shadowQ (w : W32) : Nat := w.toNat / 2 ^ 17 % 2 ^ 14

/-- A shadow unit's value of a result disagrees with the main unit's (R284). -/
def diverges (a b : W32) : Bool :=
  classOf a != classOf b || (classOf a != 0 && a.getLsbD 31 != b.getLsbD 31) ||
    shadowQ a + 1 < shadowQ b || shadowQ b + 1 < shadowQ a

/-- What a floating-point stage gave for a container of a vector result, in the issue cycle in which the result lands: of stage
`n / 512`, container `n % 512` (R284). -/
def shadowed (ic : Nat) (p : Pend) (n : Nat) : Option W32 :=
  match p.fp[n / 512]? with
  | some (sel, vs) => if p.ic = ic && sel.getLsbD (n % 512) then vs[n % 512]? else none
  | none => none

/-- The core counts no issue cycles: it is halted, or its running context stalls (R101, R355). -/
def coreFrozen (s : State) (c : CoreId) : Bool :=
  let y := s.core c
  y.halted || (match y.run with
    | some k => (y.ctx k).stalled
    | none => false)

/-- A context of a core has a `.w` result due whose data is absent: the core is frozen (R101). -/
def coreWaits (s : State) (c : CoreId) : Bool :=
  [(0 : CtxId), 1, 2].any (fun k => let x := s.ctx c k; x.hart.pend.any (holdsCore s.gt (s.core c).ic x.reqs))

/-! ## Late results (R102, R167, R264) -/

/-- Late data is given up: the result becomes a poison, to land in its turn; a straddler and an atomic keep their request. -/
def Ctx.poisonLate (x : Ctx) (gt ic : Nat) : Ctx :=
  let late := x.hart.pend.filter (isLate gt ic x.reqs)
  let amo (p : Pend) : Bool := p.strad.isNone && (match p.src with
    | .wait _ .amo => true
    | _ => false)
  let held := late.filterMap (fun p => if amo p then some { p with late := true } else none)
  { x with landed := keepLanded gt x.reqs (x.landed ++ held) late,
           hart := { x.hart with pend := mapWhere (isLate gt ic x.reqs) (fun p => { p with src := .poison }) x.hart.pend } }

/-- Deviation records of late results that are poisoned (R358). -/
def State.traceLate (s : State) (c : CoreId) : List Pend → State
  | [] => s
  | p :: l => (s.trace (tileOf c) p.pc p.slot 9 0).traceLate c l

/-- Late results of a context: poison in service mode, the timing fault in strict mode and in a rerun pair; a straddler then waits
for its replay (R102, R264). A result whose data is bad, and a pair begun in this gt, outrank the timing fault (R268). -/
def State.landLate (s : State) (c : CoreId) (k : CtxId) : State :=
  let ic := (s.core c).ic
  let x := s.ctx c k
  let late := sortPend (x.hart.pend.filter (isLate s.gt ic x.reqs))
  match lowSlot late with
  | none => s
  | some p =>
    if (x.strict || x.rerun.isSome) && x.faults then
      (s.updCtx c k (fun y => late.foldl Ctx.shelve y)).coreFault c k p.slot p.pc { code := fTiming }
    else (s.updCtx c k (fun y => y.poisonLate s.gt ic)).traceLate c late

def execLateResult (s : State) : Out := .next (s.landLate s.arg.core s.arg.ctx)

/-- The bad data that a Cellarer is about to land (R283). -/
def Cell.badDue (x : Cell) (gt : Nat) : List Pend := sortPend (x.hart.pend.filter (fun p => dueAt gt x.hart.ic x.reqs p && datum gt x.reqs p == .bad))

/-- A context is about to land data from a bad unit (R283). -/
def landsBad (s : State) (c : CoreId) (k : CtxId) : Bool :=
  let x := s.ctx c k
  x.faults && x.hart.pend.any (fun p => dueAt s.gt (s.core c).ic x.reqs p && datum s.gt x.reqs p == .bad)

/-- The event stream of a rerun pair has done with the cycle before (R285). -/
def Ctx.flushed (x : Ctx) : Ctx := { x with rerun := x.rerun.map Rerun.flush }

/-- A rerun pair begins for a context in this gt, or has begun: its core is about to land bad data. No other fault of the context is
taken (R268). -/
def pairDue (s : State) (c : CoreId) (k : CtxId) : Bool :=
  (s.ctx c k).pairNow s.gt || (landsBad s c k && !(s.core c).cycled && !(coreFrozen s c) && !(coreWaits s c))

/-- Landing in one issue cycle of a core, for all of its contexts (R25); bad data outranks a late result (R268). -/
def State.landCore (s : State) (c : CoreId) : State :=
  [(0 : CtxId), 1, 2].foldl (fun s k =>
    let s := s.updCtx c k Ctx.flushed
    if landsBad s c k then (s.landCtx c k (fun _ => false)).landLate c k else (s.landLate c k).landCtx c k (fun _ => false)) s

/-! ## Landing on a Cellarer (R321) -/

/-- A value lands in a register of a Cellarer. -/
def Hart.write (h : Hart) (d : Dst) (v : Datum) (pois : Bool) : Hart :=
  match d, v with
  | .s r, .val (.w w) => h.setS r w pois
  | .b r, .val (.b b) => h.setB r b
  | _, _ => h

/-- Results land in the order given. -/
def Hart.landList (gt : Nat) (reqs : List Req) (h : Hart) : List Pend → Hart
  | [] => h
  | p :: l => (h.write p.dst (datum gt reqs p) p.pois).landList gt reqs l

/-- The flags of the results of one cycle land together (R63). -/
def Hart.landFlagsOf (h : Hart) (l : List Pend) : Hart :=
  let r := landFlags { flags := h.flags, fevt0 := h.fevt0, fevt1 := h.fevt1 } (l.flatMap (·.flagEvs))
  { h with flags := r.flags, fevt0 := r.fevt0, fevt1 := r.fevt1 }

/-- An acquire whose result lands bars older copies from the loads of a Cellarer that follow it (R252, R321). -/
def Cell.acquire (x : Cell) (p : Pend) : Cell :=
  match p.src with
  | .wait r _ =>
    match x.reqs.find? (fun q => q.id == r) with
    | some q =>
      (match q.acq with
       | some .reticle => { x with acqRet := max x.acqRet q.done }
       | some .package | some .pod => { x with acqPkg := max x.acqPkg q.done }
       | _ => x)
    | none => x
  | _ => x

/-- The due results of a Cellarer land. -/
def Cell.land (x : Cell) (gt : Nat) : Cell :=
  let ic := x.hart.ic
  let due := sortPend (x.hart.pend.filter (fun p => dueAt gt ic x.reqs p && datum gt x.reqs p != .absent))
  let h := (x.hart.landList gt x.reqs due).landFlagsOf due
  let y := due.foldl Cell.acquire x
  let h1 := ({ h with pend := h.pend.filter (fun p => !(due.contains p)) }).frDue ic
  { y with hart := h1, reqs := x.reqs.filter (fun r => h1.pend.any (fun p => match p.src with
      | .wait i _ => i == r.id
      | _ => false)) }

/-- Data from a unit marked bad stops a Cellarer at the load's bundle (R283, R322). -/
def State.cellBad (s : State) (t : TileId) (x : Cell) (p : Pend) : State :=
  let bad := x.badDue s.gt
  let segs := match p.src with
    | .wait r _ => (x.reqs.find? (fun q => q.id == r)).elim [] (·.segs)
    | _ => []
  let y : Cell := { x with hart := { x.hart with pend := x.hart.pend.filter (fun q => !(bad.contains q)) }, cycled := true }
  (s.setCell t (y.land s.gt)).bump.cellFault t p.slot p.pc
    { code := fUncorr, detail := Config.freeWord s.fresh, addr := badAddr s 0 segs, flg := 16 }

/-- A Cellarer waits for the data of a load. -/
def Cell.waits (x : Cell) (gt : Nat) : Bool := x.hart.pend.any (holdsCore gt x.hart.ic x.reqs)

/-! ## Data coming back (R101, R166-R168) -/

/-- The data of a performed load reaches a core, or with `flag` a Cellarer. -/
def arrive (gt id : Nat) (l : List Req) : List Req :=
  mapWhere (fun r => r.id == id && r.got.isSome && r.arr.isNone) (fun r => { r with arr := some gt }) l

def execMemoryDataArrival (s : State) : Out :=
  if s.arg.flag then .next (s.updCell s.arg.tile (fun x => { x with reqs := arrive s.gt s.arg.id x.reqs }))
  else .next (s.updCtx s.arg.core s.arg.ctx (fun x => { x with reqs := arrive s.gt s.arg.id x.reqs }))

/-- The value of a performed atomic returns: a PENDING latch becomes FULL (R167). -/
def execAtomicReturn (s : State) : Out :=
  .next (s.updCtx s.arg.core s.arg.ctx (fun x =>
    let y : Ctx := { x with reqs := arrive s.gt s.arg.id x.reqs }
    match x.latch, x.reqs.find? (fun r => r.id == s.arg.id) with
    | .pending i, some r =>
      (match r.got with
       | some bs => if i = s.arg.id then { y with latch := .full (BitVec.ofNat 64 (leNat bs)) r.done } else y
       | none => y)
    | _, _ => y))

/-- The flags of the oldest performed `red.fadd` of a context return: they are set with the results of the next issue cycle, in the
live registers and in their checkpoint copies (R63, R64, R168). -/
def execRedFaddFlagReturn (s : State) : Out :=
  .next (s.updCtx s.arg.core s.arg.ctx (fun x =>
    match x.redfl with
    | [] => x
    | r :: l => { x with redfl := l, flq := x.flq ++ [r] }))

/-! ## Loop accesses (R240-R243) -/

/-- The key of a track of a Loop. -/
def trackKey (target : CoreId) (n : Nat) : Nat := target.val * 16 + n

/-- The tracks that a mask names. -/
def maskTracks (m : BitVec 16) : List Nat := (fromTo 0 16).filter (fun i => m.getLsbD i)

/-- An access has its tracks in this clock. -/
def tracksFree (s : State) (a : LoopAcc) : Bool :=
  (maskTracks a.tracks).all (fun n => mapGet 0 s.tracks (trackKey a.target n) ≤ s.gt)

/-- An access takes its tracks for its clocks, or moves to the next clock (R241). -/
def State.claimTracks (s : State) (a : LoopAcc) : State :=
  if tracksFree s a then
    { s with tracks := (maskTracks a.tracks).foldl (fun m n => mapSet m (trackKey a.target n) (s.gt + a.clocks)) s.tracks }
  else
    let move (b : LoopAcc) : LoopAcc := { b with moved := true, movedAt := if b.moved then b.movedAt else s.gt }
    let s1 : State := { s with loopq := mapWhere (fun b => b.id == a.id) move s.loopq }
    match a.req with
    | none => s1
    | some r => s1.updCtx a.core a.ctx (fun x => { x with reqs := mapWhere (fun q => q.id == r) (fun q => { q with sure := false }) x.reqs })

/-- A store that releases waits for its commit and for every access that its context issued before it (R251). -/
def loopWaits (s : State) (a : LoopAcc) : Bool :=
  let x := s.ctx a.core a.ctx
  a.scope.isSome && (a.held || x.wbuf.any (fun w => w.id < a.id) || x.reqs.any (fun r => r.got.isNone && r.id < a.id) ||
    s.loopq.any (fun b => b.core == a.core && b.ctx == a.ctx && b.id < a.id))

/-- A store that its context left behind when it stopped issuing (R243). -/
def LoopAcc.stopped (a : LoopAcc) : Bool := a.ic.isNone

/-- A store left behind waits for a release that its context left behind before it (R243, R251). -/
def behindRelease (s : State) (a : LoopAcc) : Bool :=
  a.stopped && s.loopq.any (fun b => b.core == a.core && b.ctx == a.ctx && b.stopped && b.id < a.id && loopWaits s b)

/-- An access is due in this clock: its core has reached its cycle and counts it (R240). -/
def accDue (s : State) (a : LoopAcc) : Bool :=
  !(loopWaits s a) && !(behindRelease s a) &&
    (match a.ic with
     | none => true
     | some i => a.moved || (i ≤ (s.core a.core).ic && !(coreFrozen s a.core) && !(coreWaits s a.core)))

/-- A store left behind that has still to perform when an access of a later bundle of its core is due: it performs before that access,
whatever its tracks (R243; DESIGN CHOICE, log 95). -/
def pressed (due : List LoopAcc) (a : LoopAcc) : Bool := a.stopped && due.any (fun b => b.core == a.core && !b.stopped && a.id < b.id)

/-- Who claims tracks first (R241): accesses that have moved, the owning core's, then by the issuer; of one core in issue order. -/
def LoopAcc.claimsBefore (a b : LoopAcc) : Bool :=
  if a.moved != b.moved then a.moved
  else if a.own != b.own then a.own
  else if a.core.val != b.core.val then a.core.val < b.core.val
  else a.id < b.id

/-- Who takes effect first among accesses of one clock (R242): the higher core; then stores left behind, in issue order; then slot 5,
slot 6 and `vxc`, whose slot is 9. -/
def LoopAcc.actsBefore (a b : LoopAcc) : Bool :=
  if a.core.val != b.core.val then b.core.val < a.core.val
  else if a.stopped != b.stopped then a.stopped
  else if !a.stopped && a.slot != b.slot then a.slot < b.slot
  else a.id < b.id

/-- Sort accesses by an order. -/
def insAcc (lt : LoopAcc → LoopAcc → Bool) (a : LoopAcc) : List LoopAcc → List LoopAcc
  | [] => [a]
  | b :: l => if lt b a then b :: insAcc lt a l else a :: b :: l

def sortAcc (lt : LoopAcc → LoopAcc → Bool) (l : List LoopAcc) : List LoopAcc := l.foldl (fun r a => insAcc lt a r) []

/-- Contenders claim their tracks one by one; those that keep them are answered. A store left behind waits for those before it: `cs`
are the cores whose stores wait, and `pr` the stores that perform without their tracks (R243). -/
def claimAll (pr : List Nat) (s : State) (cs : List CoreId) : List LoopAcc → State × List LoopAcc
  | [] => (s, [])
  | a :: l =>
    if cs.contains a.core && a.stopped && !(pr.contains a.id) then claimAll pr s cs l
    else
      let ok := pr.contains a.id || tracksFree s a
      let (s1, r) := claimAll pr (if pr.contains a.id then s else s.claimTracks a) (if a.stopped && !ok then a.core :: cs else cs) l
      (s1, if ok then a :: r else r)

/-- The accesses that perform in this clock, in the order in which they take effect, with the tracks claimed. -/
def State.loopClock (s : State) : State × List LoopAcc :=
  let due := s.loopq.filter (accDue s)
  let pr := (due.filter (pressed due)).map (·.id)
  let (s1, l) := claimAll pr s [] (sortAcc LoopAcc.claimsBefore due)
  (s1, sortAcc LoopAcc.actsBefore l)

/-- The bytes of some pieces, by their keys. -/
def segKeys (l : List Seg) : List Nat := l.flatMap (fun g => fromTo g.key g.len)

/-- Two accesses of one context through one window (R250). -/
def LoopAcc.kin (a b : LoopAcc) : Bool := a.core == b.core && a.ctx == b.ctx && a.own == b.own

/-- The accesses that a context issued before one through the same window, and that have still to perform (R250). -/
def olderKin (s : State) (a : LoopAcc) : List LoopAcc := s.loopq.filter (fun b => a.kin b && b.id < a.id)

/-- The byte that a pending store is to write at a key. -/
def LoopAcc.byteFor (a : LoopAcc) (key : Nat) : Option Byte :=
  match a.wr with
  | some bs => if a.skip.contains key then none else segByte key a.segs bs
  | none => none

/-- The byte that a load has before the later stores of its own context, the last of the earlier ones, or memory's (R250). -/
def loopByte (s : State) (kin : List LoopAcc) (fwd : Option Byte) (key : Nat) : Byte :=
  match fwd with
  | some b => b
  | none => (kin.foldl (fun (m : Option Byte) b => (b.byteFor key).or m) none).getD (memGet s.mem key)

/-- What a Loop load reads: accesses of one context through one window take effect in issue order (R250). -/
def loopRead (s : State) (a : LoopAcc) (fwd : List (Option Byte)) : List Byte :=
  let kin := (olderKin s a).filter (fun b => b.wr.isSome)
  if kin.isEmpty && fwd.isEmpty then s.segBytes a.segs
  else List.zipWith (fun key i => loopByte s kin (fwd.getD i none) key) (segKeys a.segs) (fromTo 0 (segKeys a.segs).length)

/-- A Loop load keeps what some bytes hold now. -/
def Req.keep (q : Req) (s : State) (keys old : List Nat) : Req :=
  let note (key i : Nat) : Option Byte :=
    if keys.contains key then (q.fwd.getD i none).or (some (memGet s.mem key)) else q.fwd.getD i none
  { q with fwd := List.zipWith note old (fromTo 0 old.length) }

/-- A store performs before earlier accesses of its context to some of its bytes: an earlier store no longer writes them, and an
earlier load keeps what they held (R250). -/
def State.passKin (s : State) (a : LoopAcc) : List LoopAcc → State
  | [] => s
  | b :: l =>
    let keys := segKeys a.segs
    let skipped (d : LoopAcc) : LoopAcc := { d with skip := d.skip ++ keys }
    let s1 := match b.req with
      | none => { s with loopq := mapWhere (fun d => d.id == b.id) skipped s.loopq }
      | some r =>
        let f (q : Req) : Req := q.keep s keys (segKeys b.segs)
        s.updCtx b.core b.ctx (fun x => { x with reqs := mapWhere (fun q => q.id == r) f x.reqs })
    s1.passKin a l

/-- The bytes that a store writes where later stores of its context have not (R250). -/
def LoopAcc.kept (s : State) (a : LoopAcc) (bs : List Byte) : List Byte :=
  if a.skip.isEmpty then bs
  else List.zipWith (fun key b => if a.skip.contains key then memGet s.mem key else b) (segKeys a.segs) bs

/-- A Loop or cluster-window access performs: a store writes, a load's bytes are fixed, at its core `lag` cycles on. -/
def State.loopPerform (s : State) (a : LoopAcc) : State :=
  let s0 := { s with loopq := s.loopq.filter (fun b => b.id != a.id) }
  let s1 := if a.moved then s0.trace (tileOf a.core) a.pc a.slot 8 (s.gt - a.movedAt) else s0
  match a.wr with
  | some bs => (s1.passKin a ((olderKin s1 a).filter (fun b => segsMeet a.segs b.segs))).putSegs (tileOf a.target) a.segs (a.kept s1 bs)
  | none =>
    match a.req with
    | none => s1
    | some r =>
      let fwd := ((s1.ctx a.core a.ctx).reqs.find? (fun q => q.id == r)).elim [] (·.fwd)
      let bs := loopRead s1 a fwd
      s1.bump.updCtx a.core a.ctx (fun x =>
        { x with reqs := mapWhere (fun q => q.id == r) (fun q =>
                    { q with got := some bs, bad := readsBad s1 a.segs, arr := some (s1.gt + a.lag), done := s1.fresh }) x.reqs,
                 perfAt := s1.fresh })

def execLoopAccessPerform (s : State) : Out :=
  match s.loopq.find? (fun a => a.id == s.arg.id) with
  | none => .next s
  | some a => .next (s.loopPerform a)

/-! ## Bundles that do not decode (R80, R81) -/

/-- The fault of a bundle that fails R80 or R81: of the whole bundle, or of one of its slots. -/
def execUnassigned (e : DecodeErr) (s : State) : Out :=
  let at_ (slot : Nat) : State :=
    match s.cur with
    | .core c k => s.updCtx c k (fun x => { x with hart := { x.hart with slot := slot } })
    | .cell t => s.updCell t (fun x => { x with hart := { x.hart with slot := slot } })
    | _ => s
  match e with
  | .illegalBundle => .next (s.raiseBundle { code := fIllBun })
  | .illegalSyllable n => .next ((at_ n).raise { code := fIllSyl })
  | .privilege n => .next ((at_ n).raise { code := fPriv })

end Sys2Proof.Machine
end

