-- ==== Sys2Proof/Machine/Special.lean ====
section
/-! DEFINITION. Machine/Special.lean: roots, reciprocals and the special functions (R73, R74, R195 `fsq`), and the random
word (R75). Roots and reciprocals are exact integers with a sticky bit. The transcendental ones are 320-bit fixed-point
values with a sticky bit: DEDUCED that this is the correct rounding R73 asks for (log 12). -/

namespace Sys2Proof.Machine

/-- The largest r with r² ≤ v, bit by bit from bit `n` down. -/
def isqrtBits (v : Nat) : Nat → Nat → Nat
  | 0, r => if (r + 1) * (r + 1) ≤ v then r + 1 else r
  | n + 1, r =>
    let r' := r + 2 ^ (n + 1)
    isqrtBits v n (if r' * r' ≤ v then r' else r)

/-- The integer square root. -/
def isqrt (v : Nat) : Nat := isqrtBits v (Nat.log2 v / 2 + 1) 0

/-- A truncated magnitude with a sticky bit below it. -/
def stickyVal (neg : Bool) (t : Nat) (e : Int) (exact : Bool) : FVal :=
  .fin neg (2 * t + (if exact then 0 else 1)) (e - 1)

/-- 1 / (m · 2^e), m ≠ 0. -/
def recipVal (neg : Bool) (m : Nat) (e : Int) : FVal :=
  let k := Nat.log2 m + 64
  let n := 2 ^ k
  stickyVal neg (n / m) (-(k : Int) - e) (n % m == 0)

/-- √(m · 2^e), m ≠ 0. -/
def sqrtVal (m : Nat) (e : Int) : FVal :=
  let m1 := if e % 2 = 0 then m else 2 * m
  let e1 := if e % 2 = 0 then e else e - 1
  let v := m1 * 2 ^ 128
  let r := isqrt v
  stickyVal false r (e1 / 2 - 64) (r * r == v)

/-- 1 / √(m · 2^e), m ≠ 0. -/
def rsqrtVal (m : Nat) (e : Int) : FVal :=
  let m1 := if e % 2 = 0 then m else 2 * m
  let e1 := if e % 2 = 0 then e else e - 1
  let k := Nat.log2 m1 + 128
  let n := 2 ^ (2 * k)
  let r := isqrt (n / m1)
  stickyVal false r (-(k : Int) - e1 / 2) (r * r * m1 == n)

/-- The fixed-point 1, 320 bits below the point. -/
def fxOne : Nat := 0x100000000000000000000000000000000000000000000000000000000000000000000000000000000

/-- ln 2 in fixed point. -/
def fxLn2 : Nat := 0xb17217f7d1cf79abc9e3b39803f2f6af40f343267298b62d8a0d175b8baafa2be7b876206debac98

/-- The series of e^f from term `k` on, `n` terms more. -/
def expSum (f : Nat) : Nat → Nat → Nat → Nat
  | 0, _, _ => 0
  | n + 1, k, t => t + expSum f n (k + 1) (t * f / fxOne / (k + 1))

/-- 2^f of a fixed-point f in [0, 1), in [1, 2). -/
def fxExp2 (f : Nat) : Nat := expSum (f * fxLn2 / fxOne) 90 0 fxOne

/-- The series of atanh z, z² in `z2`, from the odd number `k` on. -/
def atanhSum (z2 : Nat) : Nat → Nat → Nat → Nat
  | 0, _, _ => 0
  | n + 1, k, t => t / k + atanhSum z2 n (k + 2) (t * z2 / fxOne)

/-- log2 of a fixed-point m in [1, 2), in [0, 1). -/
def fxLog2 (m : Nat) : Nat :=
  let z := (m - fxOne) * fxOne / (m + fxOne)
  2 * atanhSum (z * z / fxOne) 110 1 z * fxOne / fxLn2

/-- m · 2^e in fixed point, for e ≥ -320. -/
def fxOf (m : Nat) (e : Int) : Nat := m * pow2 (e + 320)

/-- 2^t of a signed fixed-point t that is no integer: its truncated magnitude as r · 2^(n - 320). -/
def fxPow (t : Int) : Nat × Int := (fxExp2 (t % (fxOne : Int)).toNat, t / (fxOne : Int))

/-- 2^x (R73), x finite and nonzero. -/
def exp2Val (neg : Bool) (m : Nat) (e : Int) : FVal :=
  if 8 ≤ ilog m e then (if neg then .fin false 1 (-400) else .fin false 1 400)
  else
    let t : Int := ((fxOf m e : Nat) : Int)
    let t := if neg then -t else t
    if t % (fxOne : Int) = 0 then .fin false 1 (t / (fxOne : Int))
    else
      let (r, n) := fxPow t
      stickyVal false r (n - 320) false

/-- log2 x (R73), x finite and positive. -/
def log2Val (m : Nat) (e : Int) : FVal :=
  let k := Nat.log2 m
  if m = 2 ^ k then FVal.int ((k : Int) + e)
  else
    let l := fxLog2 (m * fxOne / 2 ^ k)
    let t : Int := ((k : Int) + e) * (fxOne : Int) + (l : Int)
    if t < 0 then .fin true (2 * t.natAbs - 1) (-321) else .fin false (2 * t.natAbs + 1) (-321)

/-- tanh x (R73), x finite and nonzero. -/
def tanhVal (neg : Bool) (m : Nat) (e : Int) : FVal :=
  let l := ilog m e
  if l < -30 then .fin neg (m * 2 ^ 100 - 1) (e - 100)
  else if 6 ≤ l then .fin neg (2 ^ 200 - 1) (-200)
  else
    let t := 2 * fxOf m e * fxOne / fxLn2
    let (r, n) := fxPow (t : Int)
    let p := r * pow2 n
    stickyVal neg ((p - fxOne) * fxOne / (p + fxOne)) (-320) false

/-- 1 / (1 + e^-x) (R73), x finite and nonzero. -/
def sigmoidVal (neg : Bool) (m : Nat) (e : Int) : FVal :=
  if 7 ≤ ilog m e then (if neg then .fin false 1 (-400) else .fin false (2 ^ 400 - 1) (-400))
  else
    let a : Int := ((fxOf m e * fxOne / fxLn2 : Nat) : Int)
    let (r, n) := fxPow (if neg then a else -a)
    let p := if 0 ≤ n then r * pow2 n else r / pow2 (-n)
    stickyVal false (fxOne * fxOne / (fxOne + p)) (-320) false

/-- `frcp` (R73, R74). -/
def frcp (mu : RM) (x : W32) : W32 × Fl :=
  match f32Val x with
  | .nan => (nan32, 0)
  | .inf n => (f32Of (.fin n 0 0), 0)
  | .fin n m e => if m = 0 then (f32Of (.inf n), Fl.divZero) else round32 mu (recipVal n m e)

/-- `frsq` (R73, R74). -/
def frsq (mu : RM) (x : W32) : W32 × Fl :=
  match f32Val x with
  | .nan => (nan32, 0)
  | .inf n => if n then (nan32, Fl.invalid) else (0, 0)
  | .fin n m e =>
    if m = 0 then (f32Of (.inf n), Fl.divZero)
    else if n then (nan32, Fl.invalid)
    else round32 mu (rsqrtVal m e)

/-- `fex2` (R73, R74). -/
def fex2 (mu : RM) (x : W32) : W32 × Fl :=
  match f32Val x with
  | .nan => (nan32, 0)
  | .inf n => (if n then 0 else f32Of (.inf false), 0)
  | .fin n m e => if m = 0 then (0x3F800000, 0) else round32 mu (exp2Val n m e)

/-- `flg2` (R73, R74). -/
def flg2 (mu : RM) (x : W32) : W32 × Fl :=
  match f32Val x with
  | .nan => (nan32, 0)
  | .inf n => if n then (nan32, Fl.invalid) else (x, 0)
  | .fin n m e =>
    if m = 0 then (f32Of (.inf true), Fl.divZero)
    else if n then (nan32, Fl.invalid)
    else round32 mu (log2Val m e)

/-- `fth` (R73, R74). -/
def fth (mu : RM) (x : W32) : W32 × Fl :=
  match f32Val x with
  | .nan => (nan32, 0)
  | .inf n => (if n then 0xBF800000 else 0x3F800000, 0)
  | .fin n m e => if m = 0 then (x, 0) else round32 mu (tanhVal n m e)

/-- `fsgm` (R73, R74). -/
def fsgm (mu : RM) (x : W32) : W32 × Fl :=
  match f32Val x with
  | .nan => (nan32, 0)
  | .inf n => (if n then 0 else 0x3F800000, 0)
  | .fin n m e => if m = 0 then (0x3F000000, 0) else round32 mu (sigmoidVal n m e)

/-- `fsq` (R195). -/
def fsq (mu : RM) (x : W32) : W32 × Fl :=
  match f32Val x with
  | .nan => (nan32, 0)
  | .inf n => if n then (nan32, Fl.invalid) else (x, 0)
  | .fin n m e => if m = 0 then (x, 0) else if n then (nan32, Fl.invalid) else round32 mu (sqrtVal m e)

/-- The random word W(k, c) (R75). -/
def randWord (k : Word) (c : W32) : W32 :=
  let k0 : W32 := k.extractLsb' 0 32
  let k1 : W32 := k.extractLsb' 32 32
  let x := (c ^^^ k0) * 0x9E3779B1
  let x := (x ^^^ (x >>> 15)) * 0x7FEB352D
  let x := x ^^^ (x >>> 13)
  x ^^^ k1

end Sys2Proof.Machine
end

