-- ==== Sys2Proof/Machine/Vector.lean ====
section
/-! DEFINITION. Machine/Vector.lean: the cascade, moves, compares, masks, conversions, packing, random words, reduction
trees, the deferral queue, the S plane and the transposer (R192-R216). -/

namespace Sys2Proof.Machine

/-! ## Writing vector registers (R192, R193) -/

/-- Every container. -/
def allSel : BitVec 512 := BitVec.allOnes 512

/-- Schedule a vector result: the containers it selects, and its flags. -/
def Hart.outV (h : Hart) (lat : Nat) (vd : Reg) (sel : BitVec 512) (sOnly : Bool) (cs : List Cont) (pois : Bool)
    (fl : List (Nat × Nat)) : Hart :=
  h.emit lat (.v vd) (.have (.v sel sOnly cs)) pois .plain (if pois then [] else fl)

/-- Schedule a vector result with what the floating-point units of its stages gave (R284). -/
def Hart.outFp (h : Hart) (lat : Nat) (vd : Reg) (sel : BitVec 512) (cs : List Cont) (pois : Bool) (fl : List (Nat × Nat))
    (fp : List (BitVec 512 × List W32)) : Hart :=
  h.emit lat (.v vd) (.have (.v sel false cs)) pois .plain (if pois then [] else fl) fp

/-- Schedule a mask result. -/
def Hart.outM (h : Hart) (lat : Nat) (md : MReg) (m : BitVec 512) : Hart := h.emit lat (.m md) (.have (.m m)) false .plain []

/-- The old destination is a source under a mask other than m0 (R192). -/
def Ctx.oldPois (x : Ctx) (vd : Reg) (msk : MReg) : Bool := msk.val != 0 && x.vPois vd

/-- Flags of the selected containers, each with its lowest container index. -/
def selFlags (sel : BitVec 512) (fl : List Fl) : List (Nat × Nat) :=
  foldFlags 0 (List.zipWith (fun f i => if sel.getLsbD i then f else 0) fl (fromTo 0 512)) []

/-- A vector result under a mask, on the context in execution. -/
def vecOut (lat : Nat) (vd : Reg) (msk : MReg) (pois : Bool) (cs : List Cont) (x : Ctx) : Res Ctx :=
  .ok { x with hart := x.hart.outV lat vd (x.rm msk) false cs (pois || x.oldPois vd msk) [] }

/-- A mask of the containers that meet a test. -/
def maskOf (p : Nat → Bool) : BitVec 512 :=
  BitVec.ofNat 512 ((fromTo 0 512).foldr (fun i n => (if p i then 1 else 0) + 2 * n) 0)

/-! ## The cascade (R194, R195) -/

/-- The stage reads its second register. -/
def readsY : CasOp → Bool
  | .pass | .fabs | .fneg | .frcp | .frsq | .fex2 | .flg2 | .fth | .fsgm | .i2f | .f2i | .fsq | .frnd => false
  | _ => true

/-- A result with S = 0 and its flags. -/
def plainR (r : W32 × Fl) : Cont × Fl := ({ v := r.1 }, r.2)

/-- An integer result. -/
def intR (v : W32) : Cont × Fl := ({ v := v }, 0)

/-- `fmin` and `fmax`: the operand returned. -/
def pickR (wantMax : Bool) (x y : Cont) : Cont × Fl :=
  match pickMin wantMax x.v y.v with
  | none => ({ v := nan32 }, 0)
  | some true => (x, 0)
  | some false => (y, 0)

/-- A sign operation; a NaN gives the canonical NaN, with the operand's S. -/
def signR (x : Cont) (v : W32) : Cont × Fl := ({ v := if (f32Val x.v).isNan then nan32 else v, s := x.s }, 0)

/-- One stage on one container (R195); `sb` is the bit of m(SELM). -/
def stage (op : CasOp) (mu : RM) (sb : Bool) (x y : Cont) : Cont × Fl :=
  match op with
  | .pass => (x, 0)
  | .fadd => plainR (fadd32 mu x.v y.v)
  | .fsub => plainR (fsub32 mu x.v y.v)
  | .fmul => plainR (fmul32 mu x.v y.v)
  | .fmin => pickR false x y
  | .fmax => pickR true x y
  | .fabs => signR x (x.v &&& 0x7FFFFFFF)
  | .fneg => signR x (x.v ^^^ 0x80000000)
  | .iadd => intR (x.v + y.v)
  | .isub => intR (x.v - y.v)
  | .imul => intR (x.v * y.v)
  | .iand => intR (x.v &&& y.v)
  | .ior => intR (x.v ||| y.v)
  | .ixor => intR (x.v ^^^ y.v)
  | .shl => intR (x.v <<< (y.v.toNat % 32))
  | .shr => intR (x.v >>> (y.v.toNat % 32))
  | .sar => intR (x.v.sshiftRight (y.v.toNat % 32))
  | .imin => intR (if y.v.slt x.v then y.v else x.v)
  | .imax => intR (if x.v.slt y.v then y.v else x.v)
  | .fsel => (if sb then x else y, 0)
  | .frcp => plainR (frcp mu x.v)
  | .frsq => plainR (frsq mu x.v)
  | .fex2 => plainR (fex2 mu x.v)
  | .flg2 => plainR (flg2 mu x.v)
  | .fth => plainR (fth mu x.v)
  | .fsgm => plainR (fsgm mu x.v)
  | .i2f => plainR (round32 mu (FVal.int x.v.toInt))
  | .f2i =>
    let r := toSigned 32 mu (f32Val x.v)
    ({ v := BitVec.ofInt 32 r.1 }, r.2)
  | .fsq => plainR (fsq mu x.v)
  | .frnd => plainR (frnd32 mu x.v)

/-- A floating-point unit gives the stage's result: not a copy, an integer or a selection (R284, log 98). -/
def casIsFp : CasOp → Bool
  | .pass | .iadd | .isub | .imul | .iand | .ior | .ixor | .shl | .shr | .sar | .imin | .imax | .fsel | .f2i => false
  | _ => true

/-- A container of the cascade: the results of its stages and the flags that they raise. -/
structure Casc where
  t1 : W32
  t2 : W32
  r  : Cont
  fl : Fl
deriving DecidableEq, Repr

/-- Three stages on one container. -/
def cascade1 (f : CasF) (mu : RM) (sb : Bool) (a b c e : Cont) : Casc :=
  let t1 := stage f.op1 mu sb a b
  let t2 := stage f.op2 mu sb t1.1 c
  let r := stage f.op3 mu sb t2.1 e
  { t1 := t1.1.v, t2 := t2.1.v, r := r.1, fl := t1.2 ||| t2.2 ||| r.2 }

/-- What the floating-point units of a cascade gave in the containers that it writes. -/
def casFp (f : CasF) (m : BitVec 512) (rs : List Casc) : List (BitVec 512 × List W32) :=
  let of (op : CasOp) (v : Casc → W32) : BitVec 512 × List W32 := if casIsFp op then (m, rs.map v) else (0, [])
  [of f.op1 (·.t1), of f.op2 (·.t2), of f.op3 (·.r.v)]

/-- The cascade over all containers. -/
def cascadeAll (f : CasF) (mu : RM) (selm : BitVec 512) (a b c e : List Cont) : List Casc :=
  List.zipWith (fun i (p : (Cont × Cont) × (Cont × Cont)) => cascade1 f mu (selm.getLsbD i) p.1.1 p.1.2 p.2.1 p.2.2)
    (fromTo 0 512) ((a.zip b).zip (c.zip e))

/-- A source that the cascade reads is poisoned. -/
def casPois (f : CasF) (x : Ctx) : Bool :=
  x.vPois f.va || (readsY f.op1 && x.vPois f.vb) || (readsY f.op2 && x.vPois f.vc) || (readsY f.op3 && x.vPois f.ve)

def execVcas (f : CasF) (s : State) : Out :=
  onCtx s (fun x =>
    let m := x.rm f.mask
    let rs := cascadeAll f (arnd x.hart.fr) (x.rm f.selm) (x.rv f.va) (x.rv f.vb) (x.rv f.vc) (x.rv f.ve)
    let cs := rs.map (·.r)
    let cs' := if f.zm then List.zipWith (fun c i => if m.getLsbD i then c else {}) cs (fromTo 0 512) else cs
    let pois := casPois f x || (!f.zm && x.oldPois f.vd f.mask)
    .ok { x with hart := x.hart.outFp 9 f.vd (if f.zm then allSel else m) cs' pois (selFlags m (rs.map (·.fl))) (casFp f m rs) })

/-! ## Moves and element access (R197-R199) -/

def execVmov (vd vs : Reg) (msk : MReg) (s : State) : Out := onCtx s (fun x => vecOut 2 vd msk (x.vPois vs) (x.rv vs) x)

def execVbc (vd ss : Reg) (msk : MReg) (s : State) : Out :=
  onCtx s (fun x => vecOut 2 vd msk (x.hart.sPois ss) (tabulate 512 (fun _ => { v := (x.hart.rs ss).setWidth 32 })) x)

/-- The container that a register names (R198). -/
def elemOf (x : Ctx) (vs si : Reg) : Cont := (x.rv vs).getD ((x.hart.rs si).toNat % 512) {}

/-- An element of a vector to a scalar register. -/
def vgetOut (sd vs si : Reg) (f : Cont → Word) (s : State) : Out :=
  onCtx s (fun x => .ok { x with hart := x.hart.outS 3 sd (f (elemOf x vs si)) (x.vPois vs || x.hart.sPois si) })

def execVget (sd vs si : Reg) (s : State) : Out := vgetOut sd vs si (fun c => c.v.setWidth 64) s
def execVgetSx (sd vs si : Reg) (s : State) : Out := vgetOut sd vs si (fun c => c.v.signExtend 64) s
def execVgetS (sd vs si : Reg) (s : State) : Out := vgetOut sd vs si (fun c => if c.s then 1 else 0) s

def execVput (vd ss si : Reg) (s : State) : Out :=
  onCtx s (fun x =>
    let j := (x.hart.rs si).toNat % 512
    let cs := tabulate 512 (fun _ => { v := (x.hart.rs ss).setWidth 32 : Cont })
    .ok { x with hart := x.hart.outV 4 vd (1#512 <<< j) false cs (x.hart.sPois ss || x.hart.sPois si || x.vPois vd) [] })

/-- A permutation: the container that each destination takes. -/
def vprmOut (vd vs vi : Reg) (j : Nat → Cont → Nat) (s : State) : Out :=
  onCtx s (fun x =>
    let src := x.rv vs
    let cs := List.zipWith (fun i c => src.getD (j i c) {}) (fromTo 0 512) (x.rv vi)
    .ok { x with hart := x.hart.outV 4 vd allSel false cs (x.vPois vs || x.vPois vi) [] })

def execVprm (vd vs vi : Reg) (s : State) : Out := vprmOut vd vs vi (fun _ c => c.v.toNat % 512) s
def execVprmG16 (vd vs vi : Reg) (s : State) : Out := vprmOut vd vs vi (fun i c => 16 * (i / 16) + c.v.toNat % 16) s

/-! ## Cluster copies (R200) -/

/-- The place of a cluster copy. -/
def vxcPlace (s : State) (c : CoreId) (x : Ctx) (ea : Nat) (acc : Acc) : Except Trap Place :=
  match windowOf ea with
  | .cluster _ off =>
    if 2 ^ 21 < off + 2112 then .error (accTrap (if ea % 64 != 0 then 1 else 0) ea) else placeOf s c x ea 2112 64 acc false
  | _ => .error (accTrap 0 ea)

def execVxcLd (vd sa : Reg) (off : BitVec 32) (s : State) : Out :=
  match s.cur with
  | .core c k =>
    let x := s.ctx c k
    if x.hart.sPois sa then .next (s.raise { code := fLate })
    else
      match vxcPlace s c x (x.hart.ea sa off) .read with
      | .error t => .next (s.raise t)
      | .ok p => .next (s.loopLoad c k false (p.target.getD c) p.segs 0 1 4 2 none { dst := .v vd, dec := .img, form := .plain })
  | _ => .next s

def execVxcSt (vs sa : Reg) (off : BitVec 32) (s : State) : Out :=
  match s.cur with
  | .core c k =>
    let x := s.ctx c k
    let ea := x.hart.ea sa off
    if x.hart.sPois sa || x.vPois vs then .next (s.raise { code := fLate })
    else
      match vxcPlace s c x ea .write with
      | .error t => .next (s.raise t)
      | .ok p =>
        let img := imageOf (x.rv vs)
        let a : LoopAcc := { id := s.fresh, core := c, ctx := k, slot := x.hart.slot, pc := x.hart.bpc, ic := some (x.hart.ic + 4),
                             target := p.target.getD c, own := false, tracks := 0, clocks := 1, segs := p.segs, wr := some img,
                             req := none, lag := 0 }
        .next ((s.addStore a).updCtx c k (·.event (bytesOf 8 ea ++ img)))
  | _ => .next s

/-! ## Compares and masks (R201, R202, R212) -/

/-- The f tests of R201 on numbers. -/
def fEqual (loose : Bool) (x y : Cont) : Bool := (f32Val x.v).eq (f32Val y.v) && (loose || (!x.s && !y.s))
def fLess (loose : Bool) (x y : Cont) : Bool :=
  (f32Val x.v).lt (f32Val y.v) || (!loose && (f32Val x.v).eq (f32Val y.v) && !x.s && y.s)
def eitherNan (x y : Cont) : Bool := (f32Val x.v).isNan || (f32Val y.v).isNan

/-- The i tests. -/
def iEqual (loose : Bool) (x y : Cont) : Bool := x.v == y.v && (loose || (!x.s && !y.s))
def iLess (lt : W32 → W32 → Bool) (loose : Bool) (x y : Cont) : Bool := lt x.v y.v || (!loose && x.v == y.v && !x.s && y.s)

/-- A compare of all containers into a mask. -/
def vcmpOut (md : MReg) (a b : Reg) (p : Cont → Cont → Bool) (s : State) : Out :=
  onCtx s (fun x => needClean (x.vPois a || x.vPois b)
    (let bs := List.zipWith p (x.rv a) (x.rv b)
     .ok { x with hart := x.hart.outM 2 md (maskOf (fun i => bs.getD i false)) }))

def execVcmpFeq (md : MReg) (a b : Reg) (loose : Bool) (s : State) : Out := vcmpOut md a b (fEqual loose) s
def execVcmpFne (md : MReg) (a b : Reg) (loose : Bool) (s : State) : Out := vcmpOut md a b (fun x y => !fEqual loose x y) s
def execVcmpFlt (md : MReg) (a b : Reg) (loose : Bool) (s : State) : Out := vcmpOut md a b (fLess loose) s
def execVcmpFle (md : MReg) (a b : Reg) (loose : Bool) (s : State) : Out :=
  vcmpOut md a b (fun x y => !eitherNan x y && !fLess loose y x) s
def execVcmpIeq (md : MReg) (a b : Reg) (loose : Bool) (s : State) : Out := vcmpOut md a b (iEqual loose) s
def execVcmpIne (md : MReg) (a b : Reg) (loose : Bool) (s : State) : Out := vcmpOut md a b (fun x y => !iEqual loose x y) s
def execVcmpIlt (md : MReg) (a b : Reg) (loose : Bool) (s : State) : Out := vcmpOut md a b (iLess BitVec.slt loose) s
def execVcmpIltn (md : MReg) (a b : Reg) (loose : Bool) (s : State) : Out := vcmpOut md a b (iLess BitVec.ult loose) s

/-- Mask logic. -/
def mopOut (md ma mb : MReg) (f : BitVec 512 → BitVec 512 → BitVec 512) (s : State) : Out :=
  onCtx s (fun x => .ok { x with hart := x.hart.outM 2 md (f (x.rm ma) (x.rm mb)) })

def execMopAnd (md ma mb : MReg) (s : State) : Out := mopOut md ma mb (fun a b => a &&& b) s
def execMopOr (md ma mb : MReg) (s : State) : Out := mopOut md ma mb (fun a b => a ||| b) s
def execMopXor (md ma mb : MReg) (s : State) : Out := mopOut md ma mb (fun a b => a ^^^ b) s
def execMopAndn (md ma mb : MReg) (s : State) : Out := mopOut md ma mb (fun a b => a &&& ~~~b) s

/-- The ones of a mask below an index. -/
def onesBelow (m : BitVec 512) (n : Nat) : Nat := ((fromTo 0 n).filter (fun i => m.getLsbD i)).length

def execMcnt (sd : Reg) (ma : MReg) (s : State) : Out :=
  onCtx s (fun x => .ok { x with hart := x.hart.outS 2 sd (BitVec.ofNat 64 (onesBelow (x.rm ma) 512)) false })
def execMcntFirst (sd : Reg) (ma : MReg) (s : State) : Out :=
  onCtx s (fun x =>
    let n := ((fromTo 0 512).find? (fun i => (x.rm ma).getLsbD i)).getD 512
    .ok { x with hart := x.hart.outS 2 sd (BitVec.ofNat 64 n) false })

def execViota (vd : Reg) (msk : MReg) (s : State) : Out :=
  onCtx s (fun x => vecOut 2 vd msk false (tabulate 512 (fun i => { v := BitVec.ofNat 32 i })) x)
def execViotaRank (vd : Reg) (ma : MReg) (msk : MReg) (s : State) : Out :=
  onCtx s (fun x => vecOut 2 vd msk false (tabulate 512 (fun i => { v := BitVec.ofNat 32 (onesBelow (x.rm ma) i) })) x)

def execVsx (md : MReg) (vs : Reg) (s : State) : Out :=
  onCtx s (fun x => needClean (x.vPois vs)
    (let cs := x.rv vs
     .ok { x with hart := x.hart.outM 2 md (maskOf (fun i => (cs.getD i {}).s)) }))

/-- A write of the S plane alone (R212). -/
def vssetOut (vd : Reg) (ma : MReg) (f : Bool → Bool → Bool) (s : State) : Out :=
  onCtx s (fun x =>
    let m := x.rm ma
    let cs := List.zipWith (fun (c : Cont) i => { c with s := f c.s (m.getLsbD i) }) (x.rv vd) (fromTo 0 512)
    .ok { x with hart := x.hart.outV 2 vd allSel true cs (x.vPois vd) [] })

def execVsset (vd : Reg) (ma : MReg) (s : State) : Out := vssetOut vd ma (fun _ m => m) s
def execVssetOr (vd : Reg) (ma : MReg) (s : State) : Out := vssetOut vd ma (fun o m => o || m) s
def execVssetClr (vd : Reg) (ma : MReg) (s : State) : Out := vssetOut vd ma (fun o m => o && !m) s

/-! ## Conversion, packing, random words (R203-R206) -/

def execCvt (vd vs : Reg) (kind : BitVec 4) (msk : MReg) (s : State) : Out :=
  onCtx s (fun x =>
    match kindOf kind.toNat with
    | none => .trap { code := fIllSyl }
    | some kd =>
      let rs := (chunks 16 32 (x.rv vs)).flatMap (cvtRun kd)
      let m := x.rm msk
      .ok { x with hart := x.hart.outFp 4 vd m (rs.map (·.1)) (x.vPois vs || x.oldPois vd msk)
                              (selFlags m (rs.map (·.2))) [(m, rs.map (·.1.v))] })

/-- The data bytes of a register, without its S plane. -/
def dataBytes (cs : List Cont) : List Byte := cs.flatMap (fun c => bytesOf 4 c.v.toNat)

def execUnpk (vd vs : Reg) (kind : BitVec 4) (part : BitVec 3) (s : State) : Out :=
  onCtx s (fun x =>
    match kindOf kind.toNat with
    | none => .trap { code := fIllSyl }
    | some kd =>
      let f := footprint kd 512
      let bs := ((dataBytes (x.rv vs)).drop (part.toNat * f)).take f
      .ok { x with hart := x.hart.outV 4 vd allSel false (widen kd bs) (x.vPois vs) [] })

def execPack (vd vs : Reg) (kind : BitVec 4) (part : BitVec 3) (s : State) : Out :=
  onCtx s (fun x =>
    match kindOf kind.toNat with
    | none => .trap { code := fIllSyl }
    | some kd =>
      let f := footprint kd 512
      let first := part.toNat * f / 4
      let r := narrow kd (frnd x.hart.fr) (x.rv vs) (srWords x)
      let new := (chunks 4 512 r.1).map (fun b => { v := BitVec.ofNat 32 (leNat b) : Cont })
      let cs := tabulate 512 (fun i => if first ≤ i then new.getD (i - first) {} else {})
      let sel := maskOf (fun i => first ≤ i && i < first + f / 4)
      .ok { x with hart := x.hart.outV 4 vd sel false cs (x.vPois vs || x.vPois vd || srPois x) r.2 })

def execRnd (vd sk sb : Reg) (msk : MReg) (s : State) : Out :=
  onCtx s (fun x =>
    let key := x.hart.rs sk
    let base := (x.hart.rs sb).setWidth 32
    vecOut 5 vd msk (x.hart.sPois sk || x.hart.sPois sb)
      (tabulate 512 (fun i => { v := randWord key (base + BitVec.ofNat 32 i) })) x)

/-! ## The reduction tree (R207) -/

/-- A node of the tree: its value and the lowest container that reaches it. -/
structure Node where
  v   : W32
  idx : Nat
deriving DecidableEq, Repr

/-- One level: each pair is added. -/
def treeLevel (add : W32 → W32 → W32 × Fl) : List Node → List Node × List (Fl × Nat)
  | a :: b :: l =>
    let r := add a.v b.v
    let i := min a.idx b.idx
    let (ns, fs) := treeLevel add l
    ({ v := r.1, idx := i } :: ns, (r.2, i) :: fs)
  | l => (l, [])

/-- Levels until one node is left. -/
def treeSum (add : W32 → W32 → W32 × Fl) : Nat → List Node → Node × List (Fl × Nat)
  | 0, l => (l.getD 0 { v := 0, idx := 0 }, [])
  | n + 1, l =>
    let (l1, f1) := treeLevel add l
    let (r, f2) := treeSum add n l1
    (r, f1 ++ f2)

/-- Flags with their lowest index. -/
def nodeFlags (l : List (Fl × Nat)) : List (Nat × Nat) :=
  (fromTo 0 6).filterMap (fun b =>
    let hits := (l.filter (fun p => p.1.getLsbD b)).map (·.2)
    match hits with
    | [] => none
    | i :: is => some (b, is.foldl min i))

/-- The inputs of lane group `g` in tree order. -/
def treeInputs (cs : List Cont) (m : BitVec 512) (g : Nat) : List Node :=
  (fromTo 0 64).map (fun j =>
    let i := 128 * (j / 16) + 16 * g + j % 16
    { v := if m.getLsbD i then (cs.getD i {}).v else 0, idx := i })

/-- A reduction tree, by lane group or over all. -/
def vtreeOut (group int : Bool) (vd vs : Reg) (msk : MReg) (s : State) : Out :=
  onCtx s (fun x =>
    let mu := arnd x.hart.fr
    let add (a b : W32) : W32 × Fl := if int then (a + b, 0) else fadd32 mu a b
    let gs := (fromTo 0 8).map (fun g => treeSum add 6 (treeInputs (x.rv vs) (x.rm msk) g))
    let top := treeSum add 3 (gs.map (·.1))
    let cs := tabulate 512 (fun i =>
      { v := if group then ((gs.map (·.1)).getD (i % 128 / 16) { v := 0, idx := 0 }).v else top.1.v : Cont })
    let fl := gs.flatMap (·.2) ++ (if group then [] else top.2)
    .ok { x with hart := x.hart.outFp 12 vd allSel cs (x.vPois vs) (nodeFlags fl) (if int then [] else [(allSel, cs.map (·.v))]) })

def execVtree (vd vs : Reg) (msk : MReg) (s : State) : Out := vtreeOut false false vd vs msk s
def execVtreeG (vd vs : Reg) (msk : MReg) (s : State) : Out := vtreeOut true false vd vs msk s
def execVtreeI (vd vs : Reg) (msk : MReg) (s : State) : Out := vtreeOut false true vd vs msk s
def execVtreeGI (vd vs : Reg) (msk : MReg) (s : State) : Out := vtreeOut true true vd vs msk s

/-! ## The deferral queue (R208-R211) -/

/-- The entries of a push. -/
def dqEnts (cs : List Cont) (m : BitVec 512) (tag : Nat) : List DEnt :=
  (fromTo 0 512).filterMap (fun i =>
    if m.getLsbD i then some { v := (cs.getD i {}).v, s := (cs.getD i {}).s, idx := i, tag := tag } else none)

def execDpush (vs : Reg) (msk : MReg) (tag : BitVec 6) (s : State) : Out :=
  onCtx s (fun x =>
    let es := dqEnts (x.rv vs) (x.rm msk) tag.toNat
    let flying := (x.dqIn.map (fun d => d.ents.length)).foldl (· + ·) 0
    needClean (x.vPois vs)
      (if 2048 < x.dq.length + x.dqPop + es.length + flying then .trap { code := fDefer }
       else .ok { x with dqIn := x.dqIn ++ [{ ic := x.hart.ic + 3, ents := es, comm := false }] }))

def execDpop (vd sl : Reg) (s : State) : Out :=
  onCtx s (fun x => needClean (x.hart.sPois sl)
    (let n := min x.dq.length (min (x.hart.rs sl).toNat 512)
     let es := x.dq.take n
     let a := tabulate 512 (fun j => match es[j]? with
       | some e => { v := e.v, s := e.s : Cont }
       | none => {})
     let b := tabulate 512 (fun j => match es[j]? with
       | some e => { v := BitVec.ofNat 32 (e.tag * 512 + e.idx) : Cont }
       | none => {})
     let h := (x.hart.outV 8 vd allSel false a false []).outV 8 (Fin.ofNat 64 (vd.val + 1)) allSel false b false []
     .ok { x with hart := h, dq := x.dq.drop n, dqPop := x.dqPop + n }))

def execDcnt (sd : Reg) (s : State) : Out :=
  onCtx s (fun x => .ok { x with hart := x.hart.outS 2 sd (BitVec.ofNat 64 x.dq.length) false })

/-! ## The transposer (R213, R214) -/

/-- The part of a container that an element takes. -/
structure Elem where
  reg  : Nat
  cont : Nat
  part : Nat
deriving DecidableEq, Repr

/-- The place of element (r, k) of block `b` in lane group `g`, for elements of which `p` share a container. -/
def elemAt (p b g r k : Nat) : Elem :=
  if p = 1 then { reg := r / 4, cont := 128 * (r % 4) + 16 * g + k, part := 0 }
  else if p = 2 then { reg := 2 * b + r / 8, cont := 128 * (r / 2 % 4) + 16 * g + k, part := r % 2 }
  else { reg := b, cont := 128 * (r / 4) + 16 * g + k, part := r % 4 }

/-- The block and row of part `q` of container position `c` in destination register `d`. -/
def rowAt (p d c q : Nat) : Nat × Nat :=
  if p = 1 then (0, 4 * d + c) else if p = 2 then (d / 2, d % 2 * 8 + 2 * c + q) else (d, 4 * c + q)

/-- A destination container: its parts come from the transposed places, its S from the sources' OR. -/
def tpsCont (p : Nat) (src : List (List Cont)) (d i : Nat) : Cont :=
  let w := 32 / p
  (fromTo 0 p).foldl (fun (acc : Cont) q =>
    let (b, r) := rowAt p d (i / 128) q
    let e := elemAt p b (i % 128 / 16) (i % 16) r
    let c := (src.getD e.reg []).getD e.cont {}
    { v := acc.v ||| (BitVec.ofNat 32 (c.v.toNat / 2 ^ (w * e.part) % 2 ^ w) <<< (w * q)), s := acc.s || c.s }) {}

/-- A transpose of elements of which `p` share a container, for the kinds it admits. -/
def tpsOut (p : Nat) (ok : Kind → Bool) (vd vs : Reg) (msk : MReg) (s : State) : Out :=
  onCtx s (fun x =>
    match kindOf (dkind x.hart.fr) with
    | none => .trap { code := fTps }
    | some kd =>
      if !ok kd then .trap { code := fTps }
      else
        let reg (r : Reg) (j : Nat) : Reg := Fin.ofNat 64 (r.val + j)
        let src := (fromTo 0 4).map (fun j => x.rv (reg vs j))
        let pois := (fromTo 0 4).any (fun j => x.vPois (reg vs j))
        .ok { x with hart := (fromTo 0 4).foldl (fun h j =>
          h.outV 20 (reg vd j) (x.rm msk) false (tabulate 512 (tpsCont p src j)) (pois || x.oldPois (reg vd j) msk) []) x.hart })

def execTps32 (vd vs : Reg) (msk : MReg) (s : State) : Out := tpsOut 1 (fun k => k = .f32 || k = .i32) vd vs msk s
def execTps16 (vd vs : Reg) (msk : MReg) (s : State) : Out :=
  tpsOut 2 (fun k => k = .bf16 || k = .f16 || k = .i16) vd vs msk s
def execTps8 (vd vs : Reg) (msk : MReg) (s : State) : Out :=
  tpsOut 4 (fun k => k = .e4m3 || k = .e5m2 || k = .i8 || k = .n8) vd vs msk s

end Sys2Proof.Machine
end

