-- ==== Sys2Proof/Machine/Matrix.lean ====
section
/-! DEFINITION. Machine/Matrix.lean: the accumulator arithmetic and the drains, racks as the sequencer sees them, the X
syllables, and how a matrix command starts and completes (R65-R70, R217-R235, R368). -/

namespace Sys2Proof.Machine

/-! ## Planes -/

/-- A cell of a plane; an absent one is +0. -/
def Plane.cell (p : Plane) (i j : Nat) : AccCell := (p.rows.getD i []).getD j {}

/-- A plane of +0 with an INT tag (R67, R230). -/
def zeroPlane (int : Bool) : Plane := { int := int }

/-- The plane of a number: acc0 or acc1. -/
def Ctx.plane (x : Ctx) (p : Bool) : Plane := if p then x.acc1 else x.acc0

/-- Write a plane: the checkpoint too when the work is committed (R232). -/
def Ctx.setPlane (x : Ctx) (p comm : Bool) (v : Plane) : Ctx :=
  let x1 := if p then { x with acc1 := v } else { x with acc0 := v }
  if comm then { x1 with ck := if p then { x1.ck with acc1 := v } else { x1.ck with acc0 := v } } else x1

/-! ## Products (R66-R69, R228) -/

/-- Elements of a group (R66). -/
def groupSize : Kind → Nat
  | .f4 | .bq6 | .bq4 => 64
  | .bf16 | .f16 => 16
  | _ => 32

/-- A floating operand kind of `mo.mma`. -/
def mmaFloat : Kind → Bool
  | .e4m3 | .e5m2 | .f4 | .bq9 | .bq6 | .bq4 | .bf16 | .f16 => true
  | _ => false

/-- An integer operand kind of `mo.mma`. -/
def mmaInt : Kind → Bool
  | .i8 | .n8 => true
  | _ => false

/-- The bytes of a row of `n` elements. -/
def rowBytes (k : Kind) (n : Nat) : Nat := bitsOf16 k * n / 128

/-- The exact values of a row, run by run. -/
def rowVals (k : Kind) (bs : List Byte) : List FVal :=
  (chunks (bitsOf16 k / 8) 256 bs).flatMap (fun run =>
    let n := leNat run
    (fromTo 0 16).map (elemVal k n))

/-- The integers of a row of i8 or n8. -/
def rowInts (k : Kind) (bs : List Byte) : List Int :=
  bs.map (fun b => if k = .i8 then b.toInt else (b.toNat : Int))

/-- The rows of a panel. -/
def panelRows (rb rows : Nat) (bs : List Byte) : List (List Byte) := (fromTo 0 rows).map (fun i => (bs.drop (i * rb)).take rb)

/-- A product truncated to multiples of 2^qe, as a signed number of them, and whether that lost anything. -/
def truncAt (qe : Int) (x : FVal) : Int × Bool :=
  match x with
  | .fin neg m e =>
    let c := cutAt m e qe
    (if neg then -(c.t : Int) else (c.t : Int), !c.exact)
  | _ => (0, false)

/-- What a group adds: its value, gs, and whether it is invalid (R67). -/
structure Grp where
  v   : FVal
  gs  : Bool
  inv : Bool
deriving DecidableEq, Repr

/-- The largest floor(log2) among nonzero finite products. -/
def topLog (l : List FVal) : Option Int :=
  l.foldl (fun (m : Option Int) p => match p with
    | .fin _ t e => if t = 0 then m else match m with
      | none => some (ilog t e)
      | some b => some (if b < ilog t e then ilog t e else b)
    | _ => m) none

/-- The sum of one group of products (R67). -/
def groupSum (ps : List (FVal × Bool)) : Grp :=
  let vs := ps.map (·.1)
  let hasInf (n : Bool) : Bool := vs.any (fun v => v == FVal.inf n)
  let inv := ps.any (·.2) || (hasInf true && hasInf false)
  if vs.any FVal.isNan || (hasInf true && hasInf false) then { v := .nan, gs := false, inv := inv }
  else if hasInf false then { v := .inf false, gs := false, inv := inv }
  else if hasInf true then { v := .inf true, gs := false, inv := inv }
  else
    match topLog vs with
    | none => { v := .fin (!vs.isEmpty && vs.all FVal.neg?) 0 0, gs := false, inv := inv }
    | some l =>
      let ts := vs.map (truncAt (l - 48))
      let z := ts.foldl (fun a t => a + t.1) 0
      { v := FVal.ofInt z (l - 48) false, gs := ts.any (·.2), inv := inv }

/-- Add a group to a floating cell (R67). -/
def addGroup (a : AccCell) (g : Grp) : AccCell × Fl :=
  let (y, inv2) := FVal.add false a.f g.v
  let fl := Fl.when (g.inv || inv2) Fl.invalid
  match y with
  | .fin _ _ _ =>
    let (v, inex, sat) := ro27 y g.gs
    ({ a with f := v, s := a.s || inex || g.gs }, fl ||| Fl.when sat Fl.overflow)
  | y => ({ a with f := y }, fl)

/-- Add a group sum to an integer cell (R69). -/
def addInt (a : AccCell) (z : Int) : AccCell × Fl :=
  let y := a.i.toInt + z
  ({ a with i := BitVec.ofInt 32 y }, Fl.when (y < -(2 ^ 31) || 2 ^ 31 ≤ y) Fl.overflow)

/-- Groups added in ascending order, with the flags raised. -/
def addAll {α : Type} (f : AccCell → α → AccCell × Fl) (a : AccCell) (gs : List α) : AccCell × Fl :=
  gs.foldl (fun (p : AccCell × Fl) g => let r := f p.1 g; (r.1, p.2 ||| r.2)) (a, 0)

/-- The product of one row and one column, group by group. -/
def dotFloat (g : Nat) (a b : List FVal) : List Grp :=
  List.zipWith (fun x y => groupSum (List.zipWith FVal.mul x y)) (chunks g 63 a) (chunks g 63 b)

def dotInt (g : Nat) (a b : List Int) : List Int :=
  List.zipWith (fun x y => (List.zipWith (· * ·) x y).foldl (· + ·) 0) (chunks g 63 a) (chunks g 63 b)

/-- Apply a cell function over a plane, collecting flags. -/
def planeWith (p : Plane) (f : Nat → Nat → AccCell → AccCell × Fl) : Plane × Fl :=
  let rows := (fromTo 0 128).map (fun i => (fromTo 0 96).map (fun j => f i j (p.cell i j)))
  ({ p with rows := rows.map (fun r => r.map (·.1)) }, rows.foldl (fun a r => r.foldl (fun b c => b ||| c.2) a) 0)

/-- `mo.mma` on a plane (R228). -/
def mmaPlane (p : Plane) (ka kb : Kind) (ng : Nat) (a b : List Byte) : Plane × Fl :=
  let g := min (groupSize ka) (groupSize kb)
  let n := ng * g
  let ra := panelRows (rowBytes ka n) 128 a
  let rb := panelRows (rowBytes kb n) 96 b
  if p.int then
    let va := ra.map (rowInts ka)
    let vb := rb.map (rowInts kb)
    planeWith p (fun i j c => addAll addInt c (dotInt g (va.getD i []) (vb.getD j [])))
  else
    let va := ra.map (rowVals ka)
    let vb := rb.map (rowVals kb)
    planeWith p (fun i j c => addAll addGroup c (dotFloat g (va.getD i []) (vb.getD j [])))

/-! ## Drains (R70, R229) -/

/-- A cell's value. -/
def cellVal (int : Bool) (a : AccCell) : FVal := if int then FVal.int a.i.toInt else a.f

/-- The scaled value, and whether it is the invalid case (R70). -/
def scaled (v : FVal) (r c : Option W32) : FVal × Bool :=
  let rv := (r.map f32Val).getD (.fin false 1 0)
  let cv := (c.map f32Val).getD (.fin false 1 0)
  if rv.isNan || cv.isNan then (.nan, false)
  else
    let (a, i1) := FVal.mul v rv
    let (b, i2) := FVal.mul a cv
    (b, i1 || i2)

/-- The mode of a drain: 7 takes FRND of F, and SR acts as RNE (R218). -/
def drainMode (rm : BitVec 3) (fr : Word) : RM := (if rm.toNat = 7 then frnd fr else RM.of rm.toNat).noSr

/-- The bytes of a plane drained to a kind, with its flags. -/
def drainBytes (p : Plane) (k : Kind) (mu : RM) (rows cols : Option (List W32)) : List (List Byte) × Fl :=
  let out := (fromTo 0 128).map (fun i =>
    let cells := (fromTo 0 96).map (fun j =>
      let a := p.cell i j
      let (z, inv) := scaled (cellVal p.int a) (rows.bind (·[i]?)) (cols.bind (·[j]?))
      ({ x := z, s := !p.int && a.s, rnd := 0 : RIn }, inv))
    let runs := (chunks 16 6 (cells.map (·.1))).map (roundRun k mu)
    let fl := runs.foldl (fun f r => r.2.foldl (· ||| ·) f) (Fl.when (cells.any (·.2)) Fl.invalid)
    (runs.flatMap (fun r => bytesOf (bitsOf16 k / 8) r.1), fl))
  (out.map (·.1), out.foldl (fun f r => f ||| r.2) 0)

/-- OKIND is admitted for a plane (R229). -/
def okindFor (p : Plane) (k : Kind) : Bool := p.int || (intOf k).isNone

/-- The plane after a drain with or without CLR: its INT tag is kept. -/
def Plane.cleared (p : Plane) (clr : Bool) : Plane := if clr then { p with rows := [] } else p

/-! ## Racks (R225-R227) -/

def Ctx.rk (x : Ctx) (n : Nat) : Word := mapGet 0 x.rkcfg n
def Ctx.rp (x : Ctx) (n : Nat) : Word := mapGet 0 x.rkptr n

/-- A pointer with another HEAD or TAIL. -/
def withHead (p : Word) (h : Nat) : Word := BitVec.ofNat 64 (h % 2 ^ 32 * 2 ^ 32 + rkTail p)
def withTail (p : Word) (t : Nat) : Word := BitVec.ofNat 64 (rkHead p * 2 ^ 32 + t % 2 ^ 32)

/-- Write a rack pointer: the checkpoint too when the work is committed (R232). -/
def Ctx.setRp (x : Ctx) (n : Nat) (comm : Bool) (f : Word → Word) : Ctx :=
  let x1 := { x with rkptr := mapSet x.rkptr n (f (x.rp n)) }
  if comm then { x1 with ck := { x1.ck with rkptr := mapSet x1.ck.rkptr n (f (mapGet 0 x1.ck.rkptr n)) } } else x1

/-- A panel has been written to a rack: TAIL advances. A pop that waits for it takes it in the next clock (R226, R236). -/
def Ctx.pushTail (x : Ctx) (n : Nat) (comm : Bool) (gt : Nat) : Ctx :=
  let old := mapGet (0, 0) x.rkAt n
  { x.setRp n comm (fun p => withTail p (rkTail p + 1)) with rkAt := mapSet x.rkAt n (gt, if old.1 = gt then old.2 + 1 else 1) }

/-- Panels of a rack that a pop can take in a clock: not those written in it (R236). -/
def Ctx.rkReady (x : Ctx) (n gt : Nat) : Nat :=
  let new := mapGet (0, 0) x.rkAt n
  rkHeld (x.rp n) - (if new.1 = gt then new.2 else 0)

/-- The panel bytes of a rack, and the first Loop byte of panel `n`. -/
def panelLen (cfg : Word) : Nat := 64 * rkPanl cfg
def panelOff (cfg : Word) (n : Nat) : Nat := 64 * (rkBase cfg + n % rkCap cfg * rkPanl cfg)

/-- A latch of a routine refers to a panel. -/
def Routine.latched (r : Routine) (n p : Nat) : Bool :=
  let hit (l : Option PLatch) : Bool := match l with
    | some q => q.rack = n && q.n = p
    | none => false
  hit r.la || hit r.lb

/-- Something still refers to a panel of a rack of a context (R226). -/
def panelUsed (y : Core) (k : CtxId) (n p : Nat) : Bool :=
  (match y.rt with
   | some r => r.cmd.ctx = k && r.latched n p
   | none => false) ||
  (match (y.ctx k).susp with
   | some r => r.latched n p
   | none => false) ||
  y.shrs.any (fun d => d.ctx == k && d.rack == n && d.n == p)

/-- A slot for panel TAIL of a rack is free (R226). -/
def slotFree (s : State) (c : CoreId) (k : CtxId) (n : Nat) : Bool :=
  let x := s.ctx c k
  let cap := rkCap (x.rk n)
  let t := rkTail (x.rp n)
  let held := (t + 2 ^ 32 - rkHead (mapGet 0 x.ck.rkptr n)) % 2 ^ 32
  held < cap && !(panelUsed (s.core c) k n ((t + 2 ^ 32 - cap) % 2 ^ 32))

/-- The Loop bytes of panel `n` of a rack. -/
def panelBytes (s : State) (c : CoreId) (cfg : Word) (n : Nat) : List Byte :=
  s.bytesAt 0 (loopKey c (panelOff cfg n)) (panelLen cfg)

/-- Panel `n` of a rack as a piece of the Loop. -/
def panelSeg (c : CoreId) (cfg : Word) (n : Nat) : Seg := { key := loopKey c (panelOff cfg n), len := panelLen cfg }

/-- A panel lies in the footprint of a context's task (R239). -/
def panelInFp (x : Ctx) (cfg : Word) (n : Nat) : Bool := inFp x.fpUnit x.fpCnt (panelOff cfg n) (panelLen cfg)

/-- The source descriptor record of a rack (R227). -/
def sdpOff (cfg : Word) : Nat := 64 * wbits cfg 48 15

/-! ## The microprogram fault (R235, R368) -/

/-- CAUSE of a microprogram fault. -/
def microCause (m : MCmd) (pc : Nat) : Nat :=
  match m.op with
  | .mcall idx => idx + pc % 4096 * 256
  | .mwr _ _ => 2 ^ 20
  | .macz _ _ => 0
  | .mst _ _ _ _ _ => 2 ^ 21

/-- DETAIL of a breach. -/
def breachDetail (kind : Nat) : Word := BitVec.ofNat 64 (2 ^ 63 + kind)

/-- The sequencer drops a command that stops at a fault. Its drains and transfers in the background are dropped with it, unwritten: the
spec says only that the routine stops (DESIGN CHOICE, log 75). -/
def Core.stopMatrix (y : Core) (m : MCmd) : Core :=
  { y with
    rt := match y.rt with
      | some r => if r.cmd.id = m.id then none else some r
      | none => none,
    drains := y.drains.filter (fun d => d.cmd != m.id), shrs := y.shrs.filter (fun d => d.cmd != m.id) }

/-- A microprogram fault of a command: the sequencer drops the command, whose token keeps its producer, and the task
takes the fault; a task that has ended gives its record alone. What the routine still had under way in the background, drains and
`mo.shr` transfers, is dropped unwritten (DESIGN CHOICE, log 75). -/
def State.microFault (s : State) (c : CoreId) (m : MCmd) (pc : Nat) (detail : Word) : State :=
  let t : Trap := { code := fMicro, cause := microCause m pc, detail := detail }
  let s1 := s.updCore c (·.stopMatrix m)
  let x := s1.ctx c m.ctx
  if x.st = .ended || x.st = .free then s1.report (tileOf c) false (ctxRec s1 c x 10 m.pc t) else s1.coreFault c m.ctx 10 m.pc t

/-- A microprogram fault, found in the state before: while a rerun pair of its context begins, the sequencer stays there (R268). -/
def State.microTake (s1 before : State) (c : CoreId) (m : MCmd) (pc : Nat) (detail : Word) : State :=
  if pairDue before c m.ctx then before else s1.microFault c m pc detail

/-- A command reads Loop bytes of a unit marked bad: the uncorrectable-data fault of its task (R283). The command stands where it is
and reads again; where its task has ended it stops, and its record alone goes out (log 75). -/
def State.matrixBad (s : State) (c : CoreId) (m : MCmd) (segs : List Seg) : State :=
  let x := s.ctx c m.ctx
  let t : Trap := { code := fUncorr, detail := Config.freeWord s.fresh, addr := badAddr s c segs, flg := 16 }
  if x.faults then s.bump.coreFault c m.ctx 10 m.pc t
  else (s.updCore c (·.stopMatrix m)).bump.report (tileOf c) false (ctxRec s c x 10 m.pc { t with flg := 24 })

/-! ## X syllables (R217-R221, R229) -/

/-- Queue a matrix command: it takes an entry and records its producers (R217). -/
def queueMatrix (op : Ctx → MOp) (pois : Ctx → Bool) (ptok : Tok) (cons : List Tok) (s : State) : Out :=
  match s.cur with
  | .core c k =>
    let x := s.ctx c k
    if pois x then .next (s.raise { code := fLate })
    else if 8 ≤ ((s.core c).matrixOf k).length then .next (s.raise { code := fQueue, cause := 7 })
    else if 63 ≤ (x.hart.tok ptok).p then .next (s.raise { code := fQueue, cause := 2 })
    else
      let waits := s.prodsOf (x.owner c) cons
      let (s1, id) := s.newProd (x.owner c) ptok false true
      let m : MCmd := { id := s1.fresh, ctx := k, pc := x.hart.bpc, op := op x, prod := id, waits := waits, mp := x.mp,
                        fr := x.hart.fr }
      .next ((s1.updCtx c k (fun y => { y with hart := y.hart.addProd ptok })).updCore c (fun y =>
        { y with mq := y.mq ++ [m] })).bump
  | _ => .next s

/-- The register after another. -/
def nextReg (r : Reg) : Reg := Fin.ofNat 64 (r.val + 1)

/-- Two operand registers are poisoned. -/
def pairPois (ss : Reg) (x : Ctx) : Bool := x.hart.sPois ss || x.hart.sPois (nextReg ss)

def execMcall (idx : BitVec 8) (ptok : Tok) (cons : List Tok) (s : State) : Out :=
  queueMatrix (fun _ => .mcall idx.toNat) (fun _ => false) ptok cons s

def execMwr (ss : Reg) (ptok : Tok) (cons : List Tok) (s : State) : Out :=
  queueMatrix (fun x => .mwr (x.hart.rs ss) (x.hart.rs (nextReg ss))) (pairPois ss) ptok cons s

def execMacz (plane : Bool) (int : Bool) (ptok : Tok) (cons : List Tok) (s : State) : Out :=
  queueMatrix (fun _ => .macz plane int) (fun _ => false) ptok cons s

def execMst (plane : Bool) (okind : BitVec 4) (rm : BitVec 3) (ss : Reg) (ptok : Tok) (cons : List Tok) (s : State) : Out :=
  queueMatrix (fun x => .mst plane okind (drainMode rm x.hart.fr) (x.hart.rs ss) (x.hart.rs (nextReg ss))) (pairPois ss)
    ptok cons s

/-- `mpw` writes its parameter register at issue (R218), and joins the event stream of a rerun pair (R285). -/
def execMpw (n : MReg) (ss : Reg) (s : State) : Out :=
  onCtx s (fun x => needClean (x.hart.sPois ss)
    (let v := x.hart.rs ss
     .ok ({ x with mp := mapSet x.mp n.val v }.event (bytesOf 2 (0x400 + n.val) ++ bytesOf 8 v.toNat ++ [0]))))

def execMpr (sd : Reg) (n : MReg) (s : State) : Out :=
  onCtx s (fun x => .ok { x with hart := x.hart.outS 2 sd (x.rmp n.val) false })

/-- MQ status (R219). -/
def mqStatus (y : Core) (k : CtxId) : Word :=
  let n := (y.matrixOf k).length
  BitVec.ofNat 64 ((if n = 0 then 0 else 16) + (8 - n))

def execMprMq (sd : Reg) (s : State) : Out :=
  match s.cur with
  | .core c k => onCtx s (fun x => .ok { x with hart := x.hart.outS 2 sd (mqStatus (s.core c) k) false })
  | _ => .next s

/-! ## Starting a command (R217, R221, R222, R229) -/

/-- Word `w` of a context's window. -/
def windowWord (y : Core) (x : Ctx) (w : Nat) : Word := mapGet 0 y.mstore (x.msbase + w)

/-- The Loop pieces of the rows of a drain, or the breach kind (R229, R239). -/
def drainSegs (s : State) (c : CoreId) (x : Ctx) (al len : Nat) : Option CoreId → List Nat → Except Nat (List Seg)
  | _, [] => .ok []
  | home, ea :: l =>
    let go (t : CoreId) (off : Nat) : Except Nat (List Seg) :=
      if 2 ^ 21 < off + len || ea % al != 0 || (home.getD t) != t then .error 9
      else if !(fpAllows s c x t off len) then .error 14
      else
        match drainSegs s c x al len (some t) l with
        | .error k => .error k
        | .ok r => .ok ({ key := loopKey t off, len := len } :: r)
    match windowOf ea with
    | .loop off => go c off
    | .cluster n off => go (peerOf c n) off
    | _ => .error 9

/-- Start a drain of a plane to Loop rows, at the gt given: its bytes are taken, the plane cleared with CLR, its flags kept; or its
breach. -/
def State.startDrain (s : State) (c : CoreId) (m : MCmd) (plane : Bool) (okind : BitVec 4) (mu : RM) (base rstr : Nat)
    (clr : Bool) (rows cols : Option (List W32)) (start : Nat) : Except Nat (State × Fl) :=
  let x := s.ctx c m.ctx
  let p := x.plane plane
  match kindOf okind.toNat with
  | none => .error 8
  | some k =>
    if !okindFor p k then .error 8
    else
      let len := rowBytes k 96
      match drainSegs s c x (vecAlign k) len none ((fromTo 0 128).map (fun i => (base + i * rstr) % 2 ^ 64)) with
      | .error b => .error b
      | .ok segs =>
        let (bs, fl) := drainBytes p k mu rows cols
        let d : Drain := { cmd := m.id, ctx := m.ctx, plane := plane, segs := segs, bytes := bs.flatMap (fun r => r), rack := none,
                           endGt := start + 128 }
        .ok (((s.updCtx c m.ctx (fun y => y.setPlane plane m.comm (p.cleared clr))).updCore c (fun y =>
          { y with drains := y.drains ++ [d] })), fl)

/-- The oldest command that may start: of the commands in issue order, the first of a context without a suspended
routine, when its recorded producers have completed (R217, R234). -/
def nextMatrix (s : State) (c : CoreId) : Option MCmd :=
  match (s.core c).mq.find? (fun m => ((s.core c).ctx m.ctx).susp.isNone) with
  | some m => if s.prodsDone m.waits then some m else none
  | none => none

/-- The entry-table entry of a routine, if it is valid and in the window (R220, R222). -/
def entryOf (y : Core) (x : Ctx) (idx : Nat) : Option Nat :=
  let w := windowWord y x (64 * x.etab + idx / 4)
  let e := wbits w (16 * (idx % 4)) 16
  if 2 ^ 15 ≤ e && e % 4096 < x.mslen then some (e % 4096) else none

/-- The Loop bytes that `mwr` reads. -/
def mwrSegs (c : CoreId) (m : MCmd) : List Seg :=
  match m.op with
  | .mwr a o =>
    (match windowOf a.toNat with
     | .loop l => [{ key := loopKey c l, len := 8 * wbits o 12 13 }]
     | _ => [])
  | _ => []

/-- `mwr` (R221): words from the Loop into the window, or a breach. -/
def State.mwrRun (s : State) (c : CoreId) (m : MCmd) (a o : Word) : Except Nat State :=
  let x := s.ctx c m.ctx
  let off := wbits o 0 12
  let n := wbits o 12 13
  match windowOf a.toNat with
  | .loop l =>
    if n = 0 || x.mslen < off + n || l % 8 != 0 || 2 ^ 21 < l + 8 * n then .error 4
    else if !(inFp x.fpUnit x.fpCnt l (8 * n)) then .error 14
    else
      let ws := (fromTo 0 n).map (fun i => BitVec.ofNat 64 (leNat (s.bytesAt 0 (loopKey c (l + 8 * i)) 8)))
      .ok (s.updCore c (fun y => { y with mstore := storeWords y.mstore (x.msbase + off) ws }))
  | _ => .error 4

/-- The command in execution, put beside the state. -/
def State.setRt (s : State) (c : CoreId) (r : Option Routine) : State := s.updCore c (fun y => { y with rt := r })

/-- Start a command (R222). -/
def State.startMatrix (s : State) (c : CoreId) (m : MCmd) : State :=
  let s0 := s.updCore c (fun y => { y with mq := y.mq.filter (fun q => q.id != m.id) })
  let r : Routine := { cmd := m, mp := m.mp, started := true, busy := s.gt + 1 }
  let x := s.ctx c m.ctx
  match m.op with
  | .mcall idx =>
    match entryOf (s.core c) x idx with
    | none => (s0.setRt c (some r)).microTake s c m 0 (breachDetail 1)
    | some pc => s0.setRt c (some { r with pc := pc })
  | .mwr a o =>
    match s0.mwrRun c m a o with
    | .error k => (s0.setRt c (some r)).microTake s c m 0 (breachDetail k)
    | .ok s1 => if readsBad s (mwrSegs c m) then s.matrixBad c m (mwrSegs c m)
                else s1.setRt c (some { r with busy := s.gt + 1 + (wbits o 12 13 + 7) / 8, ended := true })
  | .macz p int => (s0.updCtx c m.ctx (fun y => y.setPlane p m.comm (zeroPlane int))).setRt c (some { r with ended := true })
  | .mst p okind mu a o =>
    match s0.startDrain c m p okind mu a.toNat (wbits o 0 16) (o.getLsbD 16) none none (s.gt + 1) with
    | .error k => (s0.setRt c (some r)).microTake s c m 0 (breachDetail k)
    | .ok (s1, fl) => s1.setRt c (some { r with fl := fl, ended := true })

/-- The core of an event with a core operand: the sequencer in execution, or the operand. -/
def State.argCore (s : State) : CoreId :=
  match s.cur with
  | .seq c => c
  | .core c _ => c
  | _ => s.arg.core

/-- The gang of a context's task runs or is about to start: a suspended routine resumes (R234, R275). -/
def gangGoes (s : State) (x : Ctx) : Bool :=
  match s.gang x.gang.toNat with
  | some g => g.st != .ready
  | none => false

/-- A routine that its gang's stop suspended goes on, its gang running again and no other context's drain under way (R234, R236). -/
def State.resumeSusp (s : State) (c : CoreId) : List CtxId → Option State
  | [] => none
  | k :: l =>
    let x := s.ctx c k
    match x.susp with
    | some r => if gangGoes s x && (s.core c).drains.all (·.ctx == k) then some ((s.updCtx c k (fun y => { y with susp := none })).setRt c (some { r with busy := s.gt }))
                else s.resumeSusp c l
    | none => s.resumeSusp c l

/-- A queued matrix command starts when the sequencer is free, a suspended routine before any other (R217, R222, R234); no other
starts while the drain of a suspended one goes on (R236). -/
def execMatrixCommandStart (s : State) : Out :=
  let c := s.argCore
  match (s.core c).rt with
  | some _ => .next s
  | none =>
    match s.resumeSusp c [0, 1, 2] with
    | some s1 => .next s1
    | none =>
      match nextMatrix s c with
      | none => .next s
      | some m => if (s.core c).drains.isEmpty then .next (s.startMatrix c m) else .next s

/-! ## Completion (R222, R232) -/

/-- The flags of a command come back, to be set with the results of the next issue cycle: in both copies for committed work (R63, R64,
R222). -/
def Ctx.matrixFlags (x : Ctx) (m : MCmd) (fl : Fl) : Ctx :=
  { x with flq := x.flq ++ [{ slot := 10, pc := m.pc, fl := fl, due := 0, both := m.comm }] }

/-- The command in execution has ended and its drains have finished. -/
def rtDone (s : State) (c : CoreId) (r : Routine) : Bool :=
  r.ended && r.busy ≤ s.gt && !((s.core c).drains.any (fun d => d.cmd == r.cmd.id))

/-- The command in execution completes: it leaves the queue and its token loses its producer. -/
def State.endMatrix (s : State) (c : CoreId) (r : Routine) : State :=
  ((s.setRt c none).updCtx c r.cmd.ctx (fun x => x.matrixFlags r.cmd r.fl)).endProd r.cmd.prod

/-- The command runs a routine. -/
def MCmd.isCall (m : MCmd) : Bool :=
  match m.op with
  | .mcall _ => true
  | _ => false

/-- The command in execution completes, if it is of the sort given and done. -/
def matrixEnd (call : Bool) (s : State) : Out :=
  let c := s.argCore
  match (s.core c).rt with
  | some r => if r.cmd.isCall == call && rtDone s c r then .next (s.endMatrix c r) else .next s
  | none => .next s

def execMatrixCommandComplete (s : State) : Out := matrixEnd false s
def execRoutineComplete (s : State) : Out := matrixEnd true s

/-- A finished drain: its bytes are in the Loop, or a panel is at the tail of its rack (R226, R229). -/
def State.finishDrain (s : State) (c : CoreId) (d : Drain) : State :=
  let s1 := s.updCore c (fun y => { y with drains := y.drains.filter (fun e => e != d) })
  let s2 := s1.writeSegs (.cell (tileOf c)) (tileOf c) d.segs d.bytes
  match d.rack with
  | none => s2
  | some n =>
    let comm := match (s.core c).rt with
      | some r => r.cmd.id != d.cmd || r.cmd.comm
      | none => true
    s2.updCtx c d.ctx (fun x => x.pushTail n comm s.gt)

/-- The oldest drain of the core ends, when its time has come; a halt freezes it (R355). -/
def execDrainComplete (s : State) : Out :=
  let c := s.argCore
  match (s.core c).drains with
  | [] => .next s
  | d :: _ => if d.endGt ≤ s.gt && !(s.core c).halted then .next (s.finishDrain c d) else .next s

/-! ## Shared panels (R231) -/

/-- What a receiver does with a copy. -/
inductive ShrRes where
  | write
  | drop
  | wait
  | bad (kind : Nat)
deriving DecidableEq, Repr

/-- The resident context of a gang's live member on a core. -/
def peerCtx (s : State) (g : Nat) (t : CoreId) : Option CtxId :=
  match s.member g t with
  | some m => match m.st with
    | .resident k => some k
    | _ => none
  | none => none

/-- A read-only rack takes the sender's descriptor record with the first panel of a stream (R227, R231). -/
def shrRecord (s : State) (t : CoreId) (k : CtxId) (rack : Nat) : Bool :=
  let x := s.ctx t k
  let cfg := x.rk rack
  cfg.getLsbD 63 && (leNat (s.bytesAt 0 (loopKey t (sdpOff cfg + 28)) 4) != 1 || rkTail (x.rp rack) == rkHead (mapGet 0 x.ck.rkptr rack))

/-- A receiver's handling of panel `n`: the panel, and a record with it, must lie in its footprint (R226, R231, R239). -/
def shrCheck (s : State) (t : CoreId) (k : CtxId) (rack n : Nat) : ShrRes :=
  let x := s.ctx t k
  let cfg := x.rk rack
  let tail := rkTail (x.rp rack)
  if (n + 2 ^ 32 - tail) % 2 ^ 32 = 0 then
    if !(panelInFp x cfg tail) || (shrRecord s t k rack && !(inFp x.fpUnit x.fpCnt (sdpOff cfg) 64)) then .bad 14
    else if slotFree s t k rack then .write
    else .wait
  else if 2 ^ 31 ≤ (n + 2 ^ 32 - tail) % 2 ^ 32 then .drop
  else .bad 12

/-- The panel number lies above the TAIL that a receiver's rack will have once the core's transfers under way have reached
it (R231). -/
def shrAhead (s : State) (c : CoreId) (g rack n : Nat) (t : CoreId) : Bool :=
  match peerCtx s g t with
  | none => false
  | some k =>
    let tail := (s.core c).shrs.foldl (fun (m : Nat) (d : Shr) =>
      if d.drack = rack && d.cores.contains t && d.n = m then (m + 1) % 2 ^ 32 else m) (rkTail ((s.ctx t k).rp rack))
    let d := (n + 2 ^ 32 - tail) % 2 ^ 32
    0 < d && d < 2 ^ 31

/-- The static checks of a named receiver (R226, R231). -/
def shrStatic (s : State) (c : CoreId) (g : Nat) (cfg : Word) (rack : Nat) (t : CoreId) : Option Nat :=
  if t = c then some 11
  else
    match s.member g t with
    | none => some 11
    | some m =>
      if !m.live then some 11
      else
        match peerCtx s g t with
        | none => none
        | some k =>
          let d := (s.ctx t k).rk rack
          if rkCap d = 0 || rackSelf d then some 10
          else if rkPanl d != rkPanl cfg then some 7
          else if d.getLsbD 63 && !cfg.getLsbD 63 then some 11
          else none

/-- A receiver takes a panel at its tail, and a record with it (R227, R231). -/
def State.shrWrite (s : State) (c : CoreId) (scfg : Word) (n : Nat) (t : CoreId) (k : CtxId) (rack : Nat) (bs : List Byte) : State :=
  let x := s.ctx t k
  let cfg := x.rk rack
  let tail := rkTail (x.rp rack)
  let s1 := s.putBytes (tileOf t) 0 (loopKey t (panelOff cfg tail)) bs
  let s2 := if shrRecord s t k rack then
      let src := s.bytesAt 0 (loopKey c (sdpOff scfg)) 64
      let first := (leNat ((src.drop 24).take 4) + tail + 2 ^ 32 - n) % 2 ^ 32
      s1.putBytes (tileOf t) 0 (loopKey t (sdpOff cfg)) (src.take 24 ++ bytesOf 4 first ++ src.drop 28)
    else s1
  s2.updCtx t k (fun y => y.pushTail rack false s.gt)

/-- The breach of a receiver, if there is one. -/
def shrBreach (s : State) (g rack n : Nat) (ts : List CoreId) : Option Nat :=
  (ts.filterMap (fun t => match peerCtx s g t with
    | none => none
    | some k => match shrCheck s t k rack n with
      | .bad b => some b
      | _ => none)).head?

/-- Deliver a transfer to its receivers. -/
def State.shrDeliver (s : State) (c : CoreId) (d : Shr) (scfg : Word) (g : Nat) : List CoreId → State
  | [] => s
  | t :: l =>
    match peerCtx s g t with
    | none => s.shrDeliver c d scfg g l
    | some k =>
      match shrCheck s t k d.drack d.n with
      | .write => (s.shrWrite c scfg d.n t k d.drack d.bytes).shrDeliver c d scfg g l
      | _ => s.shrDeliver c d scfg g l

/-- Some receiver has no free slot yet, or is not resident (R231). -/
def shrWaits (s : State) (g : Nat) (rack n : Nat) (ts : List CoreId) : Bool :=
  ts.any (fun t => match peerCtx s g t with
    | none => true
    | some k => shrCheck s t k rack n == .wait)

/-- The oldest shared-panel transfer of the core ends: a receiver that it may not reach faults it in the sender before anything is
written (R231, R239). -/
def execShrTransferComplete (s : State) : Out :=
  let c := s.argCore
  match (s.core c).shrs with
  | [] => .next s
  | d :: rest =>
    let x := s.ctx c d.ctx
    let g := x.gang.toNat
    if s.gt < d.endGt || (s.core c).halted || shrWaits s g d.drack d.n d.cores then .next s
    else
      let s1 := s.updCore c (fun y => { y with shrs := rest })
      match shrBreach s g d.drack d.n d.cores with
      | some b => .next (s1.microTake s c d.mcmd d.pc (breachDetail b))
      | none => .next (s1.shrDeliver c d (x.rk d.rack) g d.cores)

end Sys2Proof.Machine
end

