-- ==== Sys2Proof/Machine/Fabric.lean ====
section
/-! DEFINITION. Machine/Fabric.lean: circuits: widths and wavelengths, the transport, the F syllables, and the events of
flits, lasers, rings and links (R290-R295, R302-R320, R352). -/

namespace Sys2Proof.Machine

/-! ## Wavelengths and widths (R291, R292, R315) -/

/-- The wavelengths that wake at a port and are not locked. -/
def Port.wakingMask (p : Port) : BitVec 8 := p.waking.foldl (fun m w => m ||| (1#8 <<< w.lam.val)) 0

/-- The wavelengths of a mask that are active from a source port to a destination port. -/
def activeOf (s : State) (srcp dstp : Nat) (mask : BitVec 8) : BitVec 8 :=
  let a := s.port srcp
  mask &&& ~~~(a.parked ||| a.failed ||| a.wakingMask ||| (s.port dstp).failedR)

/-- The flit of a circuit that went out last has not ended (R292). -/
def Hnd.sending (gt : Nat) (h : Hnd) : Bool := 1000 * gt < h.wireEnd

/-- The wavelengths that a circuit uses: a change waits for the next flit boundary (R292, R315, R316). -/
def effOf (s : State) (h : Hnd) : BitVec 8 := if h.sending s.gt then h.eff else activeOf s h.srcp h.dstp h.mask

/-- The ones of a wavelength mask. -/
def ones8 (m : BitVec 8) : Nat := ((fromTo 0 8).filter (fun i => m.getLsbD i)).length

/-- The width of a circuit. -/
def widthH (s : State) (h : Hnd) : Nat := ones8 (activeOf s h.srcp h.dstp h.mask)

/-- A light path stands: SETTLING or LIVE. -/
def Hnd.lit (h : Hnd) : Bool := h.st == .settling || h.st == .live

/-- The handle has been BROKEN, under a pending MAKE or not. -/
def Hnd.brokenB (h : Hnd) : Bool := h.st == .broken || (h.st == .scheduled && h.base == .broken)

/-! ## Fabric events (R318) -/

/-- The tile of a port (R290): a boundary port lies at the first tile of its reticle. -/
def portTile (p : Nat) : TileId := Fin.ofNat 16 (if p < 256 then p / 16 else (p - 256) / 16 * 4)

/-- The tile of an endpoint, if it lies in this package (R294). -/
def endTile (ep : Nat) : Option TileId :=
  if ep < 512 then some (tileOf (Fin.ofNat 512 ep)) else if ep = 0x3FF then none else some (Fin.ofNat 16 (ep % 16))

/-- Report a fabric event by the table of a tile. -/
def State.fabricRec (s : State) (t : TileId) (code cause : Nat) (detail : Word) (asid : Nat) (gang : Word) (pc : Nat) : State :=
  s.report t false (mkRec code 5 0xFF 0 0xFFFF asid 0 gang pc 0 s.gt 0 cause detail)

/-- The tile that routes a handle's event: its source endpoint's, or its slot's. -/
def hndTile (s : State) (h : Hnd) : TileId :=
  match endTile h.sep with
  | some t => t
  | none => match h.slot with
    | some n => (s.slot n).tile
    | none => 0

/-- Report an event of a handle. -/
def State.hndRec (s : State) (n : Handle) (code : Nat) (detail : Word) : State :=
  let h := s.hnd n
  s.fabricRec (hndTile s h) code n.val detail h.asid h.gang 0

/-! ## Sequence numbers (R302, R304) -/

/-- a is before b modulo 2^32, within 2^31. -/
def seqBefore (a b : Nat) : Bool :=
  let d := (b + 2 ^ 32 - a) % 2 ^ 32
  0 < d && d < 2 ^ 31

def seqAdd (a n : Nat) : Nat := (a + n) % 2 ^ 32

/-- LIMIT − NEXT, clipped (R311). -/
def Hnd.credit (h : Hnd) : Nat :=
  let d := (h.limit + 2 ^ 32 - h.next) % 2 ^ 32
  if 2 ^ 31 ≤ d then 0 else min d 1024

/-- Unacknowledged flits in the retransmit store of a port (R305). -/
def storeUsed (s : State) (port : Nat) : Nat :=
  (s.handles.map (fun (p : Nat × Hnd) => if p.2.srcp = port then p.2.unacked.length else 0)).foldl (· + ·) 0

/-! ## Life and death of a handle (R293, R297, R299, R317) -/

/-- A handle leaves SETTLING or LIVE for a state; under a pending MAKE it becomes SCHEDULED. Nothing goes out any more. -/
def Hnd.fall (h : Hnd) (st : HSt) : Hnd :=
  { h with st := if h.nxt.isSome then .scheduled else st, base := st, wire := [], wireEnd := 0, dying := 0 }

/-- The whole messages at the front of a queue: a partial one is dropped (R317). -/
def wholeOnly (l : List Flit) : List Flit := (l.reverse.dropWhile (fun f => !f.lastf)).reverse

/-- A handle dies: its unacknowledged data is dropped, partial messages are not delivered, and 0x33 is reported. -/
def State.dieHandle (s : State) (n : Handle) (detail : Nat) : State :=
  (s.updHnd n (fun h => { h.fall .dead with unacked := [], rq := wholeOnly h.rq })).hndRec n 0x33 (BitVec.ofNat 64 detail)

/-! ## Sending (R305, R309) -/

/-- A flit that leaves the package: 64 payload bytes and the 16-byte header, sealed when the circuit is encrypted (R302, R352). -/
def sealFlit (h : Hnd) (n : Handle) (f : Flit) : List Byte :=
  let hdr := bytesOf 4 f.sq ++ bytesOf 1 (f.gen + (if f.isRed then 96 else 0)) ++ bytesOf 1 n.val ++
    bytesOf 1 ((if f.lastf then 1 else 0) + (if f.spl then 2 else 0)) ++ bytesOf 1 h.ver ++ bytesOf 2 f.sbits.toNat ++ [0, 0]
  match h.key with
  | some k =>
    let z := Config.gcmSeal k (bytesOf 4 f.sq ++ bytesOf 1 n.val ++ bytesOf 1 f.gen ++ bytesOf 6 0) hdr f.data
    z.take 64 ++ hdr ++ z.drop 64
  | none => f.data ++ hdr ++ bytesOf 4 (crc32 (hdr ++ f.data)).toNat

/-- A flit that the transport itself sends to another package: HELLO 1, ACK 2, NACK 3, STALE 4, CREDIT 5 (R302, R304-R307). -/
def ctlFlit (h : Hnd) (n : Handle) (type sq ver : Nat) : List Byte :=
  let hdr := bytesOf 4 sq ++ bytesOf 1 (h.g % 16 + 16 * type) ++ bytesOf 1 n.val ++ [0] ++ bytesOf 1 ver ++ [0, 0, 0, 0]
  List.replicate 64 0 ++ hdr ++ bytesOf 4 (crc32 (hdr ++ List.replicate 64 0)).toNat

/-- What each active wavelength carries of a flit, in ascending order: byte `j` goes to the one at `j` mod w, unused positions are zero
(R292). -/
def stripe (act : BitVec 8) (bs : List Byte) : List (Nat × List Byte) :=
  let ls := (fromTo 0 8).filter (fun i => act.getLsbD i)
  let w := ls.length
  ls.mapIdx (fun i l => (l, (fromTo 0 ((bs.length + w - 1) / w)).map (fun j => bs.getD (j * w + i) 0)))

/-- A flit goes out to another package. -/
def State.outFlit (s : State) (n : Handle) (bs : List Byte) : State := s.out (.event "FLIT" [n.val, leNat bs])

/-- The transport takes some flits: those whose SEQ has not been transmitted before go out and are kept until they
are acknowledged (R305, R313, R352). -/
def State.transmit (s : State) (n : Handle) (fs : List Flit) : State :=
  let h := s.hnd n
  let new := (fs.filter (fun f => !seqBefore f.sq h.sentTo)).map (fun f => { f with at_ := s.gt })
  let upto := match new.getLast? with
    | some f => seqAdd f.sq 1
    | none => h.sentTo
  s.updHnd n (fun h => { h with unacked := h.unacked ++ new, sentTo := upto, wire := h.wire ++ new.map (·.sq) })

/-- The sender sends again from the oldest unacknowledged flit (R304). -/
def Hnd.resend (gt : Nat) (h : Hnd) : Hnd :=
  { h with unacked := h.unacked.map (fun f => { f with at_ := gt }), wire := h.unacked.map (·.sq) }

/-- Thousandths of a gt that a flit takes at a width (R292). -/
def flitTime (w : Nat) : Nat := (80 + w - 1) / w * 64

/-- What goes out next on a circuit: a flit of the link replay in progress, or the transport's next (R303). -/
def nextOut (p : Port) (n : Handle) (h : Hnd) : Option (Nat × Bool) :=
  match p.replay.find? (fun e => e.1 == n.val) with
  | some e => some (e.2, true)
  | none => h.wire.head?.map (fun q => (q, false))

/-- A flit of a circuit goes out to another package, and its wavelengths carry it (R292). -/
def State.outLight (s : State) (n : Handle) (act : BitVec 8) (bs : List Byte) : State :=
  (stripe act bs).foldl (fun s (p : Nat × List Byte) => s.out (.event "LIGHT" [n.val, p.1, leNat p.2])) (s.outFlit n bs)

/-- A flit starts at a time, on the wavelengths active then: it enters the replay buffer of its port, and one for another package goes
out (R292, R303). -/
def State.startFlit (s : State) (n : Handle) (q : Nat) (again : Bool) (now : Nat) (act : BitVec 8) : State :=
  let h := s.hnd n
  let p := s.port h.srcp
  let p1 := if again then { p with replay := p.replay.erase (n.val, q) }
            else { p with buf := let b := p.buf ++ [(n.val, q)]; b.drop (b.length - 128) }
  let s1 := (s.setPort h.srcp p1).updHnd n (fun h =>
    { h with eff := act, wireEnd := now + flitTime (ones8 act), wire := if again then h.wire else h.wire.drop 1 })
  match h.unacked.find? (fun f => f.sq == q) with
  | some f => if h.dep = 0x3FF && mapHas s.links (h.dstp - 256) then s1.outLight n act (sealFlit h n f) else s1
  | none => s1

/-- At a flit boundary a circuit dies that a loss has left with less than width 2 (R292, R317). -/
def State.dieAtFlit (s : State) (n : Handle) : State :=
  let h := s.hnd n
  if h.dying = 0 || 1000 * (s.gt + 1) ≤ h.wireEnd then s
  else if h.lit && widthH s h < 2 then s.dieHandle n h.dying
  else s.updHnd n (fun h => { h with dying := 0 })

/-- A flit of the transport's own, a HELLO, takes its flit time on the wavelengths of its circuit (R292, R306). -/
def State.ownFlit (s : State) (n : Handle) (bs : List Byte) : State :=
  let h := s.hnd n
  let act := activeOf s h.srcp h.dstp h.mask
  let s1 := s.updHnd n (fun h => { h with eff := act, wireEnd := 1000 * s.gt + flitTime (ones8 act) })
  if h.dep = 0x3FF then s1.outLight n act bs else s1

/-- The flits of a circuit that start in this gt: three at most. -/
def State.pumpHnd (s : State) (n : Handle) : Nat → State
  | 0 => s
  | fuel + 1 =>
    let h := s.hnd n
    let now := max h.wireEnd (1000 * s.gt)
    let act := activeOf s h.srcp h.dstp h.mask
    if h.st == .live && now < 1000 * (s.gt + 1) && act != 0 then
      match nextOut (s.port h.srcp) n h with
      | some (q, again) => (s.startFlit n q again now act).pumpHnd n fuel
      | none => s
    else s

/-- A receiver reports its committed head to a sender in another package when it has moved (R305). -/
def State.creditOut (s : State) (n : Handle) : State :=
  let h := s.hnd n
  if h.sep = 0x3FF && h.lit && h.headCk != h.credAt then
    (s.outFlit n (ctlFlit h n 5 h.headCk h.ver)).updHnd n (fun h => { h with credAt := h.headCk })
  else s

/-- The light paths in one gt: circuits too narrow die at their flit boundary, flits go out, and credit goes back; in the Safe Talkative
State the lasers are off (R365). -/
def State.pump (s : State) : State :=
  if s.safe then s else
  s.handles.foldl (fun s (p : Nat × Hnd) => (((s.dieAtFlit (Fin.ofNat 256 p.1)).pumpHnd (Fin.ofNat 256 p.1) 3).creditOut (Fin.ofNat 256 p.1))) s

/-- What a `snd` or a `rcv` comes to. -/
inductive FRes where
  | done (s : State)
  | stall
  | fault (t : Trap)

/-- The no-live-circuit fault (R318). -/
def noLive (cause : Nat) (n : Handle) : FRes := .fault { code := fNoLive, cause := cause, detail := BitVec.ofNat 64 n.val }

/-- The flits of a message that carries a register image (R309). -/
def msgFlits (h : Hnd) (img : List Byte) : List Flit :=
  List.zipWith (fun b j => { sq := seqAdd h.next j, gen := h.g, lastf := j == 32, spl := j == 32, isRed := false, data := b,
                             sbits := 0, ok := true : Flit }) (chunks 64 33 img) (fromTo 0 33)

/-- Attempt A of a rerun pair (R285). -/
def Ctx.attemptA (x : Ctx) : Bool :=
  match x.rerun with
  | some r => !r.second
  | none => false

/-- A `snd` of a context (R309): `slot` is the slot of its flag. -/
def sndTry (s : State) (c : CoreId) (k : CtxId) (n : Handle) (img : List Byte) (bd : BReg) (slot : Nat) : FRes :=
  let x := s.ctx c k
  let h := s.hnd n
  let flag (s : State) (full : Bool) : State :=
    s.updCtx c k (fun y => { y with hart := { y.hart with slot := slot }.outB 1 bd full })
  if h.st = .free then noLive 0 n
  else if !isSrc x c h then noLive 1 n
  else if h.st = .broken then noLive 0 n
  else if h.st = .dead then noLive 2 n
  else if h.st != .live && !x.attemptA then .stall
  else if h.key.isSome && 2 ^ 32 ≤ h.next + 33 then
    match (s.dieHandle n (widthH s h)) with
    | s1 => .done { s1.coreFault c k slot x.hart.bpc { code := fNoLive, cause := 2, detail := BitVec.ofNat 64 n.val } with abort := true }
  else if h.credit < 33 || 4096 < storeUsed s h.srcp + 33 then .done (flag s true)
  else
    let s1 := if x.attemptA then s else s.transmit n (msgFlits h img)
    .done (flag (s1.updHnd n (fun h => { h with next := seqAdd h.next 33 })) false)

def execSnd (n : Handle) (vs : Reg) (bd : BReg) (s : State) : Out :=
  match s.cur with
  | .core c k =>
    let x := s.ctx c k
    if x.vPois vs then .next (s.raise { code := fLate })
    else
      match sndTry s c k n (imageOf (x.rv vs)) bd x.hart.slot with
      | .done s1 => .next s1
      | .fault t => .next (s.raise t)
      | .stall => .next (s.setStall (.snd n (imageOf (x.rv vs)) bd x.hart.slot))
  | _ => .next s

/-! ## Receiving (R310) -/

/-- The flits at the head of a queue show themselves to be no message of 33 DATA flits. -/
def badMessage (l : List Flit) : Bool :=
  (List.zipWith (fun (f : Flit) j => f.isRed || (f.lastf != (j == 32))) (l.take 33) (fromTo 0 33)).any (fun b => b)

/-- A `rcv` of a context. -/
def rcvTry (s : State) (c : CoreId) (k : CtxId) (n : Handle) (vd : Reg) (slot : Nat) : FRes :=
  let x := s.ctx c k
  let h := s.hnd n
  if h.st = .free then noLive 0 n
  else if !isDst x c h then noLive 1 n
  else if badMessage h.rq then noLive 3 n
  else if 33 ≤ h.rq.length then
    let cs := ofImage ((h.rq.take 33).flatMap (·.data))
    let s1 := s.updHnd n (fun h => { h with rq := h.rq.drop 33, poppedF := h.poppedF ++ h.rq.take 33, head := seqAdd h.head 33 })
    .done ((s1.logEv 4 n.val).updCtx c k (fun y => { y with hart := { y.hart with slot := slot }.outV 4 vd allSel false cs false [] }))
  else if h.lit || h.st = .scheduled then .stall
  else if h.st = .dead then noLive 2 n
  else noLive 0 n

def execRcv (vd : Reg) (n : Handle) (s : State) : Out :=
  match s.cur with
  | .core c k =>
    match rcvTry s c k n vd (s.ctx c k).hart.slot with
    | .done s1 => .next s1
    | .fault t => .next (s.raise t)
    | .stall => .next (s.setStall (.rcv n vd (s.ctx c k).hart.slot s.gt))
  | _ => .next s

/-! ## Status (R311, R312) -/

/-- The code of a handle state (R293). -/
def HSt.code : HSt → Nat
  | .free => 0 | .scheduled => 1 | .settling => 2 | .live => 3 | .broken => 4 | .dead => 5

/-- The handle is owned by a slot with a task's ASID and gang. -/
def ownedBy (x : Ctx) (h : Hnd) : Bool :=
  let (asid, gang) := match h.st, h.nxt with
    | .scheduled, some m => (m.asid, m.gang)
    | _, _ => (h.asid, h.gang)
  h.st != .free && asid = x.asid.toNat && gang = x.gang

/-- The status word of `cst`. -/
def cstWord (s : State) (x : Ctx) (c : CoreId) (h : Hnd) : Word :=
  let live := h.st == .live
  let act := if live then effOf s h else 0
  BitVec.ofNat 64 ((if isSrc x c h then h.credit * 2 ^ 32 else 0) + (if live then h.ver % 16 * 2 ^ 20 else 0) + h.g % 16 * 2 ^ 16
    + act.toNat * 2 ^ 8 + ones8 act * 16 + h.st.code)

def execCst (sd : Reg) (bd : BReg) (n : Handle) (s : State) : Out :=
  match s.cur with
  | .core c _ =>
    onCtx s (fun x =>
      let h := s.hnd n
      let own := ownedBy x h
      .ok { x with hart := (x.hart.outS 2 sd (if own then cstWord s x c h else 0) false).outB 2 bd (own && h.st == .live) })
  | _ => .next s

/-- Whole messages in a queue, at most 31. -/
def msgCount (l : List Flit) : Nat := min ((l.filter (·.lastf)).length) 31

def execChq (sd : Reg) (bd : BReg) (n : Handle) (s : State) : Out :=
  match s.cur with
  | .core c _ =>
    onCtx s (fun x =>
      let h := s.hnd n
      let mine := isDst x c h
      let w := if mine then msgCount h.rq * 2 ^ 16 + min h.rq.length 1024 else 0
      .ok { x with hart := (x.hart.outS 2 sd (BitVec.ofNat 64 w) false).outB 2 bd (mine && 0 < msgCount h.rq) })
  | _ => .next s

/-! ## The transport's events (R302-R307, R313) -/

/-- The flit that arrives at a handle: one that its sender transmitted, or one from another package. -/
def arriving (s : State) (n : Handle) : Option Flit :=
  let h := s.hnd n
  if h.sep = 0x3FF then s.arg.flit else h.unacked.find? (fun f => f.sq == s.arg.n)

/-- The destination end of a handle lies in this package, and it has been made. -/
def Hnd.here (h : Hnd) : Bool := h.dep != 0x3FF && h.st != .free && h.st != .dead && !(h.st == .scheduled && h.base != .broken)

/-- A mismatched generation is a stale one: G_h is 1 to 7 ahead of it (R307). -/
def staleGen (g gen : Nat) : Bool := 1 ≤ (g + 16 - gen % 16) % 16 && (g + 16 - gen % 16) % 16 ≤ 7

/-- A receiver answers a sender in another package on the reverse direction of the link; one in this package has its answer by events
of their own (R302, R304, R307). -/
def State.answer (s : State) (n : Handle) (type sq : Nat) : State :=
  let h := s.hnd n
  if h.sep = 0x3FF then s.outFlit n (ctlFlit h n type sq h.ver) else s

/-- The link of a light path has acknowledged a flit that arrived whole, and with it those before (R303, R316). -/
def Hnd.linkAck (h : Hnd) (q : Nat) : Hnd := { h with linkTo := if seqBefore q h.linkTo then h.linkTo else seqAdd q 1 }

/-- A flit is taken: it joins the queue when it is the expected one; others are dropped (R304, R305, R307). -/
def State.acceptFlit (s : State) (n : Handle) (f : Flit) : State :=
  let h := s.hnd n
  if !h.here || !f.ok || (h.sep = 0x3FF && h.st != .live) then s
  else if f.gen != h.g then (if staleGen h.g f.gen then s.answer n 4 f.sq else s)
  else if f.sq = h.expect then
    if h.rq.length + h.poppedF.length < 1024 then
      (s.updHnd n (fun h => { h with rq := h.rq ++ [{ f with peer := h.peer }], expect := seqAdd h.expect 1 })).answer n 2 f.sq
    else s
  else if seqBefore f.sq h.expect then s.answer n 2 f.sq
  else s.answer n 3 h.expect

/-- A flit arrives: one with a bad CRC makes the receiving port ask the port of another package for a link replay, within the package by
an event of its own; a good one is acknowledged by the link (R302, R303). -/
def State.takeFlit (s : State) (n : Handle) (f : Flit) : State :=
  let h := s.hnd n
  if !f.ok && h.sep = 0x3FF && h.lit then s.out (.event "LINKREPLAY" [h.srcp, n.val])
  else ((if f.ok then s.updHnd n (·.linkAck f.sq) else s).acceptFlit n f)

/-- A DATA flit arrives. -/
def execDataFlit (s : State) : Out :=
  match arriving s s.arg.handle with
  | some f => if f.isRed then .next s else .next (s.takeFlit s.arg.handle f)
  | none => .next s

/-- A REDUCE flit arrives. -/
def execReduceFlit (s : State) : Out :=
  match arriving s s.arg.handle with
  | some f => if f.isRed then .next (s.takeFlit s.arg.handle f) else .next s
  | none => .next s

/-- A HELLO of a source in another package, or the reply to one sent there, names the highest version of the far side: version 1 is the
only one here, and a HELLO is answered with it (R306). -/
def execHello (s : State) : Out :=
  let n := s.arg.handle
  let h := s.hnd n
  if h.st != .live || !h.hello then .next s
  else if 1 ≤ s.arg.n then
    .next ((if h.sep = 0x3FF then s.outFlit n (ctlFlit h n 1 0 1) else s).updHnd n (fun h => { h with ver := 1, hello := false }))
  else
    .next ((s.hndRec n 0x36 (BitVec.ofNat 64 s.arg.n)).updHnd n (fun h =>
      { h.fall .dead with unacked := [], rq := wholeOnly h.rq, hello := false }))

/-- The receiver has taken every flit up to `q`, when it is in this package. -/
def taken (h : Hnd) (q : Nat) : Bool := h.dep = 0x3FF || seqBefore q h.expect

/-- An ACK reaches the sender: flits up to it leave the store (R304, R305). -/
def execAck (s : State) : Out :=
  let n := s.arg.handle
  let h := s.hnd n
  if taken h s.arg.n then
    let rest := h.unacked.filter (fun f => seqBefore s.arg.n f.sq)
    let moved := rest.length < h.unacked.length
    .next (s.updHnd n (fun h =>
      { (h.linkAck s.arg.n) with unacked := rest, tmo := if moved then 0 else h.tmo, wire := h.wire.filter (fun q => seqBefore s.arg.n q) }))
  else .next s

/-- A NACK reaches the sender: it resends from the oldest unacknowledged flit (R304). -/
def execNack (s : State) : Out := .next (s.updHnd s.arg.handle (·.resend s.gt))

/-- A STALE reply for a SEQ (R307). -/
def execStale (s : State) : Out :=
  let n := s.arg.handle
  let h := s.hnd n
  match h.unacked.find? (fun f => f.sq == s.arg.n) with
  | none => .next s
  | some f =>
    if h.dep != 0x3FF && !(staleGen h.g f.gen) then .next s
    else if h.st = .live then
      let again (h : Hnd) : List Flit := mapWhere (fun g => g.sq == f.sq) (fun g => { g with gen := h.g, at_ := s.gt }) h.unacked
      .next (s.updHnd n (fun h => { h with wire := h.wire ++ [f.sq], unacked := again h }))
    else .next ((s.updHnd n (fun h => { h with unacked := [], wire := [] })).hndRec n 0x34
      (BitVec.ofNat 64 (h.unacked.head?.elim 0 (fun g => g.sq))))

/-- A CREDIT flit reports the receiver's committed head (R305). -/
def execCredit (s : State) : Out :=
  let n := s.arg.handle
  .next (s.updHnd n (fun h =>
    if h.st = .free then h else { h with limit := seqAdd (if h.dep = 0x3FF then s.arg.n else h.headCk) 1024 }))

/-- The oldest unacknowledged flit has waited 2,048 gt: it is resent, and the eighth time the handle dies (R304). -/
def execTransportTimeout (s : State) : Out :=
  let n := s.arg.handle
  let h := s.hnd n
  match h.unacked with
  | [] => .next s
  | f :: _ =>
    if h.st != .live || s.gt < f.at_ + 2048 then .next s
    else if h.tmo = 7 then .next (s.dieHandle n (widthH s h + 16))
    else .next (s.updHnd n (fun h => { h.resend s.gt with tmo := h.tmo + 1 }))

/-- The data that the BREAK of an earlier mapping caught, 2,048 gt after it: it is reported gone (R307). -/
def State.caughtDue (s : State) (n : Handle) : State :=
  match (s.hnd n).caught with
  | [] => s
  | e :: l =>
    if e.gt + 2048 ≤ s.gt then
      (s.updHnd n (fun h => { h with caught := l })).fabricRec e.tile 0x34 n.val (BitVec.ofNat 64 e.seq) e.asid e.gang 0
    else s

/-- 2,048 gt after a BREAK the data it caught is dropped (R307). -/
def execBreakDataDrop (s0 : State) : Out :=
  let n := s0.arg.handle
  let s := s0.caughtDue n
  let h := s.hnd n
  match h.unacked with
  | [] => .next s
  | f :: _ =>
    if h.brokenB && h.brokeAt + 2048 ≤ s.gt then
      .next ((s.updHnd n (fun h => { h with unacked := [] })).hndRec n 0x34 (BitVec.ofNat 64 f.sq))
    else .next s

/-- 160 gt after its MAKE a circuit is LIVE: it sends a HELLO, and data that a BREAK caught under the same endpoints goes
out again under the new generation (R293, R306, R307). -/
def execCircuitLive (s : State) : Out :=
  let n := s.arg.handle
  let h := s.hnd n
  if h.st != .settling || s.gt < h.madeAt + 160 then .next s
  else
    let both := h.sep != 0x3FF && h.dep != 0x3FF
    let s1 := if h.sep != 0x3FF then s.ownFlit n (ctlFlit h n 1 0 1) else s
    .next (s1.updHnd n (fun h => { h with st := .live, hello := !both, ver := if both then 1 else h.ver, tmo := 0,
                                          unacked := h.unacked.map (fun f => { f with gen := h.g, at_ := s.gt }),
                                          wire := h.unacked.map (·.sq) }))

/-- The flits of the replay buffer from one on that went out on the same light path. -/
def Port.from_ (x : Port) (e : Nat × Nat) : List (Nat × Nat) := (x.buf.dropWhile (fun f => f != e)).filter (fun f => f.1 == e.1)

/-- A receiving port asks the transmitting one for a link replay from a damaged flit on: the flits still in its buffer go out again
before any other, at the current width; only timing changes (R303). -/
def execLinkReplayRequest (s : State) : Out :=
  let p := s.arg.port
  let x := s.port p
  let e := (s.arg.handle.val, s.arg.n)
  .next (if x.buf.contains e then s.setPort p { x with replay := x.replay.filter (fun f => f.1 != e.1) ++ x.from_ e } else s)

/-! ## Waking, losing light, and links (R315-R318) -/

/-- A wavelength that was waking locks and joins its circuits. -/
def execWavelengthLock (s : State) : Out :=
  let p := s.arg.port
  let x := s.port p
  if x.waking.any (fun w => w.lam == s.arg.lam && w.lock ≤ s.gt) then
    .next (s.setPort p { x with waking := x.waking.filter (fun w => w.lam != s.arg.lam) })
  else .next s

/-- Wavelengths of a port are lost, in the directions named; a waking one does not join (R316, R320). -/
def Port.lose (x : Port) (m : BitVec 8) (tx rx : Bool) : Port :=
  { x with failed := if tx then x.failed ||| m else x.failed, failedR := if rx then x.failedR ||| m else x.failedR,
           waking := x.waking.filter (fun w => !(tx && m.getLsbD w.lam.val)) }

/-- A loss of light has changed a circuit's wavelengths. -/
def relit (s before : State) (h : Hnd) : Bool := h.lit && activeOf s h.srcp h.dstp h.mask != activeOf before h.srcp h.dstp h.mask

/-- The flits of a circuit's replay buffer from the oldest that the link has not acknowledged on. -/
def Port.since (x : Port) (n linkTo : Nat) : List (Nat × Nat) := (x.buf.filter (fun e => e.1 == n)).dropWhile (fun e => seqBefore e.2 linkTo)

/-- After a loss of light the link replays in progress on the source ports of the circuits affected are aborted, and each such circuit
starts one, at its new width, from the oldest flit that the link has not acknowledged (R316). -/
def State.linkRestart (s before : State) : State :=
  let l := s.handles.filter (fun (p : Nat × Hnd) => relit s before p.2)
  let s1 := l.foldl (fun s (p : Nat × Hnd) => s.setPort p.2.srcp { s.port p.2.srcp with replay := [] }) s
  l.foldl (fun s (p : Nat × Hnd) =>
    let x := s.port p.2.srcp
    s.setPort p.2.srcp { x with replay := x.replay ++ x.since p.1 p.2.linkTo }) s1

/-- Circuits whose width has fallen below 2 die, each with its width before the loss, at their next flit boundary (R292, R317). -/
def State.dieNarrow (s : State) (before : State) : List (Nat × Hnd) → State
  | [] => s
  | (n, h) :: l =>
    if h.lit && widthH s h < 2 && 2 ≤ widthH before h then
      (if h.sending s.gt then s.updHnd (Fin.ofNat 256 n) (fun h => { h with dying := widthH before h })
       else s.dieHandle (Fin.ofNat 256 n) (widthH before h)).dieNarrow before l
    else s.dieNarrow before l

/-- A gang with a live member on a tile takes the task-fault disposition with code 0x33 (R317). -/
def State.meshFault (s : State) (t : TileId) : List Gang → State
  | [] => s
  | g :: l =>
    match g.mems.find? (fun m => tileOf m.core == t && m.live) with
    | none => s.meshFault t l
    | some m =>
      let r := mkRec 0x33 4 0xFF 0 m.core.val (wbits (g.pkt.getD 0 0) 32 16) (taskidOf (BitVec.ofNat 64 g.id) m)
        (BitVec.ofNat 64 g.id) 0 0 s.gt 0 0 0
      ((s.memberRec g.id m r none).killGang g.id 1 0x33).meshFault t l

/-- After a loss of light: narrow circuits die, and a tile whose service mesh is gone faults its gangs. -/
def State.afterLoss (s before : State) : State :=
  let s1 := (s.dieNarrow before s.handles).linkRestart before
  (fromTo 0 16).foldl (fun s t =>
    let tl : TileId := Fin.ofNat 16 t
    if meshOut s tl && !meshOut before tl then s.meshFault tl s.gangs else s) s1

/-- The transmit sides that a laser bank lights (R291). -/
def bankPorts (bank : Nat) : List Nat := fromTo (bank / 8 * 64) 64 ++ fromTo (256 + bank / 8 * 16) 16

/-- Laser banks fail in one gt (R316, R318): `ids` holds the banks 8q + λ. -/
def execLaserBankFailure (s : State) : Out :=
  let banks := s.arg.ids.filter (fun b => b < 32)
  let s1 := banks.foldl (fun s b =>
    let m : BitVec 8 := 1#8 <<< (b % 8)
    let s' := (bankPorts b).foldl (fun s p => s.setPort p ((s.port p).lose m true false)) s
    { s' with laserF := s'.laserF ||| (1#32 <<< b) }) s
  let mask := banks.foldl (fun m b => m ||| 2 ^ b) 0
  let rets := (fromTo 0 4).filter (fun q => banks.any (fun b => b / 8 == q))
  let s2 := (rets.flatMap (fun q => fromTo (4 * q) 4)).foldl (fun s t =>
    s.fabricRec (Fin.ofNat 16 t) 0x31 0 (BitVec.ofNat 64 mask) 0 0 0) s1
  .next (s2.afterLoss s)

/-- A ring of a port loses its tuning (R316, R318). -/
def execRingTuningLoss (s : State) : Out :=
  let p := s.arg.port
  if p < 320 then
    let m : BitVec 8 := 1#8 <<< s.arg.lam.val
    let s1 := s.setPort p ((s.port p).lose m true true)
    .next ((s1.fabricRec (portTile p) 0x32 p (m.setWidth 64) 0 0 0).afterLoss s)
  else .next s

/-- The management API restores a wavelength of a port that was lost (R316). -/
def execWavelengthRestore (s : State) : Out :=
  let p := s.arg.port
  if s.safe then .next (s.refused "WAVELENGTH")
  else if p < 320 then
    let m : BitVec 8 := ~~~(1#8 <<< s.arg.lam.val)
    let x := s.port p
    let q := if p < 256 then p / 64 else (p - 256) / 16
    .next { (s.setPort p { x with failed := x.failed &&& m, failedR := x.failedR &&& m }) with
      laserF := s.laserF &&& ~~~(1#32 <<< (8 * q + s.arg.lam.val)) }
  else .next s

/-- A boundary link goes down: a record for each slot that attached it (R318). -/
def execBoundaryLinkDown (s : State) : Out :=
  let b : Fin 64 := Fin.ofNat 64 s.arg.port
  let slots := (fromTo 0 8).filter (fun n => (s.slot (Fin.ofNat 8 n)).ports.contains b)
  let s1 := slots.foldl (fun s n =>
    let v := s.slot (Fin.ofNat 8 n)
    s.fabricRec v.tile 0x35 b.val 0 v.asid v.gang 0) s
  .next { s1 with links := mapDel s1.links b.val }

/-- The boundary ports are enabled: feature bit BOUNDARY (R6). -/
def State.boundary (s : State) : Bool := s.feats.getLsbD 1

/-- System software establishes a boundary link to a package, where the boundary ports are enabled (R6, R299). -/
def execBoundaryLinkEstablish (s : State) : Out :=
  let b : Fin 64 := Fin.ofNat 64 s.arg.port
  .next (if s.boundary then { s with links := mapSet s.links b.val (s.arg.n % 65536) } else s)

/-- A `rcv` has waited 4,096 gt: the late-arrival fault (R310). -/
def execRcvSkewExpiry (s : State) : Out :=
  let c := s.argCore
  if (s.core c).halted then .next s
  else
    match (s.core c).run with
    | some k => match (s.ctx c k).stall with
      | some (.rcv _ _ slot start) =>
        if start + 4096 ≤ s.gt then .next (s.coreFault c k slot (s.ctx c k).hart.bpc { code := fLate }) else .next s
      | _ => .next s
    | none => .next s

end Sys2Proof.Machine
end

