-- ==== Sys2Proof/Machine/Image.lean ====
section
/-! DEFINITION. Machine/Image.lean: the task image as the launch path reads it (R112-R114, R327, R349). -/

namespace Sys2Proof.Machine

/-- Bytes of a virtual address under an ASID, when all of them can be read. -/
def imgRead (s : State) (t : TileId) (asid va len : Nat) : Option (List Byte) :=
  if 2 ^ 56 < va + len then none
  else
    match xlateSegs s true t none asid .read (segFuel len) va len with
    | .ok (segs, _) => if readsBad s segs then none else some (s.segBytes segs)
    | .error _ => none

/-- A little-endian field of an image. -/
def fld (bs : List Byte) (off n : Nat) : Nat := leNat ((bs.drop off).take n)

/-- IMGLEN passes R114. -/
def imgLenOk (hdr : List Byte) (va : Nat) : Bool := 64 ≤ fld hdr 56 8 && va + fld hdr 56 8 ≤ 2 ^ 56

/-- The section, task and placement entries. -/
def sectEnt (bs : List Byte) (n : Nat) : List Byte := (bs.drop (fld bs 24 8 + 32 * n)).take 32
def taskEnt (bs : List Byte) (n : Nat) : List Byte := (bs.drop (fld bs 32 8 + 32 * n)).take 32
def placeEnt (bs : List Byte) (n : Nat) : List Byte := (bs.drop (fld bs 40 8 + 8 * n)).take 8

/-- A table lies within the image. -/
def tableIn (bs : List Byte) (off n size : Nat) : Bool := n = 0 || off + n * size ≤ fld bs 56 8

/-- The placements: task index and core. -/
def placements (bs : List Byte) : List (Nat × Nat) :=
  (fromTo 0 (fld bs 48 4)).map (fun n => (fld (placeEnt bs n) 0 2, fld (placeEnt bs n) 2 2))

/-- The structural checks of R114, without R7 and repeated cores. Values outside the ranges of R113 for which R114 names no refusal are
accepted as they stand (log 74, DESIGN CHOICE): NSECT or NTASK of 0 or beyond their limits, GANGOFF with NGANG 0, a TYPE or ALIGN that
R113 does not list, a base not aligned to ALIGN, an ENTRY outside its text, a MICRO that names a section of another type. -/
def imgStruct (bs : List Byte) : Bool :=
  let ns := fld bs 16 4
  let nt := fld bs 20 4
  let zeroed := bs.take 52 ++ [0, 0, 0, 0] ++ bs.drop 56
  fld bs 0 4 = 0x3631575A && fmtIn fncap 16 (fld bs 4 2) && fld bs 6 2 = 64 &&
    tableIn bs (fld bs 24 8) ns 32 && tableIn bs (fld bs 32 8) nt 32 && tableIn bs (fld bs 40 8) (fld bs 48 4) 8 &&
    (fromTo 0 ns).all (fun n => fld (sectEnt bs n) 8 8 + fld (sectEnt bs n) 16 8 ≤ fld bs 56 8 && fld (sectEnt bs n) 24 8 = 0) &&
    (fromTo 0 nt).all (fun n => fld (taskEnt bs n) 12 4 = 0) &&
    (fromTo 0 (fld bs 48 4)).all (fun n => fld (placeEnt bs n) 4 4 = 0) &&
    fld bs 8 2 = 0 && fld bs 12 4 < 16 &&
    fld bs 52 4 = (crc32 zeroed).toNat

/-- Each placed task exists, and its MODE and PRIO are the packet's (R113, R327). -/
def placedOk (bs : List Byte) (mode prio : Nat) : Bool :=
  (placements bs).all (fun (p : Nat × Nat) =>
    p.1 < fld bs 20 4 && fld (taskEnt bs p.1) 8 1 = mode && fld (taskEnt bs p.1) 9 1 = prio)

/-- R7: the part has the revision and the features that an image asks for. -/
def revOk (s : State) (bs : List Byte) : Bool :=
  let isa := fld bs 8 4
  isa / 2 ^ 24 = wbits s.devrec 24 8 && isa / 2 ^ 16 % 256 ≤ wbits s.devrec 16 8 &&
    (BitVec.ofNat 4 (fld bs 12 4) &&& ~~~s.feats) = 0

/-- The micro section of a task: its offset in the image and its words. -/
def microOf (bs : List Byte) (task : Nat) : Nat × Nat :=
  let n := fld (taskEnt bs task) 10 2
  if n = 0xFFFF || fld bs 16 4 ≤ n then (0, 0) else (fld (sectEnt bs n) 8 8, (fld (sectEnt bs n) 16 8 + 7) / 8)

/-- A whole image: its header, and every byte that IMGLEN gives it. -/
def imgWhole (s : State) (t : TileId) (asid va : Nat) : Option (List Byte) :=
  match imgRead s t asid va 64 with
  | none => none
  | some hdr => if imgLenOk hdr va then imgRead s t asid va (fld hdr 56 8) else none

/-- A packet that names a bound ASID is refused unless the digest of its image is one of the participant's (R349, R353). -/
def boundRefused (s : State) (t : TileId) (pkt : List Word) : Bool :=
  let asid := wbits (pkt.getD 0 0) 32 16
  match boundPart s asid with
  | none => false
  | some p => p.revoked || (match imgWhole s t asid (pkt.getD 1 0).toNat with
    | some bs => !(p.images.contains (Config.sha256 bs))
    | none => true)

end Sys2Proof.Machine
end

