-- ==== Sys2Proof/Machine/Tokens.lean ====
section
/-! DEFINITION. Machine/Tokens.lean: pushes and token operations, and the sending of commands (R174-R179, R254, R321). -/

namespace Sys2Proof.Machine

/-- The queue accepts a command code (R179). -/
def accepts (q code : Nat) : Bool :=
  if code = 6 then q = 2
  else if code = 5 || code = 7 then q < 3
  else if 1 ≤ code && code ≤ 4 then q < 2
  else false

/-- The capacity of a queue of a core (R16). -/
def queueCap (q : Nat) : Nat := if q = 0 then 32 else 16

/-- The core of an owner. -/
def Owner.core? : Owner → Option CoreId
  | .mem _ c => some c
  | .cell _ => none

/-- A command counts as queued: no engine has taken it, one that was parked and tries again included (DEDUCED, log 108), or it is a
WAITSEM not yet placed (R176). -/
def Cmd.inQueue (d : Cmd) : Bool :=
  match d.st with
  | .queued => true
  | .running _ => d.bytes.getD 0 0 == 7
  | _ => false

/-- Slots of a core's queue that commands hold or pushes have reserved (R176). -/
def queueUsed (s : State) (c : CoreId) (q : Nat) : Nat :=
  (s.cmds.filter (fun d => d.owner.core? == some c && d.q == q && d.inQueue)).length +
  (ctxIds.map (fun k => let x := s.ctx c k
    (x.pushes.filter (fun p => p.q == q)).length +
      (x.batches.map (fun b => (b.pushes.filter (fun p => p.q == q)).length)).foldl (· + ·) 0)).foldl (· + ·) 0

/-- Slots that the Cellarer's commands hold. -/
def cellUsed (s : State) (t : TileId) : Nat :=
  (s.cmds.filter (fun d => d.owner == .cell t && d.inQueue)).length

/-- Free slots of a queue, for the agent in execution. -/
def freeSlots (s : State) (q : Nat) : Nat :=
  match s.cur with
  | .core c _ => queueCap q - queueUsed s c q
  | .cell t => 16 - cellUsed s t
  | _ => 0

/-- The queue may be named by the agent (R176, R178, R321). -/
def queueOk (s : State) (q : Nat) : Bool := if s.onCell then q = 1 else q < 3

/-- The command bytes of eight registers (R176). -/
def cmdBytes (h : Hart) (sn : Reg) : List Byte :=
  (fromTo 0 8).flatMap (fun j => bytesOf 8 (h.rs (Fin.ofNat 64 (sn.val + j))).toNat)

def cmdPois (h : Hart) (sn : Reg) : Bool := (fromTo 0 8).any (fun j => h.sPois (Fin.ofNat 64 (sn.val + j)))

/-- A command takes its place in the order of sending: within one gt the CE1 commands of cores come before the Cellarer's (R18, R176). -/
def insCmd (d : Cmd) : List Cmd → List Cmd
  | [] => [d]
  | e :: l =>
    if d.owner.core?.isSome && e.owner == .cell d.tile && e.q = 1 && e.sent = d.sent then d :: e :: l else e :: insCmd d l

/-- Send a command into its queue: it records every producer outstanding of the tokens it consumes, its own among them where it consumes
the token that it produces (R176, R177). -/
def State.send (s : State) (o : Owner) (t : TileId) (q asid pc : Nat) (taskid : Word) (bs : List Byte) (prod : Nat)
    (cons : List Tok) : State :=
  let d : Cmd := { id := s.fresh, tile := t, q := q, owner := o, asid := asid, pc := pc, taskid := taskid, bytes := bs,
                   prod := prod, waits := s.prodsOf o cons, sent := s.gt }
  { s with cmds := insCmd d s.cmds, fresh := s.fresh + 1 }

/-- `push` (R90, R176). A poisoned command register is the late-arrival fault before any queue fault (DEDUCED, log 102). -/
def execPush (q : BitVec 3) (sn : Reg) (ptok : Tok) (bf : BReg) (cons : List Tok) (s : State) : Out :=
  let h := s.hart
  let qn := q.toNat
  let bs := cmdBytes h sn
  if cmdPois h sn then .next (s.raise { code := fLate })
  else if !queueOk s qn then .next (s.raise { code := fQueue, cause := 0 })
  else if !accepts qn ((bs.getD 0 0).toNat) then .next (s.raise { code := fQueue, cause := 1 })
  else if 63 ≤ (h.tok ptok).p then .next (s.raise { code := fQueue, cause := 2 })
  else if freeSlots s qn = 0 then .next (s.setHart (h.outB 1 bf true))
  else
    let (s1, id) := s.newProd s.curOwner ptok true false
    let s2 := s1.setHart ((h.addProd ptok).outB 1 bf false)
    match s.cur with
    | .core c k =>
      let p : PushRes := { q := qn, cmd := bs, prod := id, cons := cons, pc := h.bpc }
      .next (s2.updCtx c k (fun x => { x with pushes := x.pushes ++ [p] }))
    | .cell t => .next (s2.send (.cell t) t qn (s.cell t).casid.toNat h.bpc 0 bs id cons)
    | _ => .next s

def execTkclr (t : Tok) (s : State) : Out :=
  onHart s (fun h =>
    if 0 < (h.tok t).p then .trap { code := fQueue, cause := 3 } else .ok (h.setTok t { armed := false, p := 0 }))

/-- `tkst` reads its token as it stands: an `ldblk` or `blkrel` of a lower slot of its own bundle has changed it already (DESIGN
CHOICE, log 72). -/
def execTkst (bd : BReg) (t : Tok) (s : State) : Out := onHart s (fun h => .ok (h.outB 1 bd (h.tok t).signalled))

def execTksig (t : Tok) (s : State) : Out := onHart s (fun h => .ok (h.setTok t { (h.tok t) with armed := true }))

def execQst (q : BitVec 3) (sd : Reg) (s : State) : Out :=
  if !queueOk s q.toNat then .next (s.raise { code := fQueue, cause := 0 })
  else onHart s (fun h => .ok (h.outS 1 sd (BitVec.ofNat 64 (freeSlots s q.toNat)) false))

end Sys2Proof.Machine
end

