-- ==== Sys2Proof/Machine/Engines.lean ====
section
/-! DEFINITION. Machine/Engines.lean: what the commands do, unit by unit, on the engine or Cellarer that runs them, and the
events of engines and blocks (R18, R171, R177, R179-R189, R227, R258-R260, R314, R323, R367). A unit is a row of a COPY,
4 KiB of a FILL, a panel of a RACKFILL, or 16 elements of a COPYRED. -/

namespace Sys2Proof.Machine

/-! ## The command in execution -/

/-- The command that an engine runs; a Cellarer acts on the oldest CQ command of its tile (R323). -/
def State.curCmd (s : State) : Option Cmd :=
  match s.cur with
  | .eng t e => s.cmds.find? (fun d => d.tile == t && d.st == .running e && !d.done)
  | .cell t => s.cmds.find? (fun d => d.tile == t && d.q == 2 && d.st == .queued && !d.done)
  | _ => none

/-- Change a command. -/
def State.updCmd (s : State) (id : Nat) (f : Cmd → Cmd) : State := { s with cmds := mapWhere (fun d => d.id == id) f s.cmds }

/-- The command ends with all its effects performed (R187). -/
def State.cmdDone (s : State) (d : Cmd) : State := s.updCmd d.id (fun d => { d with done := true })

/-- The gang and core of an owner that is a task. -/
def Owner.task? : Owner → Option (Nat × CoreId)
  | .mem g c => some (g, c)
  | .cell _ => none

/-- The effective priority of a command's owner; a Cellarer's commands count as priority 0. A command whose gang no longer exists has
the lowest, 3 (DESIGN CHOICE, log 106). -/
def cmdPrio (s : State) (d : Cmd) : Nat :=
  match d.owner with
  | .mem g _ => match s.gang g with
    | some x => x.eff
    | none => 3
  | .cell _ => 0

/-! ## Errors (R188, R260, R269, R367) -/

/-- Why a command cannot go on. -/
inductive EngErr where
  | xlate (f : XF)
  | fault (cause addr : Nat)
  | nonres (addr : Nat)

/-- The first eight bytes of a command. -/
def cmdHead (d : Cmd) : Word := BitVec.ofNat 64 (leNat (d.bytes.take 8))

/-- FLG of an engine's record. -/
def engFlg (o : Owner) : Nat :=
  match o with
  | .mem _ _ => 1
  | .cell _ => 3

/-- The gang word of an owner. -/
def ownerGang (o : Owner) : Word :=
  match o with
  | .mem g _ => BitVec.ofNat 64 g
  | .cell _ => 0

/-- The two records of an engine's queue fault. -/
def engRecs (s : State) (d : Cmd) (cause addr rrc : Nat) : FRec × FRec :=
  let mk (disp : Nat) := mkRec fQueue disp 0xFF (engFlg d.owner) 0xFFFF d.asid d.taskid (ownerGang d.owner) d.pc addr s.gt rrc cause (cmdHead d)
  (mk 4, (mk 5).take 1 ++ (chunks 8 7 (d.bytes.drop 8)).map (fun b => BitVec.ofNat 64 (leNat b)))

/-- The engine raises the queue fault against the owner: the command ends unsignalled, and the owner takes its task fault
whatever its state; when it has ended only the records are routed. -/
def State.cmdFault (s : State) (d : Cmd) (cause addr : Nat) : State :=
  let s0 := { s with cmds := s.cmds.filter (fun e => e.id != d.id) }
  match d.owner with
  | .cell t =>
    let (r1, r2) := engRecs s d cause addr 0
    ((s0.report t true r1).report t true r2).updCell t (fun c => { c with run := false, faulted := true, stall := none, stallK := none })
  | .mem g c =>
    match s0.member g c with
    | none =>
      let (r1, r2) := engRecs s d cause addr 0
      (s0.report (tileOf c) false r1).report (tileOf c) false r2
    | some m =>
      match s0.ctxOf g c with
      | some k =>
        let x := s0.ctx c k
        let (r1, r2) := engRecs s d cause addr x.reg.rrc
        if x.st = .ended then s0.recOrWait c k r1 (some r2) else s0.taskFault c k r1 (some r2)
      | none =>
        let (r1, r2) := engRecs s d cause addr 0
        let s1 := s0.memberRec g m r1 (some r2)
        if m.live then s1.killGang g 1 fQueue else s1

/-- The resume offset of R189: granules of 4 KiB of destination or output, or panels. -/
def resumeOffset (d : Cmd) : Nat :=
  match decodeCmd (leNat d.bytes) with
  | some (.cmdCopy _) => d.resume / 4096
  | some (.cmdCopyred f) =>
    match kindOf f.dk.toNat with
    | some k => if f.last then d.resume * rowBytes k 16 / 4096 else d.resume / 64
    | none => 0
  | _ => d.resume

/-- A command parks: its record goes out and its engine is free (R188, R260). As the engine's record has no core, its RRC is 0
(DESIGN CHOICE, log 111). -/
def State.parkCmd (s : State) (d : Cmd) (code addr : Nat) (st : CmdSt) : State :=
  let r := mkRec code 5 0xFF (engFlg d.owner) 0xFFFF d.asid d.taskid (ownerGang d.owner) d.pc addr s.gt 0 ((d.bytes.getD 0 0).toNat)
    (BitVec.ofNat 64 (resumeOffset d))
  (s.updCmd d.id (fun e => { e with st := st })).report d.tile false r

/-- A rerun pair of a command's owner begins: no other fault of it is taken, and the command stands at its unit (R268). -/
def ownerPair (s : State) (d : Cmd) : Bool :=
  match d.owner with
  | .mem g c => (s.ctxOf g c).any (fun k => pairDue s c k)
  | .cell _ => false

/-- The queue fault of a command's owner, unless a rerun pair of it begins. -/
def State.takeCmd (s : State) (d : Cmd) (cause addr : Nat) : State := if ownerPair s d then s else s.cmdFault d cause addr

/-- Act on an error. -/
def State.engErr (s : State) (d : Cmd) : EngErr → State
  | .xlate f => if f.code = fXlate then s.parkCmd d fParkXl f.addr .parked20 else s.takeCmd d 0x10 f.addr
  | .fault c a => s.takeCmd d c a
  | .nonres a => s.parkCmd d fParkNr a .parked21

/-- A broken field rule. -/
def badField : EngErr := .fault 0x11 0

/-! ## Where an engine's access goes (R180, R239) -/

/-- A run of the cluster window, Loop by Loop: it may run on from one core's into the next one's (R152). -/
def clusterRuns (c : CoreId) : Nat → Nat → Nat → Nat → List (CoreId × Seg)
  | 0, _, _, _ => []
  | fuel + 1, n, off, len =>
    let m := min len (2 ^ 21 - off)
    (peerOf c n, { key := loopKey (peerOf c n) off, len := m }) :: (if m < len then clusterRuns c fuel (n + 1) 0 (len - m) else [])

/-- Why a task's Loop cannot be reached: its member is not resident now, and the command parks; or it will not be again (R239, R260,
log 82). -/
def loopGone (s : State) (g : Nat) (c : CoreId) (ea : Nat) : EngErr :=
  match s.member g c with
  | some m => if m.live then .nonres ea else .fault 0x10 ea
  | none => .fault 0x10 ea

/-- Resolve an access of a command. -/
def engSegs (s : State) (d : Cmd) (ea len : Nat) (acc : Acc) : Except EngErr (List Seg × List TlbEnt) :=
  let bad : Except EngErr (List Seg × List TlbEnt) := .error (.fault 0x10 ea)
  if len = 0 then .ok ([], [])
  else
    match d.owner with
    | .cell t =>
      match cellSegs s t ea len acc with
      | .error f => .error (.xlate f)
      | .ok p => if acc.writes && touchesDev p.1 then bad else .ok p
    | .mem g c =>
      match windowOf ea with
      | .bad => bad
      | .glob va =>
        if 2 ^ 56 < va + len then bad
        else match xlateSegs s true d.tile none d.asid acc (segFuel len) va len with
          | .error f => .error (.xlate f)
          | .ok p => .ok p
      | .loop off =>
        match s.ctxOf g c with
        | none => .error (loopGone s g c ea)
        | some k =>
          let x := s.ctx c k
          if off + len ≤ 2 ^ 21 && inFp x.fpUnit x.fpCnt off len then .ok ([{ key := loopKey c off, len := len }], []) else bad
      | .cluster n off =>
        match s.gang g with
        | none => bad
        | some x =>
          if 2 ^ 24 < n * 2 ^ 21 + off + len then bad
          else
            let l := clusterRuns c 8 n off len
            if !(l.all (fun (p : CoreId × Seg) => x.mems.any (fun m => m.core == p.1) &&
                inFp (pktFpUnit x.pkt) (pktFpCnt x.pkt) (p.2.key % 2 ^ 21) p.2.len)) then bad
            else match l.find? (fun (p : CoreId × Seg) => (s.ctxOf g p.1).isNone) with
              | some p => .error (loopGone s g p.1 ea)
              | none => .ok (l.map (·.2), [])

/-- Read bytes at their homes (R247). -/
def engRead (s : State) (d : Cmd) (ea len : Nat) : Except EngErr (List Byte × List TlbEnt) :=
  match engSegs s d ea len .read with
  | .error e => .error e
  | .ok (l, es) => if readsBad s l then .error (.fault 0xFF ea) else .ok (s.segBytes l, es)

/-- Write bytes at their homes. -/
def State.engWrite (s : State) (d : Cmd) (ea : Nat) (bs : List Byte) : Except EngErr State :=
  match engSegs s d ea bs.length .write with
  | .error e => .error e
  | .ok (l, es) => .ok ((s.fillTlbs d.tile none es).writeSegs (.cell d.tile) d.tile l bs)

/-- Run a command's next unit; without a command nothing happens. -/
def onCmd (s : State) (f : Cmd → Except EngErr State) : Out :=
  match s.curCmd with
  | none => .next s
  | some d =>
    match f d with
    | .ok s1 => .next s1
    | .error e => .next (s.engErr d e)

/-- Go on to the next unit, or end. -/
def State.advance (s : State) (d : Cmd) (last : Bool) : State :=
  s.updCmd d.id (fun e => { e with resume := d.resume + 1, done := last })

/-! ## COPY (R181) -/

/-- An address moved by signed strides. -/
def movedBy (a : Nat) (z : Int) : Nat := (((a : Int) + z) % (2 ^ 64 : Nat)).toNat

/-- Where row `i` stands: b varies fastest, then c, then d. -/
def rowOf (f : CopyF) (i : Nat) : Nat × Nat :=
  let b : Int := ((i % f.n1.toNat : Nat) : Int)
  let c : Int := ((i / f.n1.toNat % f.n2.toNat : Nat) : Int)
  let e : Int := ((i / f.n1.toNat / f.n2.toNat : Nat) : Int)
  (movedBy f.src.toNat (b * f.ss1.toInt + c * f.ss2.toInt + e * f.ss3.toInt),
   movedBy f.dst.toNat (b * f.ds1.toInt + c * f.ds2.toInt + e * f.ds3.toInt))

/-- A run of elements of one kind becomes elements of another: exact values, finally rounded, or clamped integers. -/
def convRun (dk sk : Kind) (mu : RM) (n : Nat) (bits : Nat) : Nat :=
  (roundRun dk mu ((fromTo 0 n).map (fun i => { x := elemVal sk bits i, s := false, rnd := 0 }))).1

/-- Elements handled together: a block, a pair of f4, or one. -/
def unitOf (a b : Kind) : Nat :=
  if (blockK a).isSome || (blockK b).isSome then 16 else if a = .f4 || b = .f4 then 2 else 1

/-- A row converted. -/
def convRow (dk sk : Kind) (mu : RM) (n : Nat) (bs : List Byte) : List Byte :=
  if dk = sk then bs
  else
    let u := unitOf dk sk
    (chunks (rowBytes sk u) (n / u) bs).flatMap (fun b => bytesOf (rowBytes dk u) (convRun dk sk mu u (leNat b)))

/-- The rounding mode of a command: SR acts as RNE (R57). -/
def cmdMode (rm : BitVec 3) : RM := (RM.of rm.toNat).noSr

/-- N elements break the granularity of a kind. -/
def badCount (k : Kind) (n : Nat) : Bool := ((blockK k).isSome && n % 16 != 0) || (k = .f4 && n % 2 != 0)

/-- COPY: the next row is read whole, and then written up to each boundary of 4 KiB of destination bytes (R181, R189). A broken field
rule is a queue fault even where another count is 0 (DEDUCED, log 104). -/
def execCmdCopy (f : CopyF) (s : State) : Out :=
  onCmd s (fun d =>
    match kindOf f.dk.toNat, kindOf f.sk.toNat with
    | some dk, some sk =>
      let n := f.n0.toNat
      let rows := f.n1.toNat * f.n2.toNat * f.n3.toNat
      if 6 ≤ f.rm.toNat || badCount dk n || badCount sk n then .error badField
      else if n * rows = 0 then .ok (s.cmdDone d)
      else
        let rb := rowBytes dk n
        let (a, b) := rowOf f (d.resume / rb)
        if d.row.isEmpty then
          match engRead s d a (rowBytes sk n) with
          | .error e => .error e
          | .ok (bs, es) => .ok ((s.fillTlbs d.tile none es).updCmd d.id (fun e => { e with row := convRow dk sk (cmdMode f.rm) n bs }))
        else
          let m := min d.row.length (4096 - d.resume % 4096)
          match s.engWrite d (movedBy b (d.resume % rb)) (d.row.take m) with
          | .error e => .error e
          | .ok s1 => .ok (s1.updCmd d.id (fun e => { e with resume := d.resume + m, row := d.row.drop m, done := d.resume + m = rb * rows }))
    | _, _ => .error badField)

/-! ## COPYRED (R72, R182, R314) -/

/-- An element on its way: its f32 and its S. -/
structure Carried where
  v : W32
  s : Bool
deriving DecidableEq, Repr

/-- The elements of an arriving flit. -/
def flitElems (f : Flit) : List Carried :=
  List.zipWith (fun b i => { v := BitVec.ofNat 32 (leNat b), s := f.sbits.getLsbD i : Carried }) (chunks 4 16 f.data) (fromTo 0 16)

/-- A flit that carries elements, the rest of it +0. -/
def elemFlit (h : Hnd) (l : List Carried) (last : Bool) : Flit :=
  { sq := h.next, gen := h.g, lastf := last, spl := false, isRed := true,
    data := l.flatMap (fun c => bytesOf 4 c.v.toNat) ++ List.replicate (64 - 4 * l.length) 0,
    sbits := BitVec.ofNat 16 (l.foldr (fun c n => (if c.s then 1 else 0) + 2 * n) 0), ok := true }

/-- One hop for one element (R72). -/
def hopElem (inc : Option Carried) (loc : W32) : Carried :=
  match inc with
  | none => { v := loc, s := false }
  | some c =>
    let (v, sb, _) := hopAdd (f32Val c.v) c.s (f32Val loc)
    { v := (match v with
        | .nan => nan32
        | v => f32Of v), s := sb }

/-- A destination run (R72): f32 receives the value unchanged, another kind the final rounding. -/
def redRun (dk : Kind) (mu : RM) (l : List Carried) : Nat :=
  if dk = .f32 then leNat (l.flatMap (fun c => bytesOf 4 c.v.toNat))
  else (roundRun dk mu (l.map (fun c => { x := f32Val c.v, s := c.s, rnd := 0 : RIn }))).1

/-- Bytes of `n` elements from element `i` on: the first byte and their number. -/
def elemSpan (k : Kind) (i n : Nat) : Nat × Nat := (rowBytes k i, (bitsOf16 k * n + 127) / 128)

/-- Up to 16 elements of a hop in ascending order, in runs that no kind divides. -/
def hopRuns (d : Cmd) (f : CopyRedF) (dk lk : Kind) : Nat → Nat → List (Option Carried) → State → Except EngErr (State × List Carried)
  | _, _, [], s => .ok (s, [])
  | 0, _, _, s => .ok (s, [])
  | fuel + 1, i, inc, s =>
    let u := min (unitOf dk lk) inc.length
    let (lo, ln) := elemSpan lk i u
    match engRead s d (movedBy f.loc.toNat lo) ln with
    | .error e => .error e
    | .ok (bs, es) =>
      let s0 := s.fillTlbs d.tile none es
      let outs := List.zipWith (fun c j => hopElem c (elemCont lk (leNat bs) j)) (inc.take u) (fromTo 0 u)
      let put : Except EngErr State :=
        if f.last then
          let (wo, wn) := elemSpan dk i u
          let ea := movedBy f.dst.toNat wo
          let v := redRun dk (cmdMode f.rm) outs
          if dk = .f4 && u = 1 then
            match engRead s0 d ea 1 with
            | .error e => .error e
            | .ok (old, _) => s0.engWrite d ea [BitVec.ofNat 8 (v % 16 + leNat old / 16 * 16)]
          else s0.engWrite d ea (bytesOf wn v)
        else .ok s0
      match put with
      | .error e => .error e
      | .ok s1 =>
        match hopRuns d f dk lk fuel (i + u) (inc.drop u) s1 with
        | .error e => .error e
        | .ok (s2, l) => .ok (s2, outs ++ l)

/-- The endpoint code of a tile's engines (R294). -/
def engEnd (t : TileId) : Nat := 512 + t.val

/-- A handle as a hop finds it: usable, one that the engine waits for, or a broken rule. -/
inductive HopUse where
  | ready
  | wait
  | bad

def handleUse (h : Hnd) (mine : Bool) : HopUse :=
  match h.st with
  | .free | .broken | .dead => .bad
  | .scheduled | .settling => .wait
  | .live => if mine then .ready else .bad

/-- The arriving elements of a hop's next flit; none while they have not come. -/
def hopIn (s : State) (d : Cmd) (f : CopyRedF) (n : Nat) (last : Bool) : Except EngErr (Option (List (Option Carried))) :=
  if f.first then .ok (some (List.replicate n none))
  else
    let h := s.hnd (Fin.ofNat 256 f.inch.toNat)
    match handleUse h (h.dep = engEnd d.tile) with
    | .bad => .error badField
    | .wait => .ok none
    | .ready =>
      match h.rq with
      | [] => .ok none
      | q :: _ => if q.isRed && q.lastf == last then .ok (some (((flitElems q).take n).map some)) else .error badField

/-- Another flit under the key of a hop's output circuit would take NEXT to 2^32 (R352). -/
def hopSpent (s : State) (f : CopyRedF) : Bool :=
  let h := s.hnd (Fin.ofNat 256 f.outch.toNat)
  !f.last && h.key.isSome && 2 ^ 32 ≤ h.next + 1

/-- The output of a hop has room for a flit; a broken rule. -/
def hopOut (s : State) (d : Cmd) (f : CopyRedF) : HopUse :=
  if f.last then .ready
  else
    let h := s.hnd (Fin.ofNat 256 f.outch.toNat)
    match handleUse h (h.sep = engEnd d.tile) with
    | .ready => if h.credit = 0 || 4096 ≤ storeUsed s h.srcp then .wait else .ready
    | u => u

/-- The flit that a hop has consumed leaves its queue: an engine's head is the committed one (R305). -/
def State.hopPop (s : State) (f : CopyRedF) : State :=
  if f.first then s
  else s.updHnd (Fin.ofNat 256 f.inch.toNat) (fun h => { h with rq := h.rq.drop 1, head := seqAdd h.head 1, headCk := seqAdd h.headCk 1 })

/-- The flit that a hop has formed goes out. -/
def State.hopSend (s : State) (f : CopyRedF) (l : List Carried) (last : Bool) : State :=
  if f.last then s
  else
    let n : Handle := Fin.ofNat 256 f.outch.toNat
    (s.transmit n [elemFlit (s.hnd n) l last]).updHnd n (fun h => { h with next := seqAdd h.next 1, nextCk := seqAdd h.next 1 })

def execCmdCopyred (f : CopyRedF) (s : State) : Out :=
  onCmd s (fun d =>
    match kindOf f.dk.toNat, kindOf f.lk.toNat with
    | some dk, some lk =>
      let n := f.n.toNat
      if (intOf dk).isSome || (intOf lk).isSome || 6 ≤ f.rm.toNat then .error badField
      else if ((blockK dk).isSome || (blockK lk).isSome) && n % 16 != 0 then .error badField
      else if n = 0 then .ok (s.cmdDone d)
      else
        let i := 16 * d.resume
        let m := min 16 (n - i)
        let last := n ≤ i + 16
        match hopIn s d f m last, hopOut s d f with
        | .error e, _ => .error e
        | _, .bad => .error badField
        | .ok none, _ => .ok s
        | _, .wait => .ok s
        | .ok (some inc), .ready =>
          if hopSpent s f then .ok (s.dieHandle (Fin.ofNat 256 f.outch.toNat) (widthH s (s.hnd (Fin.ofNat 256 f.outch.toNat))))
          else match hopRuns d f dk lk 16 i inc s with
          | .error e => .error e
          | .ok (s1, l) => .ok (((s1.hopPop f).hopSend f l last).advance d last)
    | _, _ => .error badField)

/-! ## RACKFILL (R183, R226, R227) -/

/-- The source descriptor of a command from panel `first` on. -/
def sdpRecord (f : RackFillF) (first : Nat) : List Byte :=
  bytesOf 8 f.src.toNat ++ bytesOf 4 f.rowb.toNat ++ bytesOf 4 f.rows.toNat ++ bytesOf 4 f.sstr.toNat ++ bytesOf 4 f.pstr.toNat ++
    bytesOf 4 first ++ bytesOf 4 1 ++ bytesOf 32 0

/-- A command continues the record in force (R227). -/
def sdpContinues (r : List Byte) (f : RackFillF) (tail : Nat) : Bool :=
  let w (o n : Nat) := leNat ((r.drop o).take n)
  w 28 4 = 1 && w 8 4 = f.rowb.toNat && w 12 4 = f.rows.toNat && w 16 4 = f.sstr.toNat && w 20 4 = f.pstr.toNat &&
    f.src.toNat = movedBy (w 0 8) ((((tail + 2 ^ 32 - w 24 4) % 2 ^ 32 : Nat) : Int) * f.pstr.toInt)

/-- The rows of a panel read from memory. -/
def panelRead (s : State) (d : Cmd) (base : Nat) (sstr : Int) (rowb : Nat) : Nat → Nat → Except EngErr (List Byte × List TlbEnt)
  | _, 0 => .ok ([], [])
  | i, n + 1 =>
    match engRead s d (movedBy base ((i : Int) * sstr)) rowb with
    | .error e => .error e
    | .ok (bs, es) =>
      match panelRead s d base sstr rowb (i + 1) n with
      | .error e => .error e
      | .ok (cs, fs) => .ok (bs ++ cs, es ++ fs)

/-- RACKFILL: first, for a read-only rack whose record it does not continue, the record; then panel after panel (R183, R226, R227). -/
def execCmdRackfill (f : RackFillF) (s : State) : Out :=
  onCmd s (fun d =>
    match d.owner with
    | .cell _ => .error badField
    | .mem g c =>
      match s.ctxOf g c with
      | none => .error (loopGone s g c 0)
      | some k =>
        let x := s.ctx c k
        let n := f.rack.toNat
        let cfg := x.rk n
        let tail := rkTail (x.rp n)
        let ro := cfg.getLsbD 63
        if rkCap cfg = 0 || rackSelf cfg || ro != f.hdr.ro || f.rowb.toNat * f.rows.toNat != panelLen cfg then .error badField
        else if ro && !(inFp x.fpUnit x.fpCnt (sdpOff cfg) 64) then .error (.fault 0x10 0)
        else if ro && d.resume = 0 && readsBad s [{ key := loopKey c (sdpOff cfg), len := 64 }] then .error (.fault 0xFF 0)
        else if ro && d.resume = 0 && !(sdpContinues (s.bytesAt 0 (loopKey c (sdpOff cfg)) 64) f tail) then
          if tail != rkHead (mapGet 0 x.ck.rkptr n) then .ok s
          else .ok (s.putBytes (tileOf c) 0 (loopKey c (sdpOff cfg)) (sdpRecord f tail))
        else if f.npan.toNat = 0 then .ok (s.cmdDone d)
        else if !(panelInFp x cfg tail) then .error (.fault 0x10 0)
        else
          if !(slotFree s c k n) then .ok s
          else
            match panelRead s d (movedBy f.src.toNat ((d.resume : Int) * f.pstr.toInt)) f.sstr.toInt f.rowb.toNat 0 f.rows.toNat with
            | .error e => .error e
            | .ok (bs, es) =>
              let s1 := s.fillTlbs d.tile none es
              let s3 := (s1.putBytes (tileOf c) 0 (loopKey c (panelOff cfg tail)) bs).updCtx c k (fun y => y.pushTail n false s.gt)
              .ok (s3.advance d (d.resume + 1 = f.npan.toNat)))

/-! ## FILL, SEMSIG, WAITSEM, LAUNCH (R184-R186, R323) -/

/-- FILL: the next 4 KiB. -/
def execCmdFill (f : FillF) (s : State) : Out :=
  onCmd s (fun d =>
    let n := f.nbytes.toNat
    let at_ := 4096 * d.resume
    let m := min 4096 (n - at_)
    let pat := bytesOf 8 f.pat.toNat
    if n = 0 then .ok (s.cmdDone d)
    else
      match s.engWrite d (movedBy f.dst.toNat at_) ((fromTo 0 m).map (fun j => pat.getD (j % 8) 0)) with
      | .error e => .error e
      | .ok s1 => .ok (s1.advance d (n ≤ at_ + 4096)))

/-- SEMSIG. -/
def execCmdSemsig (f : SemF) (s : State) : Out :=
  onCmd s (fun d => if 3 ≤ f.sop.toNat then .error badField else .ok ((s.semOp f.sop.toNat f.tsem f.value).cmdDone d))

/-- Triggers of a tile's table. -/
def triggersOf (s : State) (t : TileId) : List Cmd := s.cmds.filter (fun d => d.tile == t && d.st == .trigger)

/-- WAITSEM is placed in the trigger table when an entry is free (R185); the sample of the same gt may find it met. -/
def execCmdWaitsem (f : SemF) (s : State) : Out :=
  onCmd s (fun d =>
    if f.sop != 0 then .error badField
    else if 512 ≤ (triggersOf s d.tile).length then .ok s
    else .ok (s.updCmd d.id (fun e => { e with st := .trigger })))

/-- The semaphore of a trigger is at least its value. -/
def triggerDue (s : State) (d : Cmd) : Bool :=
  d.st == .trigger && (match decodeCmd (leNat d.bytes) with
    | some (.cmdWaitsem f) => f.value.toNat ≤ (s.sem f.tsem).toNat
    | _ => false)

/-- The triggers sample their semaphores, after every operation of the gt (R334). -/
def State.sampleTriggers (s : State) : State :=
  { s with cmds := mapWhere (triggerDue s) (fun d => { d with met := true }) s.cmds }

/-- A trigger that a sample found met completes (R185). -/
def triggerMet (d : Cmd) : Bool := d.st == .trigger && d.met

/-- A launch queue. -/
def State.lq (s : State) (t : TileId) (q : Nat) : LQ := mapGet {} (s.tile t).lq q

/-- A launch queue is full (R330). -/
def lqFull (s : State) (t : TileId) (q : Nat) : Bool := 64 ≤ (s.lq t q).pkts.length

/-- A tile that is not in C0 starts its exit: 3,200 gt from C1, 160,000 from C3; a sleeping package all of its tiles
(R360, R361). -/
def State.wake (s : State) (t : TileId) : State :=
  let go (n : Nat) (x : Tile) : Tile :=
    if x.pwrSt = 0 || x.pwrAt.isSome then x else { x with pwrAt := some (s.gt + n) }
  if s.sleep then (fromTo 0 16).foldl (fun s n => s.updTile (Fin.ofNat 16 n) (go 16000000)) s
  else s.updTile t (fun x => go (if x.pwrSt = 1 then 3200 else 160000) x)

/-- A packet enters a launch queue, and wakes its tile, which then runs it (R361). -/
def State.enterLq (s : State) (t : TileId) (q : Nat) (pkt : List Word) (src : Nat) : State :=
  ((s.wake t).updTile t (fun x =>
    let l : LQ := mapGet {} x.lq q
    { x with lq := mapSet x.lq q { l with pkts := l.pkts ++ [{ pkt := pkt, src := src, gt := s.gt }], tail := (l.tail + 1) % 65536 },
             backC1 := false })).evt t 0

/-- A packet is dropped at a queue. -/
def State.dropLq (s : State) (t : TileId) (q : Nat) : State :=
  s.updTile t (fun x =>
    let l : LQ := mapGet {} x.lq q
    { x with lq := mapSet x.lq q { l with drop := min (l.drop + 1) 65535 } })

/-- A refusal at admission is reported to its source's ring (R333, R338). -/
def State.refuse (s : State) (t : TileId) (q : Nat) (pkt : List Word) (src code : Nat) : State :=
  s.complRec (srcFn src) (pkt.getD 1 0).toNat 3 code q t.val src none

/-- LAUNCH. -/
def execCmdLaunch (f : LaunchF) (s : State) : Out :=
  onCmd s (fun d =>
    let ea := f.pkt.toNat
    if ea % 64 != 0 then .error badField
    else
      match engRead s d ea 64 with
      | .error e => .error e
      | .ok (bs, es) =>
        let pkt := (chunks 8 8 bs).map (fun b => BitVec.ofNat 64 (leNat b))
        let t : TileId := Fin.ofNat 16 f.ltile.toNat
        let q := f.lq.toNat
        let s1 := s.fillTlbs d.tile none es
        let bad := boundRefused s1 t pkt || pktPrio pkt = 0 || lqFull s1 t q
        if bad && ownerPair s d then .ok s
        else if boundRefused s1 t pkt then .ok ((s1.refuse t q pkt 0xFFFF 12).cmdFault d 0x2C ea)
        else if pktPrio pkt = 0 then .ok ((s1.refuse t q pkt 0xFFFF 3).cmdFault d 0x23 ea)
        else if lqFull s1 t q then .ok ((s1.refuse t q pkt 0xFFFF 13).cmdFault d 0x2D ea)
        else .ok ((s1.enterLq t q pkt 0xFFFF).cmdDone d))

/-! ## The events of engines (R18, R187, R189) -/

/-- The engines of a core's cluster: 2k and 2k + 1. -/
def servesCe0 (e : EngId) (d : Cmd) : Bool :=
  match d.owner.core? with
  | some c => clusterOf c = e.val / 2
  | none => false

/-- A command can start on an engine: queued, on a queue that the engine serves, its recorded producers completed. -/
def canTake (s : State) (t : TileId) (e : EngId) (q : Nat) (d : Cmd) : Bool :=
  d.tile = t && d.q = q && d.st == .queued && !d.done && s.prodsDone d.waits && (q != 0 || servesCe0 e d)

/-- What a free engine takes: the oldest CE0 command of its cluster that can start, else the oldest CE1 command. A command that an
engine gave up keeps its age, and so stands ahead of the commands of its queue that were sent after it (R18, R189, log 97). -/
def engineNext (s : State) (t : TileId) (e : EngId) : Option Cmd :=
  match s.cmds.find? (canTake s t e 0) with
  | some d => some d
  | none => s.cmds.find? (canTake s t e 1)

/-- The engine runs a command. -/
def engBusy (s : State) (t : TileId) (e : EngId) : Bool := s.cmds.any (fun d => d.tile == t && d.st == .running e)

/-- A free engine takes a command; engines are gated while their tile is not in C0 (R18, R360). -/
def execEngineTake (s : State) : Out :=
  let t := s.arg.tile
  let e := s.arg.eng
  if engBusy s t e || (s.tile t).pwrSt != 0 then .next s
  else
    match engineNext s t e with
    | none => .next s
    | some d => .next (s.updCmd d.id (fun x => { x with st := .running e }))

/-- A command with all effects performed completes: its token loses its producer, and then SEMREF gains 1 (R187). -/
def execCommandComplete (s : State) : Out :=
  match s.cmds.find? (fun d => d.id == s.arg.id && (d.done || triggerMet d)) with
  | none => .next s
  | some d =>
    let s1 := (({ s with cmds := s.cmds.filter (fun e => e.id != d.id) }).endProd d.prod).logEv 5 d.id
    let hd := cmdHead d
    .next (if hd.getLsbD 9 then s1.semOp 0 (hd.extractLsb' 16 16) 1 else s1)

/-- Two ranges of addresses meet. -/
def rangesMeet (a n b m : Nat) : Bool := a < b + m && b < a + n

/-- Some row that a COPY reads meets some row that it writes. -/
def copyOverlaps (f : CopyF) (dk sk : Kind) : Bool :=
  let rows := fromTo 0 (f.n1.toNat * f.n2.toNat * f.n3.toNat)
  rows.any (fun i => rows.any (fun j =>
    rangesMeet (rowOf f i).1 (rowBytes sk f.n0.toNat) (rowOf f j).2 (rowBytes dk f.n0.toNat)))

/-- A command that an engine never gives up (R189). -/
def neverYields (d : Cmd) : Bool :=
  match decodeCmd (leNat d.bytes) with
  | some (.cmdCopy f) =>
    match kindOf f.dk.toNat, kindOf f.sk.toNat with
    | some dk, some sk => copyOverlaps f dk sk
    | _, _ => true
  | some (.cmdCopyred f) =>
    match kindOf f.dk.toNat, kindOf f.lk.toNat with
    | some dk, some lk =>
      f.last && rangesMeet f.loc.toNat (elemSpan lk 0 f.n.toNat).2 f.dst.toNat (elemSpan dk 0 f.n.toNat).2
    | _, _ => true
  | some (.cmdFill _) => false
  | some (.cmdRackfill _) => false
  | _ => true

/-- A command stands at a boundary of R189. Its table has no row for a COPYRED with LAST, which it lets be interrupted: the boundary is
taken as the COPY's, 4 KiB of destination bytes (DESIGN CHOICE, log 83). -/
def atBoundary (d : Cmd) : Bool :=
  match decodeCmd (leNat d.bytes) with
  | some (.cmdCopy _) => d.resume % 4096 = 0
  | some (.cmdCopyred f) =>
    if f.last then (match kindOf f.dk.toNat with
      | some k => d.resume * rowBytes k 16 % 4096 = 0
      | none => true)
    else d.resume % 64 = 0
  | _ => true

/-- An engine gives its command up to a waiting command of higher priority when every engine of the tile is busy: to one that this
engine itself could take (DEDUCED, log 107). -/
def execEngineYield (s : State) : Out :=
  let t := s.arg.tile
  let e := s.arg.eng
  match s.cmds.find? (fun d => d.tile == t && d.st == .running e && !d.done) with
  | none => .next s
  | some d =>
    let allBusy := (fromTo 0 8).all (fun i => engBusy s t (Fin.ofNat 8 i))
    let wanted := s.cmds.any (fun w => (canTake s t e 0 w || canTake s t e 1 w) && cmdPrio s w < cmdPrio s d)
    if allBusy && wanted && atBoundary d && !neverYields d then .next (s.updCmd d.id (fun x => { x with st := .queued })) else .next s

/-- A block's fill completes (R171, R172): for the context or Cellarer named, the block of a producer. -/
def execBlockFillComplete (s : State) : Out :=
  let settle (b : Block) (l : List Block) : List Block :=
    if b.released then l.filter (fun x => x != b)
    else mapWhere (fun x => x == b) (fun x => x.filled s (if s.arg.flag then s.arg.tile else tileOf s.arg.core)) l
  if s.arg.flag then
    let t := s.arg.tile
    match (s.cell t).blocks.find? (fun b => b.filling && b.prod == s.arg.id) with
    | none => .next s
    | some b => .next ((s.fillBlock t b).updCell t (fun c => { c with blocks := settle b c.blocks }))
  else
    let c := s.arg.core
    let k := s.arg.ctx
    match (s.ctx c k).blocks.find? (fun b => b.filling && b.prod == s.arg.id) with
    | none => .next s
    | some b => .next ((s.fillBlock (tileOf c) b).updCtx c k (fun x => { x with blocks := settle b x.blocks }))

end Sys2Proof.Machine
end

