-- ==== Sys2Proof/Machine/Context.lean ====
section
/-! DEFINITION. Machine/Context.lean: the saved form of a context, and saving and restoring one (R26, R36, R234, R260,
R273-R275, R319). -/

namespace Sys2Proof.Machine

/-! ## Serialised pieces (R273, R274, R319) -/

def le8 (w : Word) : List Byte := bytesOf 8 w.toNat
def zeroBytes (n : Nat) : List Byte := List.replicate n 0

/-- A cell of an accumulator in 8 bytes (R274). -/
def cellBits (int : Bool) (a : AccCell) : Nat :=
  if int then a.i.toNat
  else
    let top (neg : Bool) : Nat := (if a.s then 2 ^ 63 else 0) + (if neg then 2 ^ 34 else 0)
    match a.f with
    | .nan => top false + 255 * 2 ^ 26 + 0x2000000
    | .inf n => top n + 255 * 2 ^ 26
    | .fin n m e =>
      if m = 0 then top n
      else
        let l := ilog m e
        let q : Int := if -126 ≤ l then l - 26 else -152
        let t : Nat := if q ≤ e then m * pow2 (e - q) else m / pow2 (q - e)
        top n + (if -126 ≤ l then (l + 127).toNat * 2 ^ 26 else 0) + t % 2 ^ 26

/-- A cell from its 8 bytes. -/
def cellOf (int : Bool) (n : Nat) : AccCell :=
  if int then { i := BitVec.ofNat 32 n }
  else
    let neg := n.testBit 34
    let e : Nat := n / 2 ^ 26 % 256
    let f : Nat := n % 2 ^ 26
    let v : FVal :=
      if e = 255 then (if f = 0 then .inf neg else .nan)
      else if e = 0 then .fin neg f (-152)
      else .fin neg (2 ^ 26 + f) ((e : Int) - 153)
    { f := v, s := n.testBit 63 }

/-- A plane: cell (i, j) at 8 × (96i + j). -/
def planeBytes (p : Plane) : List Byte :=
  (fromTo 0 128).flatMap (fun i => (fromTo 0 96).flatMap (fun j => bytesOf 8 (cellBits p.int (p.cell i j))))

def planeOf (int : Bool) (bs : List Byte) : Plane :=
  { int := int, rows := (chunks 768 128 bs).map (fun r => (chunks 8 96 r).map (fun c => cellOf int (leNat c))) }

/-- A token's byte. -/
def tokByte (t : TokS) : Byte := BitVec.ofNat 8 (t.p % 64 + (if t.armed then 128 else 0))

/-- A block record of 16 bytes. -/
def blockRec (b : Block) : List Byte := bytesOf 8 b.ea ++ bytesOf 1 b.tok.val ++ bytesOf 1 (b.lines - 1) ++ [1] ++ zeroBytes 5

/-- The block records of a context. -/
def blockBytes (l : List Block) : List Byte :=
  let held := (l.filter (fun b => !b.released)).take 8
  held.flatMap blockRec ++ zeroBytes (16 * (8 - held.length))

/-- A deferral entry. -/
def dentBits (d : DEnt) : Nat := d.v.toNat + (if d.s then 2 ^ 32 else 0) + d.idx % 512 * 2 ^ 33 + d.tag % 64 * 2 ^ 42

def dentOf (n : Nat) : DEnt := { v := BitVec.ofNat 32 n, s := n.testBit 32, idx := n / 2 ^ 33 % 512, tag := n / 2 ^ 42 % 64 }

/-- The routine index of a command. -/
def MCmd.idx (m : MCmd) : Nat :=
  match m.op with
  | .mcall i => i
  | _ => 0

/-- The produced token of an outstanding producer. -/
def prodTok (s : State) (id : Nat) : Nat :=
  match s.prods.find? (fun p => p.id == id) with
  | some p => p.tok.val
  | none => 0

/-- Scales as bytes; absent ones are zeros. -/
def scaleBytes (n : Nat) (l : Option (List W32)) : List Byte :=
  match l with
  | some ws => ws.flatMap (fun w => bytesOf 4 w.toNat)
  | none => zeroBytes (4 * n)

/-- The suspended-routine record. -/
def suspBytes (s : State) (r : Option Routine) : List Byte :=
  match r with
  | none => zeroBytes 1024
  | some r =>
    let latch (l : Option PLatch) (at_ : Nat) : Nat := match l with
      | some p => (1 + p.rack % 8 * 2) * 2 ^ at_
      | none => 0
    let count (l : Option PLatch) : Nat := match l with
      | some p => p.n
      | none => 0
    let w0 := 1 + latch r.la 1 + latch r.lb 5 + (if r.rows.isSome then 2 ^ 9 else 0) + (if r.cols.isSome then 2 ^ 10 else 0)
      + r.pc % 4096 * 2 ^ 12 + r.cmd.idx % 256 * 2 ^ 24 + prodTok s r.cmd.prod * 2 ^ 32
    bytesOf 8 w0 ++ bytesOf 4 (count r.la) ++ bytesOf 4 (count r.lb) ++
      (fromTo 0 4).flatMap (fun i => bytesOf 2 (mapGet 0 r.lc i)) ++
      (fromTo 0 8).flatMap (fun i => le8 (mapGet 0 r.mp i)) ++ le8 r.cmd.fr ++ zeroBytes 32 ++
      scaleBytes 128 r.rows ++ scaleBytes 96 r.cols

/-- The fabric state of a task (R319). -/
def fabricBytes (s : State) (c : CoreId) (x : Ctx) : List Byte :=
  (fromTo 0 256).flatMap (fun n =>
    let h := s.hnd (Fin.ofNat 256 n)
    let src := isSrc x c h
    let dst := isDst x c h
    if src || dst then
      bytesOf 4 (if src then h.nextCk else 0) ++ bytesOf 4 (if dst then h.headCk else 0) ++
        bytesOf 1 ((if src then 1 else 0) + (if dst then 2 else 0)) ++ zeroBytes 7
    else zeroBytes 16)

/-- The deferral queue of a context that is saved, with the straddling pushes that a re-entry would replay: a save area holds none
(R211, R273). -/
def Ctx.dqAll (x : Ctx) : List DEnt := x.dq ++ x.dqOld.flatMap (·.ents)

/-- The saved form of a context up to its Loop footprint: 0x6_0000 bytes. -/
def saveHead (s : State) (c : CoreId) (x : Ctx) : List Byte :=
  let h := x.hart
  let w2 := x.reg.caskmax % 1024 + x.reg.blim % 16 * 2 ^ 10 + (if x.reg.anon then 2 ^ 14 else 0) + x.reg.rrc % 16 * 2 ^ 16
    + (if x.reg.yield then 2 ^ 20 else 0) + x.bar % 2 ^ 32 * 2 ^ 32
  let full : Word × Word := match x.latch with
    | .full m _ => (1, m)
    | _ => (0, 0)
  let tags := h.b.toNat + (if x.acc0.int then 2 ^ 16 else 0) + (if x.acc1.int then 2 ^ 17 else 0) + x.dqAll.length % 4096 * 2 ^ 32
  bytesOf 8 1 ++ bytesOf 8 h.pc ++ bytesOf 8 w2 ++ le8 h.fr ++ le8 h.flags ++ le8 h.fevt0 ++ le8 h.fevt1 ++ le8 x.arg ++
    le8 x.mswin ++ le8 full.1 ++ le8 full.2 ++ le8 h.sp ++ le8 x.vp ++ bytesOf 8 tags ++
    (fromTo 0 32).map (fun i => tokByte (h.tok (Fin.ofNat 32 i))) ++ zeroBytes 32 ++ blockBytes x.blocks ++ zeroBytes 208 ++
    (fromTo 0 64).flatMap (fun i => le8 (h.rs (Fin.ofNat 64 i))) ++
    (fromTo 0 8).flatMap (fun i => le8 (x.rmp i)) ++
    (fromTo 0 8).flatMap (fun i => bytesOf 64 (x.rm (Fin.ofNat 8 i)).toNat) ++
    (fromTo 0 8).flatMap (fun i => le8 (mapGet 0 x.rkcfg i)) ++ (fromTo 0 8).flatMap (fun i => le8 (mapGet 0 x.rkptr i)) ++
    zeroBytes 64 ++ suspBytes s x.susp ++ zeroBytes 256 ++
    (x.dqAll.take 2048).flatMap (fun d => bytesOf 8 (dentBits d)) ++ zeroBytes (8 * (2048 - x.dqAll.length)) ++
    (fromTo 0 64).flatMap (fun i => imageOf (x.rv (Fin.ofNat 64 i))) ++ planeBytes x.acc0 ++ planeBytes x.acc1 ++
    fabricBytes s c x ++
    (fromTo 0 4096).flatMap (fun i => if i < x.mslen then le8 (mapGet 0 (s.core c).mstore (x.msbase + i)) else zeroBytes 8) ++
    zeroBytes 5120

/-! ## The Loop footprint (R234, R273) -/

/-- The panels from HEAD to TAIL - 1 of a rack, as Loop ranges with their panel counts. -/
def livePanels (x : Ctx) (n : Nat) : List (Nat × Nat) :=
  let p := x.rp n
  if rkCap (x.rk n) = 0 then []
  else (fromTo 0 (rkHeld p)).map (fun i =>
    let q := (rkHead p + i) % 2 ^ 32
    (panelOff (x.rk n) q, q))

/-- The ranges of the Loop that a save leaves out: the live panels of racks with RO = 1. -/
def roRanges (x : Ctx) : List (Nat × Nat) :=
  (fromTo 0 8).flatMap (fun n =>
    if (x.rk n).getLsbD 63 then (livePanels x n).map (fun (p : Nat × Nat) => (p.1, panelLen (x.rk n))) else [])

/-- What remains of a range after other ranges are cut out of it. -/
def cutRanges (lo len : Nat) : List (Nat × Nat) → List (Nat × Nat)
  | [] => if len = 0 then [] else [(lo, len)]
  | (a, n) :: l =>
    if len = 0 then []
    else if a + n ≤ lo || lo + len ≤ a then cutRanges lo len l
    else cutRanges lo (a - lo) l ++ cutRanges (max lo (a + n)) (lo + len - max lo (a + n)) l

/-- The written parts of a footprint: Loop offset and length. -/
def savedParts (x : Ctx) : List (Nat × Nat) := cutRanges (x.fpUnit * 65536) (x.fpCnt * 65536) (roRanges x)

/-! ## When a context can be saved (R26, R34, R234, R273) -/

/-- The context is at rest: nothing of it is in flight, no write or command of it waits, its record is delivered, and no
matrix work runs. -/
def canSave (s : State) (c : CoreId) (k : CtxId) : Bool :=
  let x := s.ctx c k
  x.hart.pend.isEmpty && x.hart.frq.isEmpty && x.reqs.isEmpty && x.wbuf.isEmpty && x.redfl.isEmpty && x.batches.isEmpty &&
    x.dqIn.isEmpty && x.frec.isNone && ((s.core c).matrixBusy k).isEmpty &&
    (match x.latch with
     | .pending _ => false
     | _ => true) &&
    !((s.core c).drains.any (fun d => d.ctx == k)) && !((s.core c).shrs.any (fun d => d.ctx == k)) &&
    !(s.loopq.any (fun a => a.core == c && a.ctx == k)) &&
    (x.st == .ready || x.st == .parked)

/-- Fills of a context's blocks complete. -/
def State.fillAll (s : State) (t : TileId) : List Block → State
  | [] => s
  | b :: l => (if b.filling then s.fillBlock t b else s).fillAll t l

/-- The fault record of a save: flagged CELL, to the host (R273). It names no fault of a task: it is a report, dropped and counted when
the host's ring is full (R271). -/
def State.hostRec (s : State) (t : TileId) (r : FRec) : State := s.reportTo t (.host none) r

/-- Write pieces of bytes at offsets of a save area, through the task's translation. -/
def State.saveParts (s : State) (t : TileId) (asid base : Nat) : List (Nat × List Byte) → State
  | [] => s
  | (off, bs) :: l =>
    match xlateSegs s false t none asid .write (segFuel bs.length) ((base + off) % 2 ^ 56) bs.length with
    | .ok (segs, _) => (s.putSegs t segs bs).saveParts t asid base l
    | .error _ => s.saveParts t asid base l

/-- What a save writes, by offset in the save area. -/
def saveAll (s : State) (c : CoreId) (x : Ctx) : List (Nat × List Byte) :=
  (0, saveHead s c x) ::
    (savedParts x).map (fun (p : Nat × Nat) => (0x60000 + (p.1 - x.fpUnit * 65536), s.bytesAt 0 (loopKey c p.1) p.2))

/-- The first fault that a write of the whole save area would meet. -/
def saveFault (s : State) (t : TileId) (x : Ctx) : Option XF :=
  let n := 0x60000 + x.fpCnt * 65536
  match xlateSegs s false t none x.asid.toNat .write (segFuel n) (x.save % 2 ^ 56) n with
  | .ok _ => none
  | .error f => some f

/-- What a saved member keeps beside its save area. -/
def keepOf (g : Gang) (x : Ctx) : Keep :=
  let total := wbits (g.pkt.getD 5 0) 16 16 * 2 ^ 20
  { rerun := x.rerun, used := match x.wdog with
      | some n => total - n
      | none => 0, acqRet := x.acqRet, acqPkg := x.acqPkg, perfAt := x.perfAt,
    suspPc := x.susp.elim 0 (·.cmd.pc), suspFl := x.susp.elim 0 (·.fl) }

/-- Save a context that is at rest and free it (R26); a fault of its save area abandons the save (R273): its record is a report, DISP
5, as R273 gives it no disposition of a task (DESIGN CHOICE, log 77). Flags that have come back stand in FLAGS first. -/
def State.saveNow (s : State) (c : CoreId) (k : CtxId) : State × Bool :=
  let x := s.ctx c k
  let t := tileOf c
  let gid := x.gang.toNat
  match saveFault s t x, s.gang gid with
  | some f, _ =>
    ((s.updCtx c k (fun y => { y with saving := false })).hostRec t
      (mkRec f.code 5 0xFF 2 0xFFFF x.asid.toNat x.taskid x.gang 0 f.addr s.gt 0 f.cause f.detail), false)
  | none, none => ((s.updCtx c k (fun y => { y with saving := false })), false)
  | none, some g =>
    let s1 := s.fillAll t x.blocks
    let y := (s1.ctx c k).landFlagsOf []
    let s2 := s1.saveParts t y.asid.toNat y.save (saveAll s1 c y)
    ((s2.freeCtxAt c k).updMember gid c (fun m => { m with st := .saved (y.st == .parked), keep := keepOf g y }), true)

/-! ## Restoring (R227, R234, R260, R275, R319) -/

/-- A slice of bytes. -/
def sl (bs : List Byte) (off n : Nat) : List Byte := (bs.drop off).take n
def slW (bs : List Byte) (off : Nat) : Word := BitVec.ofNat 64 (leNat (sl bs off 8))

/-- Words of a sparse map from consecutive slices. -/
def slMap (bs : List Byte) (off n : Nat) : NMap Word :=
  (fromTo 0 n).filterMap (fun i => let w := slW bs (off + 8 * i); if w = 0 then none else some (i, w))

/-- A token from its byte. -/
def tokOf (b : Byte) : TokS := { armed := b.getLsbD 7, p := b.toNat % 64 }

/-- The suspended routine of a save area; its command is one of the context that restores it. -/
def suspOf (s : State) (o : Owner) (k : CtxId) (kp : Keep) (bs : List Byte) : Option Routine :=
  let w0 := leNat (sl bs 0 8)
  if w0 % 2 = 0 then none
  else
    let latch (at_ cnt : Nat) : Option PLatch :=
      if w0.testBit at_ then some { rack := w0 / 2 ^ (at_ + 1) % 8, n := leNat (sl bs cnt 4) } else none
    let tok : Tok := Fin.ofNat 32 (w0 / 2 ^ 32 % 32)
    let prod := match s.prods.find? (fun p => p.owner == o && p.tok == tok && p.rout) with
      | some p => p.id
      | none => 0
    let m : MCmd := { id := s.fresh, ctx := k, pc := kp.suspPc, op := .mcall (w0 / 2 ^ 24 % 256), prod := prod, waits := [], mp := [],
                      fr := slW bs 0x58, comm := true }
    some { cmd := m, pc := w0 / 2 ^ 12 % 4096,
           lc := (fromTo 0 4).map (fun i => (i, leNat (sl bs (0x10 + 2 * i) 2))),
           mp := slMap bs 0x18 8, la := latch 1 8, lb := latch 5 12,
           rows := if w0.testBit 9 then some ((chunks 4 128 (sl bs 0x80 512)).map (fun b => BitVec.ofNat 32 (leNat b))) else none,
           cols := if w0.testBit 10 then some ((chunks 4 96 (sl bs 0x280 384)).map (fun b => BitVec.ofNat 32 (leNat b))) else none,
           started := true, fl := kp.suspFl }

/-- A block from its record; its lines are found again by translation. -/
def blockOf (s : State) (t : TileId) (asid : Nat) (r : List Byte) : Option Block :=
  if (r.getD 10 0) = 0 then none
  else
    let ea := leNat (sl r 0 8)
    let lines := (r.getD 9 0).toNat + 1
    let keys := match xlateSegs s true t none asid .read (segFuel (64 * lines)) (ea % 2 ^ 56) (64 * lines) with
      | .ok (segs, _) => blockLines segs
      | .error _ => []
    some { tok := Fin.ofNat 32 (r.getD 8 0).toNat, ea := ea, lines := lines, keys := keys, prod := 0, filling := false }

/-- Restored blocks pin again the lines that their tile can pin (R246). -/
def pinBlocks (s : State) (t : TileId) (pins : List (Nat × Nat)) : List Block → List Block
  | [] => []
  | b :: l =>
    let p := pinLines s t pins b.keys
    { b with pins := p } :: pinBlocks s t (p ++ pins) l

/-- The context that a save area holds, over the fresh one that its reservation gave it. Reserved bits of its registers read 0 (R4). -/
def ctxOfSave (s : State) (c : CoreId) (k : CtxId) (x : Ctx) (kp : Keep) (parked : Bool) (bs : List Byte) : Ctx :=
  let w2 := slW bs 0x10
  let pc := (slW bs 0x08).toNat
  let w68 := slW bs 0x68
  let n := wbits w68 32 12
  let full := leNat (sl bs 0x48 8) % 2 = 1
  let h : Hart :=
   { x.hart with
    s := slMap bs 0x200 64, sp := slW bs 0x58, b := w68.setWidth 16,
    tk := (fromTo 0 32).map (fun i => (i, tokOf (bs.getD (0x70 + i) 0))),
    fr := slW bs 0x18 &&& 0x7FFF, flags := slW bs 0x20 &&& 0x3FFFFFFFFFF, fevt0 := slW bs 0x28 &&& 0xFFFFFFFFFFFFFF,
    fevt1 := slW bs 0x30 &&& 0x8000000001FF00FF, pc := pc }
  let y : Ctx :=
   { x with
    st := if parked then .parked else .ready, hart := h, arg := slW bs 0x38, etab := wbits (slW bs 0x40) 32 6,
    latch := if full then .full (slW bs 0x50) kp.perfAt else .empty, vp := slW bs 0x60,
    blocks := pinBlocks s (tileOf c) (tilePins s (tileOf c)) ((chunks 16 8 (sl bs 0xB0 128)).filterMap (blockOf s (tileOf c) x.asid.toNat)),
    mp := slMap bs 0x400 8, m := (fromTo 0 8).map (fun i => (i, BitVec.ofNat 512 (leNat (sl bs (0x440 + 64 * i) 64)))),
    rkcfg := (slMap bs 0x640 8).map (fun (p : Nat × Word) => (p.1, p.2 &&& 0xFFFFFFFFFC007FFF)), rkptr := slMap bs 0x680 8,
    susp := suspOf s (x.owner c) k kp (sl bs 0x700 1024),
    dq := (fromTo 0 n).map (fun i => dentOf (leNat (sl bs (0xC00 + 8 * i) 8))),
    v := (fromTo 0 64).map (fun i => (i, ofImage (sl bs (0x4C00 + 2112 * i) 2112))),
    acc0 := planeOf (w68.getLsbD 16) (sl bs 0x25C00 98304), acc1 := planeOf (w68.getLsbD 17) (sl bs 0x3DC00 98304),
    bar := wbits w2 32 32,
    reg := { entry := pc, caskmax := wbits w2 0 10, blim := wbits w2 10 4, anon := w2.getLsbD 14, rrc := wbits w2 16 4,
             yield := w2.getLsbD 20 },
    rerun := kp.rerun, wdog := x.wdog.map (fun d => d - kp.used), acqRet := kp.acqRet, acqPkg := kp.acqPkg, perfAt := kp.perfAt }
  { y with ck := y.checkpoint }

/-- Where the source of a panel lies: in global memory, in the owner's Loop or through the cluster window, as for the command that
filled it (R152, R180, R227). -/
def refetchSegs (s : State) (t : TileId) (c : CoreId) (x : Ctx) (ea len : Nat) : Except XF (List Seg) :=
  let bad : Except XF (List Seg) := .error { code := fAccess, cause := 0, addr := ea }
  match windowOf ea with
  | .bad => bad
  | .glob va =>
    if 2 ^ 56 < va + len then bad
    else (xlateSegs s true t none x.asid.toNat .read (segFuel len) va len).map (·.1)
  | .loop off =>
    if off + len ≤ 2 ^ 21 && inFp x.fpUnit x.fpCnt off len then .ok [{ key := loopKey c off, len := len }] else bad
  | .cluster n off =>
    match s.gang x.gang.toNat with
    | none => bad
    | some g =>
      let l := clusterRuns c 8 n off len
      if 2 ^ 24 < n * 2 ^ 21 + off + len || !(l.all (fun (p : CoreId × Seg) => g.mems.any (fun m => m.core == p.1) &&
          inFp (pktFpUnit g.pkt) (pktFpCnt g.pkt) (p.2.key % 2 ^ 21) p.2.len)) then bad
      else .ok (l.map (·.2))

/-- The bytes of a panel of a read-only rack, fetched again from its recorded source (R227). -/
def refetch (s : State) (t : TileId) (c : CoreId) (x : Ctx) (cfg : Word) (n : Nat) : Except XF (List Byte) :=
  let r := s.bytesAt 0 (loopKey c (sdpOff cfg)) 64
  let w (o : Nat) := leNat (sl r o 4)
  let strd (o : Nat) : Int := (BitVec.ofNat 32 (w o)).toInt
  let base := movedBy (leNat (sl r 0 8)) ((((n + 2 ^ 32 - w 24) % 2 ^ 32 : Nat) : Int) * strd 20)
  let row (i : Nat) : Except XF (List Byte) := (refetchSegs s t c x (movedBy base ((i : Int) * strd 16)) (w 8)).map s.segBytes
  (fromTo 0 (w 12)).foldl (fun (a : Except XF (List Byte)) i =>
    match a, row i with
    | .ok l, .ok b => .ok (l ++ b)
    | .error f, _ => .error f
    | _, .error f => .error f) (.ok [])

/-- Fetch the live panels of the read-only racks of a context again. -/
def State.refetchAll (s : State) (c : CoreId) (x : Ctx) : List (Word × Nat × Nat) → Except XF State
  | [] => .ok s
  | (cfg, off, n) :: l =>
    match refetch s (tileOf c) c x cfg n with
    | .ok bs => (s.putBytes (tileOf c) 0 (loopKey c off) (bs.take (panelLen cfg))).refetchAll c x l
    | .error f => .error f

/-- The live panels of the read-only racks. -/
def roPanels (x : Ctx) : List (Word × Nat × Nat) :=
  (fromTo 0 8).flatMap (fun n =>
    if (x.rk n).getLsbD 63 then (livePanels x n).map (fun (p : Nat × Nat) => (x.rk n, p.1, p.2)) else [])

/-- Subtract the token shadow of an owner from its tokens and free its entry (R260). -/
def State.unshadow (s : State) (t : TileId) (o : Owner) (c : CoreId) (k : CtxId) : State :=
  match (s.tile t).shadow.find? (fun (p : Owner × NMap Nat) => p.1 == o) with
  | none => s
  | some (_, m) =>
    let s1 := s.updTile t (fun x => { x with shadow := x.shadow.filter (fun (p : Owner × NMap Nat) => p.1 != o) })
    let drop (h : Hart) : Hart :=
      m.foldl (fun (h : Hart) (p : Nat × Nat) =>
        let q : Tok := Fin.ofNat 32 p.1
        h.setTok q { (h.tok q) with p := (h.tok q).p - p.2 }) h
    s1.updCtx c k (fun x => { x with hart := drop x.hart })

/-- Loop bytes of a footprint come back at the offsets they had. -/
def State.putParts (s : State) (c : CoreId) (unit : Nat) (bs : List Byte) : List (Nat × Nat) → State
  | [] => s
  | (off, n) :: l => (s.putBytes (tileOf c) 0 (loopKey c off) (sl bs (off - unit * 65536) n)).putParts c unit bs l

/-- Rebind the endpoints that a task held: its counters are those of the save area (R319). -/
def State.rebind (s : State) (c : CoreId) (x : Ctx) (bs : List Byte) : State :=
  { s with handles := s.handles.map (fun (p : Nat × Hnd) =>
      let r := sl bs (16 * p.1) 16
      let h := p.2
      let h1 := if (r.getD 8 0).getLsbD 0 && isSrc x c h then { h with next := leNat (sl r 0 4), nextCk := leNat (sl r 0 4) } else h
      (p.1, if (r.getD 8 0).getLsbD 1 && isDst x c h then { h1 with head := leNat (sl r 4 4), headCk := leNat (sl r 4 4) } else h1)) }

/-- Restore a member into the context that its reservation holds (R275): the Loop, the window and the racks, the re-fetch, the
registers, the token shadow. A fault leaves it saved, its reservation withdrawn (R273). -/
def State.restoreNow (s : State) (gid : Nat) (c : CoreId) (k : CtxId) (parked : Bool) (kp : Keep) : State × Bool :=
  let x := s.ctx c k
  let t := tileOf c
  let n := 0x60000 + x.fpCnt * 65536
  let back := (s.freeCtxAt c k).updMember gid c (fun m => { m with st := .saved parked })
  match xlateSegs s false t none x.asid.toNat .read (segFuel n) (x.save % 2 ^ 56) n with
  | .error _ => (back, false)
  | .ok (segs, _) =>
    let bs := s.segBytes segs
    let y := ctxOfSave s c k x kp parked (bs.take 0x60000)
    let ws := (chunks 8 4096 (sl bs 0x56C00 32768)).map (fun b => BitVec.ofNat 64 (leNat b))
    let s1 := s.updCore c (fun q => { q with mstore := storeWords q.mstore y.msbase (ws.take y.mslen) })
    let s2 := s1.putParts c y.fpUnit (bs.drop 0x60000) (savedParts y)
    match s2.refetchAll c y (roPanels y) with
    | .error _ => (back, false)
    | .ok s3 =>
      let s4 := ((s3.bump.setCtx c k y).rebind c y (sl bs 0x55C00 4096)).unshadow t (y.owner c) c k
      let mine (d : Cmd) : Bool := d.st == CmdSt.parked21 && (match d.owner with
        | .mem g e => g == gid && (e == c || (s4.ctxOf g e).isSome)
        | .cell _ => false)
      let s5 := { s4 with cmds := mapWhere mine (fun d => { d with st := .queued }) s4.cmds }
      (s5.updMember gid c (fun m => { m with st := .resident k }), true)

end Sys2Proof.Machine
end

