-- ==== Sys2Proof/Machine/Vintner.lean ====
section
/-! DEFINITION. Machine/Vintner.lean: the steps of circuit programs, the package timer queue, and the acts of the timed
steps (R296-R301, R315, R320). -/

namespace Sys2Proof.Machine

/-! ## Program faults (R300) -/

/-- The address of a step of a slot. -/
def Slot.addrOf (v : Slot) (idx : Nat) : Nat := (v.first + 16 * idx) % 2 ^ 56

/-- The PEER that a slot has for the source port of a MAKE, when that is a boundary port that it has attached (R342). -/
def Slot.peerFor (v : Slot) (i : Instr) : Nat :=
  match i with
  | .vMake _ srcp _ _ _ _ _ => if 256 ≤ srcp.toNat then mapGet 0 v.peers (srcp.toNat - 256) else 0
  | _ => 0

/-- A MAKE as its queue entry gives it: with the slot's G, ASID, gang and PEER as the step was read (R297, R299, R342). -/
def makeOf (e : TEnt) : Option Make :=
  match e.step with
  | .vMake _ srcp dstp mask sep dep _ =>
    some { srcp := srcp.toNat, dstp := dstp.toNat, mask := mask, sep := sep.toNat, dep := dep.toNat, slot := e.slot, g := e.g,
           asid := e.asid, gang := e.gang, peer := e.peer }
  | _ => none

/-- Timer order (R297): the gt of acting, the slot, the order of reading. -/
def TEnt.before (a b : TEnt) : Bool :=
  if a.at_ != b.at_ then a.at_ < b.at_ else if a.slot != b.slot then a.slot.val < b.slot.val else a.idx < b.idx

/-- The handle of a timed step. -/
def stepHandle : Instr → Option Handle
  | .vMake h _ _ _ _ _ _ => some h
  | .vBreak h _ => some h
  | _ => none

/-- The first of some entries in timer order. -/
def firstEnt : List TEnt → Option TEnt
  | [] => none
  | e :: l => match firstEnt l with
    | none => some e
    | some f => if f.before e then some f else some e

/-- The AT of a timed step. -/
def stepAt : Instr → Nat
  | .vMake _ _ _ _ _ _ a => a.toNat
  | .vBreak _ a => a.toNat
  | .vPark _ _ a => a.toNat
  | .vUnpark _ _ a => a.toNat
  | _ => 0

/-- The queue entry of a timed step that a slot has read in a gt: it acts at its AT, or in the next gt (R297). -/
def Slot.entry (v : Slot) (n : SlotId) (i : Instr) (idx read gt : Nat) : TEnt :=
  { slot := n, g := v.g, step := i, idx := idx, read := read, at_ := max (stepAt i) (gt + 1), asid := v.asid, gang := v.gang,
    peer := v.peerFor i }

/-- Timed steps that have been read and wait at a full queue (R297). -/
def fullSteps (s : State) : List TEnt :=
  s.slots.filterMap (fun (p : Nat × Slot) => p.2.full.map (fun i => p.2.entry (Fin.ofNat 8 p.1) i s.fresh p.2.at_ p.2.fullAt))

/-- The MAKE pending for a handle, if there is one: queued, or read and waiting for the queue (R297). -/
def pendingMake (s : State) (h : Handle) : Option Make :=
  match firstEnt ((s.timerq ++ fullSteps s).filter (fun e => match e.step with
    | .vMake n _ _ _ _ _ _ => n == h
    | _ => false)) with
  | some e => makeOf e
  | none => none

/-- A handle follows its pending MAKE: SCHEDULED while there is one and no light path stands (R297). -/
def State.reschedule (s : State) (n : Handle) : State :=
  let m := pendingMake s n
  s.updHnd n (fun h =>
    let h1 := { h with nxt := m }
    if h.lit then h1
    else if m.isSome then { h1 with st := .scheduled, base := if h.st = .scheduled then h.base else h.st }
    else { h1 with st := if h.st = .scheduled then h.base else h.st })

/-- The handles of some queue entries. -/
def entHandles (l : List TEnt) : List Handle := l.filterMap (fun e => stepHandle e.step)

def State.rescheduleAll (s : State) : List Handle → State
  | [] => s
  | h :: l => (s.reschedule h).rescheduleAll l

/-- The queued timed steps of a slot are cancelled. -/
def State.cancelSteps (s : State) (n : SlotId) : State :=
  let mine := (s.timerq ++ fullSteps s).filter (fun e => e.slot == n)
  ({ s.updSlot n (fun v => { v with full := none }) with timerq := s.timerq.filter (fun e => e.slot != n) }).rescheduleAll (entHandles mine)

/-- A program fault: the slot is faulted and its queued steps are cancelled; its circuits stay (R300). -/
def State.progFault (s : State) (n : SlotId) (cause idx : Nat) : State :=
  let v := s.slot n
  let s1 := (s.updSlot n (fun v => { v with st := 4, wait := none })).cancelSteps n
  s1.fabricRec v.tile 0x30 cause (BitVec.ofNat 64 idx) v.asid v.gang (v.addrOf idx)

/-! ## Reading a step -/

/-- The slot in execution reads a step: its number, its program slot, and the index of the step. -/
def onSlot (s : State) (f : SlotId → Slot → Nat → State) : Out :=
  match s.cur with
  | .slot n => .next (f n (s.slot n) (s.slot n).step)
  | _ => .next s

/-- Go on at a step: VSTAT shows its low 17 bits (R296). -/
def State.goStep (s : State) (n : SlotId) (idx : Nat) : State := s.updSlot n (fun v => { v with step := idx })

/-- A handle lies in the window of a slot. -/
def Slot.inWindow (v : Slot) (h : Handle) : Bool := v.hbase ≤ h.val && h.val ≤ v.hlast

/-- A port that a step of a slot may name (R6, R290). -/
def Slot.portOk (v : Slot) (boundary : Bool) (p : Nat) : Bool :=
  if p < 256 then p % 16 < 14 else p < 320 && boundary && v.ports.contains (Fin.ofNat 64 (p - 256))

/-- An endpoint lies on its port's tile (R294, R300): `inlet` when the code 0x300 is admitted there. -/
def endOk (ep p : Nat) (inlet : Bool) : Bool :=
  if 256 ≤ p then ep = 0x3FF
  else if ep < 512 then ep / 32 = p / 16
  else if ep / 16 = 32 then ep % 16 = p / 16
  else inlet && ep / 16 = 48 && ep % 16 = p / 16

/-- The row of the table that is a timed step's act. -/
def timedAct (i : Instr) : Instr :=
  match i with
  | .vMake _ _ _ _ _ _ _ => .makeAct
  | .vBreak _ _ => .breakAct
  | .vPark _ _ _ => .parkAct
  | _ => .unparkAct

/-- The gt at which a slot has read the timed step that it has before it: now, or when it began to wait at a full queue (R297). -/
def Slot.readAt (v : Slot) (gt : Nat) : Nat := if v.full.isSome then v.fullAt else gt

/-- A timed step enters the timer queue, or waits at a full one; one whose time has come as it enters acts at once (R297). -/
def State.timed (s : State) (n : SlotId) (idx : Nat) (i : Instr) : State :=
  let v := s.slot n
  if 64 ≤ s.timerq.length then
    let s1 := s.updSlot n (fun v => { v with full := some i, at_ := idx, step := idx + 1, fullAt := v.readAt s.gt })
    match stepHandle i with
    | some h => s1.reschedule h
    | none => s1
  else
    let e := v.entry n i s.fresh idx (v.readAt s.gt)
    let now : List Act := if e.at_ ≤ s.gt then [.ev (timedAct i) {}] else []
    let s1 := ({ s with timerq := s.timerq ++ [e], fresh := s.fresh + 1, agenda := now ++ s.agenda }).updSlot n (fun v =>
      { v with full := none, step := idx + 1 })
    match stepHandle i with
    | some h => s1.reschedule h
    | none => s1

/-- The jump target of a displacement, or a program fault of cause 9: `seen` records have been read. -/
def stepTarget (v : Slot) (idx : Nat) (disp : BitVec 24) : Option Nat :=
  let t := (idx : Int) + disp.toInt
  if 0 ≤ t && t < (v.seen : Int) + 131071 then some t.toNat else none

/-- The LATE of a timed step's checks at reading: the first rule broken (R300). -/
def makeBad (v : Slot) (bd : Bool) (h : Handle) (srcp dstp sep dep : Nat) (mask : BitVec 8) : Option Nat :=
  if !v.inWindow h then some 2
  else if !v.portOk bd srcp || !v.portOk bd dstp || (256 ≤ srcp && 256 ≤ dstp) then some 4
  else if !endOk sep srcp false || !endOk dep dstp (256 ≤ srcp) then some 5
  else if ones8 mask < 2 then some 6
  else none

def execVMake (h : Handle) (srcp dstp : BitVec 9) (wmask : BitVec 8) (sep dep : BitVec 10) (at_ : Word) (s : State) : Out :=
  onSlot s (fun n v idx =>
    match makeBad v s.boundary h srcp.toNat dstp.toNat sep.toNat dep.toNat wmask with
    | some c => s.progFault n c idx
    | none => s.timed n idx (.vMake h srcp dstp wmask sep dep at_))

def execVBreak (h : Handle) (at_ : Word) (s : State) : Out :=
  onSlot s (fun n v idx => if v.inWindow h then s.timed n idx (.vBreak h at_) else s.progFault n 2 idx)

def execVPark (port : BitVec 9) (wmask : BitVec 8) (at_ : Word) (s : State) : Out :=
  onSlot s (fun n v idx => if v.portOk s.boundary port.toNat then s.timed n idx (.vPark port wmask at_) else s.progFault n 4 idx)

def execVUnpark (port : BitVec 9) (wmask : BitVec 8) (at_ : Word) (s : State) : Out :=
  onSlot s (fun n v idx => if v.portOk s.boundary port.toNat then s.timed n idx (.vUnpark port wmask at_) else s.progFault n 4 idx)

/-- Where a WAITQ goes on whose deadline has come: TDISP 0 falls through. -/
def Slot.overdue (v : Slot) (idx : Nat) (tdisp : BitVec 24) : Nat :=
  if tdisp.toNat = 0 then idx + 1 else (stepTarget v idx tdisp).getD (idx + 1)

/-- HOLD: the next step is read at the first later gt with GT at AT (R299). -/
def execVHold (at_ : Word) (s : State) : Out :=
  onSlot s (fun n _ idx => (s.goStep n (idx + 1)).updSlot n (fun v => { v with st := 2, wait := some (.vHold at_, s.gt) }))

/-- The FLITS depth of a handle's queue (R312). -/
def queueDepth (s : State) (h : Handle) : Nat := (s.hnd h).rq.length

/-- WAITQ (R299): it falls through at once when the depth suffices, and goes on at its other step at once when its deadline has come. -/
def execVWaitq (h : Handle) (thresh : BitVec 11) (tdisp : BitVec 24) (deadline : Word) (s : State) : Out :=
  onSlot s (fun n v idx =>
    if !v.inWindow h then s.progFault n 2 idx
    else if (stepTarget v idx tdisp).isNone then s.progFault n 9 idx
    else if thresh.toNat ≤ queueDepth s h then s.goStep n (idx + 1)
    else if deadline.toNat ≤ s.gt then s.goStep n (v.overdue idx tdisp)
    else (s.goStep n (idx + 1)).updSlot n (fun v => { v with st := 3, wait := some (.vWaitq h thresh tdisp deadline, s.gt), at_ := idx }))

/-- SIGNAL acts as SEMSIG does (R185, R299). -/
def execVSignal (sem : BitVec 16) (sop : BitVec 2) (value : Word) (s : State) : Out :=
  onSlot s (fun n _ idx => (s.goStep n (idx + 1)).semOp sop.toNat sem value)

def execVJump (disp : BitVec 24) (s : State) : Out :=
  onSlot s (fun n v idx => match stepTarget v idx disp with
    | some t => s.goStep n t
    | none => s.progFault n 9 idx)

/-- LOOP acts on a counter of the slot as `mo.loop` does (R224, R299). -/
def execVLoop (lc : BitVec 2) (count : BitVec 16) (disp : BitVec 24) (s : State) : Out :=
  onSlot s (fun n v idx => match stepTarget v idx disp with
    | none => s.progFault n 9 idx
    | some t =>
      let old := mapGet 0 v.lc lc.toNat
      let m := (if old = 0 then count.toNat else old) - 1
      (s.goStep n (if 0 < m then t else idx + 1)).updSlot n (fun v => { v with lc := mapSet v.lc lc.toNat m }))

def execVGen (s : State) : Out :=
  onSlot s (fun n v idx => (s.goStep n (idx + 1)).updSlot n (fun w => { w with g := (v.g + 1) % 16 }))

/-- ATTACH claims an established boundary port whose far package is the peer (R6, R299, R300). -/
def execVAttach (bport : BitVec 6) (peer : BitVec 16) (s : State) : Out :=
  onSlot s (fun n _ idx =>
    let b : Fin 64 := Fin.ofNat 64 bport.toNat
    let other := (fromTo 0 8).any (fun m => m != n.val && (s.slot (Fin.ofNat 8 m)).ports.contains b)
    if s.boundary && mapHas s.links b.val && mapGet 0 s.links b.val = peer.toNat && !other then
      (s.goStep n (idx + 1)).updSlot n (fun v =>
        { v with ports := if v.ports.contains b then v.ports else b :: v.ports, peers := mapSet v.peers b.val peer.toNat })
    else s.progFault n 11 idx)

/-- END: the slot becomes idle; queued timed steps still act. -/
def execVEnd (s : State) : Out := onSlot s (fun n _ idx => (s.goStep n (idx + 1)).updSlot n (fun v => { v with st := 0 }))

/-! ## Waiting steps (R299) -/

/-- A slot in HOLD goes on at the first later gt with GT at AT. -/
def execHoldExpiry (s : State) : Out :=
  let n := s.arg.slot
  let v := s.slot n
  match v.wait with
  | some (.vHold at_, read) =>
    if v.st = 2 && read < s.gt && at_.toNat ≤ s.gt then .next (s.updSlot n (fun v => { v with st := 1, wait := none })) else .next s
  | _ => .next s

/-- A slot in WAITQ whose queue has reached its threshold falls through: its next step is read in the following gt (R297, R299). -/
def State.waitqCheck (s : State) (n : SlotId) : State :=
  let v := s.slot n
  match v.wait with
  | some (.vWaitq h thresh _ _, _) =>
    if v.st = 3 && thresh.toNat ≤ queueDepth s h then
      (s.goStep n (v.at_ + 1)).updSlot n (fun v => { v with st := 1, wait := none, cycled := true })
    else s
  | _ => s

/-- The deadline of a WAITQ: a threshold met in the same gt prevails. -/
def execWaitqDeadline (s : State) : Out :=
  let n := s.arg.slot
  let s1 := s.waitqCheck n
  let v := s1.slot n
  match v.wait with
  | some (.vWaitq _ _ tdisp deadline, _) =>
    if v.st = 3 && deadline.toNat ≤ s.gt then
      .next ((s1.goStep n (v.overdue v.at_ tdisp)).updSlot n (fun v => { v with st := 1, wait := none, cycled := true }))
    else .next s1
  | _ => .next s1

/-- The package grid position of a tile, column and row (R9). No act below reads it: circuits through the Trellis are non-blocking
between any two ports, and a MAKE fixes their timing whatever the distance. -/
def gridPos (t : TileId) : Nat × Nat := (2 * (t.val / 4 % 2) + t.val % 2, 2 * (t.val / 8) + t.val % 4 / 2)

/-! ## The acts of the timed steps (R291, R297-R300, R315, R320) -/

/-- The entry of the timer queue that acts next, when its gt has come. -/
def dueEnt (s : State) : Option TEnt :=
  match firstEnt s.timerq with
  | some e => if e.at_ ≤ s.gt then some e else none
  | none => none

/-- An entry leaves the queue as it acts; an act after its AT adds to LATE. -/
def State.leaveQueue (s : State) (e : TEnt) : State :=
  ({ s with timerq := s.timerq.filter (fun f => f.idx != e.idx) }).updSlot e.slot (fun v =>
    if stepAt e.step < s.gt then { v with late := min (v.late + 1) 255 } else v)

/-- A mask meets another live or settling circuit at a port, in the direction of its source or its destination. -/
def maskTaken (s : State) (n : Handle) (srcp dstp : Nat) (mask : BitVec 8) : Bool :=
  s.handles.any (fun (p : Nat × Hnd) => p.1 != n.val && p.2.lit && (p.2.srcp = srcp || p.2.dstp = dstp) && p.2.mask &&& mask != 0)

/-- The tiles of an enclave hold both ends of a circuit, or its slot's ASID is bound: the link key of the slot's
participant (R352). -/
def linkKey (s : State) (m : Make) : Option (List Byte) :=
  match boundPart s m.asid with
  | some p => some p.link
  | none =>
    let inOne := s.encs.any (fun e =>
      (match endTile m.sep with
       | some t => e.tiles.contains t
       | none => false) &&
      (match endTile m.dep with
       | some t => e.tiles.contains t
       | none => false))
    if inOne then
      some ((s.encs.flatMap (fun e => e.parts)).find? (fun p => p.asids.contains m.asid) |>.elim [] (fun p => p.link))
    else none

/-- A MAKE acts: the handle takes what it gives. New endpoints empty the queue and start the sequence numbers again; what a BREAK
caught under the old ones is reported gone when its time comes (R295, R299, R307, R352). -/
def State.makeNow (s : State) (n : Handle) (m : Make) : State :=
  let h := s.hnd n
  let same := h.base != .free && h.sep = m.sep && h.dep = m.dep
  let lost : List Caught := match same, h.unacked with
    | false, f :: _ => [{ seq := f.sq, gt := h.brokeAt, tile := hndTile s h, asid := h.asid, gang := h.gang }]
    | _, _ => []
  let key := (linkKey s m).map (fun k => Config.hkdf k (bytesOf 1 n.val ++ bytesOf 1 m.g ++ bytesOf 8 s.gt))
  let h1 : Hnd := if same then h else { h with next := 0, nextCk := 0, sentTo := 0, expect := 0, head := 0, headCk := 0, limit := 1024,
                                               rq := [], poppedF := [], unacked := [], credAt := 0, linkTo := 0,
                                               caught := h.caught ++ lost }
  s.setHnd n { h1 with st := .settling, base := .settling, srcp := m.srcp, dstp := m.dstp, mask := m.mask, sep := m.sep, dep := m.dep,
                        g := m.g, slot := some m.slot, asid := m.asid, gang := m.gang, madeAt := s.gt, tmo := 0, hello := false, ver := 0,
                        nxt := none, key := key, wire := [], wireEnd := 0, dying := 0, peer := m.peer }

/-- The next timed step acts, when it is a MAKE. Only another light path that shares a wavelength of its own ports can keep it from
settling: between any two ports the Trellis does not block (R9). -/
def execMakeAct (s : State) : Out :=
  match dueEnt s with
  | some e =>
    match e.step, makeOf e with
    | .vMake n _ _ _ _ _ _, some m =>
      let s1 := s.leaveQueue e
      let h := s1.hnd n
      let made := h.base != .free
      if h.lit then .next ((s1.reschedule n).progFault e.slot 3 e.read)
      else if maskTaken s1 n m.srcp m.dstp m.mask then .next ((s1.reschedule n).progFault e.slot 6 e.read)
      else if made && (h.sep != m.sep || h.dep != m.dep) && h.g = m.g then .next ((s1.reschedule n).progFault e.slot 7 e.read)
      else .next ((s1.makeNow n m).reschedule n)
    | _, _ => .next s
  | none => .next s

/-- A BREAK acts: the light path goes, and a handle that has been made is BROKEN (R299; a FREE one was never made, log 46). -/
def Hnd.break_ (gt : Nat) (h : Hnd) : Hnd :=
  if h.lit then { h.fall .broken with brokeAt := gt }
  else match h.st with
    | .dead => { h with st := .broken, base := .broken }
    | .scheduled => if h.base = .dead then { h with base := .broken } else h
    | _ => h

/-- The next timed step acts, when it is a BREAK. -/
def execBreakAct (s : State) : Out :=
  match dueEnt s with
  | some e =>
    match e.step with
    | .vBreak n _ =>
      .next ((s.leaveQueue e).updHnd n (·.break_ s.gt))
    | _ => .next s
  | none => .next s

/-- A live circuit would be left with a width below 2. -/
def parkNarrows (s : State) (port : Nat) (mask : BitVec 8) : Bool :=
  s.handles.any (fun (p : Nat × Hnd) => p.2.st == .live && p.2.srcp = port &&
    ones8 (activeOf s p.2.srcp p.2.dstp p.2.mask &&& ~~~mask) < 2 && p.2.mask &&& mask != 0)

/-- The next timed step acts, when it is a PARK: a waking wavelength is parked too (R315, R320). -/
def execParkAct (s : State) : Out :=
  match dueEnt s with
  | some e =>
    match e.step with
    | .vPark port mask _ =>
      let s1 := s.leaveQueue e
      let p := port.toNat
      if parkNarrows s1 p mask then .next (s1.progFault e.slot 8 e.read)
      else
        let x := s1.port p
        let s2 := s1.setPort p { x with parked := x.parked ||| mask, waking := x.waking.filter (fun w => !mask.getLsbD w.lam.val) }
        .next (s2.dieNarrow s1 s2.handles)
    | _ => .next s
  | none => .next s

/-- The wavelengths that an UNPARK wakes, with their locks (R315). -/
def wakes (gt : Nat) (m : BitVec 8) : List Waking :=
  let ls := (fromTo 0 8).filter (fun i => m.getLsbD i)
  List.zipWith (fun i k => { lam := Fin.ofNat 8 i, lock := gt + 2400 + 64 * (k + 1) : Waking }) ls (fromTo 0 8)

/-- The next timed step acts, when it is an UNPARK. -/
def execUnparkAct (s : State) : Out :=
  match dueEnt s with
  | some e =>
    match e.step with
    | .vUnpark port mask _ =>
      let s1 := s.leaveQueue e
      let p := port.toNat
      let x := s1.port p
      let m := mask &&& x.parked &&& ~~~x.failed
      .next (s1.setPort p { x with parked := x.parked &&& ~~~m, waking := x.waking ++ wakes s.gt m })
    | _ => .next s
  | none => .next s

end Sys2Proof.Machine
end

