-- ==== Sys2Proof/Machine/Cellarer.lean ====
section
/-! DEFINITION. Machine/Cellarer.lean: the S syllables of the Cellarer, event entry, its timer, and translation walks and
invalidation (R280, R281, R286, R321-R332, R340). -/

namespace Sys2Proof.Machine

/-! ## Shapes -/

/-- A meaning of the Cellarer in execution; a core that comes to an S syllable takes the privilege fault (R81). -/
def onCell (s : State) (f : TileId → Cell → State) : Out :=
  match s.cur with
  | .cell t => .next (f t (s.cell t))
  | .core _ _ => .next (s.raise { code := fPriv })
  | _ => .next s

/-- An S result lands 4 ic after its operation completes (R99, R321). -/
def Cell.outS (x : Cell) (r : Reg) (v : Word) : Cell := { x with hart := x.hart.outS 4 r v false }

/-- Several results, register by register. -/
def Cell.outRun (x : Cell) (r : Reg) : Nat → List Word → Cell
  | _, [] => x
  | i, w :: l => (x.outS (Fin.ofNat 64 (r.val + i)) w).outRun r (i + 1) l

/-- A result code. -/
def State.code (s : State) (t : TileId) (r : Reg) (n : Nat) : State := s.updCell t (fun x => x.outS r (BitVec.ofNat 64 n))

/-- The core that a register names in bits 8:0, when it lies on the tile (R326). -/
def coreOf (t : TileId) (w : Word) : Option CoreId :=
  let c : CoreId := Fin.ofNat 512 (wbits w 0 9)
  if tileOf c = t then some c else none

/-! ## Control registers (R324) -/

def execCsrr (sd : Reg) (ix : BitVec 12) (s : State) : Out :=
  onCell s (fun t _ => s.updCell t (fun x => x.outS sd (cellReg s t ix.toNat)))

def execCsrw (ix : BitVec 12) (sb : Reg) (s : State) : Out :=
  onCell s (fun t x => s.cellRegWrite (.cell t) t ix.toNat (x.hart.rs sb))

/-! ## Invalidation and walks (R280, R281) -/

/-- What an invalidation covers: 0 an ASID, 1 a page, 2 everything. -/
def tlbiCovers (kind asid va : Nat) (e : TlbEnt) : Bool :=
  if kind = 0 then e.asid = asid else if kind = 1 then e.hit asid va else true

/-- Every TLB of the package drops the covered entries; a walk that still runs under the ASID keeps nothing (R281, R289). -/
def State.tlbiDrop (s : State) (kind asid va : Nat) : State :=
  let keep (l : List TlbEnt) : List TlbEnt := l.filter (fun e => !(tlbiCovers kind asid va e))
  let stale (l : List Walk) : List Walk := mapWhere (fun w => kind = 2 || w.asid = asid) (fun w => { w with stale := true }) l
  { s with cores := s.cores.map (fun (p : Nat × Core) => (p.1, { p.2 with tlb := keep p.2.tlb })),
           tiles := s.tiles.map (fun (p : Nat × Tile) => (p.1, { p.2 with tlb := keep p.2.tlb, walks := stale p.2.walks })) }

/-- No walk that began by a gt is still running. -/
def walksEnded (s : State) (gt : Nat) : Bool :=
  s.tiles.all (fun (p : Nat × Tile) => p.2.walks.all (fun w => gt < w.gt))

/-- A `tlbi`: at once when no walk is running, else a stall until those that began before it have ended. -/
def tlbi (kind asid va : Nat) (s : State) : Out :=
  onCell s (fun _ _ =>
    if walksEnded s s.gt then s.tlbiDrop kind asid va
    else s.setStall (.tlbi kind asid va s.gt))

def execTlbiAsid (sa : Reg) (s : State) : Out := tlbi 0 (wbits (s.hart.rs sa) 0 16) 0 s
def execTlbiPage (sa sb : Reg) (s : State) : Out := tlbi 1 (wbits (s.hart.rs sa) 0 16) (wbits (s.hart.rs sb) 0 56) s
def execTlbiAll (s : State) : Out := tlbi 2 0 0 s

/-- The invalidation that a Cellarer waits for completes. -/
def execTlbiComplete (s : State) : Out :=
  let t := s.arg.tile
  match (s.cell t).stall with
  | some (.tlbi kind asid va gt) =>
    if walksEnded s gt then .next ((s.tlbiDrop kind asid va).updCell t (fun x => { x with stall := none })) else .next s
  | _ => .next s

/-- A walk serves a miss of the same ASID and 4 KiB page (R280). -/
def Walk.serves (asid va : Nat) (w : Walk) : Bool := w.asid = asid && w.va / 4096 = va / 4096 && !w.stale

/-- A miss of a tile (R280): it shares the walk of its page, or begins one; with 128 at work it queues. -/
def State.beginWalk (s : State) (t : TileId) (core : Option CoreId) (asid va : Nat) : State :=
  let join (l : List Walk) : List Walk := mapWhere (Walk.serves asid va) (fun w => { w with cores := w.cores ++ core.toList }) l
  let new : Walk := { asid := asid, va := va, gt := s.gt, cores := core.toList }
  s.updTile t (fun x =>
    if x.walks.any (Walk.serves asid va) then { x with walks := join x.walks }
    else if x.walkq.any (Walk.serves asid va) then { x with walkq := join x.walkq }
    else if x.walks.length < 128 then { x with walks := x.walks ++ [new] }
    else { x with walkq := x.walkq ++ [new] })

/-- A walk leaves its tile's walker, and the miss that has queued longest begins (R280). -/
def Tile.endWalk (x : Tile) (n gt : Nat) : Tile :=
  match x.walkq with
  | [] => { x with walks := x.walks.eraseIdx n }
  | w :: l => { x with walks := x.walks.eraseIdx n ++ [{ w with gt := gt }], walkq := l }

/-- The fetches that wait for a walk try again (R280). -/
def State.walkWake (s : State) (w : Walk) : List CoreId → State
  | [] => s
  | c :: l =>
    (match (s.core c).run with
     | none => s
     | some k =>
       let x := s.ctx c k
       match x.stall with
       | some (.fetch va) =>
         if x.asid.toNat = w.asid && va / 4096 = w.va / 4096 then
           s.updCtx c k (fun y => { y with stall := none, walked := w.va / 4096 :: y.walked })
         else s
       | _ => s).walkWake w l

/-- A walk of a tile ends: what it found fills the TLBs it was for, unless an invalidation has made it stale (R280, R281). -/
def execPageWalkComplete (s : State) : Out :=
  let t := s.arg.tile
  match (s.tile t).walks[s.arg.n]? with
  | none => .next s
  | some w =>
    let s1 := s.updTile t (fun x => x.endWalk s.arg.n s.gt)
    let s2 := if w.stale then s1 else match walk s w.asid w.va with
      | .ok e => w.cores.foldl (fun (s : State) c => s.fillTlbs t (some c) [e]) (s1.fillTlbs t none [e])
      | .error _ => s1
    .next (s2.walkWake w w.cores)

/-! ## Launching (R327-R332) -/

/-- The fields of a packet that check 2 tests (R331). -/
def pktFieldsOk (p : List Word) : Bool :=
  let w (n : Nat) := p.getD n 0
  let en (bit : Nat) : Bool := (w 0).getLsbD bit
  let fp := wbits (w 5) 0 16
  wbits (w 0) 29 3 = 0 && 64 ≤ pktMslen p && pktMslen p ≤ 4096 &&
    fp / 2 ^ 11 = 0 && 1 ≤ fp / 32 && fp % 32 + fp / 32 ≤ 32 &&
    (en 20 || (wbits (w 5) 32 16 = 0 && wbits (w 6) 0 32 = 0)) && (en 21 || (wbits (w 5) 48 16 = 0 && wbits (w 6) 32 32 = 0)) &&
    (en 22 || wbits (w 7) 0 16 = 0) && (en 23 || wbits (w 7) 16 16 = 0) && wbits (w 7) 43 4 = 0 && wbits (w 7) 48 16 = 0

/-- The enabled waits of a packet are met. -/
def pktWaitsMet (s : State) (p : List Word) : Bool :=
  let w (n : Nat) := p.getD n 0
  let met (bit lo v : Nat) : Bool := !(w 0).getLsbD bit || wbits (w 6) v 32 ≤ (s.sem ((w 5).extractLsb' lo 16)).toNat
  met 20 32 0 && met 21 48 32

/-- XPKG and START of a packet. -/
def pktXpkg (p : List Word) : Bool := (p.getD 0 0).getLsbD 28
def pktStart (p : List Word) : Nat := (p.getD 4 0).toNat

/-- The gang identifier of a packet at its home (R331). -/
def gangIdOf (s : State) (t : TileId) (p : List Word) : Nat :=
  if pktXpkg p then 2 ^ 63 + pktStart p % 2 ^ 63 else t.val * 2 ^ 32 + (s.tile t).serial % 2 ^ 32

/-- The placed cores after TREL; none where a core identifier is not one. -/
def relocated (p : List Word) (pl : List (Nat × Nat)) : List (Option CoreId) :=
  pl.map (fun (e : Nat × Nat) =>
    if e.2 < 512 then some (Fin.ofNat 512 ((e.2 / 32 + wbits (p.getD 0 0) 24 4) % 16 * 32 + e.2 % 32)) else none)

/-- No value twice. -/
def distinctNats : List Nat → Bool
  | [] => true
  | a :: l => !l.contains a && distinctNats l

/-- The members that a packet and its image give, in placement order. -/
def membersOf (p : List Word) (img : List Byte) : List Member :=
  let base := (p.getD 1 0).toNat
  let pl := placements img
  (List.zipWith (fun (e : (Nat × Nat) × Option CoreId) (i : Nat) =>
    let m := microOf img e.1.1
    ({ core := e.2.getD 0, place := i, task := e.1.1, entry := (base + fld (taskEnt img e.1.1) 0 8) % 2 ^ 56,
       micro := (base + m.1, m.2) } : Member)) (List.zip pl (relocated p pl)) (fromTo 0 pl.length))

/-- The verdict of `lnch` on a packet for a queue: a code and, with code 0, the members (R327). -/
def lnchVerdict (s : State) (t : TileId) (p : List Word) (q : Nat) : Nat × List Member :=
  let asid := wbits (p.getD 0 0) 32 16
  let va := (p.getD 1 0).toNat
  let hdr := imgRead s t asid va 64
  let img : Option (List Byte) := match hdr with
    | some h => if imgLenOk h va then imgRead s t asid va (fld h 56 8) else none
    | none => none
  let sound : Bool := match img with
    | some b => imgStruct b && placedOk b (wbits (p.getD 0 0) 16 1) (pktPrio p)
    | none => false
  let longMicro : Bool := match img with
    | some b => imgStruct b && (placements b).any (fun (e : Nat × Nat) => pktMslen p < (microOf b e.1).2)
    | none => false
  let bytes := img.getD []
  let pl := relocated p (placements bytes)
  let ids := pl.map (fun c => c.elim 512 (fun c => c.val))
  if !fmtIn fncap 0 (wbits (p.getD 0 0) 0 16) then (1, [])
  else if !pktFieldsOk p || longMicro then (2, [])
  else if pktPrio p != q / 4 then (3, [])
  else if hdr.isNone || (hdr.any (fun h => imgLenOk h va) && img.isNone) then (4, [])
  else if !sound then (5, [])
  else if !revOk s bytes then (6, [])
  else if pl.isEmpty || ids.any (fun n => n = 512) || !(distinctNats ids) || pl.any (fun c => c.any (fun c => (s.core c).retired)) then (7, [])
  else if pl.head?.join.map tileOf != some t then (8, [])
  else if !pktWaitsMet s p then (9, [])
  else if pktXpkg p && (!s.podRef || pktStart p ≤ s.gt + 160) then (10, [])
  else if (s.gang (gangIdOf s t p)).isSome then (11, [])
  else (0, membersOf p bytes)

/-- The source of a packet that `qpop` gave; a packet that no pop gave has an internal source (R333). -/
def pktSrc (s : State) (t : TileId) (q : Nat) (p : List Word) : Nat :=
  match (s.lq t q).popped.find? (fun e => e.pkt == p) with
  | some e => e.src
  | none => 0xFFFF

/-- The source of a packet is known from its pop until it is accepted. -/
def dropFirst (p : QPkt → Bool) : List QPkt → List QPkt
  | [] => []
  | e :: l => if p e then l else e :: dropFirst p l

/-- A packet is accepted: its gang is ready at this gt (R29, R327). -/
def State.accept (s : State) (t : TileId) (p : List Word) (q : Nat) (ms : List Member) : State :=
  let g : Gang :=
    { id := gangIdOf s t p, home := t, lq := q, src := pktSrc s t q p, pkt := p, eff := pktPrio p,
      since := s.gt, aged := s.gt, order := s.fresh, mems := ms, xpkg := pktXpkg p }
  let s1 := s.updTile t (fun x =>
    let l : LQ := mapGet {} x.lq q
    { x with serial := if pktXpkg p then x.serial else (x.serial + 1) % 2 ^ 32,
             lq := mapSet x.lq q { l with popped := dropFirst (fun e => e.pkt == p) l.popped } })
  { s1.bump with gangs := s1.gangs ++ [g] }.logEv 3 g.id

def execLnch (sd sa sb : Reg) (s : State) : Out :=
  onCell s (fun t x =>
    let p := (fromTo 0 8).map (fun j => x.hart.rs (Fin.ofNat 64 (sa.val + j)))
    let q := wbits (x.hart.rs sb) 0 4
    match lnchVerdict s t p q with
    | (0, ms) => (s.accept t p q ms).code t sd 0
    | (n, _) => s.code t sd n)

/-- `qpop`: the head packet, from the gt after the one in which it entered (R330). -/
def execQpop (sd sa : Reg) (s : State) : Out :=
  onCell s (fun t x =>
    let q := wbits (x.hart.rs sa) 0 4
    match (s.lq t q).pkts with
    | [] => s.updCell t (fun y => y.outRun sd 0 (List.replicate 8 0))
    | e :: rest =>
      if e.gt < s.gt then
        let s1 := s.updTile t (fun y =>
          let l : LQ := mapGet {} y.lq q
          { y with lq := mapSet y.lq q { l with pkts := rest, head := (l.head + 1) % 65536, popped := l.popped ++ [e] } })
        s1.updCell t (fun y => y.outRun sd 0 ((fromTo 0 8).map (fun j => e.pkt.getD j 0)))
      else s.updCell t (fun y => y.outRun sd 0 (List.replicate 8 0)))

/-! ## Semaphores, vectors, events (R326, R334, R340) -/

/-- The SEMREF that a register holds. -/
def semrefOf (w : Word) : BitVec 16 := w.setWidth 16

def execSemw (sa sb : Reg) (s : State) : Out :=
  onCell s (fun _ x =>
    let r := semrefOf (x.hart.rs sa)
    if (x.hart.rs sb).toNat ≤ (s.sem r).toNat then s
    else s.setStall (.semw r (x.hart.rs sb)))

def execSemwT (bd : BReg) (sa sb : Reg) (s : State) : Out :=
  onCell s (fun t x => s.updCell t (fun y =>
    { y with hart := y.hart.outB 4 bd ((x.hart.rs sb).toNat ≤ (s.sem (semrefOf (x.hart.rs sa))).toNat) }))

/-- A semaphore operation that answers the old value. -/
def semOld (sop : Nat) (sd sa sb : Reg) (s : State) : Out :=
  onCell s (fun t x =>
    let r := semrefOf (x.hart.rs sa)
    (s.updCell t (fun y => y.outS sd (s.sem r))).semOp sop r (x.hart.rs sb))

def execSemsigAdd (sd sa sb : Reg) (s : State) : Out := semOld 0 sd sa sb s
def execSemsigMax (sd sa sb : Reg) (s : State) : Out := semOld 2 sd sa sb s
def execSemset (sd sa sb : Reg) (s : State) : Out := semOld 1 sd sa sb s

/-- `irq`: every earlier store of a Cellarer has performed when it issues (R321, R340). -/
def execIrq (sa : Reg) (s : State) : Out := onCell s (fun _ x => s.sendVec (wbits (x.hart.rs sa) 0 11))

/-- The enabled pending events of a Cellarer. -/
def Cell.events (x : Cell) : Word := x.evtpend.setWidth 64 &&& x.evtmask

def execWfe (sd : Reg) (s : State) : Out :=
  onCell s (fun t x =>
    if x.events != 0 then s.updCell t (fun y => y.outS sd (x.evtpend.setWidth 64))
    else s.setStall (.wfe sd))

/-- `eret`: a branch to EPC, with EIE set as its target issues; EPC is tested as a branch register is (R131, R326). -/
def execEret (s : State) : Out :=
  match s.cur with
  | .cell t =>
    let x := s.cell t
    let e := x.epc
    if e.toNat % 4 != 0 || 2 ^ 56 ≤ e.toNat then .next (s.raise { code := fAccess, cause := 6, addr := e.toNat })
    else
      match takeBranch e.toNat none x.hart with
      | .ok h => .next (s.updCell t (fun y => { y with hart := { h with eretP := x.hart.redir.isNone || x.hart.eretP } }))
      | .trap tr => .next (s.raise tr)
  | .core _ _ => .next (s.raise { code := fPriv })
  | _ => .next s

/-- The tile of an event of a Cellarer. -/
def State.argTile (s : State) : TileId :=
  match s.cur with
  | .cell t => t
  | _ => s.arg.tile

/-- Event entry (R325): with EIE set and an enabled event pending, between bundles outside the delay of a branch. EVEC, CPC and an
image ENTRY are taken as they stand: where bits 1:0 are not zero the spec does not say what follows, and the model fetches words at
that address (DESIGN CHOICE, log 73). -/
def execEventEntry (s : State) : Out :=
  let t := s.argTile
  let x := s.cell t
  if x.run && x.eie && x.events != 0 && x.hart.redir.isNone && !x.stalled then
    .next (s.updCell t (fun y => { y with epc := BitVec.ofNat 64 y.hart.pc, eie := false, hart := { y.hart with pc := y.evec.toNat } }))
  else .next s

/-- TIMER is set at the first gt with GT at EVTTIME (R324). -/
def execEvttimeTimer (s : State) : Out :=
  let t := s.argTile
  let x := s.cell t
  if !x.fired && x.evttime.toNat ≤ s.gt then .next ((s.updCell t (fun y => { y with fired := true })).evt t 5) else .next s

/-! ## Contexts, faults and gangs (R326, R328) -/

/-- The context a register names in bits 1:0. -/
def ctxNum (w : Word) : Option CtxId :=
  match wbits w 0 2 with
  | 0 => some 0 | 1 => some 1 | 2 => some 2 | _ => none

/-- A core is switching to a context. -/
def Core.switchTo (y : Core) (k : CtxId) : Bool := y.switch.any (fun p => p.2 = k)

/-- `cxsv`: at once when the context is at rest, else a stall until it is (R26, R344). The code after a save that its area
faulted is a free value. -/
def execCxsv (sd sa sb : Reg) (s : State) : Out :=
  onCell s (fun t x =>
    match coreOf t (x.hart.rs sa), ctxNum (x.hart.rs sb) with
    | none, _ => s.code t sd 2
    | some _, none => s.code t sd 1
    | some c, some k =>
      let y := s.ctx c k
      match y.st with
      | .running | .parkedPlace => s.code t sd 2
      | .ready | .parked =>
        if (s.core c).switchTo k then s.code t sd 2
        else if canSave s c k then
          match s.saveNow c k with
          | (s1, true) => s1.code t sd 0
          | (s1, false) => s1.bump.updCell t (fun z => z.outS sd (Config.freeWord s1.fresh))
        else (s.updCtx c k (fun y => { y with saving := true })).setStall (.cxsv c k sd)
      | _ => s.code t sd 1)

/-- A parked member that has been restored re-enters its region in the gt after the restore (R265, R328). -/
def State.reenterSaved (s : State) (g : Nat) (c : CoreId) (k : CtxId) : State :=
  let s1 := (s.updMember g c (fun m => { m with reent := false })).updCtx c k (fun x => { x with st := .ready })
  (s1.reenter c k).updCtx c k (fun x => { x with reAt := x.reAt.map (fun _ => s.gt + 1) })

/-- Reserve and restore a saved member. -/
def State.bringBack (s : State) (g : Gang) (m : Member) (parked : Bool) : State × Bool :=
  match freeCtx s m.core with
  | none => (s, false)
  | some k =>
    let (s1, ok) := (s.reserve g m).restoreNow g.id m.core k parked m.keep
    if ok && m.reent then (s1.reenterSaved g.id m.core k, true) else (s1, ok)

/-- What `cxld` comes to now: a code, no code where the save area faults, or a wait for a window to move or a save of the core to end
(R35, R326). A free context that other contexts' footprints or windows leave no room for counts as none (DESIGN CHOICE, log 85). -/
def State.cxldTry (s : State) (c : CoreId) (gid : Nat) : Option (State × Option Nat) :=
  match s.gang gid with
  | none => some (s, some 1)
  | some g =>
    match g.mems.find? (fun m => m.core == c) with
    | none => some (s, some 1)
    | some m =>
      match m.st with
      | .saved p =>
        let bring (s : State) : State × Option Nat :=
          match s.bringBack g m p with
          | (s1, true) => (s1, some 0)
          | (s1, false) => (s1, none)
        if (freeCtx s c).isNone then some (s, some 2)
        else
          match needOf s g c with
          | .none => some (bring s)
          | .move => if windowsStill s c then some (bring (s.moveWindows c)) else none
          | _ => if (busyCtxs s c).any (fun k => (s.ctx c k).saving) then none else some (s, some 2)
      | _ => some (s, some 1)

/-- `cxld` answers; the code after a save area that faults is a free value. -/
def State.cxldDone (t : TileId) (sd : Reg) : State × Option Nat → State
  | (s, some n) => s.code t sd n
  | (s, none) => s.bump.updCell t (fun z => z.outS sd (Config.freeWord s.fresh))

/-- `cxld` (R326). -/
def execCxld (sd sa sb : Reg) (s : State) : Out :=
  onCell s (fun t x =>
    match coreOf t (x.hart.rs sa) with
    | none => s.code t sd 2
    | some c =>
      let g := (x.hart.rs sb).toNat
      match s.cxldTry c g with
      | some r => State.cxldDone t sd r
      | none => s.setStall (.cxld c g sd))

/-- `fltp`: the head record of the fault ring (R271). -/
def execFltp (sd : Reg) (s : State) : Out :=
  onCell s (fun t _ =>
    match (s.tile t).frec with
    | [] => s.updCell t (fun y => y.outRun sd 0 (List.replicate 8 0))
    | r :: rest =>
      (s.updTile t (fun y => { y with frec := rest })).updCell t (fun y => y.outRun sd 0 ((fromTo 0 8).map (fun j => r.getD j 0))))

/-- Where the task of a gang on a core is parked. -/
inductive ParkedAt where
  | resident (k : CtxId)
  | place (k : CtxId)
  | saved
  | no
deriving DecidableEq, Repr

/-- A task whose record still waits for its ring is not yet parked for the Cellarer (R271). -/
def parkedAt (s : State) (gid : Nat) (c : CoreId) : ParkedAt :=
  match s.member gid c with
  | none => .no
  | some m =>
    match m.st with
    | .saved true => if m.reent then .no else .saved
    | .resident k =>
      let x := s.ctx c k
      if x.frec.isSome then .no
      else match x.st with
        | .parked => .resident k
        | .parkedPlace => .place k
        | _ => .no
    | _ => .no

/-- The register operands of an operation on a task: the core on the tile, and the gang. -/
def onTask (sd sa sb : Reg) (s : State) (f : TileId → CoreId → Nat → Option State) : Out :=
  onCell s (fun t x =>
    match coreOf t (x.hart.rs sa) with
    | none => s.code t sd 2
    | some c =>
      match f t c (x.hart.rs sb).toNat with
      | some s1 => s1.code t sd 0
      | none => s.code t sd 1)

/-- `fltr.reenter`: a resident member re-enters at least 8 gt on, or when its gang resumes; a saved one once it has been
restored (R265, R328). -/
def execFltrReenter (sd sa sb : Reg) (s : State) : Out :=
  onTask sd sa sb s (fun _ c g =>
    match parkedAt s g c with
    | .resident k => some ((s.updCtx c k (fun x => { x with st := .ready })).reenter c k)
    | .saved => some (s.updMember g c (fun m => { m with reent := true }))
    | _ => none)

/-- `fltr.resume`: a task parked in place goes on, its breakpoint suppressed once (R149). -/
def execFltrResume (sd sa sb : Reg) (s : State) : Out :=
  onTask sd sa sb s (fun _ c g =>
    match parkedAt s g c with
    | .place k => some (s.updCtx c k (fun x => { x with st := .running, brkSkip := true }))
    | _ => none)

/-- `fltr.kill`: the gang of a parked task is killed, its members after the cores' bundles of the gt (R333). -/
def execFltrKill (sd sa sb : Reg) (s : State) : Out :=
  onTask sd sa sb s (fun _ c g =>
    match parkedAt s g c with
    | .no => none
    | _ => some (s.markKilled g 2 0))

/-- `fltr.cmd`: the commands of the tile parked with code 0x20 retry. -/
def execFltrCmd (sd : Reg) (s : State) : Out :=
  onCell s (fun t _ =>
    let mine (d : Cmd) : Bool := d.tile == t && d.st == .parked20
    if s.cmds.any mine then ({ s with cmds := mapWhere mine (fun d => { d with st := .queued }) s.cmds }).code t sd 0
    else s.code t sd 1)

/-- `kill`: code 1 once the last member has ended (R328, R344). Its members end later in the gt, after the cores' bundles (R333). -/
def execKill (sd sa : Reg) (s : State) : Out :=
  onCell s (fun t x =>
    let g := (x.hart.rs sa).toNat
    match s.gang g with
    | some y => if y.mems.any (·.live) then (s.markKilled g 2 0).code t sd 0 else s.code t sd 1
    | none => s.code t sd 1)

/-! ## Circuit programs and retiring (R286, R329) -/

/-- A slot runs: STATE 1, 2 or 3. -/
def Slot.runs (v : Slot) : Bool := 1 ≤ v.st && v.st ≤ 3

/-- A window meets that of another running slot. -/
def windowTaken (s : State) (n : SlotId) (lo hi : Nat) : Bool :=
  (fromTo 0 8).any (fun m => m != n.val &&
    (let v := s.slot (Fin.ofNat 8 m); v.runs && lo ≤ v.hlast && v.hbase ≤ hi))

/-- `vprog`: a slot starts (R296, R329). -/
def execVprog (sd sa sb : Reg) (s : State) : Out :=
  onCell s (fun t x =>
    let b := x.hart.rs sb
    let n : SlotId := Fin.ofNat 8 (wbits b 0 3)
    let lo := wbits b 8 8
    let hi := wbits b 16 8
    let va := (x.hart.rs sa).toNat
    if (s.slot n).runs then s.code t sd 1
    else if hi < lo || windowTaken s n lo hi || va % 16 != 0 || (b &&& ~~~0x0000FFFF00FFFF07) != 0 then s.code t sd 2
    else
      (s.updSlot n (fun v =>
        { v with asid := wbits b 32 16, hbase := lo, hlast := hi, late := 0, step := 0, seen := 0, st := 1, first := va,
                 gang := x.hart.rs (Fin.ofNat 64 (sa.val + 1)), lc := [], wait := none, full := none, at_ := 0, tile := t, ports := [], peers := [] })).code t sd 0)

/-- `vprog.stop`: a running slot becomes idle and its queued steps are cancelled (R329). -/
def execVprogStop (sd sb : Reg) (s : State) : Out :=
  onCell s (fun t x =>
    let b := x.hart.rs sb
    let n : SlotId := Fin.ofNat 8 (wbits b 0 3)
    if (b &&& ~~~7) != 0 then s.code t sd 2
    else if (s.slot n).runs then
      (((s.updSlot n (fun v => { v with st := 0, wait := none, full := none })).cancelSteps n).code t sd 0)
    else s.code t sd 1)

/-- `retire`: code 1 when the core is retired already (R286). -/
def execRetire (sd sa : Reg) (s : State) : Out :=
  onCell s (fun t x =>
    match coreOf t (x.hart.rs sa) with
    | none => s.code t sd 2
    | some c => if (s.core c).retired then s.code t sd 1 else (s.retireCore c).code t sd 0)

end Sys2Proof.Machine
end

