-- ==== Sys2Proof/Machine/Gangs.lean ====
section
/-! DEFINITION. Machine/Gangs.lean: the events of scheduling: the arrival of a pre-emption, aging, reservations, the start of a
gang, switches, saves and restores, stalls that end, and completion (R23-R37, R143, R144, R254, R271, R272, R331, R333). -/

namespace Sys2Proof.Machine

/-! ## Who needs which core -/

/-- A member needs a context before it can run. -/
def Member.wants (m : Member) : Bool :=
  match m.st with
  | .wanted => true
  | .saved p => !p || m.reent
  | _ => false

/-- A live member takes its core, unless it is parked. -/
def memberClaims (s : State) (m : Member) : Bool :=
  match m.st with
  | .ended _ => false
  | .saved p => !p || m.reent
  | .resident k => (s.ctx m.core k).st != .parked
  | _ => true

/-- A gang takes a core. -/
def claims (s : State) (g : Gang) (c : CoreId) : Bool := g.mems.any (fun m => m.core == c && memberClaims s m)

/-- A gang is not ready. -/
def Gang.active (g : Gang) : Bool := g.st != .ready

/-- The other gangs that take a core now. -/
def holders (s : State) (g : Gang) (c : CoreId) : List Gang :=
  s.gangs.filter (fun h => h.id != g.id && h.active && claims s h c)

/-- A running gang's member has come back and waits for its core (R328). -/
def memberBack (s : State) (m : Member) : Bool :=
  match m.st with
  | .resident k => (s.ctx m.core k).st == .ready && !(s.core m.core).switchTo k
  | .saved _ => m.wants
  | _ => false

/-- The cores that a gang needs: those of its members when it is ready, of those that wait for a core when it runs. -/
def needCores (s : State) (g : Gang) : List CoreId :=
  match g.st with
  | .ready => (g.mems.filter (memberClaims s)).map (·.core)
  | .running => (g.mems.filter (memberBack s)).map (·.core)
  | _ => []

/-- A ready gang ahead of another competes for a core (R29, R37). -/
def aheadOn (s : State) (g : Gang) (c : CoreId) : Bool :=
  (readyOn s c).any (fun h => h.id != g.id && claims s h c && h.ahead g)

/-- A ready gang ahead of another competes for one of its cores. -/
def blocked (s : State) (g : Gang) : Bool := (needCores s g).any (aheadOn s g)

/-! ## Pre-emption and aging (R29-R33) -/

/-- Stop, or unstart, the gangs of a list; before the starts of a gt only those that are to start (R37). -/
def State.preemptAll (s : State) (early : Bool) : List Gang → State
  | [] => s
  | h :: l =>
    (match h.st with
     | .running => if early then s else s.stopGang h.id
     | .starting _ => s.unstart h.id
     | _ => s).preemptAll early l

/-- A gang takes a core that it needs from the gangs that hold it: it is strictly above each, and first of the gangs that wait for
it (R32, R37). -/
def preempts (s : State) (g : Gang) (c : CoreId) : Bool :=
  !(aheadOn s g c) && (holders s g c).all (fun h => g.eff < h.eff)

/-- A pre-emption arrives at every core that the gang of the event needs and may take (R32, R33). With `flag` it comes before the
starts of its gt. -/
def execPreemptionArrival (s : State) : Out :=
  match s.gang s.arg.gang with
  | none => .next s
  | some g => .next (s.preemptAll s.arg.flag (((needCores s g).filter (preempts s g)).flatMap (holders s g)))

/-- The stopped members of a gang have all stopped: it is ready from this gt (R33), and a retired core of it moves or faults it
(R286). -/
def execGangStopped (s : State) : Out :=
  match s.gang s.arg.gang with
  | none => .next s
  | some g =>
    match g.st with
    | .stopping =>
      let s1 := s.stopHeld g.id g.mems
      if gangHalted s1 g then
        .next ((s1.updGang g.id (fun y => { y with st := .ready, since := s.gt, aged := s.gt, order := 2 ^ 70 + g.id })).moveOrFault g.id)
      else .next s1
    | _ => .next s

/-- A gang waits without running: it is ready, also while it waits for its T (R30, R37). -/
def Gang.waiting (g : Gang) : Bool :=
  match g.st with
  | .ready | .starting _ => true
  | _ => false

/-- A ready gang rises one level after 2^24 gt at one (R30). -/
def execAgingRise (s : State) : Out :=
  match s.gang s.arg.gang with
  | none => .next s
  | some g =>
    if g.waiting && 1 < g.eff && g.aged + 2 ^ 24 ≤ s.gt then
      .next (s.updGang g.id (fun y => { y with eff := y.eff - 1, aged := s.gt }))
    else .next s

/-! ## Reservation and start (R23, R34, R35, R331) -/

/-- Evict on every core where that is what a gang needs. -/
def State.evictFor (s : State) (g : Gang) : List CoreId → State
  | [] => s
  | c :: l =>
    (match needOf s g c with
     | .evict k => s.evict c k
     | _ => s).evictFor g l

/-- Reserve for the members that need a context. -/
def State.reserveAll (s : State) (g : Gang) : List Member → State
  | [] => s
  | m :: l => (if m.wants then s.reserve g m else s).reserveAll g l

/-- A member has what R23 asks for, its restore included. -/
def memberSet (s : State) (m : Member) : Bool :=
  match m.st with
  | .held _ | .ended _ => true
  | .resident k => !(s.ctx m.core k).saving
  | .saved p => p && !m.reent && !(m.frec.isSome && (s.core m.core).retired)
  | _ => false

/-- The start time of a gang whose last reservation is confirmed (R23). -/
def startAt (s : State) (g : Gang) : Nat := max (pktStart g.pkt) (s.gt + 160)

/-- A gang whose reservations are all held starts at T. -/
def State.confirm (s : State) (gid : Nat) : State :=
  match s.gang gid with
  | some g => if g.mems.all (memberSet s) then s.updGang gid (fun y => { y with st := .starting (startAt s g) }) else s
  | none => s

/-- A context of a gang is being saved. -/
def savingOf (s : State) (g : Gang) : Bool :=
  g.mems.any (fun m => match m.st with
    | .resident k => (s.ctx m.core k).saving
    | _ => false)

/-- The reservations of a ready gang: evictions where R34 asks for them, every reservation at once when nothing stands in the
way, and T when all are held. -/
def execGangReservationConfirm (s : State) : Out :=
  match s.gang s.arg.gang with
  | none => .next s
  | some g =>
    let cs := needCores s g
    let want := (g.mems.filter (·.wants)).map (·.core)
    if g.st != .ready || blocked s g || savingOf s g || cs.isEmpty
      || cs.any (fun c => (s.core c).retired || (s.core c).run.isSome || !(holders s g c).isEmpty) then .next s
    else
      let needs := want.map (needOf s g)
      if needs.any (fun n => n == .wait) then .next s
      else if needs.all (fun n => n == .none) then .next ((s.reserveAll g g.mems).confirm g.id)
      else .next (s.evictFor g want)

/-- A window move on a core where a ready gang needs one, its windows being still (R35). -/
def execWindowMove (s : State) : Out :=
  let c := s.arg.core
  match s.gang s.arg.gang with
  | none => .next s
  | some g =>
    if g.mems.any (fun m => m.core == c && m.wants) && needOf s g c == .move && windowsStill s c then .next (s.moveWindows c)
    else .next s

/-- A member starts: its context runs. -/
def State.startMember (s : State) (g : Nat) (m : Member) : State :=
  let go (k : CtxId) : State :=
    if (s.ctx m.core k).st = .parked then s
    else (s.updCtx m.core k (fun x => { x with st := .running })).updCore m.core (fun y =>
      { y with run := some k, last := some k, switch := none })
  match m.st with
  | .held k => (go k).updMember g m.core (fun x => { x with st := .resident k })
  | .resident k => go k
  | _ => s

def State.startMembers (s : State) (g : Nat) : List Member → State
  | [] => s
  | m :: l => (s.startMember g m).startMembers g l

/-- A gang starts at T (R23, R36). -/
def execGangStart (s : State) : Out :=
  match s.gang s.arg.gang with
  | none => .next s
  | some g =>
    match g.st with
    | .starting t =>
      if t ≤ s.gt then
        .next ({ s.updGang g.id (fun y => { y with st := .running, started := true }) with boot := { s.boot with ran := true } }.startMembers g.id g.mems)
      else .next s
    | _ => .next s

/-- The start of a cross-package gang is withdrawn when a reservation is missing at START - 160, after that gt's reservations (R331,
R333). -/
def execXpkgWithdraw (s : State) : Out :=
  match s.gang s.arg.gang with
  | none => .next s
  | some g =>
    if g.xpkg && !g.started && g.st == .ready && pktStart g.pkt = s.gt + 160 then .next ((s.unstart g.id).killGang g.id 3 10)
    else .next s

/-! ## Switches (R25) -/

/-- The contexts of a core whose task may take it: ready, of a running gang, with its record delivered. -/
def candidates (s : State) (c : CoreId) : List CtxId :=
  ctxIds.filter (fun k =>
    let x := s.ctx c k
    x.st == .ready && !x.saving && x.frec.isNone && (match gangAt s c k with
      | some g => g.st == .running && (holders s g c).isEmpty
      | none => false))

/-- The first of some contexts by R29. -/
def firstOf (s : State) (c : CoreId) : List CtxId → Option CtxId
  | [] => none
  | k :: l =>
    match firstOf s c l with
    | none => some k
    | some j =>
      match gangAt s c j, gangAt s c k with
      | some a, some b => if a.ahead b then some j else some k
      | _, _ => some k

/-- A context takes its core. -/
def State.takeCore (s : State) (c : CoreId) (k : CtxId) : State :=
  (s.updCtx c k (fun x => { x with st := .running })).updCore c (fun y =>
    { y with run := some k, last := some k, switch := none })

/-- A switch ends, or an idle core begins one: 24 gt to another context, none to the one that ran last (R25); on a halted core it
waits (R355). Its deviation record has SLOT 15 (log 101). -/
def execContextSwitch (s : State) : Out :=
  let c := s.arg.core
  let y := s.core c
  if y.halted then .next s else
  match y.switch with
  | some (t, k) =>
    if t ≤ s.gt && y.run.isNone then .next ((s.takeCore c k).trace (tileOf c) (s.ctx c k).hart.pc 15 11 24) else .next s
  | none =>
    if y.run.isSome then .next s
    else
      match firstOf s c (candidates s c) with
      | none => .next s
      | some k =>
        if y.last.all (· == k) then .next (s.takeCore c k)
        else .next (s.updCore c (fun y => { y with switch := some (s.gt + 24, k) }))

/-! ## Saves and restores (R26, R36, R273, R286, R328) -/

/-- What the `cxsv` of a tile answers once its context is no longer there to be saved. -/
def State.cxsvCode (s : State) (c : CoreId) (k : CtxId) (v : Word) : State :=
  let t := tileOf c
  match (s.cell t).stall with
  | some (.cxsv c1 k1 sd) =>
    if c1 = c && k1 = k then s.updCell t (fun x => ({ x with stall := none }).outS sd v) else s
  | _ => s

/-- A save completes when its context is at rest: the context is free; a moving member takes its new core. A context that has
ended is no longer saved. -/
def execContextSaveComplete (s : State) : Out :=
  let c := s.arg.core
  let k := s.arg.ctx
  let x := s.ctx c k
  let g := x.gang.toNat
  let moves := match s.gang g with
    | some y => mapHas y.moveTo (clusterNum c)
    | none => false
  if !x.saving then .next s
  else if x.st == .ended || x.st == .free then .next ((s.updCtx c k (fun y => { y with saving := false })).cxsvCode c k 1)
  else if canSave s c k then
    match s.saveNow c k with
    | (s1, true) => .next ((s1.relocateAt g c).cxsvCode c k 0)
    | (s1, false) =>
      let s2 := s1.bump.cxsvCode c k (Config.freeWord s1.fresh)
      .next (match moves, s2.gang g, s2.member g c with
        | true, some y, some m => s2.retireFault y m
        | _, _, _ => s2)
  else .next s

/-- A restore completes: of a reserved member, or of one that a running gang has back (R275, R328). -/
def execContextRestoreComplete (s : State) : Out :=
  let c := s.arg.core
  match s.gang s.arg.gang with
  | none => .next s
  | some g =>
    match g.mems.find? (fun m => m.core == c) with
    | none => .next s
    | some m =>
      match m.st with
      | .restoring k p =>
        let (s1, ok) := s.restoreNow g.id c k p m.keep
        .next (if ok && m.reent then s1.reenterSaved g.id c k else s1)
      | .saved p =>
        if g.st == .running && m.wants then
          match needOf s g c with
          | .none => .next (s.bringBack g m p).1
          | .evict k => .next (s.evict c k)
          | _ => .next s
        else .next s
      | _ => .next s

/-- A discarded region may issue again (R267, R328). -/
def execReentry (s : State) : Out :=
  let c := s.arg.core
  let k := s.arg.ctx
  match (s.ctx c k).reAt with
  | some t => .next (if t ≤ s.gt then s.updCtx c k (fun x => { x with reAt := none }) else s)
  | none => .next s

/-- A core is retired by the part itself (R286). -/
def execCoreRetire (s : State) : Out :=
  .next (if (s.core s.arg.core).retired then s else s.retireCore s.arg.core)

/-- The watchdog budget of a running task is used up (R272), unless a rerun pair begins (R268); on a halted core it waits (R355). -/
def execWatchdogExpiry (s : State) : Out :=
  let c := s.arg.core
  let k := s.arg.ctx
  let x := s.ctx c k
  .next (if x.st == .running && x.wdog == some 0 && !(pairDue s c k) && !(s.core c).halted then s.coreFault c k 0xFF x.hart.bpc { code := fWatch } else s)

/-! ## The end of tasks and gangs (R24, R148, R333, R339) -/

/-- Nothing of an ended context remains in the core. -/
def atRest (s : State) (c : CoreId) (k : CtxId) : Bool :=
  let x := s.ctx c k
  x.hart.pend.isEmpty && x.wbuf.isEmpty && x.batches.isEmpty && x.redfl.isEmpty && x.dqIn.isEmpty && x.frec.isNone &&
    ((s.core c).matrixBusy k).isEmpty && x.susp.isNone && !((s.core c).drains.any (fun d => d.ctx == k)) &&
    !((s.core c).shrs.any (fun d => d.ctx == k)) && !(s.loopq.any (fun a => a.core == c && a.ctx == k))

/-- An ended context is freed: EVTPEND.CTXF (R24, R148, R324). -/
def execContextFree (s : State) : Out :=
  let c := s.arg.core
  let k := s.arg.ctx
  .next (if (s.ctx c k).st == .ended && atRest s c k then s.freeCtxAt c k else s)

/-- No member of a gang still waits to deliver its record. -/
def recsOut (s : State) (g : Gang) : Bool :=
  g.mems.all (fun m => m.frec.isNone && match s.ctxOf g.id m.core with
    | some k => (s.ctx m.core k).frec.isNone
    | none => true)

/-- Every committed store and every sent command of a gang has completed. -/
def worksDone (s : State) (g : Gang) : Bool :=
  g.mems.all (fun m => match s.ctxOf g.id m.core with
    | some k => let x := s.ctx m.core k; x.wbuf.isEmpty && x.batches.isEmpty
    | none => true) &&
  !(s.cmds.any (fun d => match d.owner.task? with
    | some (n, _) => n == g.id
    | none => false))

/-- The enabled signals of a packet. -/
def State.signalDone (s : State) (p : List Word) : State :=
  let w0 := p.getD 0 0
  let w7 := p.getD 7 0
  let s1 := if w0.getLsbD 22 then s.semOp 0 (w7.extractLsb' 0 16) 1 else s
  if w0.getLsbD 23 then s1.semOp 0 (w7.extractLsb' 16 16) 1 else s1

/-- The vector that a packet asks for, as a PF vector (R333, R340). -/
def pktVector (s : State) (src : Nat) (p : List Word) : Option Nat :=
  let w7 := p.getD 7 0
  if w7.getLsbD 47 then
    some (if 1 ≤ src && src ≤ 64 then wbits (s.fn src).vfmap 48 11 + wbits w7 32 11 else wbits w7 32 11)
  else none

/-- A gang completes (R333). A kill ends its members after the bundles of its gt, so that a fault of theirs in that gt reaches the home
too; one that waits for a halted core reaches its member after the resume (R355). With `flag` only the members are ended. -/
def execGangCompletion (s : State) : Out :=
  match s.gang s.arg.gang with
  | none => .next s
  | some g =>
    if g.status != 0 && g.mems.any (·.live) then .next (s.killMembers g.id g.mems)
    else if s.arg.flag then .next s
    else if g.mems.any (·.live) || !(recsOut s g) || (g.status = 0 && !(worksDone s g)) then .next s
    else
      let s1 := if g.status = 0 then s.signalDone g.pkt else s
      let s2 := (s1.evt g.home 3).complRec (srcFn g.src) g.id g.status g.reason g.lq g.home.val g.src (pktVector s g.src g.pkt)
      .next { s2 with gangs := s2.gangs.filter (fun h => h.id != g.id) }

/-- The first waiting completion record of a function enters its ring, and its vector follows (R333, R339). -/
def execCompletionRecordDelivery (s : State) : Out :=
  let n := s.arg.fn
  let f := s.fn n
  match f.cwait with
  | [] => .next s
  | (bs, vec) :: rest =>
    if f.cRoom then
      let s1 := s.out (.ring n (f.cbase.toNat / 4096 * 4096 + f.crtail % 2 ^ f.clog * 16) bs)
      let s2 := s1.updFn n (fun f => { f with crtail := (f.crtail + 1) % 2 ^ 32, cwait := rest })
      .next (match vec with
        | some v => s2.sendVec v
        | none => s2)
    else .next s

/-- The record that waits in a context's slot, or with `flag` at a member that has no context, is delivered, and its disposition is
complete (R271). -/
def execFaultRecordDelivery (s : State) : Out :=
  let c := s.arg.core
  let k := s.arg.ctx
  let g := s.arg.gang
  match (if s.arg.flag then (s.member g c).bind (·.frec) else (s.ctx c k).frec) with
  | none => .next s
  | some w =>
    match s.deliverWait w with
    | (s1, true) =>
      .next (if s.arg.flag then (s1.updMember g c (fun m => { m with frec := none })).moveMember g c else s1.updCtx c k (fun x => { x with frec := none }))
    | (_, false) => .next s

/-! ## Stalls that end (R142-R144, R254) -/

/-- A barrier releases a task from its C on (R143). -/
def execBarrierRelease (s : State) : Out :=
  let c := s.arg.core
  let k := s.arg.ctx
  let x := s.ctx c k
  match x.waitK, s.gang x.gang.toNat with
  | some (.gbar n), some g =>
    let t := (tileOf c).val
    if n ≤ mapGet 0 g.bars t && mapGet 0 g.barAt t ≤ s.gt && !(s.core c).halted then
      .next ((s.resumeK c k 4).updCtx c k (fun y => { y with bar := n, arrived := none }))
    else .next s
  | _, _ => .next s

/-- A `twait` ends in the gt in which its tokens are signalled (R142). -/
def execTwaitResume (s : State) : Out :=
  let c := s.arg.core
  let k := s.arg.ctx
  let x := s.ctx c k
  match x.waitK with
  | some (.twait m) => .next (if x.hart.allSignalled m && !(s.core c).halted then s.resumeK c k 2 else s)
  | _ => .next s

/-- A `wgt` ends (R144). -/
def execWgtResume (s : State) : Out :=
  let c := s.arg.core
  let k := s.arg.ctx
  match (s.ctx c k).waitK with
  | some (.wgt t) => .next (if t ≤ s.gt && !(s.core c).halted then s.resumeK c k 5 else s)
  | _ => .next s

/-- Send the pushes of a batch, in issue order. -/
def State.sendAll (s : State) (c : CoreId) (x : Ctx) : List PushRes → State
  | [] => s
  | p :: l => (s.send (x.owner c) (tileOf c) p.q x.asid.toNat p.pc x.taskid p.cmd p.prod p.cons).sendAll c x l

/-- The pushes of a context's commits, oldest first, are sent once what their commit wrote and the Loop stores before it have
performed (R176, R254). -/
def State.sendBatches (s : State) (c : CoreId) (k : CtxId) : List Batch → State
  | [] => s
  | b :: rest =>
    let x := s.ctx c k
    if x.wbuf.any (fun w => b.writes.contains w.id) || s.loopq.any (fun a => b.loops.contains a.id) then s
    else ((s.updCtx c k (fun y => { y with batches := rest })).sendAll c x b.pushes).sendBatches c k rest

def execPushSend (s : State) : Out := .next (s.sendBatches s.arg.core s.arg.ctx (s.ctx s.arg.core s.arg.ctx).batches)

end Sys2Proof.Machine
end

