-- ==== Sys2Proof/Machine/HostIf.lean ====
section
/-! DEFINITION. Machine/HostIf.lean: what the host and the peers do to the package: launch slots, the peer inlet, apertures, doorbells,
reads and writes of registers, and the MSI-X table (R335-R343, R361, R365). -/

namespace Sys2Proof.Machine

/-! ## Launch slots (R335, R337, R338) -/

/-- A vector function may not use a queue (R337): it is disabled, or QMASK leaves the queue out. -/
def vfBarred (s : State) (fn q : Nat) : Bool :=
  let v := (s.fn fn).vfmap
  !v.getLsbD 63 || !(v &&& 0xFFF0).getLsbD q

/-- The refusal code that a VF's packet meets, if any, in the order of R338. -/
def vfRefusal (s : State) (fn : Nat) (p : List Word) : Option Nat :=
  let v := (s.fn fn).vfmap
  let w7 := p.getD 7 0
  if wbits (p.getD 0 0) 32 16 != wbits v 32 16 then some 12
  else if pktPrio p = 0 then some 3
  else if w7.getLsbD 47 && 32 ≤ wbits w7 32 11 then some 2
  else none

/-- A write of a function to the launch slot of a tile and queue, at an offset within the slot. -/
def execLaunchSlotWrite (s : State) : Out :=
  let t := s.arg.tile
  let q := s.arg.id % 16
  let fn := s.arg.fn
  let bs := s.arg.data
  let p := (chunks 8 8 bs).map (fun b => BitVec.ofNat 64 (leNat b))
  if s.safe || s.arg.n != 0 || bs.length != 64 || (fn != 0 && vfBarred s fn q) then .next (s.dropLq t q)
  else
    match (if fn = 0 then none else vfRefusal s fn p) with
    | some code => .next (s.refuse t q p fn code)
    | none =>
      if boundRefused s t p then .next (s.refuse t q p fn 12)
      else if lqFull s t q then .next (s.dropLq t q)
      else .next (s.enterLq t q p fn)

/-! ## The peer inlet (R342, R343) -/

/-- The Access Control Table entry that decides on a peer's packet: the lowest valid one with its PEER and ASID. -/
def actEntry (s : State) (peer asid : Nat) : Option Nat :=
  (fromTo 0 256).find? (fun n => let e := mapGet 0 s.act n
    e.getLsbD 63 && wbits e 32 16 = peer && wbits e 16 16 = asid)

/-- The window counts of the Access Control Table at this gt. -/
def State.actRoll (s : State) : State :=
  if s.actWin = s.gt / 2 ^ 20 then s else { s with actWin := s.gt / 2 ^ 20, actCnt := [] }

/-- Admission of a peer's packet to a queue: counted under its entry. -/
def State.actAdmit (s : State) (peer asid q : Nat) : State × Bool :=
  let s1 := s.actRoll
  match actEntry s1 peer asid with
  | none => (s1, false)
  | some n =>
    let e := mapGet 0 s1.act n
    let c := mapGet 0 s1.actCnt n
    if (e &&& 0xFFF0).getLsbD q && c < wbits e 48 8 then ({ s1 with actCnt := mapSet s1.actCnt n (c + 1) }, true) else (s1, false)

/-- The first whole message of a receive queue. -/
def firstMessage : List Flit → Option (List Flit)
  | [] => none
  | f :: l => if f.lastf then some [f] else (firstMessage l).map (f :: ·)

/-- The tile whose launch inlet a handle serves (R294, R342). -/
def inletTile (h : Hnd) : Option TileId := if 0x300 ≤ h.dep && h.dep < 0x310 then some (Fin.ofNat 16 (h.dep - 0x300)) else none

/-- The peer inlet consumes the first whole message of a handle: its first 64 bytes are a packet, from the package that was the port's
PEER at the MAKE of the circuit that brought it (R299, R342). -/
def execPeerPacket (s : State) : Out :=
  let n := s.arg.handle
  let h := s.hnd n
  match inletTile h, firstMessage h.rq with
  | some t, some fs =>
    let k := fs.length
    let s1 := (s.updHnd n (fun x => { x with rq := x.rq.drop k, head := seqAdd x.head k, headCk := seqAdd x.headCk k })).evt t 7
    let raw := (chunks 8 8 ((fs.flatMap (·.data)).take 64)).map (fun b => BitVec.ofNat 64 (leNat b))
    let w0 := raw.getD 0 0
    let q := 4 * pktPrio raw + wbits w0 29 2
    let p := (w0 &&& ~~~0x60000000) :: raw.drop 1
    let (s2, ok) := s1.actAdmit (fs.head?.elim 0 (·.peer)) (wbits w0 32 16) q
    if !ok then .next (s2.refuse t q p 0xFFFF 12)
    else if boundRefused s2 t p then .next (s2.refuse t q p 0xFFFF 12)
    else if pktPrio p = 0 then .next (s2.refuse t q p 0xFFFF 3)
    else if lqFull s2 t q then .next (s2.refuse t q p 0xFFFF 13)
    else .next (s2.enterLq t q p 0xFFFF)
  | _, _ => .next s

/-! ## Apertures (R336) -/

/-- The next aligned part of an access: a whole line of a write, else at most 8 bytes. -/
def partLen (line : Bool) (addr len : Nat) : Nat :=
  if line && addr % 64 = 0 && 64 ≤ len then 64
  else if addr % 8 = 0 && 8 ≤ len then 8
  else if addr % 4 = 0 && 4 ≤ len then 4
  else if addr % 2 = 0 && 2 ≤ len then 2
  else 1

/-- The aligned parts of an access. -/
def apParts (line : Bool) : Nat → Nat → Nat → List (Nat × Nat)
  | 0, _, _ => []
  | fuel + 1, addr, len =>
    if len = 0 then []
    else
      let n := partLen line addr len
      (addr, n) :: apParts line fuel (addr + n) (len - n)

/-- The address that a BAR2 offset of a function reaches. -/
def apAddr (f : Fn) (off : Nat) : Nat := wbits f.hapctl 32 32 * 2 ^ 32 + off % 2 ^ 32

/-- A part at a physical address, under key slot 0: memory, whose tags and home admit it. -/
def apSeg (s : State) (acc : Acc) (pa len : Nat) : Option (List Seg) :=
  let memory : Bool := match paSel pa with
    | .hbm _ _ | .scratch _ _ => true
    | _ => false
  if memory && (pieceFault s false acc 0 pa len).isNone && !(meshOut s (homeOf pa)) then some [{ key := pa, len := len }] else none

/-- The pieces of one part, or none when it is refused; an aligned part lies in one page. -/
def apSegs (s : State) (fn : Nat) (acc : Acc) (addr len : Nat) : Option (List Seg) :=
  let f := s.fn fn
  if !f.hapctl.getLsbD 0 then none
  else if fn = 0 then apSeg s acc addr len
  else
    match xlate s 0 none (wbits f.vfmap 32 16) addr acc with
    | .error _ => none
    | .ok (pa, _) => apSeg s acc pa len

/-- One access of the aperture is refused. -/
def State.apRefuse (s : State) (fn : Nat) : State := s.updFn fn (fun f => { f with haperr := min (f.haperr + 1) (2 ^ 32 - 1) })

/-- Read the parts of an access. -/
def apRead (s : State) (fn : Nat) : List (Nat × Nat) → State × List Byte
  | [] => (s, [])
  | (a, n) :: l =>
    match apSegs s fn .read a n with
    | some g =>
      let (s1, bs) := apRead s fn l
      (s1, s.segBytes g ++ bs)
    | none =>
      let (s1, bs) := apRead (s.apRefuse fn) fn l
      (s1, List.replicate n 0xFF ++ bs)

/-- The bytes of the ASID table's entry of a bound ASID, which the host cannot write (R349). -/
def boundEntry (s : State) (pa : Nat) : Bool :=
  let base := wbits s.asidtab 19 33 * 2 ^ 19
  base ≤ pa && pa < base + 2 ^ 19 && (boundPart s ((pa - base) / 8)).isSome

/-- Bytes of the host reach memory, but for entries of bound ASIDs. -/
def State.hostPut (s : State) (g : Seg) (bs : List Byte) : State :=
  if (fromTo 0 bs.length).any (fun i => boundEntry s (g.key + i)) then
    (List.zip (fromTo 0 bs.length) bs).foldl (fun s (p : Nat × Byte) =>
      if boundEntry s (g.key + p.1) then s else s.putBytes (homeOf g.key) 0 (g.key + p.1) [p.2]) s
  else s.putBytes (homeOf g.key) 0 g.key bs

/-- Write bytes over pieces for the host. -/
def State.hostPuts (s : State) : List Seg → List Byte → State
  | [], _ => s
  | g :: l, bs => (s.hostPut g (bs.take g.len)).hostPuts l (bs.drop g.len)

/-- Write the parts of an access. -/
def State.apWrite (s : State) (fn : Nat) : List (Nat × Nat) → List Byte → State
  | [], _ => s
  | (a, n) :: l, bs =>
    (match apSegs s fn .write a n with
     | some g => s.hostPuts g (bs.take n)
     | none => s.apRefuse fn).apWrite fn l (bs.drop n)

/-- A read through the aperture of a function. -/
def execApertureRead (s : State) : Out :=
  let fn := s.arg.fn
  if s.safe then .next s else
  let (s1, bs) := apRead s fn (apParts false s.arg.len (apAddr (s.fn fn) s.arg.n) s.arg.len)
  .next (s1.out (.data fn bs))

/-- A write through the aperture of a function. -/
def execApertureWrite (s : State) : Out :=
  let fn := s.arg.fn
  let bs := s.arg.data
  .next (if s.safe then s else s.apWrite fn (apParts true bs.length (apAddr (s.fn fn) s.arg.n) bs.length) bs)

/-! ## Registers (R322, R324, R335-R339) -/

/-- CDOORBELL: EVTPEND.DOOR of the tile. -/
def execCdoorbellWrite (s : State) : Out := .next (if s.safe then s else s.evt s.arg.tile 6)

/-- The host writes CSTAT. -/
def execCstatRunWrite (s : State) : Out :=
  .next (if s.safe then s else s.cstatWrite .host s.arg.tile s.arg.word)

/-- The host's management function writes TSCFG. -/
def execTscfgWrite (s : State) : Out := .next (if s.safe then s else s.tscfg s.arg.tile s.arg.word)

/-- A BAR0 register of a function, at an 8-byte offset (R335, R336, R339, R341). -/
def bar0Old (f : Fn) (off : Nat) : Word :=
  if off = 0x00 then fncap
  else if off = 0x40 then f.cbase
  else if off = 0x48 then BitVec.ofNat 64 ((if f.cen then 2 ^ 63 else 0) + f.clog)
  else if off = 0x50 then BitVec.ofNat 64 f.crhead
  else if off = 0x58 then BitVec.ofNat 64 f.crtail
  else if off = 0x60 then f.fbase
  else if off = 0x68 then BitVec.ofNat 64 ((if f.fen then 2 ^ 63 else 0) + f.flog)
  else if off = 0x70 then BitVec.ofNat 64 f.frhead
  else if off = 0x78 then BitVec.ofNat 64 f.frtail
  else if off = 0x80 then f.hapctl
  else if off = 0x88 then BitVec.ofNat 64 f.haperr
  else 0

/-- A BAR0 register as the host reads it: the PF's fault ring registers and the VFMAPs are the PF's only. -/
def bar0Reg (s : State) (fn off : Nat) : Word :=
  if fn = 0 && 0x8008 ≤ off && off ≤ 0x8200 then (s.fn ((off - 0x8000) / 8)).vfmap
  else if fn != 0 && 0x60 ≤ off && off < 0x80 then 0
  else bar0Old (s.fn fn) off

/-- LOG2 lies in 4-16: other values leave it. -/
def logOf (v : Word) (old : Nat) : Nat := let n := wbits v 0 5; if 4 ≤ n && n ≤ 16 then n else old

/-- A whole BAR0 register is written. -/
def bar0Set (fn : Nat) (off : Nat) (v : Word) (f : Fn) : Fn :=
  if off = 0x40 then { f with cbase := v &&& ~~~0xFFF }
  else if off = 0x48 then { f with cen := v.getLsbD 63, clog := logOf v f.clog }
  else if off = 0x50 then { f with crhead := wbits v 0 32 }
  else if off = 0x60 && fn = 0 then { f with fbase := v &&& ~~~0xFFF }
  else if off = 0x68 && fn = 0 then { f with fen := v.getLsbD 63, flog := logOf v f.flog }
  else if off = 0x70 && fn = 0 then { f with frhead := wbits v 0 32 }
  else if off = 0x80 then
    if wbits v 32 32 / (if fn = 0 then 2 ^ 20 else 2 ^ 24) != 0 then f else { f with hapctl := v &&& 0xFFFFFFFF00000001 }
  else f

/-- A write of bytes within one register: the rest keeps its value (R4). -/
def mergeWord (old : Word) (off : Nat) (bs : List Byte) : Word :=
  let sh := 8 * (off % 8)
  let mask : Word := (BitVec.ofNat 64 (2 ^ (8 * bs.length) - 1)) <<< sh
  (old &&& ~~~mask) ||| ((BitVec.ofNat 64 (leNat bs)) <<< sh)

/-- A write to a BAR0 register: rings, aperture control, and for the PF the VFMAPs. -/
def State.bar0Write (s : State) (fn off : Nat) (bs : List Byte) : State :=
  let base := off / 8 * 8
  if fn = 0 && 0x8008 ≤ base && base ≤ 0x8200 then
    s.updFn ((base - 0x8000) / 8) (fun f => { f with vfmap := mergeWord f.vfmap off bs &&& 0x87FFFFFF0000FFF0 })
  else s.updFn fn (fun f => bar0Set fn base (mergeWord (bar0Old f base) off bs) f)

/-- The host writes a register: of a function's BAR0, or of the device window through the PF. -/
def execRegisterWrite (s : State) : Out :=
  let bs := s.arg.data.take 8
  if s.safe then .next s else
  match s.arg.reg with
  | .dev b off =>
    if b = 0 || (16 ≤ b && b < 32) then .next (s.devWrite .host b (bs.length / 8 + 2) off bs) else .next s
  | .bar0 fn off => .next (s.bar0Write fn off (bs.take (8 - off % 8)))

/-- The host reads up to 8 bytes of a register: of a function's BAR0, or of the device window through the PF. In the Safe Talkative State
only FNCAP answers (R365). -/
def State.hostRead (s : State) (r : RegAt) (len : Nat) : State :=
  let part (w : Word) (off : Nat) : List Byte := ((bytesOf 8 w.toNat).drop (off % 8)).take len
  match r with
  | .dev b off => if s.safe then s else s.out (.data 0 (part (regOld s b (off / 8 * 8)) off))
  | .bar0 fn off => if s.safe && off / 8 != 0 then s else s.out (.data fn (part (bar0Reg s fn (off / 8 * 8)) off))

/-! ## MSI-X (R340) -/

/-- The PF's pending vectors that may go are sent, in ascending order. -/
def State.sendPending (s : State) : State :=
  let f := s.fn 0
  let go := (fromTo 0 2048).filter (fun v => f.pendV.contains v && f.vecOpen v)
  go.foldl (fun s v => s.out (.vector 0 v)) (s.updFn 0 (fun f => { f with pendV := f.pendV.filter (fun v => !f.vecOpen v) }))

/-- The host masks or unmasks a vector. -/
def State.msixVec (s : State) (v : Nat) (mask : Bool) : State :=
  (s.updFn 0 (fun f =>
    let rest := f.unmasked.filter (· != v)
    { f with unmasked := if mask || 2048 ≤ v then rest else v :: rest })).sendPending

/-- The host sets MSI-X Enable and Function Mask. -/
def State.msixCtl (s : State) (en mask : Bool) : State := (s.updFn 0 (fun f => { f with msixEn := en, msixMask := mask })).sendPending

end Sys2Proof.Machine
end

