-- ==== Sys2Proof/Machine/Micro.lean ====
section
/-! DEFINITION. Machine/Micro.lean: the micro-ops (R222-R231, R235). Each acts on the routine that the sequencer of the
core in execution runs; a micro-op that waits leaves everything as it is and is executed again. -/

namespace Sys2Proof.Machine

/-- What a micro-op does. -/
inductive MStep where
  /-- It executes: the routine afterwards, its clocks, and the rest of the state. -/
  | go (r : Routine) (clocks : Nat) (s : State)
  | wait
  | breach (kind : Nat)
  | code (w : Word)
  /-- It reads these Loop bytes, of which a unit is marked bad (R283). -/
  | bad (segs : List Seg)

/-- The routine at the next micro-op. -/
def Routine.adv (r : Routine) : Routine := { r with pc := r.pc + 1 }

/-- Where a waiting routine stands when its gang has stopped: suspended (R234). -/
def State.suspend (s : State) (c : CoreId) (r : Routine) : State :=
  if r.cmd.comm && !(gangGoes s (s.ctx c r.cmd.ctx)) && (s.gang (s.ctx c r.cmd.ctx).gang.toNat).isSome then
    (s.setRt c none).updCtx c r.cmd.ctx (fun x => { x with susp := some r })
  else s.setRt c (some r)

/-- Run a micro-op on the routine of the sequencer in execution. -/
def onSeq (s : State) (f : CoreId → Ctx → Routine → MStep) : Out :=
  match s.cur with
  | .seq c =>
    match (s.core c).rt with
    | none => .next s
    | some r0 =>
      let r := { r0 with mma := none }
      match f c (s.ctx c r.cmd.ctx) r with
      | .go r1 clk s1 => .next (s1.setRt c (some { r1 with busy := s.gt + clk }))
      | .wait => .next (s.suspend c r)
      | .breach k => .next (s.microTake s c r.cmd r.pc (breachDetail k))
      | .code w => .next (s.microTake s c r.cmd r.pc w)
      | .bad l => .next (s.matrixBad c r.cmd l)
  | _ => .next s

/-- A rack that a micro-op waits on: disabled is a breach, empty a wait, and so is a panel written in this clock (R224, R236). -/
def needPanel (gt : Nat) (x : Ctx) (n : Nat) (k : Unit → MStep) : MStep :=
  if rkCap (x.rk n) = 0 then .breach 10
  else if x.rkReady n gt = 0 then .wait
  else k ()

/-- The head panel of a rack. -/
def headPanel (x : Ctx) (n : Nat) : PLatch := { rack := n, n := rkHead (x.rp n) }

/-- Pop the head panel of a rack of a routine's context. -/
def State.popPanel (s : State) (c : CoreId) (r : Routine) (n : Nat) : State :=
  s.updCtx c r.cmd.ctx (fun x => x.setRp n r.cmd.comm (fun p => withHead p (rkHead p + 1)))

/-- A drain of a plane of the context is running. -/
def drainOn (s : State) (c : CoreId) (k : CtxId) (plane : Bool) : Bool :=
  (s.core c).drains.any (fun d => d.ctx == k && d.plane == plane)

def execMoEnd (s : State) : Out := onSeq s (fun _ _ r => .go { r with ended := true } 1 s)

def execMoPopa (rack : BitVec 3) (s : State) : Out :=
  onSeq s (fun c x r => needPanel s.gt x rack.toNat (fun _ =>
    .go { r.adv with la := some (headPanel x rack.toNat) } 1 (s.popPanel c r rack.toNat)))

def execMoPopb (rack : BitVec 3) (s : State) : Out :=
  onSeq s (fun c x r => needPanel s.gt x rack.toNat (fun _ =>
    .go { r.adv with lb := some (headPanel x rack.toNat) } 1 (s.popPanel c r rack.toNat)))

def execMoPeeka (rack : BitVec 3) (s : State) : Out :=
  onSeq s (fun _ x r => needPanel s.gt x rack.toNat (fun _ => .go { r.adv with la := some (headPanel x rack.toNat) } 1 s))

/-- The operand kinds of a product: admitted, both floating or both integer as the plane is (R228). -/
def mmaKinds (p : Plane) (ka kb : BitVec 4) : Option (Kind × Kind) :=
  match kindOf ka.toNat, kindOf kb.toNat with
  | some a, some b =>
    if (if p.int then mmaInt a && mmaInt b else mmaFloat a && mmaFloat b) then some (a, b) else none
  | _, _ => none

/-- `mo.mma` (R228). -/
def execMoMma (plane : Bool) (ka kb : BitVec 4) (ng : BitVec 6) (s : State) : Out :=
  onSeq s (fun c x r =>
    if drainOn s c r.cmd.ctx plane then .wait
    else
      let p := x.plane plane
      match mmaKinds p ka kb, r.la, r.lb with
      | none, _, _ => .breach 5
      | some (a, b), some la, some lb =>
        let n := ng.toNat * min (groupSize a) (groupSize b)
        let ca := x.rk la.rack
        let cb := x.rk lb.rack
        if panelLen ca != 128 * rowBytes a n || panelLen cb != 96 * rowBytes b n then .breach 7
        else if !(panelInFp x ca la.n) || !(panelInFp x cb lb.n) then .breach 14
        else if readsBad s [panelSeg c ca la.n, panelSeg c cb lb.n] then .bad [panelSeg c ca la.n, panelSeg c cb lb.n]
        else
          let (q, fl) := mmaPlane p a b ng.toNat (panelBytes s c ca la.n) (panelBytes s c cb lb.n)
          .go { r.adv with fl := r.fl ||| fl, mma := some (plane, p) } (32 * ng.toNat) (s.updCtx c r.cmd.ctx (fun y => y.setPlane plane r.cmd.comm q))
      | some _, _, _ => .breach 6)

/-- The f32 values of a panel. -/
def panelWords (bs : List Byte) : List W32 := (chunks 4 128 bs).map (fun b => BitVec.ofNat 32 (leNat b))

/-- A scale panel of `lines` lines is popped (R224). -/
def scalePanel (lines : Nat) (rack : BitVec 3) (set : Routine → List W32 → Routine) (s : State) : Out :=
  onSeq s (fun c x r => needPanel s.gt x rack.toNat (fun _ =>
    let cfg := x.rk rack.toNat
    let n := rkHead (x.rp rack.toNat)
    if rkPanl cfg != lines then .breach 7
    else if !(panelInFp x cfg n) then .breach 14
    else if readsBad s [panelSeg c cfg n] then .bad [panelSeg c cfg n]
    else .go (set r.adv (panelWords (panelBytes s c cfg n))) 1 (s.popPanel c r rack.toNat)))

def execMoSclRow (rack : BitVec 3) (s : State) : Out := scalePanel 8 rack (fun r l => { r with rows := some l }) s
def execMoSclCol (rack : BitVec 3) (s : State) : Out := scalePanel 6 rack (fun r l => { r with cols := some l }) s
def execMoSclClr (s : State) : Out := onSeq s (fun _ _ r => .go { r.adv with rows := none, cols := none } 1 s)

def execMoZero (plane : Bool) (int : Bool) (s : State) : Out :=
  onSeq s (fun c _ r =>
    if drainOn s c r.cmd.ctx plane then .wait
    else .go r.adv 1 (s.updCtx c r.cmd.ctx (fun y => y.setPlane plane r.cmd.comm (zeroPlane int))))

/-- `mo.drn` (R229). -/
def execMoDrn (plane : Bool) (okind : BitVec 4) (rm : BitVec 3) (mpd : BitVec 3) (rstr : BitVec 16) (clr : Bool) (s : State) : Out :=
  onSeq s (fun c _ r =>
    if drainOn s c r.cmd.ctx plane then .wait
    else
      match s.startDrain c r.cmd plane okind (drainMode rm r.cmd.fr) (mapGet (0 : Word) r.mp mpd.toNat).toNat rstr.toNat clr r.rows r.cols s.gt with
      | .error k => .breach k
      | .ok (s1, fl) => .go { r.adv with fl := r.fl ||| fl } 1 s1)

/-- `mo.loop` (R224). -/
def execMoLoop (target : BitVec 12) (lc : BitVec 2) (count : BitVec 16) (s : State) : Out :=
  onSeq s (fun _ _ r =>
    let old := mapGet 0 r.lc lc.toNat
    let n := (if old = 0 then count.toNat else old) - 1
    .go { r with lc := mapSet r.lc lc.toNat n, pc := if 0 < n then target.toNat else r.pc + 1 } 1 s)

def execMoPadd (mpd : BitVec 3) (imm : BitVec 32) (s : State) : Out :=
  onSeq s (fun _ _ r =>
    .go { r.adv with mp := mapSet r.mp mpd.toNat (mapGet 0 r.mp mpd.toNat + imm.signExtend 64) } 1 s)

/-- The cores that a CMASK names in a core's cluster. -/
def maskCores (c : CoreId) (m : BitVec 8) : List CoreId :=
  (fromTo 0 8).filterMap (fun i => if m.getLsbD i then some (peerOf c i) else none)

/-- A receiver's rack is read-only: the sender's descriptor record is read for it (R231). -/
def shrTakesRecord (s : State) (g rack : Nat) (t : CoreId) : Bool :=
  (peerCtx s g t).any (fun k => ((s.ctx t k).rk rack).getLsbD 63)

/-- `mo.shr` (R231): the transfer runs in the background. -/
def execMoShr (rack : BitVec 3) (cmask : BitVec 8) (drack : BitVec 3) (s : State) : Out :=
  onSeq s (fun c x r => needPanel s.gt x rack.toNat (fun _ =>
    let cfg := x.rk rack.toNat
    let n := rkHead (x.rp rack.toNat)
    let g := x.gang.toNat
    let ts := maskCores c cmask
    match ts.filterMap (shrStatic s c g cfg drack.toNat) with
    | b :: _ => .breach b
    | [] =>
      if !(panelInFp x cfg n) || (ts.any (shrTakesRecord s g drack.toNat) && !(inFp x.fpUnit x.fpCnt (sdpOff cfg) 64)) then .breach 14
      else if ts.any (shrAhead s c g drack.toNat n) then .breach 12
      else if shrWaits s g drack.toNat n ts then .wait
      else if readsBad s [panelSeg c cfg n] then .bad [panelSeg c cfg n]
      else
        let d : Shr := { id := s.fresh, cmd := r.cmd.id, ctx := r.cmd.ctx, rack := rack.toNat, n := n, drack := drack.toNat,
                         cores := ts, bytes := panelBytes s c cfg n, endGt := s.gt + 1 + (panelLen cfg + 511) / 512,
                         mcmd := r.cmd, pc := r.pc }
        .go r.adv 1 (s.updCore c (fun y => { y with shrs := y.shrs ++ [d] })).bump))

/-- `mo.wait` (R224, R235). -/
def execMoWait (t : Tok) (s : State) : Out :=
  onSeq s (fun _ x r =>
    if s.prods.any (fun p => p.id == r.cmd.prod && p.tok == t) then .breach 13
    else if (x.hart.tok t).signalled then .go r.adv 1 s
    else .wait)

/-- `mo.tok` acts as `tksig` (R224). -/
def execMoTok (t : Tok) (s : State) : Out :=
  onSeq s (fun c _ r =>
    .go r.adv 1 (s.updCtx c r.cmd.ctx (fun y => { y with hart := y.hart.setTok t { (y.hart.tok t) with armed := true } })))

/-- `mo.pushr` (R226, R229). -/
def execMoPushr (plane : Bool) (okind : BitVec 4) (rm : BitVec 3) (rack : BitVec 3) (clr : Bool) (s : State) : Out :=
  onSeq s (fun c x r =>
    let cfg := x.rk rack.toNat
    let p := x.plane plane
    let tail := rkTail (x.rp rack.toNat)
    if drainOn s c r.cmd.ctx plane then .wait
    else if rkCap cfg = 0 || !rackSelf cfg then .breach 10
    else
      match kindOf okind.toNat with
      | none => .breach 8
      | some k =>
        if !okindFor p k then .breach 8
        else if panelLen cfg != 128 * rowBytes k 96 then .breach 7
        else if !(panelInFp x cfg tail) then .breach 14
        else if !(slotFree s c r.cmd.ctx rack.toNat) || (s.core c).drains.any (fun d => d.ctx == r.cmd.ctx && d.rack == some rack.toNat) then .wait
        else
          let (bs, fl) := drainBytes p k (drainMode rm r.cmd.fr) r.rows r.cols
          let d : Drain := { cmd := r.cmd.id, ctx := r.cmd.ctx, plane := plane,
                             segs := [{ key := loopKey c (panelOff cfg tail), len := panelLen cfg }],
                             bytes := bs.flatMap (fun b => b), rack := some rack.toNat, endGt := s.gt + 128 }
          .go { r.adv with fl := r.fl ||| fl } 1 ((s.updCtx c r.cmd.ctx (fun y => y.setPlane plane r.cmd.comm (p.cleared clr))).updCore c
            (fun y => { y with drains := y.drains ++ [d] })))

def execMoNop (s : State) : Out := onSeq s (fun _ _ r => .go r.adv 1 s)

/-- `mo.trap` (R224, R368). -/
def execMoTrap (code : BitVec 16) (s : State) : Out := onSeq s (fun _ _ _ => .code (code.setWidth 64))

/-! ## A result lands (R100, R284) -/

/-- Sign, exponent and the top six fraction bits of an accumulator value as R284 forms them: its class, its sign and Q. -/
def accQ (v : FVal) : Nat × Bool × Int :=
  match v with
  | .fin n m e => if m = 0 then (0, n, 0) else (1, n, ilog m e * 64 + ((m * 64 / 2 ^ Nat.log2 m : Nat) : Int) - 64)
  | .inf n => (2, n, 0)
  | .nan => (3, false, 0)

/-- The shadow unit of an accumulator column adder disagrees with a result: its class stands in bits 1:0 of the word, its sign in bit
2, its Q above (R284). -/
def accDiverges (v : FVal) (w : Word) : Bool :=
  let (cl, sg, q) := accQ v
  let qs := (w.sshiftRight 3).toInt
  wbits w 0 2 != cl || (cl != 0 && cl != 3 && sg != w.getLsbD 2) || (cl == 1 && (q + 1 < qs || qs + 1 < q))

/-- The shadow unit of cell `n` (row × 96 + column) disagrees as the results of a `mo.mma` land: they never land, and the micro-op
stands to be executed again; its task takes the fault (R284, log 75). -/
def State.accShadow (s : State) (c : CoreId) (n : Nat) (w : Word) : State :=
  match (s.core c).rt with
  | none => s
  | some r =>
    match r.mma with
    | none => s
    | some (pl, old) =>
      let x := s.ctx c r.cmd.ctx
      let p := x.plane pl
      if r.busy = s.gt + 1 && !(s.core c).halted && accDiverges (cellVal p.int (p.cell (n / 96) (n % 96))) w then
        let s1 := (s.updCtx c r.cmd.ctx (fun y => y.setPlane pl r.cmd.comm old)).setRt c
          (some { r with pc := r.pc - 1, mma := none, busy := s.gt + 1 })
        if x.faults then s1.bump.coreFault c r.cmd.ctx 10 r.cmd.pc { code := fShadow, cause := n, detail := Config.freeWord s1.fresh }
        else s1
      else s

/-- A result lands (R100), unless its core is frozen (R101). With `flag` the shadow unit of a stage has the value `word` for the container
that `n` names of the result `id`: when it disagrees at the cycle of landing, the result does not land, and a rerun pair is taken (R284).
With `flag2` it is the shadow unit of an accumulator column adder. -/
def execResultLanding (s : State) : Out :=
  let c := s.arg.core
  let k := s.arg.ctx
  if s.arg.flag2 then .next (s.accShadow c s.arg.n s.arg.word)
  else if coreFrozen s c || coreWaits s c then .next s
  else if s.arg.flag then
    match (s.ctx c k).hart.pend.find? (fun p => p.id == s.arg.id) with
    | none => .next s
    | some p =>
      match shadowed (s.core c).ic p s.arg.n with
      | none => .next s
      | some v =>
        if diverges v (s.arg.word.setWidth 32) then
          let s1 := (s.landCtx c k (fun q => q.id == p.id)).updCtx c k (·.shelve p)
          .next (if (s.ctx c k).faults then
              s1.bump.coreFault c k p.slot p.pc { code := fShadow, cause := s.arg.n % 512, detail := Config.freeWord s1.fresh }
            else s1)
        else .next s
  else .next (s.landCtx c k (fun _ => false))

end Sys2Proof.Machine
end

