-- ==== Sys2Proof/Machine/Service.lean ====
section
/-! DEFINITION. Machine/Service.lean: the security block, debug, power and bring-up (R19, R21, R345-R366). What a management request
carries is its operands; whether the owner's signature of it verifies is the operand `flag`. -/

namespace Sys2Proof.Machine

/-! ## Reset and bring-up (R345, R346, R364, R365) -/

/-- Every tile. -/
def tileIds : List TileId := (fromTo 0 16).map (fun n => Fin.ofNat 16 n)

/-- The cores of a tile. -/
def coresOf (t : TileId) : List CoreId := (fromTo 0 32).map (fun n => coreAt t n)

/-- A core holds a halt. -/
def anyHalted (s : State) (t : TileId) : Bool := (coresOf t).any (fun c => (s.core c).halted)

/-- The retired cores. -/
def retiredCores (s : State) : List Nat := (s.cores.filter (fun (p : Nat × Core) => p.2.retired)).map (·.1)

/-- A self-test record (R364). -/
def selfRec (s : State) (stage result : Nat) (tiles hbm : BitVec 16) (retired : List Nat) : List Byte :=
  bytesOf 2 1 ++ bytesOf 1 stage ++ bytesOf 1 result ++ bytesOf 2 tiles.toNat ++ bytesOf 2 hbm.toNat ++
    bytesOf 64 (retired.foldl (fun n c => n ||| 2 ^ c) 0) ++ le8 s.devrec ++ bytesOf 8 s.gt ++ bytesOf 4 s.laserF.toNat ++ zeroBytes 36

/-- The firmware and the configuration image of the secure flash. -/
def fwImage (s : State) : FlashImage := s.flash.getD 0 { body := [], sign := [], version := 0 }
def cfgImage (s : State) : FlashImage := s.flash.getD 1 { body := [], sign := [], version := 0 }

/-- The mask ROM accepts an image: its signature verifies under the root key, and its version is not behind the counter. -/
def imageOk (s : State) (i : FlashImage) : Bool := Config.slhVerify Config.rootKey i.body i.sign && s.counter ≤ i.version

/-- The tiles as a reset finds them: their Cellarers do not run, and their sensors read what they read. -/
def tilesStopped (s : State) : NMap Tile :=
  (fromTo 0 16).map (fun n =>
    (n, ({ cell := { run := false }, temp := (s.tile (Fin.ofNat 16 n)).temp, junc := (s.tile (Fin.ofNat 16 n)).junc } : Tile)))

/-- The package at the start of the mask ROM: what survives a reset is the flash, its counter, what was sent, and what the sensors
read. -/
def State.romStart (s : State) : State :=
  { State.reset with
      tiles := tilesStopped s, stRec := [], fresh := s.fresh, form := s.form, flash := s.flash, counter := s.counter, secret := Config.puf,
      hostOut := s.hostOut, boot := {} }

/-- A handle as the lasers go off: its light path is gone, and no MAKE is pending for it. -/
def Hnd.dark (h : Hnd) : Hnd := if h.lit then { h with nxt := none }.fall .dead else { h with nxt := none, st := h.base }

/-- A program slot whose Vintner stops is idle, as `vprog.stop` leaves it (R329). -/
def Slot.idle (v : Slot) : Slot := if v.runs then { v with st := 0, wait := none, full := none } else v

/-- The Vintner stops: no slot runs, and no timed step is queued. -/
def State.vintnerIdle (s : State) : State :=
  { s with slots := s.slots.map (fun (p : Nat × Slot) => (p.1, p.2.idle)), timerq := [] }

/-- The lasers go off: no circuit has a light path (R365). -/
def State.lasersOff (s : State) : State :=
  { s.vintnerIdle with laserF := BitVec.allOnes 32, handles := s.handles.map (fun (p : Nat × Hnd) => (p.1, p.2.dark)) }

/-- Enter the Safe Talkative State with a record (R365): nothing issues, the lasers are off. -/
def State.enterSafe (s : State) (stage result : Nat) (tiles hbm : BitVec 16) : State :=
  { s.lasersOff with safe := true, stRec := selfRec s stage result tiles hbm (retiredCores s) }

/-- The mask ROM: both images verify, the counter rises, and the configuration takes effect; or the Safe Talkative State. -/
def State.bootRom (s : State) : State :=
  let r := s.romStart
  if imageOk r (fwImage r) && imageOk r (cfgImage r) then
    let cfg := (cfgImage r).body
    { r with counter := max r.counter (fwImage r).version, feats := Config.cfgFeats cfg, pkgid := Config.cfgPkgid cfg,
             fwEntry := Config.cfgEntry cfg }
  else r.enterSafe 0 1 0 0

/-- Package reset (R19, R346). -/
def execPackageReset (s : State) : Out := .next s.bootRom

/-- What the package keeps when an exit from C6 fails: its time base, its identity and configuration; the rest of its state is lost
(R360, R361). -/
def State.lost (s : State) : State :=
  { s.romStart with gt := s.gt, sct := s.sct, feats := s.feats, pkgid := s.pkgid, fwEntry := s.fwEntry, boot := s.boot }

/-- Start a Cellarer at the firmware entry, which CPC holds too (R322, R324, R361). -/
def Cell.restart (entry : Nat) : Cell := { hart := { pc := entry }, cpc := entry }

/-- A Scope Cost Table as self-test writes it: its reserved bits are 0, and so is CMT_GT of the four scopes below TILE (R14). -/
def sctClean (l : List Word) : List Word :=
  (l.take 4).map (· &&& 0x80000000FFFFFFFF) ++ (l.drop 4).map (· &&& 0x8000FFFFFFFFFFFF)

/-- Numbers do not fall. -/
def rises : List Nat → Bool
  | a :: b :: l => a ≤ b && rises (b :: l)
  | _ => true

/-- Self-test writes eight entries, whose fields do not decrease over the valid ones (R14, R15). -/
def sctOk (l : List Word) : Bool :=
  l.length = 8 && [0, 16, 32].all (fun lo => rises ((l.filter (fun w => w.getLsbD 63)).map (fun w => wbits w lo 16)))

/-- The self-test is complete, once after each package reset (R14, R15, R364). The table that it writes obeys R15: an operand that
breaks it names no end of a self-test, and nothing happens (log 62). -/
def execSelfTestComplete (s : State) : Out :=
  match s.arg.self with
  | none => .next s
  | some r =>
    if s.safe || s.boot.tested then .next s
    else if !r.failed && !(sctOk (sctClean r.sct)) then .next s
    else
      let s0 := r.retired.foldl (fun s c => s.updCore c (fun y => { y with retired := true })) s
      let s1 := { s0 with laserF := r.lasers }
      if r.failed then .next (s1.enterSafe r.stage 1 r.tiles r.hbm) else
      let s2 := { s1 with sct := sctClean r.sct, boot := { s1.boot with tested := true } }
      let s3 := tileIds.foldl (fun s t => s.setCell t (Cell.restart s.fwEntry)) s2
      .next { s3 with stRec := selfRec s3 7 0 r.tiles r.hbm (r.retired.map (·.val)) }

/-- A sensor reads at or above the trip limit of what it measures: 110 degrees at a junction, 105 in a stack (R366). -/
def overheated (s : State) : Bool := s.tiles.any (fun (p : Nat × Tile) => 110 ≤ p.2.junc || 105 ≤ p.2.temp)

/-- Every sensor reads below 85 degrees (R366). -/
def cooled (s : State) : Bool := s.tiles.all (fun (p : Nat × Tile) => p.2.junc < 85 && p.2.temp < 85)

/-- The package is in the Safe Talkative State after a thermal trip: its record has RESULT 2 (R364, R366). -/
def tripped (s : State) : Bool := s.safe && s.stRec.getD 3 0 == 2

/-- RETRY restarts a package out of the Safe Talkative State; after a thermal trip, once every sensor reads below 85 degrees (R365,
R366). -/
def execRetry (s : State) : Out :=
  .next (if s.safe && (!(tripped s) || cooled s) then s.bootRom else s)

/-- A thermal trip, when a sensor is at its limit (R366): gangs end without completion records and compute is fenced. -/
def execThermalTrip (s : State) : Out :=
  if !(overheated s) then .next s else
  let cut (y : Core) : Core := { y with ctxs := [{}, {}, {}], run := none, switch := none, mq := [], rt := none, drains := [], shrs := [] }
  let s1 := { s with gangs := [], cmds := [], prods := [], loopq := [],
                     cores := s.cores.map (fun (p : Nat × Core) => (p.1, cut p.2)) }
  let s2 := tileIds.foldl (fun s t => s.updCell t (fun x => { x with run := false })) s1
  .next (s2.enterSafe 7 2 0 0)

/-! ## The pod (R21) -/

/-- Compute is fenced: no Cellarer runs and there is no gang. -/
def fenced (s : State) : Bool := s.gangs.isEmpty && tileIds.all (fun t => !(s.cell t).run)

/-- A fenced package of a pod joins it before any task has run; its first join loads GT from the pod reference, and GT never steps
afterwards (R6, R21). -/
def execPodJoin (s : State) : Out :=
  .next (if fenced s && !s.podRef && s.feats.getLsbD 2 && !s.boot.ran then
      { s with gt := if s.boot.joined then s.gt else s.arg.word.toNat, podRef := true, boot := { s.boot with joined := true } }
    else s)

/-- The pod reference is lost. -/
def execPodReferenceLoss (s : State) : Out :=
  .next (if s.podRef then { s with podRef := false }.out (.event "POD_REFERENCE_LOSS" [s.gt]) else s)

/-! ## Enclaves (R349-R354) -/

/-- The enclave of an identifier. -/
def State.enc (s : State) (id : Nat) : Option Enclave := s.encs.find? (fun e => e.id == id)

/-- Change an enclave. -/
def State.updEnc (s : State) (id : Nat) (f : Enclave → Enclave) : State := { s with encs := mapWhere (fun e => e.id == id) f s.encs }

/-- Some tile is at D1 or above. -/
def observed (s : State) : Bool := s.tiles.any (fun (p : Nat × Tile) => 1 ≤ p.2.dbg)

/-- Replay goes on while some tile is at D1 or above (R359, R362). -/
def State.replayKept (s : State) : State :=
  if s.replay.ms = 0 || observed s then s
  else { s with replay := { s.replay with ms := 0, inProg := false, todo := [], images := [], lines := [], log := [] } }

/-- The debugger holds something of a core: a halt, a bit of DBGCTL, or the running task at a breakpoint (R355, R357). -/
def Core.underDebug (y : Core) : Bool := y.halted || y.dbgctl != 0 || y.run.any (fun k => (y.ctx k).st == .parkedPlace)

/-- Below D2 a tile's cores run, whatever the debugger had set: none is halted, no task stays at a breakpoint, and DBGCTL is clear
(R354, R362, log 100). -/
def State.undebug (s : State) (t : TileId) : State :=
  (coresOf t).foldl (fun s c =>
    if (s.core c).underDebug then (s.updCore c (fun y => { y with dbgctl := 0 })).dbgResumeCore c else s) s

/-- Set the debug level of a tile. -/
def State.setTileLevel (s : State) (n : Nat) (t : TileId) : State :=
  (if n < 2 then s.undebug t else s).updTile t (fun x => { x with dbg := n })

/-- Set the debug level of some tiles. -/
def State.setLevel (s : State) (n : Nat) (ts : List TileId) : State := (ts.foldl (fun s t => s.setTileLevel n t) s).replayKept

/-- ENCREATE: refused without GAUNTLET, or when a tile is taken. Its tiles are at D0 until a grant (R354, R362). -/
def execEncreate (s : State) : Out :=
  let id := s.arg.encid.toNat
  if s.safe || !s.arg.flag || !s.feats.getLsbD 0 || (s.enc id).isSome || s.encs.any (fun e => e.tiles.any (fun t => s.arg.tiles.contains t)) then
    .next (s.refused "ENCREATE")
  else
    let e : Enclave := { id := id, owner := s.arg.data, tiles := s.arg.tiles, parts := [] }
    .next ({ s with encs := s.encs ++ [e] }.setLevel 0 s.arg.tiles)

/-- The attestation report of a nonce (R350). -/
def reportOf (s : State) (id : Nat) (nonce ekdig : List Byte) : List Byte :=
  let e := s.enc id
  let fl := (if e.any (·.taint) then 1 else 0) + (if e.isSome then 2 else 0)
  bytesOf 2 1 ++ bytesOf 2 fl ++ bytesOf 2 (if e.isSome then id else 0) ++ bytesOf 2 s.pkgid.toNat ++ le8 s.devrec ++ bytesOf 8 s.gt ++
    nonce.take 32 ++ zeroBytes (32 - nonce.length) ++ Config.sha256 (fwImage s).body ++ Config.sha256 (cfgImage s).body ++
    ekdig ++ bytesOf 4 s.counter ++ zeroBytes 4

/-- Send a signed report. -/
def State.sendReport (s : State) (id : Nat) (nonce ekdig : List Byte) : State :=
  let r := reportOf s id nonce ekdig
  s.out (.report r (Config.slhSign s.secret r))

/-- ATTEST. -/
def execAttest (s : State) : Out := s.request "ATTEST" (.next (s.sendReport s.arg.encid.toNat s.arg.data (zeroBytes 32)))

/-- An ML-KEM key pair for a participant (R351). -/
def execKemKeyPairGenerate (s : State) : Out :=
  let id := s.arg.encid
  if s.safe || (s.enc id.toNat).isNone || 16 ≤ s.arg.part then .next (s.refused "KEM")
  else
    let n := s.fresh
    let pub := Config.kemPublic n
    let s1 := { s.bump with kems := s.kems ++ [({ encid := id, part := s.arg.part, num := n } : KemPair)] }
    .next ((s1.out (.data 0 pub)).sendReport id.toNat s.arg.data (Config.sha256 pub))

/-- The info string of a derived key. -/
def infoMem : List Byte := [0x7A, 0x77, 0x31, 0x36, 0x2D, 0x6D, 0x65, 0x6D]
def infoLink : List Byte := [0x7A, 0x77, 0x31, 0x36, 0x2D, 0x6C, 0x69, 0x6E, 0x6B]

/-- The number of a memory key on a tile: that of the same key, if the tile has been given it, else a new one. The tile's device
memory key is 0 (R347). -/
def keyNum (s : State) (t : TileId) (key : List Byte) (new : Nat) : Nat :=
  match ((Config.deviceKey s.secret t.val, 0) :: (s.tile t).memKeys).find? (fun (p : List Byte × Nat) => p.1 == key) with
  | some p => p.2
  | none => new

/-- A memory key is installed in a slot of some tiles (R347, R351). -/
def State.installKey (s : State) (slot : Nat) (key : List Byte) (new : Nat) (encid : BitVec 16) (part : Nat) (ts : List TileId) : State :=
  ts.foldl (fun s t =>
    let n := keyNum s t key new
    s.updTile t (fun x =>
      { x with keys := mapSet x.keys slot { valid := true, encid := encid, part := part, epoch := n },
               memKeys := if n = new then (key, new) :: x.memKeys else x.memKeys })) s

/-- A participant with what KEYEST brings: its slot joins those that it has. -/
def partOf (k : KeyEst) (z : List Byte) (old : Option Part) : Part :=
  let oldOf {α : Type} (f : Part → List α) : List α := old.elim [] f
  { id := k.part, asids := k.asids.map (·.toNat), slots := (oldOf (·.slots)).filter (· != k.slot) ++ [k.slot],
    tiles := (oldOf (·.tiles)).filter (fun t => !(k.tiles.contains t)) ++ k.tiles,
    link := Config.hkdf z infoLink, images := k.images }

/-- KEYEST: the ciphertext is decapsulated with the participant's pair, which is then erased. -/
def execKeyest (s : State) : Out :=
  match s.arg.key with
  | none => .next s
  | some k => s.request "KEYEST" <|
    match s.enc k.encid.toNat, s.kems.find? (fun m => m.encid == k.encid && m.part == k.part) with
    | some e, some m =>
      let old := e.parts.find? (fun p => p.id == k.part)
      if !s.arg.flag || k.slot = 0 || 256 ≤ k.slot || 16 ≤ k.part || old.any (·.revoked) || !(k.tiles.all (fun t => e.tiles.contains t)) then
        .next (s.refused "KEYEST")
      else
        let z := Config.kemDecap m.num k.cipher
        let p := partOf k z old
        let s1 := s.bump.installKey k.slot (Config.hkdf z infoMem) (s.fresh + 1) k.encid k.part k.tiles
        let s2 := { s1 with kems := s1.kems.filter (fun q => q.num != m.num) }
        .next (s2.updEnc e.id (fun x => { x with parts := x.parts.filter (fun q => q.id != k.part) ++ [p] }))
    | _, _ => .next (s.refused "KEYEST")

/-- Kill the gangs of some ASIDs (R353). -/
def State.killAsids (s : State) (asids : List Nat) : List Gang → State
  | [] => s
  | g :: l => (if asids.contains (wbits (g.pkt.getD 0 0) 32 16) then s.killGang g.id 2 0 else s).killAsids asids l

/-- A command of a participant that ends without being signalled: a trigger or a parked one. -/
def endsUnsignalled (asids : List Nat) (d : Cmd) : Bool :=
  asids.contains d.asid && (match d.st with
    | .trigger | .parked20 | .parked21 => true
    | _ => false)

/-- Program slots of some ASIDs stop as `vprog.stop` does, and no timed step of those ASIDs is left, not of a program that has ended
either (R353). -/
def State.stopSlots (s : State) (asids : List Nat) : State :=
  let mine := (s.timerq ++ fullSteps s).filter (fun e => asids.contains e.asid)
  { s with slots := s.slots.map (fun (p : Nat × Slot) => (p.1, if asids.contains p.2.asid then p.2.idle else p.2)),
           timerq := s.timerq.filter (fun e => !(asids.contains e.asid)) }.rescheduleAll (entHandles mine)

/-- A handle is of some ASIDs: one of them made it last, or has a MAKE pending for it. -/
def Hnd.ofAsids (asids : List Nat) (h : Hnd) : Bool :=
  (h.base != .free && asids.contains h.asid) || h.nxt.any (fun m => asids.contains m.asid)

/-- A handle of some ASIDs is BROKEN at once, whatever it was (R353). -/
def Hnd.revoke (asids : List Nat) (gt : Nat) (h : Hnd) : Hnd :=
  if !(h.ofAsids asids) then h
  else if h.lit then { h.fall .broken with brokeAt := gt }
  else { h with st := if h.st = .scheduled then .scheduled else .broken, base := .broken }

/-- The triggers and the parked commands of a participant end. -/
def State.endParked (s : State) (asids : List Nat) : State :=
  let dead : List Cmd := s.cmds.filter (endsUnsignalled asids)
  ({ s with cmds := s.cmds.filter (fun d => !(endsUnsignalled asids d)) }).endProds (dead.map Cmd.prod)

/-- Steps 1 and 2 of R353. -/
def State.revokeStart (s : State) (asids : List Nat) : State :=
  let s2 := (s.killAsids asids s.gangs).endParked asids
  ({ s2 with handles := s2.handles.map (fun (p : Nat × Hnd) => (p.1, p.2.revoke asids s.gt)) }).stopSlots asids

/-- Step 4 of R353: the event carries the gt of step 3. -/
def State.revokedEvent (s : State) (id part at_ : Nat) : State :=
  (s.out (.event "REVOKED" [id, part, at_])).sendReport id [] (zeroBytes 32)

/-- A participant has work on a tile: keys, a context, a command. -/
def worksOn (s : State) (p : Part) (t : TileId) : Bool :=
  p.tiles.contains t || s.cmds.any (fun d => d.tile == t && p.asids.contains d.asid) ||
    s.cores.any (fun (q : Nat × Core) => q.1 / 32 = t.val && q.2.ctxs.any (fun x => x.st != .free && p.asids.contains x.asid.toNat))

/-- The tiles that a REVOKE wakes from C1 (R363). -/
def c1Tiles (s : State) (p : Part) : List TileId := tileIds.filter (fun t => (s.tile t).pwrSt = 1 && worksOn s p t)

/-- A C1 tile wakes for a REVOKE; unless something else wakes it, it returns to C1. -/
def State.wakeFor (s : State) (t : TileId) : State :=
  (s.wake t).updTile t (fun x => { x with backC1 := x.backC1 || (s.tile t).pwrAt.isNone })

/-- Change a participant. -/
def State.updPart (s : State) (id part : Nat) (f : Part → Part) : State :=
  s.updEnc id (fun e => { e with parts := mapWhere (fun q => q.id == part) f e.parts })

/-- Revoke a participant: steps 1 and 2, once its C1 tiles are awake (R363); step 4 alone when it is repeated. -/
def State.revokePart (s : State) (id : Nat) (p : Part) : State :=
  if p.revoked then (if p.revoking then s else s.revokedEvent id p.id p.revokedAt)
  else
    let c1 := c1Tiles s p
    let s1 := if c1.isEmpty then s.revokeStart p.asids else c1.foldl (fun s t => s.wakeFor t) s
    s1.updPart id p.id (fun q => { q with revoked := true, revoking := true, waking := !c1.isEmpty })

/-- A tile has left C1: step 1 of the REVOKEs that waited for it. -/
def State.revokeWoken (s : State) : State :=
  let due : List (Nat × Part) := s.encs.flatMap (fun e => (e.parts.filter (fun p => p.waking && (c1Tiles s p).isEmpty)).map (fun p => (e.id, p)))
  due.foldl (fun s (q : Nat × Part) => (s.revokeStart q.2.asids).updPart q.1 q.2.id (fun p => { p with waking := false })) s

def execRevoke (s : State) : Out := s.request "REVOKE" <|
  match s.enc s.arg.encid.toNat with
  | none => .next (s.refused "REVOKE")
  | some e =>
    match e.parts.find? (fun p => p.id == s.arg.part) with
    | some p => if s.arg.flag then .next (s.revokePart e.id p) else .next (s.refused "REVOKE")
    | none => .next (s.refused "REVOKE")

/-- Every command of a participant has completed or ended. -/
def partQuiet (s : State) (p : Part) : Bool := !(s.cmds.any (fun d => p.asids.contains d.asid))

/-- Zeroise the slots of a participant on every tile. -/
def State.zeroise (s : State) (encid : BitVec 16) (part : Nat) : State :=
  tileIds.foldl (fun s t => s.updTile t (fun x =>
    { x with keys := x.keys.filter (fun (q : Nat × KeySlot) => !(q.2.valid && q.1 != 0 && q.2.encid == encid && q.2.part == part)) })) s

/-- Core by core, a tile has nothing running or ready, no engine command under way and no halted core: it may be in C1 (R360). -/
def c1Ok (s : State) (t : TileId) : Bool :=
  (coresOf t).all (fun c => ctxIds.all (fun k => let st := (s.ctx c k).st; st != .running && st != .ready)) &&
    !(s.cmds.any (fun d => d.tile == t && (match d.st with
      | .running _ => true
      | _ => false))) && !(anyHalted s t)

/-- The tiles that REVOKEs woke return to C1 once none is under way, where C1 may be entered (R360, R363). -/
def State.backToC1 (s : State) : State :=
  if s.encs.any (fun e => e.parts.any (·.revoking)) then s
  else tileIds.foldl (fun s t =>
    let x := s.tile t
    if x.backC1 && x.pwrSt = 0 then
      s.updTile t (fun x => if c1Ok s t then { x with backC1 := false, pwrReq := 1, pwrSt := 1 } else { x with backC1 := false })
    else s) s

/-- Step 3 of R353 once the commands are done, and step 4; commands that have parked since step 1 end as those of step 1 did. A dying
enclave whose last participant it was is removed (R349). -/
def execRevokeZeroise (s : State) : Out :=
  match s.enc s.arg.encid.toNat with
  | none => .next s
  | some e =>
    match e.parts.find? (fun p => p.id == s.arg.part && p.revoking && !p.waking) with
    | none => .next s
    | some p =>
      let s0 := s.endParked p.asids
      if !(partQuiet s0 p) then .next s0
      else
        let s1 := (s0.zeroise s.arg.encid p.id).updPart e.id p.id (fun q => { q with revoking := false, revokedAt := s.gt })
        let s2 := s1.revokedEvent e.id p.id s.gt
        let done (x : Enclave) : Bool := x.id == e.id && x.dying && x.parts.all (fun q => !q.revoking)
        .next { s2 with encs := s2.encs.filter (fun x => !(done x)) }.backToC1

/-- Revoke every participant of an enclave. -/
def State.revokeAll (s : State) (id : Nat) : List Part → State
  | [] => s
  | p :: l => (if p.revoked then s else s.revokePart id p).revokeAll id l

/-- ENDESTROY: every participant is revoked, and then the enclave goes, and TAINT with it. -/
def execEndestroy (s : State) : Out := s.request "ENDESTROY" <|
  match s.enc s.arg.encid.toNat with
  | none => .next (s.refused "ENDESTROY")
  | some e =>
    if !s.arg.flag then .next (s.refused "ENDESTROY")
    else
      let s1 := (s.revokeAll e.id e.parts).updEnc e.id (fun x => { x with dying := true })
      .next { s1 with encs := s1.encs.filter (fun x => !(x.id == e.id && x.parts.all (fun q => !q.revoking))) }

/-- DEVID: the digest of the package's identity (R345). -/
def devid (s : State) : List Byte := Config.sha256 (Config.identity s.secret)

/-- GRANT: a level on the tiles of an enclave, which is tainted by it, when it names this package's DEVID; without an enclave, a level on
open tiles. D2 needs DBGINV (R354). -/
def execGrant (s : State) : Out :=
  let n := s.arg.n
  if s.safe || 2 < n || (n = 2 && !s.feats.getLsbD 3) then .next (s.refused "GRANT")
  else
    match s.enc s.arg.encid.toNat with
    | some e =>
      if s.arg.flag && s.arg.data == devid s then
        .next ((s.updEnc e.id (fun x => { x with taint := true, grants := x.grants ++ [n] })).setLevel n e.tiles)
      else .next (s.refused "GRANT")
    | none =>
      if s.arg.tiles.any (fun t => s.encs.any (fun e => e.tiles.contains t)) then .next (s.refused "GRANT")
      else .next (s.setLevel n s.arg.tiles)

/-! ## Debug (R355, R356, R359) -/

/-- HALT is set. -/
def execDbgHalt (s : State) : Out :=
  let c := s.arg.core
  .next (if s.safe then s else s.dbgctlWrite (tileOf c) (c.val % 32) ((s.core c).dbgctl ||| 1))

/-- HALT is written 0, without STEP. -/
def execDbgResume (s : State) : Out :=
  let c := s.arg.core
  .next (if s.safe then s else s.dbgctlWrite (tileOf c) (c.val % 32) ((s.core c).dbgctl &&& 8))

/-- HALT is written 0 with STEP set: one bundle, and the core halts again. -/
def execDbgStep (s : State) : Out :=
  let c := s.arg.core
  .next (if s.safe then s else s.dbgctlWrite (tileOf c) (c.val % 32) (((s.core c).dbgctl &&& 8) ||| 4))

/-- A cell of a plane is set. -/
def Plane.put (p : Plane) (i j : Nat) (a : AccCell) : Plane :=
  { p with rows := tabulate 128 (fun r => if r = i then tabulate 96 (fun c => if c = j then a else p.cell r c) else p.rows.getD r []) }

/-- The plane of a context by its number. -/
def Ctx.accOf (x : Ctx) (plane : Bool) : Plane := if plane then x.acc1 else x.acc0

/-- A register as the debugger writes it: at once, and its poison bit is cleared. -/
def Ctx.dbgSet (x : Ctx) (r : DbgReg) : Ctx :=
  match r with
  | .s r v => x.write (.s r) (.w v) false
  | .b r v => x.write (.b r) (.b v) false
  | .v r img => x.write (.v r) (allConts (ofImage img)) false
  | .m r v => x.write (.m r) (.m v) false
  | .mp r v => { x with mp := mapSet x.mp r.val v }
  | .tk t armed p => { x with hart := x.hart.setTok t { armed := armed, p := p } }
  | .acc plane i j v =>
    let q := (x.accOf plane).put i j (cellOf (x.accOf plane).int v.toNat)
    if plane then { x with acc1 := q } else { x with acc0 := q }
  | .sr ix v => if ix = 8 then { x with hart := { x.hart with fr := v } } else x.applySr ix v

/-- A special register that would refuse a value from `wrsr` refuses it from the debugger too (R128, R225). -/
def dbgRefused (s : State) (c : CoreId) (k : CtxId) (r : DbgReg) : Bool :=
  match r with
  | .sr ix v => (match wrsrCore s c k ix v (s.ctx c k).hart with
    | .ok _ => false
    | .trap _ => true)
  | _ => false

/-- The debugger has access to a core: it is halted, and its tile is at D2; in the Safe Talkative State it has none (R354, R356,
R365). -/
def dbgOpen (s : State) (c : CoreId) : Bool := !s.safe && (s.core c).halted && 2 ≤ (s.tile (tileOf c)).dbg

/-- The debugger writes a register of a context of a halted core. -/
def execDebugRegisterWrite (s : State) : Out :=
  let c := s.arg.core
  .next (if dbgOpen s c && !(dbgRefused s c s.arg.ctx s.arg.dreg) then s.updCtx c s.arg.ctx (·.dbgSet s.arg.dreg) else s)

/-- The bytes of a register as the debugger reads it. -/
def dbgBytes (s : State) (c : CoreId) (k : CtxId) (r : DbgReg) : List Byte :=
  let x := s.ctx c k
  match r with
  | .s r _ => le8 (x.hart.rs r)
  | .b r _ => [if x.hart.rb r then 1 else 0]
  | .v r _ => imageOf (x.rv r)
  | .m r _ => bytesOf 64 (x.rm r).toNat
  | .mp r _ => le8 (x.rmp r.val)
  | .tk t _ _ => [tokByte (x.hart.tok t)]
  | .acc plane i j _ => bytesOf 8 (cellBits (x.accOf plane).int ((x.accOf plane).cell i j))
  | .sr ix _ => le8 (readSr s c k ix)

/-- The debugger reads a register of a context of a halted core. -/
def State.dbgRead (s : State) (c : CoreId) (k : CtxId) (r : DbgReg) : State :=
  if dbgOpen s c then s.out (.data 0 (dbgBytes s c k r)) else s

/-- Replay is configured: an interval of 1-1,000 ms and a region, where some tile is at D1 or above. -/
def execReplayConfigure (s : State) : Out :=
  let n := s.arg.n
  .next (if !s.safe && 1 ≤ n && n ≤ 1000 && observed s then
      { s with replay := { ms := n, base := s.arg.word.toNat, len := s.arg.len } }
    else s.refused "REPLAY")

/-- The resident tasks. -/
def residentTasks (s : State) : List (CoreId × CtxId) :=
  s.cores.flatMap (fun (p : Nat × Core) => [(0 : CtxId), 1, 2].filterMap (fun k =>
    match (p.2.ctx k).st with
    | .ready | .running | .parked | .parkedPlace => some (Fin.ofNat 512 p.1, k)
    | _ => none))

/-- A checkpoint begins at a multiple of the interval (1 ms is 1,600,000 gt). -/
def execReplayCheckpointBegin (s : State) : Out :=
  .next (if s.replay.ms != 0 && s.gt % (s.replay.ms * 1600000) = 0 then
      { s with replay := { s.replay with inProg := true, todo := residentTasks s, images := [] } }
    else s)

/-- The image of a context: its saved form, with its whole Loop footprint (R273, R359). -/
def ckBytes (s : State) (c : CoreId) (x : Ctx) : List Byte :=
  saveHead s c x ++ s.bytesAt 0 (loopKey c (x.fpUnit * 65536)) (x.fpCnt * 65536)

/-- A task has committed since the checkpoint began: its image joins it. -/
def State.ckImage (s before : State) (c : CoreId) (k : CtxId) : State :=
  if before.replay.todo.contains (c, k) && !(s.replay.todo.contains (c, k)) then
    { s with replay := { s.replay with images := s.replay.images ++ [(c, k, ckBytes s c (s.ctx c k))] } }
  else s

/-- The target region takes the record of a checkpoint, in a form that the spec does not give: its bytes are free (log 86). -/
def State.ckRegion (s : State) : State :=
  let bs := tabulate s.replay.len (fun i => Config.freeByte (s.replay.base + i) s.fresh)
  (s.putBytes (homeOf s.replay.base) 0 s.replay.base bs).bump

/-- A checkpoint in progress ends once no resident task is still to commit and no tile at D1 or above is in C1 (R359, R362); a gap of
the order log ends with it. -/
def State.ckEnd (s : State) : State :=
  let r := s.replay
  if r.inProg && r.todo.all (fun p => !((residentTasks s).contains p)) && s.tiles.all (fun (p : Nat × Tile) => p.2.dbg = 0 || p.2.pwrSt != 1) then
    let ck : Checkpoint := { lines := r.lines.map (fun l => (l, s.bytesAt (mapGet 0 s.tags l) (l * 64) 64)), images := r.images,
                             gt := s.gt, log := r.log }
    { s.ckRegion with replay :=
        { r with inProg := false, todo := [], images := [], lines := [], log := [], gapFrom := none,
                 gaps := r.gaps ++ (r.gapFrom.elim [] (fun g => [(g, s.gt)])), done := r.done ++ [ck] } }
  else s

/-- Replay may begin at any completed checkpoint (R359). -/
def replayOk (r : Replay) (gt : Nat) : Bool := r.done.any (fun k => k.gt == gt)

/-- Where a replay from a checkpoint stops: at the first gap of the order log that begins after the checkpoint's end. A gap that the
checkpoint itself closes, or an earlier one, does not stop it (R359, log 87). -/
def replayStop (r : Replay) (gt : Nat) : List Nat :=
  (((r.gaps.map (·.1)) ++ r.gapFrom.toList).filter (fun g => gt ≤ g)).take 1

/-- The host asks to replay from a checkpoint: the answer names the checkpoint and, where there is one, the gt at which replay stops. -/
def State.replayFrom (s : State) (gt : Nat) : State :=
  if !s.safe && replayOk s.replay gt then s.out (.event "REPLAY" (gt :: replayStop s.replay gt)) else s.refused "REPLAY"

/-! ## Power (R360-R363) -/

/-- C3 may be entered. -/
def c3Ok (s : State) (t : TileId) : Bool :=
  (coresOf t).all (fun c => (busyCtxs s c).isEmpty) && !(s.cmds.any (fun d => d.tile == t)) &&
    (tilePins s t).isEmpty && (s.cell t).blocks.isEmpty &&
    !(s.handles.any (fun (p : Nat × Hnd) => p.2.lit && (endTile p.2.sep == some t || endTile p.2.dep == some t))) && !(anyHalted s t)

/-- Line numbers of a tile's HBM. -/
def hbmLine (t : TileId) (l : Nat) : Bool := t.val * 2 ^ 30 ≤ l && l < (t.val + 1) * 2 ^ 30

/-- Before its power is gated a tile's lines tagged 1-255 are zeroed and tagged 0, and its scratch is lost; so are the Loops of
its cores (R360). -/
def State.gateMem (s : State) (t : TileId) : State :=
  let lost (k : Nat) : Bool :=
    (hbmLine t (k / 64) && mapGet 0 s.tags (k / 64) != 0) || (scratchKey t 0 ≤ k && k < scratchKey t 0 + 2 ^ 26) ||
      (2 ^ 52 + t.val * 32 * 2 ^ 21 ≤ k && k < 2 ^ 52 + (t.val + 1) * 32 * 2 ^ 21)
  let gone (p : Nat × Nat) : Bool := hbmLine t p.1 || (scratchKey t 0 ≤ p.1 * 64 && p.1 * 64 < scratchKey t 0 + 2 ^ 26)
  { s with mem := s.mem.filter (fun p => !(lost p.1)), tags := s.tags.filter (fun p => !(gone p)),
           epochs := s.epochs.filter (fun p => !(gone p)) }

/-- Power-gate a tile: its state is lost, but for what lies in the always-on interface and its numbering of gangs (R360, R361). -/
def State.gateTile (s : State) (t : TileId) (n : Nat) : State :=
  let s1 := s.gateMem t
  let s2 := (coresOf t).foldl (fun s c => s.updCore c (fun y => { retired := y.retired, ic := y.ic })) s1
  let x := s2.tile t
  (s2.setTile t { lq := x.lq, serial := x.serial, temp := x.temp, junc := x.junc, memKeys := x.memKeys, pwrReq := n, pwrSt := n,
                  cell := { run := false } }).replayKept

/-- The power state requested of a tile (REQ of PWRSTAT). -/
def State.asked (s : State) (t : TileId) (n : Nat) : State := s.updTile t (fun x => { x with pwrReq := n })

/-- PSTATE: a power state is entered, from C0, C3 from C1 too, or the request is refused; a tile that a REVOKE has woken goes back to C1
by itself. In C6 the Vintner is idle, and the lasers are off (R360). -/
def execPstate (s : State) : Out := s.request "PSTATE" <|
  let t := s.arg.tile
  let n := s.arg.n
  let no := s.refused "PSTATE"
  match n with
  | 0 => .next (if s.sleep then tileIds.foldl (fun s t => s.asked t 0) (s.wake t) else (s.wake t).asked t 0)
  | 1 => .next (if (s.tile t).pwrSt = 0 && !(s.tile t).backC1 && c1Ok s t then s.updTile t (fun x => { x with pwrReq := 1, pwrSt := 1 }) else no)
  | 3 => .next (if (s.tile t).pwrSt ≤ 1 && (s.tile t).pwrAt.isNone && c3Ok s t then s.gateTile t 3 else no)
  | 6 =>
    .next (if !s.sleep && tileIds.all (c3Ok s) then
        { (tileIds.foldl (fun s t => s.gateTile t 6) s.vintnerIdle) with
            sleep := true, handles := s.handles.map (fun (p : Nat × Hnd) => (p.1, p.2.dark)) }
      else no)
  | _ => .next no

/-- A tile is in C0 again; one that was gated restarts its Cellarer at the firmware entry. -/
def State.wakeTile (s : State) (t : TileId) : State :=
  s.updTile t (fun x =>
    { x with pwrReq := 0, pwrSt := 0, pwrAt := none, cell := if x.pwrSt = 1 then x.cell else Cell.restart s.fwEntry })

/-- The exit from a power state completes; `flag` says that the training of an exit from C6 failed. -/
def execPowerStateExit (s : State) : Out :=
  let t := s.arg.tile
  match (s.tile t).pwrAt with
  | none => .next s
  | some a =>
    if s.gt < a then .next s
    else if s.sleep then
      if s.arg.flag then .next (s.lost.enterSafe 6 1 0 0)
      else .next (tileIds.foldl State.wakeTile { s with sleep := false }).revokeWoken
    else .next (s.wakeTile t).revokeWoken

end Sys2Proof.Machine
end

