-- ==== Sys2Proof/Machine/Reliab.lean ====
section
/-! DEFINITION. Machine/Reliab.lean: errors of stored data and of datapaths, and the scrubber (R282, R283, R287, R288). -/

namespace Sys2Proof.Machine

/-- A report of the package's own mechanisms on a tile (R266, R269). -/
def State.tileRec (s : State) (t : TileId) (code : Nat) (addr : Nat) (detail : Word) : State :=
  s.report t false (mkRec code 5 0xFF 0 0xFFFF 0 0 0 0 addr s.gt 0 0 detail)

/-- A corrected error (R282). -/
def execCorrectedError (s : State) : Out :=
  .next (s.updTile s.arg.tile (fun x => { x with cecount := min (x.cecount + 1) (2 ^ 32 - 1), ceWin := x.ceWin + 1 }))

/-- The Pruner of a tile works: scrubbing is enabled, its stack is powered, and no throttle holds it (R287, R288, R360). -/
def prunes (s : State) (t : TileId) : Bool :=
  let x := s.tile t
  x.pren && x.throttle ≤ s.gt && x.pwrSt = 0

/-- An uncorrectable error: in stored data its 64-byte unit is marked; in a datapath or in flight the running task takes the
fault with STORED clear, unless its core is halted and nothing moves in it (R355); a scrub reports a marked unit (R283). -/
def execUncorrectableError (s : State) : Out :=
  match s.arg.err with
  | .mark key => .next (if s.bad.contains (key / 64) then s else { s with bad := s.bad ++ [key / 64] })
  | .flight c slot cause =>
    match (s.core c).run with
    | some k =>
      if (s.ctx c k).st == .running && !(s.core c).halted then
        .next (s.bump.coreFault c k slot (s.ctx c k).hart.bpc { code := fUncorr, cause := cause, detail := Config.freeWord s.fresh })
      else .next s
    | none => .next s
  | .scrub t key =>
    .next (if s.bad.contains (key / 64) && prunes s t then s.tileRec t fScrubBad 0 (BitVec.ofNat 64 (key / 64 * 64)) else s)

/-- The factor of a temperature, and of a corrected-error rate above the threshold (R288). -/
def factorOf (temp : Nat) (high : Bool) : Nat :=
  let f := 2 ^ ((temp - 85) / 10)
  min (if high then 4 * f else f) 64

/-- 24 hours in gt. -/
def dayGt : Nat := 24 * 3600 * 1600000000

/-- The start of a window of 2^36 gt: the factor and the pass length. -/
def execPrunerWindow (s : State) : Out :=
  let t := s.arg.tile
  let x := s.tile t
  let high : Bool := x.cethr.toNat < x.ceWin
  let s1 := s.updTile t (fun x => { x with factor := factorOf x.temp high, ceWin := 0 })
  .next (if high then s1.tileRec t fCeRate 0 0 else s1)

/-- Demand above 80 percent in a window of 1,024 gt: the Pruner issues nothing in the next. -/
def execScrubThrottleWindow (s : State) : Out :=
  .next (s.updTile s.arg.tile (fun x => { x with throttle := s.gt + 1024 }))

/-- A pass ends, where the Pruner works; one that has outlasted its length sets OVR and reports 0x24 as it ends (DESIGN CHOICE, log 110).
The next starts at once. -/
def execScrubPassEnd (s : State) : Out :=
  let t := s.arg.tile
  let x := s.tile t
  if !(prunes s t) then .next s
  else
    let late : Bool := x.passAt + dayGt / x.factor < s.gt
    let s1 := s.updTile t (fun y => { y with passAt := s.gt, ovr := y.ovr || late })
    .next (if late then s1.tileRec t fScrubOvr 0 0 else s1)

/-- A reading at a limit trips the package, in this gt, unless it is in the Safe Talkative State already (R366). -/
def State.watchHeat (s : State) : State :=
  if s.safe || !(overheated s) then s else { s with agenda := .ev .thermalTrip {} :: s.agenda }

/-- The sensor of a tile's stack reports its temperature in degrees Celsius (R287). -/
def State.sensor (s : State) (t : TileId) (temp : Nat) : State := (s.updTile t (fun x => { x with temp := temp % 256 })).watchHeat

/-- The sensor of a tile's die reports its junction temperature (R366). -/
def State.junction (s : State) (t : TileId) (temp : Nat) : State := (s.updTile t (fun x => { x with junc := temp % 256 })).watchHeat

end Sys2Proof.Machine
end

