-- ==== Sys2Proof/Machine/Dispatch.lean ====
section
/-! DEFINITION. Machine/Dispatch.lean: one arm per constructor. -/

namespace Sys2Proof.Machine

def exec (i : Instr) (s : State) : Host.Outcome State Fault Refusal :=
  match i with
  | .vMake h srcp dstp wmask sep dep at_ => Sys2Proof.Machine.execVMake h srcp dstp wmask sep dep at_ s
  | .vBreak h at_ => Sys2Proof.Machine.execVBreak h at_ s
  | .vPark port wmask at_ => Sys2Proof.Machine.execVPark port wmask at_ s
  | .vUnpark port wmask at_ => Sys2Proof.Machine.execVUnpark port wmask at_ s
  | .vHold at_ => Sys2Proof.Machine.execVHold at_ s
  | .vWaitq h thresh tdisp deadline => Sys2Proof.Machine.execVWaitq h thresh tdisp deadline s
  | .vSignal sem sop value => Sys2Proof.Machine.execVSignal sem sop value s
  | .vJump disp => Sys2Proof.Machine.execVJump disp s
  | .vLoop lc count disp => Sys2Proof.Machine.execVLoop lc count disp s
  | .vGen => Sys2Proof.Machine.execVGen s
  | .vAttach bport peer => Sys2Proof.Machine.execVAttach bport peer s
  | .vEnd => Sys2Proof.Machine.execVEnd s
  | .cmdCopy f => Sys2Proof.Machine.execCmdCopy f s
  | .cmdCopyred f => Sys2Proof.Machine.execCmdCopyred f s
  | .cmdRackfill f => Sys2Proof.Machine.execCmdRackfill f s
  | .cmdFill f => Sys2Proof.Machine.execCmdFill f s
  | .cmdSemsig f => Sys2Proof.Machine.execCmdSemsig f s
  | .cmdWaitsem f => Sys2Proof.Machine.execCmdWaitsem f s
  | .cmdLaunch f => Sys2Proof.Machine.execCmdLaunch f s
  | .scopePrefix sc ord na => Sys2Proof.Machine.execScopePrefix sc ord na s
  | .nop => Sys2Proof.Machine.execNop s
  | .br disp => Sys2Proof.Machine.execBr disp s
  | .brt b disp => Sys2Proof.Machine.execBrt b disp s
  | .brf b disp => Sys2Proof.Machine.execBrf b disp s
  | .jmp sa => Sys2Proof.Machine.execJmp sa s
  | .call disp => Sys2Proof.Machine.execCall disp s
  | .callr sa => Sys2Proof.Machine.execCallr sa s
  | .ret => Sys2Proof.Machine.execRet s
  | .chk isV r disp => Sys2Proof.Machine.execChk isV r disp s
  | .rgn caskmax blim => Sys2Proof.Machine.execRgn caskmax blim s
  | .rgnc => Sys2Proof.Machine.execRgnc s
  | .twait t => Sys2Proof.Machine.execTwait t s
  | .sfr src => Sys2Proof.Machine.execSfr src s
  | .gbar => Sys2Proof.Machine.execGbar s
  | .wgt sa => Sys2Proof.Machine.execWgt sa s
  | .yieldCore => Sys2Proof.Machine.execYieldCore s
  | .trap code => Sys2Proof.Machine.execTrap code s
  | .endTask => Sys2Proof.Machine.execEndTask s
  | .brk => Sys2Proof.Machine.execBrk s
  | .add w sd sa sb => Sys2Proof.Machine.execAdd w sd sa sb s
  | .sub w sd sa sb => Sys2Proof.Machine.execSub w sd sa sb s
  | .and w sd sa sb => Sys2Proof.Machine.execAnd w sd sa sb s
  | .or w sd sa sb => Sys2Proof.Machine.execOr w sd sa sb s
  | .xor w sd sa sb => Sys2Proof.Machine.execXor w sd sa sb s
  | .andn w sd sa sb => Sys2Proof.Machine.execAndn w sd sa sb s
  | .shl w sd sa sb => Sys2Proof.Machine.execShl w sd sa sb s
  | .shr w sd sa sb => Sys2Proof.Machine.execShr w sd sa sb s
  | .sar w sd sa sb => Sys2Proof.Machine.execSar w sd sa sb s
  | .rol w sd sa sb => Sys2Proof.Machine.execRol w sd sa sb s
  | .mul w sd sa sb => Sys2Proof.Machine.execMul w sd sa sb s
  | .mulh w sd sa sb => Sys2Proof.Machine.execMulh w sd sa sb s
  | .mulhn w sd sa sb => Sys2Proof.Machine.execMulhn w sd sa sb s
  | .div w sd sa sb => Sys2Proof.Machine.execDiv w sd sa sb s
  | .divn w sd sa sb => Sys2Proof.Machine.execDivn w sd sa sb s
  | .rem w sd sa sb => Sys2Proof.Machine.execRem w sd sa sb s
  | .remn w sd sa sb => Sys2Proof.Machine.execRemn w sd sa sb s
  | .min w sd sa sb => Sys2Proof.Machine.execMin w sd sa sb s
  | .max w sd sa sb => Sys2Proof.Machine.execMax w sd sa sb s
  | .minn w sd sa sb => Sys2Proof.Machine.execMinn w sd sa sb s
  | .maxn w sd sa sb => Sys2Proof.Machine.execMaxn w sd sa sb s
  | .cmpEq w bd sa sb => Sys2Proof.Machine.execCmpEq w bd sa sb s
  | .cmpNe w bd sa sb => Sys2Proof.Machine.execCmpNe w bd sa sb s
  | .cmpLt w bd sa sb => Sys2Proof.Machine.execCmpLt w bd sa sb s
  | .cmpLtn w bd sa sb => Sys2Proof.Machine.execCmpLtn w bd sa sb s
  | .cmpLe w bd sa sb => Sys2Proof.Machine.execCmpLe w bd sa sb s
  | .cmpLen w bd sa sb => Sys2Proof.Machine.execCmpLen w bd sa sb s
  | .sel sd sa bc => Sys2Proof.Machine.execSel sd sa bc s
  | .selNot sd sa bc => Sys2Proof.Machine.execSelNot sd sa bc s
  | .clz w sd sa => Sys2Proof.Machine.execClz w sd sa s
  | .ctz w sd sa => Sys2Proof.Machine.execCtz w sd sa s
  | .pop w sd sa => Sys2Proof.Machine.execPop w sd sa s
  | .bext w sd sa sb => Sys2Proof.Machine.execBext w sd sa sb s
  | .bins w sd sa sb => Sys2Proof.Machine.execBins w sd sa sb s
  | .sxt w sd sa => Sys2Proof.Machine.execSxt w sd sa s
  | .zxt w sd sa => Sys2Proof.Machine.execZxt w sd sa s
  | .adds k sd sa sb => Sys2Proof.Machine.execAdds k sd sa sb s
  | .mov sd sa => Sys2Proof.Machine.execMov sd sa s
  | .rdsr sd ix => Sys2Proof.Machine.execRdsr sd ix s
  | .wrsr ix sb => Sys2Proof.Machine.execWrsr ix sb s
  | .bopAnd bd ba bb => Sys2Proof.Machine.execBopAnd bd ba bb s
  | .bopOr bd ba bb => Sys2Proof.Machine.execBopOr bd ba bb s
  | .bopXor bd ba bb => Sys2Proof.Machine.execBopXor bd ba bb s
  | .bopAndn bd ba bb => Sys2Proof.Machine.execBopAndn bd ba bb s
  | .fadds sd sa sb => Sys2Proof.Machine.execFadds sd sa sb s
  | .fsubs sd sa sb => Sys2Proof.Machine.execFsubs sd sa sb s
  | .fmuls sd sa sb => Sys2Proof.Machine.execFmuls sd sa sb s
  | .fcvtsF2i sd sa => Sys2Proof.Machine.execFcvtsF2i sd sa s
  | .fcvtsI2f sd sa => Sys2Proof.Machine.execFcvtsI2f sd sa s
  | .fcvtsBf16 sd sa => Sys2Proof.Machine.execFcvtsBf16 sd sa s
  | .fcvtsF16 sd sa => Sys2Proof.Machine.execFcvtsF16 sd sa s
  | .addi sd sa imm => Sys2Proof.Machine.execAddi sd sa imm s
  | .andi sd sa imm => Sys2Proof.Machine.execAndi sd sa imm s
  | .ori sd sa imm => Sys2Proof.Machine.execOri sd sa imm s
  | .xori sd sa imm => Sys2Proof.Machine.execXori sd sa imm s
  | .shli sd sa n => Sys2Proof.Machine.execShli sd sa n s
  | .shri sd sa n => Sys2Proof.Machine.execShri sd sa n s
  | .sari sd sa n => Sys2Proof.Machine.execSari sd sa n s
  | .cmpiEq bd sa imm => Sys2Proof.Machine.execCmpiEq bd sa imm s
  | .cmpiLt bd sa imm => Sys2Proof.Machine.execCmpiLt bd sa imm s
  | .cmpiLtn bd sa imm => Sys2Proof.Machine.execCmpiLtn bd sa imm s
  | .movi sd imm => Sys2Proof.Machine.execMovi sd imm s
  | .movh sd sa imm => Sys2Proof.Machine.execMovh sd sa imm s
  | .muli sd sa imm => Sys2Proof.Machine.execMuli sd sa imm s
  | .addpc sd imm => Sys2Proof.Machine.execAddpc sd imm s
  | .ld8 d f => Sys2Proof.Machine.execLd8 d f s
  | .ld8n d f => Sys2Proof.Machine.execLd8n d f s
  | .ld16 d f => Sys2Proof.Machine.execLd16 d f s
  | .ld16n d f => Sys2Proof.Machine.execLd16n d f s
  | .ld32 d f => Sys2Proof.Machine.execLd32 d f s
  | .ld32n d f => Sys2Proof.Machine.execLd32n d f s
  | .ld64 d f => Sys2Proof.Machine.execLd64 d f s
  | .st8 d f => Sys2Proof.Machine.execSt8 d f s
  | .st16 d f => Sys2Proof.Machine.execSt16 d f s
  | .st32 d f => Sys2Proof.Machine.execSt32 d f s
  | .st64 d f => Sys2Proof.Machine.execSt64 d f s
  | .vld d f => Sys2Proof.Machine.execVld d f s
  | .vldImg d f => Sys2Proof.Machine.execVldImg d f s
  | .vst d f => Sys2Proof.Machine.execVst d f s
  | .vstImg d f => Sys2Proof.Machine.execVstImg d f s
  | .vldg d f => Sys2Proof.Machine.execVldg d f s
  | .vsts d f => Sys2Proof.Machine.execVsts d f s
  | .amoAdd f => Sys2Proof.Machine.execAmoAdd f s
  | .amoMin f => Sys2Proof.Machine.execAmoMin f s
  | .amoMax f => Sys2Proof.Machine.execAmoMax f s
  | .amoMinn f => Sys2Proof.Machine.execAmoMinn f s
  | .amoMaxn f => Sys2Proof.Machine.execAmoMaxn f s
  | .amoAnd f => Sys2Proof.Machine.execAmoAnd f s
  | .amoOr f => Sys2Proof.Machine.execAmoOr f s
  | .amoXor f => Sys2Proof.Machine.execAmoXor f s
  | .amoSwap f => Sys2Proof.Machine.execAmoSwap f s
  | .amoCas f => Sys2Proof.Machine.execAmoCas f s
  | .redAdd f => Sys2Proof.Machine.execRedAdd f s
  | .redFadd f => Sys2Proof.Machine.execRedFadd f s
  | .fence sc ord => Sys2Proof.Machine.execFence sc ord s
  | .ldblk t base off n => Sys2Proof.Machine.execLdblk t base off n s
  | .blkrel t base off => Sys2Proof.Machine.execBlkrel t base off s
  | .pref base off n => Sys2Proof.Machine.execPref base off n s
  | .push q sn ptok bf cons => Sys2Proof.Machine.execPush q sn ptok bf cons s
  | .tkclr t => Sys2Proof.Machine.execTkclr t s
  | .tkst bd t => Sys2Proof.Machine.execTkst bd t s
  | .tksig t => Sys2Proof.Machine.execTksig t s
  | .qst q sd => Sys2Proof.Machine.execQst q sd s
  | .vcas f => Sys2Proof.Machine.execVcas f s
  | .vmov vd vs msk => Sys2Proof.Machine.execVmov vd vs msk s
  | .vbc vd ss msk => Sys2Proof.Machine.execVbc vd ss msk s
  | .vget sd vs si => Sys2Proof.Machine.execVget sd vs si s
  | .vgetSx sd vs si => Sys2Proof.Machine.execVgetSx sd vs si s
  | .vgetS sd vs si => Sys2Proof.Machine.execVgetS sd vs si s
  | .vput vd ss si => Sys2Proof.Machine.execVput vd ss si s
  | .vxcLd vd sa off => Sys2Proof.Machine.execVxcLd vd sa off s
  | .vxcSt vs sa off => Sys2Proof.Machine.execVxcSt vs sa off s
  | .vprm vd vs vi => Sys2Proof.Machine.execVprm vd vs vi s
  | .vprmG16 vd vs vi => Sys2Proof.Machine.execVprmG16 vd vs vi s
  | .vcmpFeq md x y loose => Sys2Proof.Machine.execVcmpFeq md x y loose s
  | .vcmpFne md x y loose => Sys2Proof.Machine.execVcmpFne md x y loose s
  | .vcmpFlt md x y loose => Sys2Proof.Machine.execVcmpFlt md x y loose s
  | .vcmpFle md x y loose => Sys2Proof.Machine.execVcmpFle md x y loose s
  | .vcmpIeq md x y loose => Sys2Proof.Machine.execVcmpIeq md x y loose s
  | .vcmpIne md x y loose => Sys2Proof.Machine.execVcmpIne md x y loose s
  | .vcmpIlt md x y loose => Sys2Proof.Machine.execVcmpIlt md x y loose s
  | .vcmpIltn md x y loose => Sys2Proof.Machine.execVcmpIltn md x y loose s
  | .mopAnd md ma mb => Sys2Proof.Machine.execMopAnd md ma mb s
  | .mopOr md ma mb => Sys2Proof.Machine.execMopOr md ma mb s
  | .mopXor md ma mb => Sys2Proof.Machine.execMopXor md ma mb s
  | .mopAndn md ma mb => Sys2Proof.Machine.execMopAndn md ma mb s
  | .mcnt sd ma => Sys2Proof.Machine.execMcnt sd ma s
  | .mcntFirst sd ma => Sys2Proof.Machine.execMcntFirst sd ma s
  | .cvt vd vs kind msk => Sys2Proof.Machine.execCvt vd vs kind msk s
  | .unpk vd vs kind part => Sys2Proof.Machine.execUnpk vd vs kind part s
  | .pack vd vs kind part => Sys2Proof.Machine.execPack vd vs kind part s
  | .rnd vd sk sb msk => Sys2Proof.Machine.execRnd vd sk sb msk s
  | .dpush vs msk tag => Sys2Proof.Machine.execDpush vs msk tag s
  | .dpop vd sl => Sys2Proof.Machine.execDpop vd sl s
  | .dcnt sd => Sys2Proof.Machine.execDcnt sd s
  | .vtree vd vs msk => Sys2Proof.Machine.execVtree vd vs msk s
  | .vtreeG vd vs msk => Sys2Proof.Machine.execVtreeG vd vs msk s
  | .vtreeI vd vs msk => Sys2Proof.Machine.execVtreeI vd vs msk s
  | .vtreeGI vd vs msk => Sys2Proof.Machine.execVtreeGI vd vs msk s
  | .viota vd msk => Sys2Proof.Machine.execViota vd msk s
  | .viotaRank vd ma msk => Sys2Proof.Machine.execViotaRank vd ma msk s
  | .vsx md vs => Sys2Proof.Machine.execVsx md vs s
  | .vsset vd ma => Sys2Proof.Machine.execVsset vd ma s
  | .vssetOr vd ma => Sys2Proof.Machine.execVssetOr vd ma s
  | .vssetClr vd ma => Sys2Proof.Machine.execVssetClr vd ma s
  | .mcall idx ptok cons => Sys2Proof.Machine.execMcall idx ptok cons s
  | .mpw n ss => Sys2Proof.Machine.execMpw n ss s
  | .mpr sd n => Sys2Proof.Machine.execMpr sd n s
  | .mprMq sd => Sys2Proof.Machine.execMprMq sd s
  | .mwr ss ptok cons => Sys2Proof.Machine.execMwr ss ptok cons s
  | .macz plane int ptok cons => Sys2Proof.Machine.execMacz plane int ptok cons s
  | .mst plane okind rm ss ptok cons => Sys2Proof.Machine.execMst plane okind rm ss ptok cons s
  | .tps32 vd vs msk => Sys2Proof.Machine.execTps32 vd vs msk s
  | .tps16 vd vs msk => Sys2Proof.Machine.execTps16 vd vs msk s
  | .tps8 vd vs msk => Sys2Proof.Machine.execTps8 vd vs msk s
  | .snd h vs bd => Sys2Proof.Machine.execSnd h vs bd s
  | .rcv vd h => Sys2Proof.Machine.execRcv vd h s
  | .cst sd bd h => Sys2Proof.Machine.execCst sd bd h s
  | .chq sd bd h => Sys2Proof.Machine.execChq sd bd h s
  | .csrr sd ix => Sys2Proof.Machine.execCsrr sd ix s
  | .csrw ix sb => Sys2Proof.Machine.execCsrw ix sb s
  | .tlbiAsid sa => Sys2Proof.Machine.execTlbiAsid sa s
  | .tlbiPage sa sb => Sys2Proof.Machine.execTlbiPage sa sb s
  | .tlbiAll => Sys2Proof.Machine.execTlbiAll s
  | .lnch sd sa sb => Sys2Proof.Machine.execLnch sd sa sb s
  | .semw sa sb => Sys2Proof.Machine.execSemw sa sb s
  | .semwT bd sa sb => Sys2Proof.Machine.execSemwT bd sa sb s
  | .semsigAdd sd sa sb => Sys2Proof.Machine.execSemsigAdd sd sa sb s
  | .semsigMax sd sa sb => Sys2Proof.Machine.execSemsigMax sd sa sb s
  | .semset sd sa sb => Sys2Proof.Machine.execSemset sd sa sb s
  | .irq sa => Sys2Proof.Machine.execIrq sa s
  | .wfe sd => Sys2Proof.Machine.execWfe sd s
  | .eret => Sys2Proof.Machine.execEret s
  | .cxsv sd sa sb => Sys2Proof.Machine.execCxsv sd sa sb s
  | .cxld sd sa sb => Sys2Proof.Machine.execCxld sd sa sb s
  | .qpop sd sa => Sys2Proof.Machine.execQpop sd sa s
  | .fltp sd => Sys2Proof.Machine.execFltp sd s
  | .fltrReenter sd sa sb => Sys2Proof.Machine.execFltrReenter sd sa sb s
  | .fltrKill sd sa sb => Sys2Proof.Machine.execFltrKill sd sa sb s
  | .fltrResume sd sa sb => Sys2Proof.Machine.execFltrResume sd sa sb s
  | .fltrCmd sd => Sys2Proof.Machine.execFltrCmd sd s
  | .kill sd sa => Sys2Proof.Machine.execKill sd sa s
  | .vprog sd sa sb => Sys2Proof.Machine.execVprog sd sa sb s
  | .vprogStop sd sb => Sys2Proof.Machine.execVprogStop sd sb s
  | .retire sd sa => Sys2Proof.Machine.execRetire sd sa s
  | .moEnd => Sys2Proof.Machine.execMoEnd s
  | .moPopa rack => Sys2Proof.Machine.execMoPopa rack s
  | .moPopb rack => Sys2Proof.Machine.execMoPopb rack s
  | .moPeeka rack => Sys2Proof.Machine.execMoPeeka rack s
  | .moMma plane ka kb ng => Sys2Proof.Machine.execMoMma plane ka kb ng s
  | .moSclRow rack => Sys2Proof.Machine.execMoSclRow rack s
  | .moSclCol rack => Sys2Proof.Machine.execMoSclCol rack s
  | .moSclClr => Sys2Proof.Machine.execMoSclClr s
  | .moZero plane int => Sys2Proof.Machine.execMoZero plane int s
  | .moDrn plane okind rm mpd rstr clr => Sys2Proof.Machine.execMoDrn plane okind rm mpd rstr clr s
  | .moLoop target lc count => Sys2Proof.Machine.execMoLoop target lc count s
  | .moPadd mpd imm => Sys2Proof.Machine.execMoPadd mpd imm s
  | .moShr rack cmask drack => Sys2Proof.Machine.execMoShr rack cmask drack s
  | .moWait t => Sys2Proof.Machine.execMoWait t s
  | .moTok t => Sys2Proof.Machine.execMoTok t s
  | .moPushr plane okind rm rack clr => Sys2Proof.Machine.execMoPushr plane okind rm rack clr s
  | .moNop => Sys2Proof.Machine.execMoNop s
  | .moTrap code => Sys2Proof.Machine.execMoTrap code s
  | .unassigned e => Sys2Proof.Machine.execUnassigned e s
  | .packageReset => Sys2Proof.Machine.execPackageReset s
  | .selfTestComplete => Sys2Proof.Machine.execSelfTestComplete s
  | .podJoin => Sys2Proof.Machine.execPodJoin s
  | .podReferenceLoss => Sys2Proof.Machine.execPodReferenceLoss s
  | .resultLanding => Sys2Proof.Machine.execResultLanding s
  | .lateResult => Sys2Proof.Machine.execLateResult s
  | .memoryDataArrival => Sys2Proof.Machine.execMemoryDataArrival s
  | .atomicReturn => Sys2Proof.Machine.execAtomicReturn s
  | .redFaddFlagReturn => Sys2Proof.Machine.execRedFaddFlagReturn s
  | .loopAccessPerform => Sys2Proof.Machine.execLoopAccessPerform s
  | .pushSend => Sys2Proof.Machine.execPushSend s
  | .pageWalkComplete => Sys2Proof.Machine.execPageWalkComplete s
  | .tlbiComplete => Sys2Proof.Machine.execTlbiComplete s
  | .preemptionArrival => Sys2Proof.Machine.execPreemptionArrival s
  | .gangStopped => Sys2Proof.Machine.execGangStopped s
  | .agingRise => Sys2Proof.Machine.execAgingRise s
  | .gangReservationConfirm => Sys2Proof.Machine.execGangReservationConfirm s
  | .windowMove => Sys2Proof.Machine.execWindowMove s
  | .gangStart => Sys2Proof.Machine.execGangStart s
  | .xpkgWithdraw => Sys2Proof.Machine.execXpkgWithdraw s
  | .contextSwitch => Sys2Proof.Machine.execContextSwitch s
  | .contextSaveComplete => Sys2Proof.Machine.execContextSaveComplete s
  | .contextRestoreComplete => Sys2Proof.Machine.execContextRestoreComplete s
  | .reentry => Sys2Proof.Machine.execReentry s
  | .coreRetire => Sys2Proof.Machine.execCoreRetire s
  | .watchdogExpiry => Sys2Proof.Machine.execWatchdogExpiry s
  | .contextFree => Sys2Proof.Machine.execContextFree s
  | .gangCompletion => Sys2Proof.Machine.execGangCompletion s
  | .completionRecordDelivery => Sys2Proof.Machine.execCompletionRecordDelivery s
  | .faultRecordDelivery => Sys2Proof.Machine.execFaultRecordDelivery s
  | .barrierRelease => Sys2Proof.Machine.execBarrierRelease s
  | .twaitResume => Sys2Proof.Machine.execTwaitResume s
  | .wgtResume => Sys2Proof.Machine.execWgtResume s
  | .rcvSkewExpiry => Sys2Proof.Machine.execRcvSkewExpiry s
  | .engineTake => Sys2Proof.Machine.execEngineTake s
  | .commandComplete => Sys2Proof.Machine.execCommandComplete s
  | .engineYield => Sys2Proof.Machine.execEngineYield s
  | .blockFillComplete => Sys2Proof.Machine.execBlockFillComplete s
  | .matrixCommandStart => Sys2Proof.Machine.execMatrixCommandStart s
  | .matrixCommandComplete => Sys2Proof.Machine.execMatrixCommandComplete s
  | .routineComplete => Sys2Proof.Machine.execRoutineComplete s
  | .drainComplete => Sys2Proof.Machine.execDrainComplete s
  | .shrTransferComplete => Sys2Proof.Machine.execShrTransferComplete s
  | .revokeZeroise => Sys2Proof.Machine.execRevokeZeroise s
  | .eventEntry => Sys2Proof.Machine.execEventEntry s
  | .evttimeTimer => Sys2Proof.Machine.execEvttimeTimer s
  | .launchSlotWrite => Sys2Proof.Machine.execLaunchSlotWrite s
  | .peerPacket => Sys2Proof.Machine.execPeerPacket s
  | .apertureRead => Sys2Proof.Machine.execApertureRead s
  | .apertureWrite => Sys2Proof.Machine.execApertureWrite s
  | .cdoorbellWrite => Sys2Proof.Machine.execCdoorbellWrite s
  | .cstatRunWrite => Sys2Proof.Machine.execCstatRunWrite s
  | .tscfgWrite => Sys2Proof.Machine.execTscfgWrite s
  | .registerWrite => Sys2Proof.Machine.execRegisterWrite s
  | .dbgHalt => Sys2Proof.Machine.execDbgHalt s
  | .dbgResume => Sys2Proof.Machine.execDbgResume s
  | .dbgStep => Sys2Proof.Machine.execDbgStep s
  | .debugRegisterWrite => Sys2Proof.Machine.execDebugRegisterWrite s
  | .replayConfigure => Sys2Proof.Machine.execReplayConfigure s
  | .replayCheckpointBegin => Sys2Proof.Machine.execReplayCheckpointBegin s
  | .encreate => Sys2Proof.Machine.execEncreate s
  | .attest => Sys2Proof.Machine.execAttest s
  | .kemKeyPairGenerate => Sys2Proof.Machine.execKemKeyPairGenerate s
  | .keyest => Sys2Proof.Machine.execKeyest s
  | .revoke => Sys2Proof.Machine.execRevoke s
  | .grant => Sys2Proof.Machine.execGrant s
  | .endestroy => Sys2Proof.Machine.execEndestroy s
  | .pstate => Sys2Proof.Machine.execPstate s
  | .powerStateExit => Sys2Proof.Machine.execPowerStateExit s
  | .retry => Sys2Proof.Machine.execRetry s
  | .wavelengthRestore => Sys2Proof.Machine.execWavelengthRestore s
  | .thermalTrip => Sys2Proof.Machine.execThermalTrip s
  | .correctedError => Sys2Proof.Machine.execCorrectedError s
  | .uncorrectableError => Sys2Proof.Machine.execUncorrectableError s
  | .prunerWindow => Sys2Proof.Machine.execPrunerWindow s
  | .scrubThrottleWindow => Sys2Proof.Machine.execScrubThrottleWindow s
  | .scrubPassEnd => Sys2Proof.Machine.execScrubPassEnd s
  | .laserBankFailure => Sys2Proof.Machine.execLaserBankFailure s
  | .ringTuningLoss => Sys2Proof.Machine.execRingTuningLoss s
  | .boundaryLinkDown => Sys2Proof.Machine.execBoundaryLinkDown s
  | .linkReplayRequest => Sys2Proof.Machine.execLinkReplayRequest s
  | .dataFlit => Sys2Proof.Machine.execDataFlit s
  | .reduceFlit => Sys2Proof.Machine.execReduceFlit s
  | .hello => Sys2Proof.Machine.execHello s
  | .ack => Sys2Proof.Machine.execAck s
  | .nack => Sys2Proof.Machine.execNack s
  | .stale => Sys2Proof.Machine.execStale s
  | .credit => Sys2Proof.Machine.execCredit s
  | .transportTimeout => Sys2Proof.Machine.execTransportTimeout s
  | .breakDataDrop => Sys2Proof.Machine.execBreakDataDrop s
  | .circuitLive => Sys2Proof.Machine.execCircuitLive s
  | .wavelengthLock => Sys2Proof.Machine.execWavelengthLock s
  | .makeAct => Sys2Proof.Machine.execMakeAct s
  | .breakAct => Sys2Proof.Machine.execBreakAct s
  | .parkAct => Sys2Proof.Machine.execParkAct s
  | .unparkAct => Sys2Proof.Machine.execUnparkAct s
  | .holdExpiry => Sys2Proof.Machine.execHoldExpiry s
  | .waitqDeadline => Sys2Proof.Machine.execWaitqDeadline s
  | .boundaryLinkEstablish => Sys2Proof.Machine.execBoundaryLinkEstablish s

end Sys2Proof.Machine
end

