-- ==== Sys2Proof/Machine/Issue.lean ====
section
/-! DEFINITION. Machine/Issue.lean: fetching and issuing a bundle on a core and on a Cellarer, a micro-op, a step record and a
command, stalls that end before a bundle issues, and the acts of one gt in their order (R25, R78-R83, R98-R101, R132-R139,
R149, R222, R242, R264, R297, R321-R325, R334, R355-R358). -/

namespace Sys2Proof.Machine

/-! ## A bundle -/

/-- The stream is at a bundle. -/
def Hart.begin (h : Hart) (ic : Nat) : Hart :=
  { h with ic := ic, bpc := h.pc, blen := 0, slot := 0xFF, pfx := none, closes := false, first := h.nid, srq := [] }

/-- The bundle has been decoded: its length, and whether it carries `rgnc` or `end`. -/
def Hart.decoded (h : Hart) (b : Bundle) : Hart :=
  { h with blen := 4 * b.len, closes := b.syls.any (fun p => p.2 == .rgnc || p.2 == .endTask) }

/-- The next address, after the third delay bundle the target of a taken branch (R132). -/
def Hart.next (h : Hart) : Hart :=
  let fall := h.bpc + h.blen
  match h.redir with
  | none => { h with pc := fall }
  | some (n, t) => if n ≤ 1 then { h with pc := t, redir := none } else { h with pc := fall, redir := some (n - 1, t) }

/-- A `rgn`. -/
def isRgn (i : Instr) : Bool :=
  match i with
  | .rgn _ _ => true
  | _ => false

/-- A `trap`. -/
def isTrap (i : Instr) : Bool :=
  match i with
  | .trap _ => true
  | _ => false

/-- What acts at the end of its bundle's issue cycle (R139, R147, R148). -/
def atEnd (i : Instr) : Bool := i == .rgnc || i == .endTask || isTrap i

/-- The slot of the syllable that breaks R133, if one does: in the shadow of a taken branch a branch that is taken or a
region's boundary, and beside an `rgnc` a branch that is taken. -/
def shadowSlot (h : Hart) (vp : BitVec 64) (b : Bundle) : Option Nat :=
  let edge (i : Instr) : Bool := isRgn i || i == .rgnc || i == .endTask
  let hit (p : Nat × Instr) : Bool :=
    match h.redir with
    | some _ => branchTaken p.2 h vp || edge p.2
    | none => b.syls.any (fun q => q.2 == .rgnc) && branchTaken p.2 h vp
  (b.syls.find? hit).map (·.1)

/-- The syllable in execution stands in a slot. -/
def State.atSlot (s : State) (n : Nat) : State := s.setHart { s.hart with slot := n }

/-- Run syllables in ascending slot; the first that faults is the one reported, and what follows it does not perform (R268).
A `trap` of a lower slot outranks it: it is taken on the state before. -/
def runSyls (tr : Option (Nat × Instr)) (s : State) : List (Nat × Instr) → Out
  | [] => .next s
  | (n, i) :: l =>
    match exec i (s.atSlot n) with
    | .next s1 =>
      if s1.abort then
        match tr with
        | some (m, j) => if m < n then exec j (s.atSlot m) else .next s1
        | none => .next s1
      else runSyls tr s1 l
    | o => o

/-- Go on with the state that an outcome answers. -/
def Out.then (o : Out) (f : State → Out) : Out :=
  match o with
  | .next s => f s
  | o => o

/-- The queued special-register writes of the bundle take effect (R129); of a bundle that faulted those of the flags are
restored by its discard and do not. -/
def State.applySrs (s : State) : State :=
  match s.cur with
  | .core c k =>
    let q := (s.ctx c k).hart.srq
    let keep (p : Nat × Word) : Bool := !(s.abort && (p.1 = 9 || p.1 = 10 || p.1 = 11))
    s.updCtx c k (fun x =>
      let y := (q.filter keep).foldl (fun (y : Ctx) (p : Nat × Word) => y.applySr p.1 p.2) x
      { y with hart := { y.hart with srq := [] } })
  | .cell t =>
    s.updCell t (fun x =>
      let h := x.hart.srq.foldl (fun (h : Hart) (p : Nat × Word) => h.applySr p.1 p.2) x.hart
      { x with hart := { h with srq := [] } })
  | _ => s

/-- Run a bundle: its `rgn` first, then the other syllables, the queued special-register writes, and what acts at the end of
the cycle, which a stall of the bundle puts off (R101). -/
def runBundle (s : State) (b : Bundle) : Out :=
  let tr := b.syls.find? (fun p => isTrap p.2)
  let front := b.syls.filter (fun p => isRgn p.2) ++ b.syls.filter (fun p => !isRgn p.2 && !atEnd p.2 && p.2 != .brk)
  Out.then (runSyls tr s front) (fun s1 =>
    let s2 := s1.applySrs
    let last := b.syls.filter (fun p => atEnd p.2)
    if s2.abort then .next s2 else if s2.stalls then .next (s2.postpone last) else runSyls none s2 last)

/-! ## A core's bundle -/

/-- An enabled address breakpoint of a core whose tile is at D2 matches (R354, R357). -/
def bpMatch (lev : Nat) (y : Core) (pc : Nat) : Bool :=
  2 ≤ lev && y.dbgctl.getLsbD 3 && (fromTo 0 4).any (fun n => let w : Word := mapGet 0 y.dbgbp n; w.getLsbD 0 && w.toNat / 4 * 4 == pc)

/-- Straddlers replayed in a re-entry: each once, at its offset from the opening bundle (R264). -/
def Ctx.replays (x : Ctx) (ic : Nat) : List Pend :=
  (x.landed ++ x.hart.pend.filter (fun p => p.strad.isSome && !p.rep)).filterMap (fun p =>
    p.strad.map (fun d => { p with ic := ic + d, rep := true }))

/-- A push of the deferral queue that straddled the commit is replayed at its offset (R211, R264). -/
def DPush.replay (d : DPush) (ic : Nat) : DPush := { d with ic := ic + d.off.getD 0, comm := false }

/-- The open region's first bundle is to issue in an issue cycle: an attempt's event stream begins, and a re-entry replays the
straddlers, before anything of the cycle lands (R264, R285). -/
def Ctx.prepared (x : Ctx) (ic : Nat) : Ctx :=
  if x.reg.fresh then
    let y : Ctx := { x with rerun := x.rerun.map Rerun.restart }
    let z := if x.reg.opened && !(x.hart.pend.any (·.rep)) then { y with hart := { y.hart with pend := y.hart.pend ++ y.replays ic } } else y
    if x.reg.opened && x.dqIn.all (·.comm) then { z with dqIn := z.dqIn ++ x.dqOld.map (·.replay ic) } else z
  else x

/-- The open region's first bundle issues in an issue cycle: the first time that fixes the offsets of the straddlers that land in
this cycle or have still to land (R136, R264). -/
def Ctx.openAt (x : Ctx) (ic : Nat) : Ctx :=
  if x.reg.opened then { x with reg := { x.reg with openIc := ic } }
  else
    let at_ (p : Pend) : Pend := { p with strad := p.strad.map (fun _ => p.ic - ic) }
    { x with reg := { x.reg with openIc := ic, opened := true }, landed := (x.landed.filter (fun p => p.ic = ic)).map at_,
             hart := { x.hart with pend := x.hart.pend.map at_ },
             dqIn := x.dqIn.map (fun d => { d with off := if d.comm then some (d.ic - ic) else none }) }

/-- A bundle of the open region issues: it counts, unless it carries a `rgn` (R138); an acquire fence before it is in force
from here on (R252). -/
def Ctx.enter (x : Ctx) (ic : Nat) (rgn : Bool) : Ctx :=
  let x1 := if x.reg.fresh && !(x.reg.anon && rgn) then x.openAt ic else x
  let x2 := if rgn then x1 else { x1 with reg := { x1.reg with fresh := false, cnt := x1.reg.cnt + 1 } }
  match x.acqF with
  | none => { x2 with walked := [] }
  | some .reticle => { x2 with walked := [], acqF := none, acqRet := max x2.acqRet x.perfAt }
  | some .package | some .pod => { x2 with walked := [], acqF := none, acqPkg := max x2.acqPkg x.perfAt }
  | some _ => { x2 with walked := [], acqF := none }

/-- A core's issue cycle ends; a core that was to step halts again (R355). -/
def State.endCycle (s : State) (c : CoreId) (issued : Bool) : State :=
  s.updCore c (fun y =>
    let y1 := { y with ic := y.ic + 1 }
    if issued && y1.dbgctl.getLsbD 2 && !y1.dbgctl.getLsbD 0 && !y1.halted then
      { y1 with halted := true, haltAt := s.gt, dbgctl := y1.dbgctl ||| 1 }
    else y1)

/-- The task waits to commit (R101). -/
def commitStall (x : Ctx) : Bool := x.stall == some .commit
def rgnStall (x : Ctx) : Bool := x.stall == some .rgn

/-- What acts at the end of its issue cycle is still to act. -/
def lastStall (x : Ctx) : Bool :=
  match x.stallK with
  | some (.last _, _) => true
  | _ => false

/-- What follows a core's bundle: the next address, unless a fault or a stop has set it; a bundle whose `rgn` waits has not
issued, and one whose commit waits keeps its issue cycle, as does one whose end is frozen. -/
def State.finishCore (s before : State) (c : CoreId) (k : CtxId) : State :=
  if lastStall (s.ctx c k) then s else
  let s1 := if s.abort then s else s.updCtx c k (fun x => { x with hart := x.hart.next })
  let s2 := s1.ckImage before c k
  let x := s2.ctx c k
  if rgnStall x || commitStall x then s2 else s2.endCycle c true

/-- A decoded bundle of a context: the breakpoint before anything else, then the rules of R133 and R138, then its syllables. -/
def State.runCore (s : State) (c : CoreId) (k : CtxId) (b : Bundle) : Out :=
  let x := s.ctx c k
  let rgn := b.syls.any (fun p => isRgn p.2)
  let brk := b.syls.find? (fun p => p.2 == .brk)
  let s0 := s.updCtx c k (fun x => { x with brkSkip := false })
  match x.brkSkip, brk with
  | false, some (n, i) => exec i (s.atSlot n)
  | _, _ =>
    if !x.brkSkip && bpMatch (s.tile (tileOf c)).dbg (s.core c) x.hart.bpc then .next (s.raiseBundle { code := fBreak })
    else
      match shadowSlot x.hart x.vp b with
      | some n => .next ((s0.atSlot n).raise shadowTrap)
      | none =>
        if !rgn && 2 ^ (8 + x.reg.blim) ≤ x.reg.cnt then .next (s0.raiseBundle { code := fLimit })
        else runBundle (s0.updCtx c k (fun x => x.enter (s.core c).ic rgn)) b

/-- The bundle's words come from a unit marked bad (R283). -/
def fetchBad (s : State) (c : CoreId) (asid pc n : Nat) : Bool :=
  !s.bad.isEmpty && (match xlateSegs s true (tileOf c) (some c) asid .fetch 3 pc n with
    | .ok (l, _) => readsBad s l
    | .error _ => false)

/-- A fetch address that neither TLB translates and whose walk has not ended for this bundle (R280). -/
def pageMiss (s : State) (c : CoreId) (x : Ctx) (va : Nat) : Bool :=
  va < 2 ^ 56 && s.asidtab.getLsbD 0 && (tlbHit s (tileOf c) (some c) x.asid.toNat va).isNone && !(x.walked.contains (va / 4096))

/-- The address at which the fetch of a context's next bundle misses: a bundle lies in two pages at most (R78, R280). -/
def fetchMiss (s : State) (c : CoreId) (k : CtxId) : Option Nat :=
  let x := s.ctx c k
  let last := match fetchCore s c x.asid.toNat x.hart.pc with
    | .ok (ws, _) => x.hart.pc + 4 * (ws.length - 1)
    | .error f => f.addr
  [x.hart.pc, last].find? (pageMiss s c x)

/-- A fetch that misses stalls its core until its walk has ended (R280). -/
def State.stallFetch (s : State) (c : CoreId) (k : CtxId) (va : Nat) : State :=
  (s.updCtx c k (fun x => { x with stall := some (.fetch va), stallAt := s.gt })).beginWalk (tileOf c) (some c) (s.ctx c k).asid.toNat va

/-- The running context of a core issues its next bundle. -/
def State.issueCore (s : State) (c : CoreId) (k : CtxId) : Out :=
  let x := s.ctx c k
  let pc := x.hart.pc
  let s0 : State := { s.updCtx c k (fun y => { y with hart := y.hart.begin (s.core c).ic }) with cur := .core c k, abort := false }
  let run : Out :=
    match fetchCore s0 c x.asid.toNat pc with
    | .error f => .next (s0.raiseBundle { f.trap with addr := pc })
    | .ok (ws, es) =>
      let s1 := s0.fillTlbs (tileOf c) (some c) es
      if fetchBad s1 c x.asid.toNat pc (4 * ws.length) then
        .next (s1.bump.raiseBundle { code := fUncorr, detail := Config.freeWord s1.fresh, addr := pc, flg := 16 })
      else
        match decodeBundle false ws with
        | .error e => exec (.unassigned e) s1
        | .ok b => (s1.updCtx c k (fun y => { y with hart := y.hart.decoded b })).runCore c k b
  Out.then run (fun s1 => .next (s1.finishCore s0 c k))

/-! ## A core's clock -/

/-- A stall that may end before the core issues: a `rcv` whose data is there, a `snd` whose circuit is live, a commit that has
room (R101, R309, R310). -/
def State.endStall (s : State) (c : CoreId) (k : CtxId) : State :=
  let x := s.ctx c k
  let settle (r : FRes) (slot cause : Nat) : State :=
    match r with
    | .done s1 => s1.unstall c k cause
    | .fault t => s.coreFault c k slot x.hart.bpc t
    | .stall => s
  match x.stall with
  | some (.rcv h vd slot _) => settle (rcvTry s c k h vd slot) slot 3
  | some (.snd h img bd slot) => settle (sndTry s c k h img bd slot) slot 7
  | some .rgn => if 64 < strAfter s c k then s else s.unstall c k 6
  | some .commit =>
    if 64 < strAfter s c k then s
    else
      let s1 := (({ s with cur := .core c k, abort := false }.unstall c k 6).closeRegion c k).ckImage s c k
      s1.endCycle c true
  | _ => s

/-- The issue cycle that a stall has frozen ends, and what acts at its end acts (R101, R139, R147, R148). -/
def State.endLast (s : State) (c : CoreId) (k : CtxId) : Out :=
  match (s.ctx c k).stall, (s.ctx c k).stallK with
  | none, some (.last i, n) =>
    let s0 : State := { s.updCtx c k (fun y => { y with stallK := none }) with cur := .core c k, abort := false }
    Out.then (exec i (s0.atSlot n)) (fun s1 => .next (s1.finishCore s0 c k))
  | _, _ => .next s

/-- The `.w` result that holds a core: of the lowest slot. -/
def holder (s : State) (c : CoreId) : Option Pend :=
  lowSlot (ctxIds.flatMap (fun k => let x := s.ctx c k; x.hart.pend.filter (holdsCore s.gt (s.core c).ic x.reqs)))

/-- The core waits for the data of a `.w` result, or no longer does: the deviation is that of the load or atomic (R82, R101, R358). -/
def State.waitStart (s : State) (c : CoreId) : State :=
  match (s.core c).waitAt, holder s c with
  | none, some p => s.updCore c (fun y => { y with waitAt := some (s.gt, p.pc, p.slot) })
  | _, _ => s

def State.waitEnd (s : State) (c : CoreId) : State :=
  match (s.core c).waitAt with
  | none => s
  | some (t, pc, slot) => (s.updCore c (fun y => { y with waitAt := none })).trace (tileOf c) pc slot 1 (s.gt - t)

/-- A tile issues nothing outside C0, nor in safe mode (R360, R366). -/
def tileOn (s : State) (t : TileId) : Bool := !s.safe && (s.tile t).pwrSt = 0

/-- A context may issue in the issue cycle: its suspended routine has been resumed first (R234). -/
def mayIssue (s : State) (c : CoreId) (k : CtxId) : Bool :=
  let x := s.ctx c k
  x.st == .running && !x.stalled && x.reAt.isNone && x.susp.isNone && x.hart.gapTo ≤ (s.core c).ic

/-- Results land in a clock, and the running context issues, or the cycle passes. -/
def State.landAndIssue (s : State) (c : CoreId) (k : CtxId) : Out :=
  let s1 := s.landCore c
  if mayIssue s1 c k then s1.issueCore c k else .next (s1.endCycle c false)

/-- One clock of a core that is not stalled. -/
def State.clock (s : State) (c : CoreId) : Out :=
  if coreWaits s c then .next (s.waitStart c)
  else
    let s1 := s.waitEnd c
    match (s1.core c).run with
    | none => .next ((s1.landCore c).endCycle c false)
    | some k =>
      if mayIssue s1 c k then
        match fetchMiss s1 c k with
        | some va => .next (s1.stallFetch c k va)
        | none => (s1.updCtx c k (fun x => x.prepared (s1.core c).ic)).landAndIssue c k
      else s1.landAndIssue c k

/-- A core has still to take its clock of this gt (R25, R355, R360). -/
def clocks (s : State) (c : CoreId) : Bool := !(s.core c).cycled && !(s.core c).halted && tileOn s (tileOf c)

/-- A core whose next fetch misses stalls before the accesses of the clock perform (R240, R280). -/
def State.fetchAct (s : State) (c : CoreId) : State :=
  match (s.core c).run with
  | some k =>
    if coreWaits s c || !mayIssue s c k then s
    else (match fetchMiss s c k with
      | some va => (s.waitEnd c).stallFetch c k va
      | none => s)
  | none => s

/-- A stall that ends before its core's clock of this gt does so before the accesses of the clock perform, and so does one begin whose
bundle's fetch misses (R101, R240). -/
def State.stallEndAct (s : State) (c : CoreId) : Out :=
  match (s.core c).run with
  | some k => if clocks s c then Out.then ((s.endStall c k).endLast c k) (fun s1 => .next (s1.fetchAct c)) else .next s
  | none => .next s

/-- A core takes its clock of this gt (R25, R98, R101, R355). -/
def State.coreAct (s : State) (c : CoreId) : Out :=
  if clocks s c then
    let s0 := s.updCore c (fun y => { y with cycled := true })
    match (s.core c).run with
    | none => s0.clock c
    | some k => if (s.ctx c k).stalled then .next s0 else s0.clock c
  else .next s

/-! ## A Cellarer -/

/-- The bundle of a Cellarer that samples semaphores after every other operation of the gt (R334). -/
def samples (b : Bundle) : Bool :=
  b.syls.any (fun p => match p.2 with
    | .semw _ _ | .semwT _ _ _ | .lnch _ _ _ => true
    | _ => false)

/-- A Cellarer's decoded bundle. -/
def State.runCell (s : State) (t : TileId) (b : Bundle) : Out :=
  let h := (s.cell t).hart
  match b.syls.find? (fun p => p.2 == .brk) with
  | some (n, i) => exec i (s.atSlot n)
  | none =>
    match shadowSlot h 0 b with
    | some n => .next ((s.atSlot n).raise shadowTrap)
    | none => runBundle s b

/-- What follows a Cellarer's bundle. -/
def State.finishCell (s : State) (t : TileId) : State :=
  if s.abort then s else s.updCell t (fun x => { x with hart := x.hart.next })

/-- The EIE bit as the target of an `eret` issues (R326). -/
def Cell.eretDone (x : Cell) : Cell :=
  if x.hart.eretP && x.hart.redir.isNone then { x with eie := true, hart := { x.hart with eretP := false } } else x

/-- The words of a Cellarer's bundle come from a unit marked bad (R283). -/
def cellFetchBad (s : State) (t : TileId) (pc n : Nat) : Bool :=
  !s.bad.isEmpty && (match cellSegs s t pc n .fetch with
    | .ok (l, _) => readsBad s l
    | .error _ => false)

/-- A Cellarer issues a bundle whose results so far have landed. -/
def State.issueCell (s : State) (t : TileId) : Out :=
  match execEventEntry { s with cur := .cell t, abort := false } with
  | .next s1 =>
    let s2 := s1.updCell t (fun x => { x.eretDone with hart := x.eretDone.hart.begin x.hart.ic, cycled := true })
    let pc := (s2.cell t).hart.pc
    Out.then
      (match fetchCell s2 t pc with
       | .error f => .next (s2.raiseBundle { f.trap with addr := pc })
       | .ok (ws, es) =>
         let s3 := s2.fillTlbs t none es
         if cellFetchBad s3 t pc (4 * ws.length) then
           .next (s3.bump.raiseBundle { code := fUncorr, detail := Config.freeWord s3.fresh, addr := pc, flg := 16 })
         else
         match decodeBundle true ws with
         | .error e => exec (.unassigned e) s3
         | .ok b => (s3.updCell t (fun y => { y with hart := y.hart.decoded b })).runCell t b)
      (fun s4 => .next (s4.finishCell t))
  | o => o

/-- The bundle that a Cellarer would issue samples semaphores. -/
def cellSamples (s : State) (t : TileId) : Bool :=
  let x := s.cell t
  let pc := if x.eie && x.events != 0 && x.hart.redir.isNone then x.evec.toNat else x.hart.pc
  match fetchCell s t pc with
  | .error _ => false
  | .ok (ws, _) =>
    match decodeBundle true ws with
    | .error _ => false
    | .ok b => samples b

/-- A stall of a Cellarer that ends in this gt: `wgt` before it issues, the others after every operation of the gt (R321, R326,
R334). -/
def State.cellStall (s : State) (t : TileId) (late : Bool) : State :=
  let x0 := s.cell t
  let kEnds : Bool := match x0.stallK with
    | some (.wgt n, _) => !late && n ≤ s.gt
    | some (.twait m, _) => late && x0.hart.allSignalled m
    | _ => false
  let s := if kEnds then s.setCell t { x0 with stallK := none } else s
  let x := s.cell t
  let go (x : Cell) : State := s.setCell t { x with stall := none }
  match x.stall with
  | some (.wgt n) => if !late && n ≤ s.gt then go x else s
  | some (.twait m) => if late && x.hart.allSignalled m then go x else s
  | some (.semw r v) => if late && v.toNat ≤ (s.sem r).toNat then go x else s
  | some (.wfe sd) => if late && x.events != 0 then go (x.outS sd (x.evtpend.setWidth 64)) else s
  | some (.cxld c g sd) =>
    if late then (match s.cxldTry c g with
      | some (s1, r) => State.cxldDone t sd (s1.updCell t (fun y => { y with stall := none }), r)
      | none => s)
    else s
  | _ => s

/-- An acquire fence of a Cellarer is in force from its next bundle on (R252). -/
def Cell.enter (x : Cell) : Cell :=
  match x.acqF with
  | none => x
  | some .reticle => { x with acqF := none, acqRet := max x.acqRet x.perfAt }
  | some .package | some .pod => { x with acqF := none, acqPkg := max x.acqPkg x.perfAt }
  | some _ => { x with acqF := none }

/-- What acts at the end of a Cellarer's issue cycle acts, once the stall that has frozen it is over. -/
def State.cellLast (s : State) (t : TileId) (n : Nat) (i : Instr) : Out :=
  let s0 : State := { s.updCell t (fun y => { y with stallK := none }) with cur := .cell t, abort := false }
  Out.then (exec i (s0.atSlot n)) (fun s1 => .next (s1.finishCell t))

/-- A Cellarer's next issue cycle. -/
def Cell.ticked (x : Cell) : Cell := { x with hart := { x.hart with ic := x.hart.ic + 1 } }

/-- A Cellarer takes its clock of this gt: late in it only a bundle that samples semaphores issues, and none once a stall has ended there
(R142, R334). -/
def State.cellAct (s : State) (t : TileId) (late : Bool) : Out :=
  let s0 := s.cellStall t late
  let x := s0.cell t
  if x.cycled || !x.run || x.stall.isSome || (s.cell t).stalled && late && x.stallK.isNone || !(tileOn s t) then .next s0
  else
    match x.stallK with
    | some (.last i, n) => s0.cellLast t n i
    | some _ => .next s0
    | none =>
    let x1 := x.ticked
    if x1.waits s.gt then .next s0
    else
      match lowSlot (x1.badDue s.gt) with
      | some p => .next (s0.cellBad t x1 p)
      | none =>
      let s1 := s0.setCell t (x1.land s.gt)
      if x1.hart.ic < x1.hart.gapTo then .next (s1.updCell t (fun y => { y with cycled := true }))
      else if late != cellSamples s1 t then .next s0
      else (s1.updCell t Cell.enter).issueCell t

/-! ## Engines, slots, sequencers -/

/-- The engines and the Cellarer of a tile are gated outside C0 (R360). -/
def gated (s : State) : Cur → Bool
  | .eng t _ | .cell t => (s.tile t).pwrSt != 0
  | _ => false

/-- An engine, or a Cellarer for a CQ command, runs the next unit of its command; a command that no layout admits breaks a
field rule (R188). -/
def State.runCmd (s : State) (who : Cur) : Out :=
  let s1 : State := { s with cur := who, abort := false }
  match (if gated s who then none else s1.curCmd) with
  | none => .next s
  | some d =>
    if s1.prodsDone d.waits then
      match decodeCmd (leNat d.bytes) with
      | some i => exec i s1
      | none => .next (s1.engErr d badField)
    else .next s

/-- A program slot is at a step. -/
def State.slotBegin (s : State) (n : SlotId) (idx : Nat) : State :=
  { s.updSlot n (fun v => { v with cycled := true, step := idx, seen := max v.seen (idx + 1) }) with cur := .slot n, abort := false }

/-- A program slot reads its next step, or tries again to queue one (R297, R300). -/
def State.slotAct (s : State) (n : SlotId) : Out :=
  let v := s.slot n
  if v.st != 1 || v.cycled || s.safe then .next s
  else
    match v.full with
    | some i => exec i (s.slotBegin n v.at_)
    | none =>
      let s0 := s.slotBegin n v.step
      match xlateSegs s0 true v.tile none v.asid .read 2 (v.addrOf v.step) 16 with
      | .error _ => .next (s0.progFault n 10 v.step)
      | .ok (l, es) =>
        let s1 := s0.fillTlbs v.tile none es
        match decodeStep (leNat (s0.segBytes l)) with
        | .error c => .next (s1.progFault n c v.step)
        | .ok i => exec i s1

/-- The sequencer of a core executes the next micro-op of its routine, when it is free to (R222, R223). -/
def State.seqAct (s : State) (c : CoreId) : Out :=
  let y := s.core c
  match y.rt with
  | none => .next s
  | some r =>
    if y.halted || s.gt < r.busy || r.ended || !r.cmd.isCall || !(tileOn s (tileOf c)) then .next s
    else
      let x := s.ctx c r.cmd.ctx
      if x.mslen ≤ r.pc then .next (s.microTake s c r.cmd r.pc (breachDetail 2))
      else
        match decodeMicro (windowWord y x r.pc).toNat with
        | none => .next (s.microTake s c r.cmd r.pc (breachDetail 3))
        | some i => exec i { s with cur := .seq c, abort := false }

/-! ## The acts of one gt -/

/-- The next gt: the circuits send what the gt has room for, every agent may act again, and the budget of a running task shrinks (R19,
R272, R292, R355). -/
def State.tick (s : State) : State :=
  let s := s.pump
  let less (y : Core) (x : Ctx) : Ctx := if x.st == .running && !y.halted then { x with wdog := x.wdog.map (· - 1) } else x
  { s.ckEnd with
    gt := (s.gt + 1) % 2 ^ 64,
    cores := s.ckEnd.cores.map (fun (p : Nat × Core) => (p.1, { p.2 with cycled := false, ctxs := p.2.ctxs.map (less p.2) })),
    tiles := s.ckEnd.tiles.map (fun (p : Nat × Tile) => (p.1, { p.2 with cell := { p.2.cell with cycled := false } })),
    slots := s.ckEnd.slots.map (fun (p : Nat × Slot) => (p.1, { p.2 with cycled := false })) }

/-- An event of the table. -/
def evAct (i : Instr) (a : EvArg) : Act := .ev i a

/-- The cores that the state lists, and the contexts of theirs that hold a task. -/
def coreList (s : State) : List CoreId := s.cores.map (fun (p : Nat × Core) => Fin.ofNat 512 p.1)
def ctxList (s : State) : List (CoreId × CtxId) := (coreList s).flatMap (fun c => (busyCtxs s c).map (fun k => (c, k)))
def tileList : List TileId := (fromTo 0 16).map (fun n => Fin.ofNat 16 n)
def slotList : List SlotId := (fromTo 0 8).map (fun n => Fin.ofNat 8 n)
def handleList (s : State) : List Handle := s.handles.map (fun (p : Nat × Hnd) => Fin.ofNat 256 p.1)

/-- Insert a queue entry in timer order. -/
def insEnt (e : TEnt) : List TEnt → List TEnt
  | [] => [e]
  | f :: l => if f.before e then f :: insEnt e l else e :: f :: l

/-- What comes due at a gt before anything issues: rises and arrivals that withdraw a start, starts (R37), re-entries, watchdogs,
timers, circuits, `wgt` and barriers, and flags that must be readable by now (R168). What a halt held back comes first (R355). -/
def dueActs (s : State) : List Act :=
  let held : List Act := s.gangs.flatMap (fun x =>
    (if x.st == .stopping then [evAct .gangStopped { gang := x.id }] else []) ++
      (if x.status = 0 then [] else [evAct .gangCompletion { gang := x.id }]))
  let g : List Act := held ++ s.gangs.map (fun x => evAct .agingRise { gang := x.id }) ++
    s.gangs.map (fun x => evAct .preemptionArrival { gang := x.id, flag := true }) ++ s.gangs.map (fun x => evAct .gangStart { gang := x.id })
  let k : List Act := (ctxList s).flatMap (fun p =>
    let a : EvArg := { core := p.1, ctx := p.2 }
    ((s.ctx p.1 p.2).redfl.filter (fun r => r.due ≤ s.gt)).map (fun _ => evAct .redFaddFlagReturn a) ++
      [evAct .reentry a, evAct .watchdogExpiry a, evAct .wgtResume a, evAct .barrierRelease a])
  let t : List Act := tileList.flatMap (fun t => [evAct .evttimeTimer { tile := t }, evAct .powerStateExit { tile := t }])
  let h : List Act := (handleList s).flatMap (fun n =>
    [evAct .circuitLive { handle := n }, evAct .transportTimeout { handle := n }, evAct .breakDataDrop { handle := n }])
  let w : List Act := s.ports.flatMap (fun (p : Nat × Port) => p.2.waking.map (fun w => evAct .wavelengthLock { port := p.1, lam := w.lam }))
  let q : List Act := ((s.timerq.filter (fun e => e.at_ ≤ s.gt)).foldl (fun l e => insEnt e l) []).map (fun e => evAct (timedAct e.step) {})
  let v : List Act := slotList.flatMap (fun n => [evAct .holdExpiry { slot := n }, evAct .waitqDeadline { slot := n }])
  let p : List Act := if s.gt % 2 ^ 36 = 0 then tileList.map (fun t => evAct .prunerWindow { tile := t }) else []
  g ++ k ++ t ++ h ++ w ++ q ++ v ++ p ++ (if s.replay.ms = 0 then [] else [evAct .replayCheckpointBegin {}])

/-- Committed writes whose time has come, with those before them, which perform first (R251, R255). -/
def writeActs (s : State) : List Act :=
  (ctxList s).flatMap (fun p => List.replicate (dueWrites s p.1 (s.ctx p.1 p.2).wbuf) (Act.performWrite p.1 p.2))

/-- The sequencers of the cores (R217, R222). -/
def matrixActs (s : State) : List Act :=
  (coreList s).flatMap (fun c =>
    let a : EvArg := { core := c }
    let y := s.core c
    (y.drains.map (fun _ => evAct .drainComplete a)) ++ (y.shrs.map (fun _ => evAct .shrTransferComplete a)) ++
      (if y.rt.isSome then [Act.seq c, evAct .routineComplete a, evAct .matrixCommandComplete a] else []))

/-- Cellarers act on their queues, and commands that have come to their end complete. -/
def cmdActs (s : State) : List Act :=
  (tileList.filter (fun t => s.cmds.any (fun d => d.tile == t))).map Act.cq ++ s.cmds.map (fun d => evAct .commandComplete { id := d.id })

/-- The acts that follow the cores in a gt: kills reach the members that have issued in it (R333), the sending of pushes, engines that
take commands, the scheduler, records that wait. -/
def lateActs (s : State) : List Act :=
  let x : List Act := s.gangs.map (fun x => evAct .gangCompletion { gang := x.id, flag := true })
  let k : List Act := (ctxList s).flatMap (fun p =>
    let a : EvArg := { core := p.1, ctx := p.2 }
    [evAct .pushSend a, evAct .rcvSkewExpiry { core := p.1 }, evAct .faultRecordDelivery a, evAct .contextFree a])
  let e : List Act := tileList.flatMap (fun t =>
    if s.cmds.any (fun d => d.tile == t) then
      (fromTo 0 8).flatMap (fun i => [evAct .engineYield { tile := t, eng := Fin.ofNat 8 i }, evAct .engineTake { tile := t, eng := Fin.ofNat 8 i }])
    else [])
  let g : List Act := s.gangs.flatMap (fun x =>
    x.mems.filterMap (fun m => m.frec.map (fun _ => evAct .faultRecordDelivery { gang := x.id, core := m.core, flag := true })) ++
    [evAct .gangStopped { gang := x.id }, evAct .preemptionArrival { gang := x.id }] ++
    x.mems.map (fun m => evAct .windowMove { gang := x.id, core := m.core }) ++
    [evAct .gangReservationConfirm { gang := x.id }, evAct .xpkgWithdraw { gang := x.id }])
  let m : List Act := (coreList s).flatMap (fun c => [evAct .contextSwitch { core := c }, evAct .matrixCommandStart { core := c }])
  let t : List Act := tileList.map (fun t => evAct .tlbiComplete { tile := t })
  x ++ k ++ e ++ g ++ m ++ t

/-- The ends of gangs and their records (R333). -/
def endActs (s : State) : List Act :=
  s.gangs.map (fun x => evAct .gangCompletion { gang := x.id }) ++ s.fns.map (fun (p : Nat × Fn) => evAct .completionRecordDelivery { fn := p.1 })

/-- What samples the gt: triggers, tokens, and the Cellarers whose bundles do (R142, R334). -/
def sampleActs (s : State) : List Act :=
  .sample :: (ctxList s).map (fun p => evAct .twaitResume { core := p.1, ctx := p.2 }) ++ tileList.map Act.cellLate

/-- Acts whose time the spec leaves open, or that come from outside, and that may join a gt. -/
def Act.free (a : Act) : Bool :=
  match a with
  | .eng _ _ | .performWrite _ _ | .performReq _ _ _ | .performCell _ _ | .dropCopy _ _ | .dropTlb _ _ _ | .beginWalk _ _ _ _ => true
  | .hostRead _ _ | .readRecord | .dbgRead _ _ _ | .msixVec _ _ | .msixCtl _ _ | .sensor _ _ | .junction _ _ | .replayFrom _ => true
  | .ev i _ => outsideEvents.contains i
  | _ => false
where
  /-- The rows of the table that happen at times of their own. -/
  outsideEvents : List Instr :=
    [.packageReset, .selfTestComplete, .podJoin, .podReferenceLoss, .resultLanding, .memoryDataArrival, .atomicReturn,
     .redFaddFlagReturn, .pageWalkComplete, .contextSaveComplete, .contextRestoreComplete, .coreRetire, .blockFillComplete,
     .revokeZeroise, .launchSlotWrite, .peerPacket, .apertureRead, .apertureWrite, .cdoorbellWrite, .cstatRunWrite,
     .tscfgWrite, .registerWrite, .dbgHalt, .dbgResume, .dbgStep, .debugRegisterWrite, .replayConfigure, .encreate, .attest,
     .kemKeyPairGenerate, .keyest, .revoke, .grant, .endestroy, .pstate, .powerStateExit, .retry, .wavelengthRestore,
     .thermalTrip, .correctedError, .uncorrectableError, .scrubThrottleWindow, .scrubPassEnd, .laserBankFailure,
     .ringTuningLoss, .boundaryLinkDown, .boundaryLinkEstablish, .linkReplayRequest, .dataFlit, .reduceFlit, .hello, .ack,
     .nack, .stale, .credit]

/-- Where in a gt an act from outside comes: errors found (R268) and exits from C6 that fail (R360), launch slots (R330), engines,
peers' packets, the host's register accesses (R334), or at no place of its own. -/
def Act.when (a : Act) : Nat :=
  match a with
  | .eng _ _ => 2
  | .ev .uncorrectableError _ | .ev .powerStateExit _ => 0
  | .ev .resultLanding e => if e.flag then 0 else 3
  | .ev .launchSlotWrite _ => 1
  | .ev .peerPacket _ => 4
  | .ev .registerWrite _ | .hostRead _ _ => 5
  | _ => 3

/-- The port of a peer's packet (R330). -/
def Act.inPort (s : State) (a : Act) : Nat :=
  match a with
  | .ev _ e => (s.hnd e.handle).srcp
  | _ => 0

/-- Insert a peer's packet by its port. -/
def insPeer (s : State) (a : Act) : List Act → List Act
  | [] => [a]
  | b :: l => if b.inPort s ≤ a.inPort s then b :: insPeer s a l else a :: b :: l

/-- The acts of a gt, in their order (R242, R330, R334): the outside's choices are free (log 1). -/
def State.refill (s : State) : State :=
  let ins (n : Nat) := ((Config.inputs s.fresh).filter Act.free).filter (fun a => a.when = n)
  { s.bump with
    agenda := ins 0 ++ dueActs s ++ ins 1 ++ writeActs s ++ tileList.map Act.cell ++ ins 2 ++ cmdActs s ++ slotList.map Act.slot ++
      matrixActs s ++ (coreList s).map Act.stallEnd ++ [.loop] ++ (coreList s).map Act.core ++ lateActs s ++ ins 3 ++ [.recSems] ++
      endActs s ++ (ins 4).foldl (fun l a => insPeer s a l) [] ++ ins 5 ++ sampleActs s ++ [.tick] }

/-- The accesses due in a clock of the Loops take effect one after another, before anything else (R240-R242). -/
def State.loopAct (s : State) : State :=
  let (s1, l) := s.loopClock
  { s1 with agenda := l.map (fun a => evAct .loopAccessPerform { id := a.id }) ++ s1.agenda }

/-- The oldest committed write of a context: it performs when nothing holds it, and in any case by its time or that of a write behind
it (R255). One that would fault waits while a rerun pair of its context begins (R268). -/
def State.writeAct (s : State) (c : CoreId) (k : CtxId) : State :=
  if pairDue s c k && (s.ctx c k).wbuf.head?.any (beyondScratch s) then s
  else if dueWrites s c (s.ctx c k).wbuf = 0 then s.performWrite c k else s.forceWrite c k

/-- The triggers sample their semaphores, those that are met complete, and while the semaphores that these raise may meet others the
triggers sample again (R185, R334). -/
def State.sampleAct (s : State) : State :=
  let s1 := s.sampleTriggers
  let l := s1.cmds.filter triggerMet
  if l.isEmpty then s1
  else { s1 with agenda := l.map (fun d => evAct .commandComplete { id := d.id }) ++ .sample :: s1.agenda }

/-- One act. -/
def State.run (s : State) (a : Act) : Out :=
  match a with
  | .ev i arg => exec i { s with cur := .idle, arg := arg, abort := false }
  | .core c => s.coreAct c
  | .stallEnd c => s.stallEndAct c
  | .recSems => .next s.recSems
  | .sample => .next s.sampleAct
  | .cell t => s.cellAct t false
  | .cellLate t => s.cellAct t true
  | .seq c => s.seqAct c
  | .eng t e => s.runCmd (.eng t e)
  | .cq t => s.runCmd (.cell t)
  | .slot n => s.slotAct n
  | .loop => .next s.loopAct
  | .performWrite c k => .next (s.writeAct c k)
  | .performReq c k id => .next (s.performReq c k id true)
  | .performCell t id => .next (s.performCell t id)
  | .dropCopy t key =>
    .next (if (tilePins s t).any (fun p => p.1 == key) then s
      else s.updTile t (fun x => { x with copies := x.copies.filter (fun c => c.key != key) }))
  | .dropTlb t core n =>
    .next (match core with
      | none => s.updTile t (fun x => { x with tlb := x.tlb.eraseIdx n })
      | some c => s.updCore c (fun y => { y with tlb := y.tlb.eraseIdx n }))
  | .beginWalk t core asid va => .next (s.beginWalk t core asid va)
  | .hostRead r len => .next (s.hostRead r len)
  | .readRecord => .next (s.out (.data 0 s.stRec))
  | .dbgRead c k r => .next (s.dbgRead c k r)
  | .msixVec v mask => .next (s.msixVec v mask)
  | .msixCtl en mask => .next (s.msixCtl en mask)
  | .sensor t temp => .next (s.sensor t temp)
  | .junction t temp => .next (s.junction t temp)
  | .replayFrom gt => .next (s.replayFrom gt)
  | .tick => .next s.tick

/-- The next act of the machine: the first of the agenda, or the acts of the next gt. -/
def State.advanceAct (s : State) : Out :=
  match s.agenda with
  | [] => .next s.refill
  | a :: l => State.run { s with agenda := l } a

/-! ## An instruction placed where it runs next (log 6) -/

/-- Words as they lie in memory, the first at the lowest address, each little-endian (R3, R77). -/
def wordBytes (ws : List Nat) : List Byte := ws.flatMap (bytesOf 4)

/-- A page of a task that maps onto the first page of tile 0. -/
def firstPage (asid va : Nat) : TlbEnt :=
  { asid := asid, va := va / 4096 * 4096, size := 4096, pa := 0, key := 0, r := true, w := true, x := true }

/-- A bundle's words at the program counter of core 0, whose context runs, translated by its TLB. -/
def State.placeCore (s : State) (ws : List Nat) : State :=
  let k := (s.core 0).run.getD 0
  let x := s.ctx 0 k
  let s1 := s.updCtx 0 k (fun x => { x with st := .running, stall := none, reAt := none })
  let s2 := s1.updCore 0 (fun y =>
    { y with run := some k, halted := false, cycled := false, tlb := firstPage x.asid.toNat x.hart.pc :: y.tlb })
  { s2.putRaw (x.hart.pc % 4096) (wordBytes ws) with agenda := [.core 0], asidtab := s.asidtab ||| 1 }

/-- A bundle's words at the program counter of the Cellarer of tile 0, by physical address. -/
def State.placeCell (s : State) (ws : List Nat) : State :=
  let s1 := s.updCell 0 (fun x => { x with run := true, cycled := false, stall := none, casid := 0 })
  let late := match decodeBundle true ws with
    | .ok b => samples b
    | .error _ => false
  { s1.putRaw (s.cell 0).hart.pc (wordBytes ws) with agenda := [if late then .cellLate 0 else .cell 0] }

/-- A micro-op at word 0 of a window whose routine the sequencer of core 0 runs. -/
def State.placeMicro (s : State) (w : Nat) : State :=
  let m : MCmd := { id := s.fresh, ctx := 0, pc := 0, op := .mcall 0, prod := s.fresh, waits := [], mp := [], fr := 0 }
  let s1 := s.bump.updCtx 0 0 (fun x => { x with st := .running, msbase := 0, mslen := 4096 })
  { s1.updCore 0 (fun y => { y with mstore := mapSet y.mstore 0 (BitVec.ofNat 64 w), halted := false,
                                    rt := some { cmd := m, started := true } }) with agenda := [.seq 0] }

/-- A step record as the next step of program slot 0. -/
def State.placeStep (s : State) (w : Nat) : State :=
  let v := s.slot 0
  let s1 := s.updSlot 0 (fun v => { v with st := 1, wait := none, full := none, cycled := false })
  let s2 := s1.updTile v.tile (fun x => { x with tlb := firstPage v.asid (v.addrOf v.step) :: x.tlb })
  { s2.putRaw (v.addrOf v.step % 4096) (wordBytes (words32 4 w)) with agenda := [.slot 0], asidtab := s.asidtab ||| 1 }

/-- A command that engine 0 of tile 0 runs for its Cellarer, a CQ command in its queue. -/
def State.placeCmd (s : State) (w : Nat) : State :=
  let cq := w % 256 = 6
  let d : Cmd := { id := s.fresh, tile := 0, q := if cq then 2 else 1, owner := .cell 0, asid := (s.cell 0).casid.toNat, pc := 0,
                   taskid := 0, bytes := bytesOf 64 w, prod := s.fresh, waits := [], st := if cq then .queued else .running 0 }
  { s.bump with cmds := d :: s.cmds.filter (fun e => !(e.tile == 0 && (e.st == .running 0 || (e.q == 2 && e.st == .queued)))),
                agenda := if cq then [.cq 0] else [.eng 0 0] }

/-- An instruction stands where the machine takes its next one: up to 64 bits a bundle of a core, or of a Cellarer where only
that reads it, or a micro-op; up to 128 a step record; above, a command. -/
def State.placeWord (s : State) (nbits w : Nat) : State :=
  if nbits ≤ 64 then
    let ws := words32 2 w
    if (soleInstr (decodeBundle false ws)).isSome then s.placeCore ws
    else if (soleInstr (decodeBundle true ws)).isSome then s.placeCell ws
    else if (decodeMicro w).isSome then s.placeMicro w
    else s.placeCore ws
  else if nbits ≤ 128 then s.placeStep w
  else s.placeCmd w

end Sys2Proof.Machine
end

