-- ==== Sys2Proof/Machine/Step.lean ====
section
/-! DEFINITION. Machine/Step.lean: one step of the machine, its next act, and the placing of an instruction for it. -/

namespace Sys2Proof.Machine

/-- One step: the next act of the agenda, or the acts of the next gt. -/
def step (s : State) : Host.Outcome State Fault Refusal := s.advanceAct

/-- The state with one instruction where the machine takes its next one: a bundle of core 0, of the Cellarer of tile 0, a
micro-op, a step record or an engine command (log 6). -/
def State.withFetchWord (s : State) (nbits w : Nat) : State := s.placeWord nbits w

end Sys2Proof.Machine
end

