-- ==== Sys2Proof/Certificates/Slice0/Obligations.lean ====
section
/-! DEFINITION. Certificates/Slice0/Obligations.lean: what is claimed of the model, one definition per claim, after the readings
of the spec's formulas that the claims share. -/

namespace Sys2Proof.Claims

open Sys2Proof.Machine

/-! ## Readings of the spec's formulas -/

/-- signed(x) of R118: the low n bits as two's complement. -/
def sgn (n : Nat) (x : Word) : Int := Int.bmod x.toNat (2 ^ n)

/-- unsigned(x) of R118. -/
def uns (n : Nat) (x : Word) : Int := (x.toNat : Int) % 2 ^ n

/-- A result modulo 2^n, extended to 64 bits by its sign (Ext S of R117). -/
def extSg (n : Nat) (z : Int) : Word := BitVec.ofInt 64 (Int.bmod z (2 ^ n))

/-- A result modulo 2^n, extended with zeros (Ext Z of R117). -/
def extZr (n : Nat) (z : Int) : Word := BitVec.ofInt 64 (z % 2 ^ n)

/-- The outcome of an instruction whose only effect is one scalar result: sd := v, `lat` issue cycles on, poisoned when a
source that it reads is (R98, R116). -/
def sRes (s : State) (lat : Nat) (sd : Reg) (v : Word) (srcs : List Reg) : Out :=
  .next (s.setHart (s.hart.outS lat sd v (srcs.any s.hart.sPois)))

/-- The outcome of an instruction whose only effect is one predicate result, at latency 1: a poisoned source is the
late-arrival fault instead (R103, R116). -/
def bRes (s : State) (bd : BReg) (v : Bool) (srcs : List Reg) : Out :=
  .next (if srcs.any s.hart.sPois then s.raise { code := 0x07 } else s.setHart (s.hart.outB 1 bd v))

end Sys2Proof.Claims

open Sys2Proof Sys2Proof.Machine Sys2Proof.Claims


/-! ## Scalar instructions -/

/-- R99, R115-R118: the integer arithmetic, division and extremum operations give r, extended as the Ext column says, at
their latency, poisoned as R116 says, and nothing else. -/
def Sys2Proof.Claims.ArithmeticResults : Prop :=
  ∀ (s : State) (w : Width) (sd sa sb : Reg),
    let n := wid w
    let a := s.hart.rs sa
    let b := s.hart.rs sb
    exec (.add w sd sa sb) s = sRes s 1 sd (extSg n (uns n a + uns n b)) [sa, sb] ∧
    exec (.sub w sd sa sb) s = sRes s 1 sd (extSg n (uns n a - uns n b)) [sa, sb] ∧
    exec (.mul w sd sa sb) s = sRes s 3 sd (extSg n (uns n a * uns n b)) [sa, sb] ∧
    exec (.mulh w sd sa sb) s = sRes s 3 sd (extSg n (sgn n a * sgn n b / 2 ^ n)) [sa, sb] ∧
    exec (.mulhn w sd sa sb) s = sRes s 3 sd (extZr n (uns n a * uns n b / 2 ^ n)) [sa, sb] ∧
    exec (.div w sd sa sb) s =
      sRes s 12 sd (extSg n (if uns n b = 0 then -1 else Int.tdiv (sgn n a) (sgn n b))) [sa, sb] ∧
    exec (.divn w sd sa sb) s =
      sRes s 12 sd (extZr n (if uns n b = 0 then 2 ^ n - 1 else uns n a / uns n b)) [sa, sb] ∧
    exec (.rem w sd sa sb) s =
      sRes s 12 sd (extSg n (if uns n b = 0 then sgn n a else Int.tmod (sgn n a) (sgn n b))) [sa, sb] ∧
    exec (.remn w sd sa sb) s =
      sRes s 12 sd (extZr n (if uns n b = 0 then uns n a else uns n a % uns n b)) [sa, sb] ∧
    exec (.min w sd sa sb) s = sRes s 1 sd (extSg n (min (sgn n a) (sgn n b))) [sa, sb] ∧
    exec (.max w sd sa sb) s = sRes s 1 sd (extSg n (max (sgn n a) (sgn n b))) [sa, sb] ∧
    exec (.minn w sd sa sb) s = sRes s 1 sd (extZr n (min (uns n a) (uns n b))) [sa, sb] ∧
    exec (.maxn w sd sa sb) s = sRes s 1 sd (extZr n (max (uns n a) (uns n b))) [sa, sb]

/-- R117, R120: the logical, shift, count and extension operations on the low w bits, and `adds` and `mov` on 64. -/
def Sys2Proof.Claims.LogicAndShiftResults : Prop :=
  ∀ (s : State) (w : Width) (k : BitVec 2) (sd sa sb : Reg),
    let n := wid w
    let a := s.hart.rs sa
    let b := s.hart.rs sb
    let an : BitVec n := a.setWidth n
    let bn : BitVec n := b.setWidth n
    exec (.and w sd sa sb) s = sRes s 1 sd ((an &&& bn).setWidth 64) [sa, sb] ∧
    exec (.or w sd sa sb) s = sRes s 1 sd ((an ||| bn).setWidth 64) [sa, sb] ∧
    exec (.xor w sd sa sb) s = sRes s 1 sd ((an ^^^ bn).setWidth 64) [sa, sb] ∧
    exec (.andn w sd sa sb) s = sRes s 1 sd ((an &&& ~~~bn).setWidth 64) [sa, sb] ∧
    exec (.shl w sd sa sb) s = sRes s 1 sd ((an <<< (b.toNat % n)).setWidth 64) [sa, sb] ∧
    exec (.shr w sd sa sb) s = sRes s 1 sd ((an >>> (b.toNat % n)).setWidth 64) [sa, sb] ∧
    exec (.sar w sd sa sb) s = sRes s 1 sd ((an.sshiftRight (b.toNat % n)).signExtend 64) [sa, sb] ∧
    exec (.rol w sd sa sb) s = sRes s 1 sd ((an.rotateLeft (b.toNat % n)).setWidth 64) [sa, sb] ∧
    exec (.clz w sd sa) s = sRes s 1 sd (an.clz.setWidth 64) [sa] ∧
    exec (.ctz w sd sa) s = sRes s 1 sd (an.ctz.setWidth 64) [sa] ∧
    exec (.pop w sd sa) s = sRes s 1 sd (BitVec.ofNat 64 (((List.range n).filter (fun i => a.getLsbD i)).length)) [sa] ∧
    exec (.sxt w sd sa) s = sRes s 1 sd (an.signExtend 64) [sa] ∧
    exec (.zxt w sd sa) s = sRes s 1 sd (an.setWidth 64) [sa] ∧
    exec (.adds k sd sa sb) s = sRes s 1 sd (a + BitVec.ofNat 64 (b.toNat * 2 ^ k.toNat)) [sa, sb] ∧
    exec (.mov sd sa) s = sRes s 1 sd a [sa]

/-- R99, R115-R118, R120: the operations of integer arithmetic, division, extrema, logic, shifts, counts and extension give r at every
width, extended as the Ext column says, at their latency and poisoned as R116 says, and nothing else; so do `adds` and `mov` on 64 bits. -/
def Obligations.IntegerArithmeticResults : Prop := Claims.ArithmeticResults ∧ Claims.LogicAndShiftResults

/-- R119: `bext` and `bins` bit by bit, with position p := sb[5:0] and length min(sb[14:8], 64); `bins` reads sd too. -/
def Sys2Proof.Claims.FieldExtractAndInsertBits : Prop :=
  ∀ (s : State) (w : Width) (sd sa sb : Reg),
    let n := wid w
    let a := s.hart.rs sa
    let d := s.hart.rs sd
    let p := (s.hart.rs sb).toNat % 64
    let len := min ((s.hart.rs sb).toNat / 256 % 128) 64
    (∃ r : Word, exec (.bext w sd sa sb) s = sRes s 1 sd r [sa, sb] ∧
      ∀ i, i < 64 → r.getLsbD i = (decide (i < len ∧ i + p < n) && a.getLsbD (i + p))) ∧
    (∃ r : Word, exec (.bins w sd sa sb) s = sRes s 1 sd r [sd, sa, sb] ∧
      ∀ i, i < 64 → r.getLsbD i =
        if p ≤ i ∧ i < p + len ∧ i < n then a.getLsbD (i - p) else (decide (i < n) && d.getLsbD i))

/-- R121: the compares of registers at width w. -/
def Sys2Proof.Claims.CompareResults : Prop :=
  ∀ (s : State) (w : Width) (bd : BReg) (sa sb : Reg),
    let n := wid w
    let a := s.hart.rs sa
    let b := s.hart.rs sb
    exec (.cmpEq w bd sa sb) s = bRes s bd (decide (uns n a = uns n b)) [sa, sb] ∧
    exec (.cmpNe w bd sa sb) s = bRes s bd (decide (uns n a ≠ uns n b)) [sa, sb] ∧
    exec (.cmpLt w bd sa sb) s = bRes s bd (decide (sgn n a < sgn n b)) [sa, sb] ∧
    exec (.cmpLtn w bd sa sb) s = bRes s bd (decide (uns n a < uns n b)) [sa, sb] ∧
    exec (.cmpLe w bd sa sb) s = bRes s bd (decide (sgn n a ≤ sgn n b)) [sa, sb] ∧
    exec (.cmpLen w bd sa sb) s = bRes s bd (decide (uns n a ≤ uns n b)) [sa, sb]

/-- R122, R123: a `sel` whose condition fails gives no result at all; the predicate operations. -/
def Sys2Proof.Claims.SelectAndPredicateLogicResults : Prop :=
  ∀ (s : State) (sd sa : Reg) (bc bd ba bb : BReg),
    exec (.sel sd sa bc) s = (if s.hart.rb bc then sRes s 1 sd (s.hart.rs sa) [sa] else .next (s.setHart s.hart)) ∧
    exec (.selNot sd sa bc) s = (if s.hart.rb bc then .next (s.setHart s.hart) else sRes s 1 sd (s.hart.rs sa) [sa]) ∧
    exec (.bopAnd bd ba bb) s = bRes s bd (s.hart.rb ba && s.hart.rb bb) [] ∧
    exec (.bopOr bd ba bb) s = bRes s bd (s.hart.rb ba || s.hart.rb bb) [] ∧
    exec (.bopXor bd ba bb) s = bRes s bd (xor (s.hart.rb ba) (s.hart.rb bb)) [] ∧
    exec (.bopAndn bd ba bb) s = bRes s bd (s.hart.rb ba && !s.hart.rb bb) []

/-- R126: the immediate forms, on 64 bits modulo 2^64, the immediate sign-extended. -/
def Obligations.ImmediateFormResults : Prop :=
  ∀ (s : State) (sd sa : Reg) (bd : BReg) (imm : BitVec 32) (n : BitVec 6),
    let a := s.hart.rs sa
    let i : Word := imm.signExtend 64
    exec (.addi sd sa imm) s = sRes s 1 sd (BitVec.ofInt 64 (a.toInt + imm.toInt)) [sa] ∧
    exec (.andi sd sa imm) s = sRes s 1 sd (a &&& i) [sa] ∧
    exec (.ori sd sa imm) s = sRes s 1 sd (a ||| i) [sa] ∧
    exec (.xori sd sa imm) s = sRes s 1 sd (a ^^^ i) [sa] ∧
    exec (.shli sd sa n) s = sRes s 1 sd (BitVec.ofNat 64 (a.toNat * 2 ^ n.toNat)) [sa] ∧
    exec (.shri sd sa n) s = sRes s 1 sd (BitVec.ofNat 64 (a.toNat / 2 ^ n.toNat)) [sa] ∧
    exec (.sari sd sa n) s = sRes s 1 sd (BitVec.ofInt 64 (a.toInt / 2 ^ n.toNat)) [sa] ∧
    exec (.cmpiEq bd sa imm) s = bRes s bd (decide (a = i)) [sa] ∧
    exec (.cmpiLt bd sa imm) s = bRes s bd (decide (a.toInt < i.toInt)) [sa] ∧
    exec (.cmpiLtn bd sa imm) s = bRes s bd (decide (a.toNat < i.toNat)) [sa] ∧
    exec (.movi sd imm) s = sRes s 1 sd i [] ∧
    exec (.movh sd sa imm) s = sRes s 1 sd (BitVec.ofNat 64 (imm.toNat * 2 ^ 32 + a.toNat % 2 ^ 32)) [sa] ∧
    exec (.muli sd sa imm) s = sRes s 3 sd (BitVec.ofInt 64 (a.toInt * imm.toInt)) [sa] ∧
    exec (.addpc sd imm) s = sRes s 1 sd (BitVec.ofInt 64 (s.hart.bpc + imm.toInt)) []

/-- The magnitude of a pattern of a binary format of precision p, its sign bit taken off, in units of the least subnormal (R39). -/
def Sys2Proof.Claims.patMag (p bits : Nat) : Nat :=
  if bits / 2 ^ (p - 1) = 0 then bits else (bits % 2 ^ (p - 1) + 2 ^ (p - 1)) * 2 ^ (bits / 2 ^ (p - 1) - 1)

/-- R53: a magnitude rounded to a multiple of q; the mode is not SR. -/
def Sys2Proof.Claims.roundedAt (q : Nat) (mu : RM) (neg : Bool) (a : Nat) : Nat :=
  let t := a / q
  let r := a % q
  let up : Bool := match mu with
    | .rna => decide (q ≤ 2 * r)
    | .rtz => false
    | .rup => decide (0 < r) && !neg
    | .rdn => decide (0 < r) && neg
    | _ => decide (q < 2 * r) || (decide (2 * r = q) && decide (t % 2 = 1))
  (if up then t + 1 else t) * q

/-- R48, R53, R54, R62: the pattern of w bits, of precision p with infinities, is the value of sign neg and magnitude a, in units of
2^-lo of the least subnormal, rounded once at the spacing of R49, and these are its flags: inexact when it changes, underflow too
below the least normal number, and past the largest finite number overflow with inexact, the result that of the mode's column of R54.
-/
def Sys2Proof.Claims.RoundsTo (p w lo : Nat) (mu : RM) (neg : Bool) (a : Nat) (bits : Nat) (f : Fl) : Prop :=
  let m := roundedAt (2 ^ max (Nat.log2 a + 1 - p) lo) mu neg a
  let inf := (2 ^ (w - p) - 1) * 2 ^ (p - 1)
  let b := bits % 2 ^ (w - 1)
  bits / 2 ^ (w - 1) = (if neg then 1 else 0) ∧
  (m < patMag p inf * 2 ^ lo → b < inf ∧ patMag p b * 2 ^ lo = m ∧
    f = (if m = a then 0 else if m < 2 ^ (p - 1 + lo) then 24 else 16)) ∧
  (patMag p inf * 2 ^ lo ≤ m → f = 20 ∧
    b = (if mu = .rtz ∨ (mu = .rup ∧ neg = true) ∨ (mu = .rdn ∧ neg = false) then inf - 1 else inf))

/-- A pattern of f32 is a NaN, an infinity, or finite with a value in units of 2^-149 (R39). -/
def Sys2Proof.Claims.nanP (x : W32) : Bool := decide (0x7F800000 < x.toNat % 2 ^ 31)
def Sys2Proof.Claims.infP (x : W32) : Bool := decide (x.toNat % 2 ^ 31 = 0x7F800000)
def Sys2Proof.Claims.finP (x : W32) : Bool := decide (x.toNat % 2 ^ 31 < 0x7F800000)
def Sys2Proof.Claims.mag32 (x : W32) : Nat := patMag 24 (x.toNat % 2 ^ 31)
def Sys2Proof.Claims.val32 (x : W32) : Int := if x.getLsbD 31 then -(mag32 x : Int) else mag32 x

/-- R40, R124: z := x + y rounded once to f32, with the special cases. Flags: 1 invalid. -/
def Sys2Proof.Claims.SumsTo (mu : RM) (x y v : W32) (f : Fl) : Prop :=
  (nanP x = true ∨ nanP y = true → v = 0x7FC00000 ∧ f = 0) ∧
  (infP x = true → infP y = true → x ≠ y → v = 0x7FC00000 ∧ f = 1) ∧
  (infP x = true → nanP y = false → (infP y = true → x = y) → v = x ∧ f = 0) ∧
  (finP x = true → infP y = true → v = y ∧ f = 0) ∧
  (finP x = true → finP y = true →
    let z := val32 x + val32 y
    (z ≠ 0 → RoundsTo 24 32 0 mu (decide (z < 0)) z.natAbs v.toNat f) ∧
    (z = 0 → f = 0 ∧ v = (if (x.getLsbD 31 && y.getLsbD 31) || (xor (x.getLsbD 31) (y.getLsbD 31) && decide (mu = .rdn))
      then 0x80000000 else 0)))

/-- R40, R124: z := x × y rounded once to f32, with the special cases. -/
def Sys2Proof.Claims.MultipliesTo (mu : RM) (x y v : W32) (f : Fl) : Prop :=
  let neg := xor (x.getLsbD 31) (y.getLsbD 31)
  (nanP x = true ∨ nanP y = true → v = 0x7FC00000 ∧ f = 0) ∧
  (nanP x = false → nanP y = false → (infP x = true ∨ infP y = true) →
    (mag32 x = 0 ∨ mag32 y = 0 → v = 0x7FC00000 ∧ f = 1) ∧
    (mag32 x ≠ 0 → mag32 y ≠ 0 → v = (if neg then 0xFF800000 else 0x7F800000) ∧ f = 0)) ∧
  (finP x = true → finP y = true → RoundsTo 24 32 149 mu neg (mag32 x * mag32 y) v.toNat f)

/-- R53, R54, R125: the f32 x rounded once to a narrower format with infinities, of precision p and w bits, its least subnormal
2^lo units of 2^-149. -/
def Sys2Proof.Claims.NarrowsTo (p w lo : Nat) (mu : RM) (x : W32) (bits : Nat) (f : Fl) : Prop :=
  let inf := (2 ^ (w - p) - 1) * 2 ^ (p - 1)
  (nanP x = true → bits = inf + 2 ^ (p - 2) ∧ f = 0) ∧
  (infP x = true → bits = (if x.getLsbD 31 then 2 ^ (w - 1) else 0) + inf ∧ f = 0) ∧
  (finP x = true → RoundsTo p w lo mu (x.getLsbD 31) (mag32 x) bits f)

/-- R125: the f32 x rounded to an integer of 64 bits, saturated: NaN gives 0; beyond the range the flag is invalid alone, and
otherwise inexact when the value changes. -/
def Sys2Proof.Claims.IntegerOf (mu : RM) (x : W32) (z : Int) (f : Fl) : Prop :=
  let m := roundedAt (2 ^ 149) mu (x.getLsbD 31) (mag32 x)
  let r : Int := if x.getLsbD 31 then -(m / 2 ^ 149 : Nat) else (m / 2 ^ 149 : Nat)
  (nanP x = true → z = 0 ∧ f = 1) ∧
  (nanP x = false → infP x = true ∨ r < -2 ^ 63 ∨ 2 ^ 63 ≤ r →
    z = (if x.getLsbD 31 then -2 ^ 63 else 2 ^ 63 - 1) ∧ f = 1) ∧
  (finP x = true → -2 ^ 63 ≤ r → r < 2 ^ 63 → z = r ∧ f = (if m = mag32 x then 0 else 16))

/-- R124, R125: the scalar floating-point operations complete: each schedules one result at latency 4, the upper half of sd zero
where it is narrower than 64 bits, poisoned when a source is, with its flags in the field of the issuing slot unless it is poisoned.
The result is the exact sum, difference or product rounded once under FR.ARND, the integer converted under FR.ARND, and the f32
converted to bf16, f16 or an integer under FR.FRND, where SR acts as RNE; its flags are those that the rounding raises. -/
def Obligations.ScalarFloatResults : Prop :=
  ∀ (s : State) (sd sa sb : Reg),
    let h := s.hart
    let a : W32 := (h.rs sa).setWidth 32
    let b : W32 := (h.rs sb).setWidth 32
    let i := (h.rs sa).toInt
    let mu := RM.of (wbits h.fr 0 2)
    let rnd := (RM.of (wbits h.fr 2 3)).noSr
    let two := h.sPois sa || h.sPois sb
    let out (v : Word) (f : Fl) (p : Bool) : Out := .next (s.setHart (h.outSF 4 sd v p f))
    (∃ v f, exec (.fadds sd sa sb) s = out (v.setWidth 64) f two ∧ SumsTo mu a b v f) ∧
    (∃ v f, exec (.fsubs sd sa sb) s = out (v.setWidth 64) f two ∧ SumsTo mu a (b ^^^ 0x80000000) v f) ∧
    (∃ v f, exec (.fmuls sd sa sb) s = out (v.setWidth 64) f two ∧ MultipliesTo mu a b v f) ∧
    (∃ z f, exec (.fcvtsF2i sd sa) s = out (BitVec.ofInt 64 z) f (h.sPois sa) ∧ IntegerOf rnd a z f) ∧
    (∃ (v : W32) (f : Fl), exec (.fcvtsI2f sd sa) s = out (v.setWidth 64) f (h.sPois sa) ∧
      RoundsTo 24 32 0 mu (decide (i < 0)) (i.natAbs * 2 ^ 149) v.toNat f) ∧
    (∃ n f, exec (.fcvtsBf16 sd sa) s = out (BitVec.ofNat 64 n) f (h.sPois sa) ∧ NarrowsTo 8 16 16 rnd a n f) ∧
    (∃ n f, exec (.fcvtsF16 sd sa) s = out (BitVec.ofNat 64 n) f (h.sPois sa) ∧ NarrowsTo 11 16 125 rnd a n f)

/-! ## Special registers -/

/-- R128: `rdsr` of a context reads, at latency 1, the register that its index names; bits above its width read zero. -/
def Obligations.SpecialRegisterReads : Prop :=
  ∀ (s : State) (c : CoreId) (k : CtxId) (sd : Reg) (n : Fin 8), s.cur = .core c k →
    let x := s.ctx c k
    let rd (ix : Reg) (v : Word) : Prop := exec (.rdsr sd ix) s = sRes s 1 sd v []
    rd 0 (BitVec.ofNat 64 s.gt) ∧
    rd 1 (BitVec.ofNat 64 c.val) ∧
    rd 2 (BitVec.ofNat 64 k.val) ∧
    rd 3 x.taskid ∧
    rd 4 (x.asid.setWidth 64) ∧
    rd 5 (BitVec.ofNat 64 (((s.gang x.gang.toNat).map (·.eff)).getD 0 % 4)) ∧
    rd 6 x.gang ∧
    rd 7 (BitVec.ofNat 64 (x.reg.rrc % 16)) ∧
    rd 8 x.hart.fr ∧
    rd 9 x.hart.flags ∧
    rd 10 x.hart.fevt0 ∧
    rd 11 x.hart.fevt1 ∧
    rd 12 (BitVec.ofNat 64 (x.dqPop % 4096 * 4096 + x.dq.length % 4096)) ∧
    rd 13 (if x.strict then 1 else 0) ∧
    rd 14 (BitVec.ofNat 64 (caskUse x.cask)) ∧
    rd 15 (BitVec.ofNat 64 (struse s c k)) ∧
    rd (Fin.ofNat 64 (16 + n.val)) (mapGet 0 x.rkcfg n.val) ∧
    rd (Fin.ofNat 64 (24 + n.val)) (mapGet 0 x.rkptr n.val) ∧
    rd 32 (BitVec.ofNat 64 (x.etab % 64 * 2 ^ 32 + x.mslen % 8192 * 2 ^ 16 + x.msbase % 4096)) ∧
    rd 34 s.devrec ∧
    rd 35 x.arg

/-- R59, R60, R116, R129, R225: a clean `wrsr` of RRC or DQCNT changes nothing; of FR it is refused with the illegal-syllable
fault when it sets a reserved bit, FRND above 5 or DKIND above 12, and otherwise takes effect four issue cycles on, as `sfr`
does; of FLAGS, FEVT0, FEVT1 and ARG it is queued for the end of its bundle; of a rack register the use test and then the value
tests come first; of MSWIN, that the entry table lies in the window. A poisoned source is the late-arrival fault. -/
def Sys2Proof.Claims.SpecialRegisterWrites : Prop :=
  ∀ (s : State) (c : CoreId) (k : CtxId) (sb : Reg) (imm : BitVec 32) (n : Fin 8), s.cur = .core c k →
    let h := s.hart
    let v := h.rs sb
    let x := s.ctx c k
    let wr (ix : Reg) (o : State) : Prop :=
      exec (.wrsr ix sb) s = .next (if h.sPois sb then s.raise { code := 0x07 } else o)
    let queued (ix : Nat) : State := s.setHart { h with srq := h.srq ++ [(ix, v)] }
    let fr (w : Word) : State :=
      if 2 ^ 15 ≤ w.toNat ∨ 6 ≤ wbits w 2 3 ∨ 13 ≤ wbits w 5 4 then s.raise { code := 0x01 }
      else s.setHart { h with frq := h.frq ++ [(h.ic + 4, w)] }
    let rack (ix : Nat) (cfg ptr : Word) : State :=
      if !((s.core c).matrixOf k).isEmpty || rackFilling s c x n.val then s.raise { code := 0x0F, cause := 8 }
      else if rackBad cfg ptr then s.raise { code := 0x01 }
      else queued ix
    wr 7 (s.setHart h) ∧ wr 12 (s.setHart h) ∧
    wr 8 (fr v) ∧
    exec (.sfr (.reg sb)) s = .next (if h.sPois sb then s.raise { code := 0x07 } else fr v) ∧
    exec (.sfr (.imm imm)) s = .next (fr (imm.setWidth 64)) ∧
    wr 9 (queued 9) ∧ wr 10 (queued 10) ∧ wr 11 (queued 11) ∧ wr 35 (queued 35) ∧
    wr (Fin.ofNat 64 (16 + n.val)) (rack (16 + n.val) v (mapGet 0 x.rkptr n.val)) ∧
    wr (Fin.ofNat 64 (24 + n.val)) (rack (24 + n.val) (mapGet 0 x.rkcfg n.val) v) ∧
    wr 32 (if x.mslen < 64 * (v.toNat / 2 ^ 32 % 64) + 64 then s.raise { code := 0x01 } else queued 32)

/-- R4, R61, R63, R129, R220, R225: what a queued write does as it takes effect. A bit of FLAGS written as 1 is cleared;
nonzero values of reserved bits are ignored; nothing of the context changes but the register written and, for a rack pointer,
the checkpoint of its HEAD. -/
def Sys2Proof.Claims.QueuedRegisterWritesTakeEffect : Prop :=
  ∀ (x : Ctx) (v : Word) (n : Fin 8),
    x.applySr 9 v = { x with hart := { x.hart with flags := x.hart.flags &&& ~~~v } } ∧
    x.applySr 10 v = { x with hart := { x.hart with fevt0 := (v.setWidth 56).setWidth 64 } } ∧
    x.applySr 11 v = { x with hart := { x.hart with fevt1 := v &&& 0x8000000001FF00FF } } ∧
    x.applySr 32 v = { x with etab := v.toNat / 2 ^ 32 % 64 } ∧
    x.applySr 35 v = { x with arg := v } ∧
    (mapGet 0 (x.applySr (16 + n.val) v).rkcfg n.val = v &&& 0xFFFFFFFFFC007FFF ∧
      (∀ m, m ≠ n.val → mapGet 0 (x.applySr (16 + n.val) v).rkcfg m = mapGet 0 x.rkcfg m) ∧
      { x.applySr (16 + n.val) v with rkcfg := x.rkcfg } = x) ∧
    (mapGet 0 (x.applySr (24 + n.val) v).rkptr n.val = v ∧
      (∀ m, m ≠ n.val → mapGet 0 (x.applySr (24 + n.val) v).rkptr m = mapGet 0 x.rkptr m) ∧
      { x.applySr (24 + n.val) v with rkptr := x.rkptr, ck := x.ck } = x ∧
      { (x.applySr (24 + n.val) v).ck with rkptr := x.ck.rkptr } = x.ck ∧
      rkHead (mapGet 0 (x.applySr (24 + n.val) v).ck.rkptr n.val) = rkHead v)

/-! ## Results and where they land -/

/-- R103, R105: a register reads what was last written to it with its poison bit; s0 reads 0 and b0 reads true and a write to
them is discarded; every other register keeps its value. -/
def Sys2Proof.Claims.ScalarRegistersReadWhatWasWritten : Prop :=
  ∀ (h : Hart) (r q : Reg) (v : Word) (p : Bool) (b d : BReg) (u : Bool),
    h.rs 0 = 0 ∧ h.sPois 0 = false ∧ h.rb 0 = true ∧
    h.setS 0 v p = h ∧ h.setB 0 u = h ∧
    (r ≠ 0 → (h.setS r v p).rs r = v ∧ (h.setS r v p).sPois r = p) ∧
    (q ≠ r → (h.setS r v p).rs q = h.rs q ∧ (h.setS r v p).sPois q = h.sPois q) ∧
    (b ≠ 0 → (h.setB b u).rb b = u) ∧
    (d ≠ b → (h.setB b u).rb d = h.rb d)

/-- R98, R100: when the one result that a context has in flight is due with its data, it lands: its register takes the value
and the poison bit (s0 discards them), it is in flight no more, and every other scalar register keeps its own. -/
def Sys2Proof.Claims.DueScalarResultLands : Prop :=
  ∀ (x : Ctx) (gt ic : Nat) (p : Pend) (r q : Reg) (v : Word),
    x.hart.pend = [p] → p.dst = .s r → p.src = .have (.w v) → p.late = false → p.ic ≤ ic →
    let y := x.landDue gt ic (fun _ => false)
    y.hart.pend = [] ∧
    y.hart.rs r = (if r = 0 then 0 else v) ∧
    y.hart.sPois r = (if r = 0 then false else p.pois) ∧
    (q ≠ r → y.hart.rs q = x.hart.rs q ∧ y.hart.sPois q = x.hart.sPois q) ∧
    y.hart.b = x.hart.b ∧ y.v = x.v ∧ y.m = x.m ∧ y.mp = x.mp

/-- R100: a result whose issue cycle has not come stays in flight, and nothing lands. -/
def Sys2Proof.Claims.ResultsWaitForTheirCycle : Prop :=
  ∀ (x : Ctx) (gt ic : Nat), (∀ p ∈ x.hart.pend, p.late = false ∧ ic < p.ic) →
    let y := x.landDue gt ic (fun _ => false)
    y.hart.pend = x.hart.pend ∧ y.hart.s = x.hart.s ∧ y.hart.sp = x.hart.sp ∧ y.hart.b = x.hart.b ∧ y.v = x.v ∧ y.vp = x.vp ∧
      y.m = x.m ∧ y.hart.flags = x.hart.flags ∧ y.hart.fevt0 = x.hart.fevt0 ∧ y.hart.fevt1 = x.hart.fevt1


/-! ## Control -/

namespace Sys2Proof.Claims
open Sys2Proof.Machine

/-- The target A + 4 × disp, modulo 2^56 (R130, R131). -/
def branchTo (h : Hart) (disp : BitVec 32) : Nat := (((h.bpc : Int) + 4 * disp.toInt) % 2 ^ 56).toNat

/-- A branch taken in the bundle at issue (R132-R134): three delay bundles follow; of two taken in one bundle the second does
nothing, its link included; a branch in the shadow of an earlier bundle's is the branch-shadow fault. -/
def brTaken (s : State) (target : Nat) (link : Option Word) : Out :=
  match s.hart.redir with
  | none =>
    let h := { s.hart with redir := some (4, target) }
    .next (s.setHart (match link with
      | some a => h.outS 1 62 a false
      | none => h))
  | some (n, _) => .next (if n = 4 then s.setHart s.hart else s.raise { code := 0x0E })

/-- A branch to a register (R131): a poisoned source is late; bits 1:0 or 63:56 of the target are the access fault, cause 6. -/
def brReg (s : State) (r : Reg) (link : Option Word) : Out :=
  let v := (s.hart.rs r).toNat
  if s.hart.sPois r then .next (s.raise { code := 0x07 })
  else if v % 4 ≠ 0 ∨ 2 ^ 56 ≤ v then .next (s.raise { code := 0x05, cause := 6, addr := v })
  else brTaken s v link

end Sys2Proof.Claims

/-- R130-R135: when each branch is taken, where it goes and what it links. The link of a call is the address after its three
delay bundles; where their words cannot be fetched it is a free value (the model's choice, log 13). -/
def Sys2Proof.Claims.BranchesTakenAndLinked : Prop :=
  ∀ (s : State) (disp : BitVec 32) (b : BReg) (r : Reg),
    exec (.br disp) s = brTaken s (branchTo s.hart disp) none ∧
    exec (.brt b disp) s = (if s.hart.rb b then brTaken s (branchTo s.hart disp) none else .next (s.setHart s.hart)) ∧
    exec (.brf b disp) s = (if s.hart.rb b then .next (s.setHart s.hart) else brTaken s (branchTo s.hart disp) none) ∧
    exec (.jmp r) s = brReg s r none ∧
    exec .ret s = brReg s 62 none ∧
    (match linkOf s with
     | some a =>
       exec (.call disp) s = brTaken s (branchTo s.hart disp) (some (BitVec.ofNat 64 a)) ∧
       exec (.callr r) s = brReg s r (some (BitVec.ofNat 64 a))
     | none =>
       ∃ a : Word, exec (.call disp) s = brTaken s.bump (branchTo s.hart disp) (some a) ∧
         exec (.callr r) s = brReg s.bump r (some a)) ∧
    (∀ c k, s.cur = .core c k →
      exec (.chk false r disp) s =
        (if s.hart.sPois r then brTaken s (branchTo s.hart disp) none else .next (s.setHart s.hart)) ∧
      exec (.chk true r disp) s =
        (if (s.ctx c k).vPois r then brTaken s (branchTo s.hart disp) none else .next (s.setHart s.hart)))

/-- R132: after a taken branch the three bundles that follow in fall-through order issue, and then the target; with no branch
taken the next bundle follows. -/
def Sys2Proof.Claims.ThreeDelayBundlesThenTarget : Prop :=
  ∀ (h : Hart) (t l0 l1 l2 l3 : Nat), h.redir = some (4, t) →
    let go (h : Hart) (l : Nat) : Hart := { h.next with bpc := h.next.pc, blen := l }
    let h0 := { h with blen := l0 }
    let h1 := go h0 l1
    let h2 := go h1 l2
    let h3 := go h2 l3
    h1.pc = h.bpc + l0 ∧ h2.pc = h.bpc + l0 + l1 ∧ h3.pc = h.bpc + l0 + l1 + l2 ∧
    h3.next.pc = t ∧ h3.next.redir = none ∧
    ({ h0 with redir := none } : Hart).next.pc = h.bpc + l0


/-! ## Waiting, regions, faults -/

/-- R84, R85, R142-R144: the syllables that wait, and those that change nothing but the bundle's prefix. `twait` of a token that a push of
the open region feeds is the queue fault, cause 5. A `gbar` that its gang's tile has already passed only counts; the first to arrive
stalls at its number. A `wgt` whose time comes by the next gt does not stall. That a `twait` sees the tokens as its slot acts is the
model's reading (log 103). -/
def Obligations.WaitingSyllables : Prop :=
  ∀ (s : State) (sc : Scope) (ord : BitVec 2) (na : Bool) (t : TokSel) (r : Reg),
    exec .nop s = .next s ∧
    exec (.scopePrefix sc ord na) s = .next (s.setHart { s.hart with pfx := some { scope := sc, ord := ord, na := na } }) ∧
    exec (.twait t) s = .next
      (if ownPushToken s (selMask t) then s.raise { code := 0x0F, cause := 5 }
       else if (List.finRange 32).all (fun (i : Tok) => !(selMask t).getLsbD i.val || ((s.hart.tok i).armed && (s.hart.tok i).p == 0))
       then s else s.setStall (.twait (selMask t))) ∧
    exec (.wgt r) s = .next
      (if s.hart.sPois r then s.raise { code := 0x07 }
       else if (s.hart.rs r).toNat ≤ s.gt + 1 then s else s.setStall (.wgt (s.hart.rs r).toNat)) ∧
    (∀ c k g, s.cur = .core c k → s.gang (s.ctx c k).gang.toNat = some g →
      let n := (s.ctx c k).bar + 1
      exec .gbar s = .next
        (if n ≤ mapGet 0 g.bars (tileOf c).val then s.updCtx c k (fun y => { y with bar := n })
         else ((s.updCtx c k (fun y => { y with arrived := some n })).setStall (.gbar n)).barrierCheck (s.ctx c k).gang.toNat (tileOf c)))

/-- R137, R148, R254, R264: what a commit does to its context. The Cask joins the committed writes: with no store in it that
releases, the stores and then the reductions, each in issue order. FLAGS, FEVT, the racks, the accumulators, the deferral queue and the
barrier count are checkpointed; the latch is EMPTY; results in flight straddle at their offsets, and so do pushes of the deferral queue;
commands pushed form a batch behind the writes. No register changes. -/
def Sys2Proof.Claims.CommitReleasesStoresAndCheckpoints : Prop :=
  ∀ (x : Ctx) (gt : Nat) (loops : List Nat) (reg : Region),
    let y := x.commit gt loops reg
    let isSt (w : WEnt) : Bool := match w.op with
      | .st _ => true
      | _ => false
    let now (w : WEnt) : WEnt := { w with cgt := gt }
    (∃ ws : List WEnt, ws.Perm x.cask ∧ y.wbuf = x.wbuf ++ ws.map now ∧
      ((∀ w ∈ x.cask, isSt w = true → w.rel = none) → ws = x.cask.filter isSt ++ x.cask.filter (fun w => !isSt w)) ∧
      y.batches = (if x.pushes = [] then x.batches
        else x.batches ++ [{ pushes := x.pushes, writes := ws.map (·.id), loops := loops, ic := x.hart.ic }])) ∧
    y.cask = [] ∧ y.reg = reg ∧ y.pushes = [] ∧ y.latch = .empty ∧
    y.ck = { flags := x.hart.flags, fevt0 := x.hart.fevt0, fevt1 := x.hart.fevt1, rkcfg := x.rkcfg, rkptr := x.rkptr,
             acc0 := x.acc0, acc1 := x.acc1, dq := x.dq, bar := x.bar } ∧
    (∀ p ∈ y.hart.pend, p.strad = some (p.ic - reg.openIc)) ∧
    y.dqIn = x.dqIn.map (fun d => { d with comm := true, off := some (d.ic - reg.openIc) }) ∧ y.dqOld = [] ∧
    y.hart.s = x.hart.s ∧ y.hart.sp = x.hart.sp ∧ y.hart.b = x.hart.b ∧ y.hart.fr = x.hart.fr ∧ y.v = x.v ∧ y.m = x.m ∧
    y.mp = x.mp ∧ y.acc0 = x.acc0 ∧ y.acc1 = x.acc1 ∧ y.hart.tk = x.hart.tk

/-- R263, R233, R211, R264: what a discard restores and what it leaves. The next bundle is the region's entry; withheld stores and pushes
vanish, but for pushes of the deferral queue that straddled the commit, which the re-entry replays; FLAGS, FEVT, the accumulators, the
deferral queue, the barrier count and the rack configurations return to the checkpoint; scalar, vector, mask, predicate and parameter
registers, FR, ARG and the tokens stay as they are. -/
def Sys2Proof.Claims.DiscardRestoresTheCheckpoint : Prop :=
  ∀ (x : Ctx) (n : Fin 8),
    let y := x.discard
    y.hart.pc = x.reg.entry ∧ y.cask = [] ∧ y.pushes = [] ∧ y.stall = none ∧ y.stallK = none ∧ y.arrived = none ∧ y.hart.redir = none ∧
    y.hart.flags = x.ck.flags ∧ y.hart.fevt0 = x.ck.fevt0 ∧ y.hart.fevt1 = x.ck.fevt1 ∧
    y.acc0 = x.ck.acc0 ∧ y.acc1 = x.ck.acc1 ∧ y.dq = x.ck.dq ∧ y.bar = x.ck.bar ∧ y.rkcfg = x.ck.rkcfg ∧
    (x.reg.opened = true → y.dqIn = [] ∧ y.dqOld = x.dqOld ++ x.dqIn.filter (·.comm)) ∧
    rkHead (mapGet 0 y.rkptr n.val) = rkHead (mapGet 0 x.ck.rkptr n.val) ∧
    rkTail (mapGet 0 y.rkptr n.val) =
      (if (mapGet 0 x.ck.rkcfg n.val).getLsbD 26 then rkTail (mapGet 0 x.ck.rkptr n.val) else rkTail (mapGet 0 x.rkptr n.val)) ∧
    (∀ p ∈ y.hart.pend, p ∈ x.hart.pend ∧ p.strad ≠ none) ∧
    y.hart.s = x.hart.s ∧ y.hart.sp = x.hart.sp ∧ y.hart.b = x.hart.b ∧ y.v = x.v ∧ y.vp = x.vp ∧ y.m = x.m ∧ y.mp = x.mp ∧
    y.hart.fr = x.hart.fr ∧ y.arg = x.arg ∧ y.hart.tk = x.hart.tk ∧ y.wbuf = x.wbuf ∧ y.latch = x.latch

/-- R139, R285: the open region of a task may commit: it is in no rerun pair, or at the end of its second attempt, which agrees with
the first in its cycles and its signature. -/
def Sys2Proof.Claims.mayCommit (s : State) (c : CoreId) (k : CtxId) : Prop :=
  match (s.ctx c k).rerun with
  | none => True
  | some r => r.second = true ∧ r.aCyc = (s.core c).ic - (s.ctx c k).reg.openIc ∧ r.aCrc = r.flush.crc

/-- R31: the task has offered its core with `yield`, and a ready gang of its effective priority or above takes it. -/
def Sys2Proof.Claims.yields (s : State) (c : CoreId) (k : CtxId) : Prop :=
  (s.ctx c k).reg.yield = true ∧ (readyOn s c).any (fun g => decide (g.eff ≤ effAt s c k)) = true

/-- R31, R37, R136, R139, R148, R285: the syllables of regions, outside the shadow of a branch, of a task whose core holds three
contexts. `rgnc` commits when at most 64 counted results would straddle and stalls otherwise, and the bundle after it opens an
anonymous region. `rgn` opens a region at its own bundle, after a commit or, on re-entry, without one; `end` commits and ends the task;
`yield` marks the region. After the commit of `rgn` or `rgnc` a task that a stop has reached, or whose offer is taken, is ready at the
bundle that comes next and its core runs it no more. Where a rerun pair does not let the region commit, its first attempt is discarded
and the second begins, and two attempts that differ retire the core, whose task is ready at the region and issues no more. -/
def Sys2Proof.Claims.RegionSyllables : Prop :=
  ∀ (s : State) (c : CoreId) (k : CtxId) (cm : BitVec 10) (bl : BitVec 4),
    s.cur = .core c k → (s.core c).ctxs.length = 3 → s.hart.redir = none →
    let x := s.ctx c k
    let nextPc := x.hart.bpc + x.hart.blen
    let goes := Claims.mayCommit s c k
    let leaves := x.stopAtCommit = true ∨ Claims.yields s c k
    let committed (u : State) : Prop := (u.ctx c k).cask = [] ∧
      (u.ctx c k).wbuf = x.wbuf ++ (caskOrder x.cask).map (fun w => { w with cgt := s.gt }) ∧ (u.ctx c k).ck = x.checkpoint ∧
      (u.ctx c k).rerun = none ∧ (u.ctx c k).hart.s = x.hart.s ∧ u.mem = s.mem
    let left (u : State) : Prop := (u.ctx c k).st = .ready ∧ (u.core c).run ≠ some k
    let out (t u : State) : Prop := t = u ∨ t = u.stopGang x.gang.toNat
    let pair (i : Instr) : Prop := ∀ r, x.rerun = some r →
      (r.second = false → ∃ q : Rerun, q.second = true ∧ q.aCyc = (s.core c).ic - x.reg.openIc ∧ q.aCrc = r.flush.crc ∧
        exec i s = .next { ((s.discard c k).updCtx c k (fun y => { y with rerun := some q })).reenter c k with abort := true }) ∧
      (r.second = true → ¬ goes →
        exec i s = .next { (((s.discard c k).updCtx c k (fun y => { y with rerun := none })).leave c k .ready).retireCore c with abort := true })
    (strAfter s c k ≤ 64 → goes →
      ∃ t u, exec .rgnc s = .next t ∧ out t u ∧ committed u ∧ u.abort = s.abort ∧ (u.ctx c k).hart.pc = nextPc ∧
        (u.ctx c k).reg.anon = true ∧ (u.ctx c k).reg.entry = nextPc ∧ (u.ctx c k).reg.rrc = 0 ∧
        (leaves → left u) ∧ (¬ leaves → t = u ∧ (u.core c).run = (s.core c).run)) ∧
    (64 < strAfter s c k → exec .rgnc s = .next (s.setStall .commit)) ∧
    (strAfter s c k ≤ 64 → pair .rgnc) ∧
    (x.reg.fresh = true → x.reg.anon = false →
      ∃ t, exec (.rgn cm bl) s = .next t ∧ t = s.updCtx c k (fun y => { y with
        reg := { y.reg with fresh := false, opened := true, cnt := 1, openIc := (s.core c).ic } })) ∧
    ((x.reg.fresh = false ∨ x.reg.anon = true) →
      (strAfter s c k ≤ 64 → goes →
        ∃ t u, exec (.rgn cm bl) s = .next t ∧ committed u ∧ (u.ctx c k).reg.entry = x.hart.bpc ∧ (u.ctx c k).reg.anon = false ∧
          (u.ctx c k).reg.caskmax = cm.toNat ∧ (u.ctx c k).reg.blim = bl.toNat ∧ (u.ctx c k).reg.rrc = 0 ∧
          (leaves → left u ∧ (u.ctx c k).reg.cnt = 0 ∧ (t = { u with abort := true } ∨ t = { u.stopGang x.gang.toNat with abort := true })) ∧
          (¬ leaves → t = u ∧ (u.ctx c k).reg.cnt = 1 ∧ (u.core c).run = (s.core c).run ∧ u.abort = s.abort)) ∧
      (64 < strAfter s c k → exec (.rgn cm bl) s = .next { s.setStall .rgn with abort := true }) ∧
      (strAfter s c k ≤ 64 → pair (.rgn cm bl))) ∧
    (goes → ∃ t, exec .endTask s = .next t ∧ (t.ctx c k).st = .ended ∧ (t.ctx c k).cask = [] ∧
      (t.ctx c k).wbuf = x.wbuf ++ (caskOrder x.cask).map (fun w => { w with cgt := s.gt }) ∧ (t.core c).run ≠ some k ∧ t.mem = s.mem) ∧
    pair .endTask ∧
    exec .yieldCore s = .next (s.setCtx c k { x with reg := { x.reg with yield := true } })

/-- R133: in the shadow of a taken branch `rgn` and `rgnc` are the branch-shadow fault, and so is `end` when the branch was taken
before its bundle; the branch of its own bundle is ignored. -/
def Sys2Proof.Claims.RegionEdgesInABranchShadow : Prop :=
  ∀ (s : State) (c : CoreId) (k : CtxId) (cm : BitVec 10) (bl : BitVec 4) (n tgt : Nat), s.cur = .core c k →
    (s.core c).ctxs.length = 3 → s.hart.redir = some (n, tgt) →
    exec .rgnc s = .next (s.raise { code := 0x0E }) ∧
    exec (.rgn cm bl) s = .next (s.raise { code := 0x0E }) ∧
    (n < 4 → exec .endTask s = .next (s.raise { code := 0x0E })) ∧
    (4 ≤ n → exec .endTask s = exec .endTask (s.setHart s.hart.dropLink))

/-- R147, R149, R80, R81: the instructions whose effect is an exception. `trap` raises the user fault with its code as DETAIL;
`brk` the breakpoint fault, unless the debugger suppresses it once; a bundle that decodes to none the illegal-bundle fault, and a
syllable that does the illegal-syllable or the privilege fault of its slot. -/
def Obligations.ExceptionSyllables : Prop :=
  ∀ (s : State) (c : CoreId) (k : CtxId) (code : BitVec 16) (n : Nat), s.cur = .core c k →
    let x := s.ctx c k
    let sl := s.setCtx c k { x with hart := { x.hart with slot := n } }
    let take (u : State) (slot : Nat) (t : Trap) : Out := .next { u.coreFault c k slot x.hart.bpc t with abort := true }
    exec (.trap code) s = take s x.hart.slot { code := 0x13, detail := code.setWidth 64 } ∧
    (x.brkSkip = false → exec .brk s = take s x.hart.slot { code := 0x14 }) ∧
    (x.brkSkip = true → exec .brk s = .next (s.setCtx c k { x with brkSkip := false })) ∧
    exec (.unassigned .illegalBundle) s = take s 0xFF { code := 0x02 } ∧
    ((s.core c).ctxs.length = 3 →
      exec (.unassigned (.illegalSyllable n)) s = take sl n { code := 0x01 } ∧
      exec (.unassigned (.privilege n)) s = take sl n { code := 0x03 })

/-- R265-R267, R269, R289, R355: what taking a fault does, by its disposition, outside a rerun pair. Late arrivals and timing faults
discard and re-enter; a translation fault discards and parks the task, and its core runs it no more; a breakpoint parks it in place, or
once a stop has reached the task discards and parks it; a shadow divergence or an uncorrectable error discards and starts a pair; every
other fault ends the task, unless its core is halted and the discard waits, and kills its gang with status FAULT. The record carries the
code, disposition, slot, core, ASID, TASKID, gang, bundle address, gt, re-entry count, cause and detail; that those of re-entries and
pairs go out, and are dropped at a full ring, is the model's choice (log 94). -/
def Sys2Proof.Claims.FaultDispositions : Prop :=
  ∀ (s : State) (c : CoreId) (k : CtxId) (slot pc : Nat) (t : Trap), (s.ctx c k).rerun = none →
    let x := s.ctx c k
    let r (disp flg : Nat) : FRec :=
      mkRec t.code disp slot flg c.val x.asid.toNat x.taskid x.gang pc t.addr s.gt x.reg.rrc t.cause t.detail
    let undone (disp : Nat) : State :=
      if x.reg.rrc = 8 then s.discard c k else (s.discard c k).report (tileOf c) false (r disp t.flg)
    let parked : State :=
      ((((s.discard c k).updCtx c k (·.pairAgain)).stopLoops c k).updCtx c k
        (fun y => { y with st := .parked, stopAtCommit := false, stall := none, stallK := none })).updCore c
        (fun y => { y with run := if y.run = some k then none else y.run })
    ((t.code = 0x07 ∨ t.code = 0x08) →
      s.coreFault c k slot pc t = ((undone 0).updCtx c k (·.pairAgain)).reenter c k) ∧
    (t.code = 0x04 → s.coreFault c k slot pc t = parked.recOrWait c k (r 1 t.flg) none) ∧
    (t.code = 0x14 →
      s.coreFault c k slot pc t =
        (if x.stopAtCommit then parked else (s.stopLoops c k).updCtx c k (fun y => { y with st := .parkedPlace })).recOrWait c k (r 2 t.flg) none) ∧
    (t.code = 0x09 → s.coreFault c k slot pc t = (undone 3).startPair c k pc 256) ∧
    (t.code = 0x0A → s.coreFault c k slot pc t = (undone 3).startPair c k pc slot) ∧
    (t.code ∈ [0x01, 0x02, 0x03, 0x05, 0x06, 0x0B, 0x0C, 0x0D, 0x0E, 0x0F, 0x10, 0x11, 0x12, 0x13, 0x15] →
      s.coreFault c k slot pc t =
        ((if (s.core c).halted then s else (s.discard c k).endCtx c k false).recOrWait c k (r 4 t.flg) none).killGang x.gang.toNat 1 t.code)

/-- R265, R267: a re-entry counts one more and issues no sooner than 8 gt later; the ninth is the region-livelock fault. -/
def Sys2Proof.Claims.ReentryCountsAndLivelocks : Prop :=
  ∀ (s : State) (c : CoreId) (k : CtxId), (s.core c).ctxs.length = 3 →
    let x := s.ctx c k
    (x.reg.rrc ≠ 8 →
      ((s.reenter c k).ctx c k).reg.rrc = x.reg.rrc + 1 ∧ ((s.reenter c k).ctx c k).reAt = some (s.gt + 8) ∧
      (s.reenter c k).mem = s.mem) ∧
    (x.reg.rrc = 8 →
      s.reenter c k = s.taskFault c k (mkRec 0x0D 4 0xFF (if x.rerun.isSome then 4 else 0) c.val x.asid.toNat x.taskid x.gang
        x.hart.bpc 0 s.gt 8 0 0) none)


/-! ## Memory instructions -/

/-- R88, R154: where a scalar load goes, over the instruction forms. -/
def Sys2Proof.Claims.scalarLoads (d : Reg) (f : LdF) : List (Instr × Nat × Bool) :=
  [(.ld8 d f, 1, true), (.ld8n d f, 1, false), (.ld16 d f, 2, true), (.ld16n d f, 2, false), (.ld32 d f, 4, true),
   (.ld32n d f, 4, false), (.ld64 d f, 8, true)]

/-- The scalar stores with their bytes. -/
def Sys2Proof.Claims.scalarStores (d : Reg) (f : StF) : List (Instr × Nat) :=
  [(.st8 d f, 1), (.st16 d f, 2), (.st32 d f, 4), (.st64 d f, 8)]

/-- A load's form (R156, R157): `.w` prevails. -/
def Sys2Proof.Claims.form (sp wt : Bool) : LdForm := if wt then .wt else if sp then .sp else .plain

/-- The promised latency of each LAT code (R99). -/
def Sys2Proof.Claims.latency (l : BitVec 3) : Nat := [32, 64, 128, 256, 384, 512, 768, 1024].getD l.toNat 0

/-- R152: the Loop that a Loop access names: the own one, or through the cluster window that of core `n` of the cluster; and where its
window begins. -/
def Sys2Proof.Claims.loopOf (c : CoreId) (w : Option (Fin 8)) : CoreId × Nat :=
  match w with
  | none => (c, 0xFE * 2 ^ 56)
  | some n => (Fin.ofNat 512 (c.val / 8 * 8 + n.val), 0xFD * 2 ^ 56 + n.val * 2 ^ 21)

/-- R239: the footprint admits bytes of a Loop: the task's own there, or that of its gang on a core where a member of it runs. -/
def Sys2Proof.Claims.admitted (s : State) (c : CoreId) (x : Ctx) (target : CoreId) (off len : Nat) : Prop :=
  if target = c then x.fpUnit * 65536 ≤ off ∧ off + len ≤ (x.fpUnit + x.fpCnt) * 65536
  else ∃ g, s.gang x.gang.toNat = some g ∧ (∃ m ∈ g.mems, m.core = target ∧ m.here = true) ∧
    pktFpUnit g.pkt * 65536 ≤ off ∧ off + len ≤ (pktFpUnit g.pkt + pktFpCnt g.pkt) * 65536

/-- R152-R154, R239, R240: a scalar load of a task whose address lies in its own Loop or in the cluster window, aligned and inside the
footprint, is issued: in the own Loop it performs three issue cycles on and in the cluster window ten, at its bytes and its track, and its
result, sign- or zero-extended as the form says, lands at latency 6 or 14. Nothing else of the state changes. -/
def Sys2Proof.Claims.LoopScalarLoadsIssue : Prop :=
  ∀ (s : State) (c : CoreId) (k : CtxId) (d : Reg) (f : LdF) (w : Option (Fin 8)) (off : Nat), s.cur = .core c k →
    let x := s.ctx c k
    let ea := (x.hart.rs f.base + f.off.signExtend 64).toNat
    let to_ := (Claims.loopOf c w).1
    let far := if w.isNone then 3 else 10
    let lag := if w.isNone then 3 else 4
    x.hart.sPois f.base = false → ea = (Claims.loopOf c w).2 + off → off < 2 ^ 21 →
    ∀ p ∈ scalarLoads d f, off % p.2.1 = 0 → off + p.2.1 ≤ 2 ^ 21 → Claims.admitted s c x to_ off p.2.1 →
      let seg : List Seg := [{ key := 2 ^ 52 + to_.val * 2 ^ 21 + off, len := p.2.1 }]
      exec p.1 s = .next
        { s.setCtx c k { x with
            hart := x.hart.emit (far + lag) (.s d) (.wait s.fresh (.sc p.2.1 p.2.2)) false (Claims.form f.sp f.wt) [],
            reqs := x.reqs ++ [{ id := s.fresh, segs := seg, acq := acqScope s x.hart, sure := w.isNone }] } with
          loopq := s.loopq ++ [{ id := s.fresh, core := c, ctx := k, slot := x.hart.slot, ic := some (x.hart.ic + far), target := to_,
                                 own := w.isNone, tracks := 1#16 <<< f.trk.toNat, clocks := 1, segs := seg, wr := none,
                                 req := some s.fresh, lag := lag, pc := x.hart.bpc }],
          fresh := s.fresh + 1 }

/-- R152-R157: a scalar load of a task in the global window whose address translates for reading is issued: its request goes out
with its bytes' pieces and what the task's own stores supply, and its result lands at the promised latency; the TLBs gain the
entries used. Where the access faults, the `.s` form gives poison at its promised cycle and the others raise the fault. When the access
performs is free (log 57). -/
def Obligations.GlobalScalarLoadsIssue : Prop :=
  ∀ (s : State) (c : CoreId) (k : CtxId) (d : Reg) (f : LdF), s.cur = .core c k →
    let x := s.ctx c k
    let ea := (x.hart.rs f.base + f.off.signExtend 64).toNat
    x.hart.sPois f.base = false → ea < 2 ^ 56 →
    ∀ p ∈ scalarLoads d f, ea % p.2.1 = 0 → ea + p.2.1 ≤ 2 ^ 56 →
      match xlateSegs s true (tileOf c) (some c) x.asid.toNat .read 2 ea p.2.1 with
      | .ok (segs, ents) =>
        let s1 := s.fillTlbs (tileOf c) (some c) ents
        let y := s1.ctx c k
        exec p.1 s = .next
          { s1.setCtx c k { y with
              hart := y.hart.emit (latency f.lat) (.s d) (.wait s.fresh (.sc p.2.1 p.2.2)) false (Claims.form f.sp f.wt) [],
              reqs := y.reqs ++ [{ id := s.fresh, segs := segs, fwd := forwardOf (x.wbuf ++ x.cask) segs,
                                   acq := acqScope s x.hart, na := x.hart.na, barR := max x.acqRet x.acqPkg, barP := x.acqPkg }] } with
            fresh := s.fresh + 1 }
      | .error e =>
        exec p.1 s = .next
          (if f.sp = true ∧ f.wt = false then
             s.setCtx c k { x with hart := x.hart.emit (latency f.lat) (.s d) .poison true .sp [] }
           else s.raise { code := e.code, cause := e.cause, detail := e.detail, addr := e.addr })

/-- R103, R116, R152, R153, R156, R279: when a scalar load or store of a task faults before it is translated. A poisoned base, or a
poisoned datum of a store, is late; an address in no window is cause 0 of the access fault, a misaligned one of the global window
cause 1, bytes of the own Loop outside the footprint cause 5. A `.s` load without `.w` gives poison instead of the access fault, at
latency 6 in the Loop and at that of its LAT code otherwise; in no window that latency is the model's choice (log 67). -/
def Obligations.ScalarAccessFaults : Prop :=
  ∀ (s : State) (c : CoreId) (k : CtxId) (d : Reg) (f : LdF) (g : StF), s.cur = .core c k →
    let x := s.ctx c k
    let ea := (x.hart.rs f.base + f.off.signExtend 64).toNat
    let eb := (x.hart.rs g.base + g.off.signExtend 64).toNat
    let nowhere (a : Nat) : Prop := a / 2 ^ 56 ≠ 0 ∧ a / 2 ^ 56 ≠ 0xFD ∧ a / 2 ^ 56 ≠ 0xFE
    let outside (off n : Nat) : Prop :=
      off + n ≤ 2 ^ 21 ∧ (off < x.fpUnit * 65536 ∨ (x.fpUnit + x.fpCnt) * 65536 < off + n)
    let fault (a cause : Nat) : Out := .next (s.raise { code := 0x05, cause := cause, addr := a })
    let poison (lat : Nat) : Out := .next (s.setCtx c k { x with hart := x.hart.emit lat (.s d) .poison true .sp [] })
    let load (i : Instr) (cause lat : Nat) : Prop :=
      exec i s = (if f.sp = true ∧ f.wt = false then poison lat else fault ea cause)
    (∀ p ∈ scalarLoads d f,
      (x.hart.sPois f.base = true → exec p.1 s = .next (s.raise { code := 0x07 })) ∧
      (x.hart.sPois f.base = false →
        (nowhere ea → load p.1 0 (latency f.lat)) ∧
        (ea < 2 ^ 56 → ea + p.2.1 ≤ 2 ^ 56 → ea % p.2.1 ≠ 0 → load p.1 1 (latency f.lat)) ∧
        (∀ off, ea = 0xFE * 2 ^ 56 + off → ea % p.2.1 = 0 → outside off p.2.1 → load p.1 5 6))) ∧
    (∀ p ∈ scalarStores d g,
      (x.hart.sPois g.base = true ∨ x.hart.sPois d = true → exec p.1 s = .next (s.raise { code := 0x07 })) ∧
      (x.hart.sPois g.base = false → x.hart.sPois d = false →
        (nowhere eb → exec p.1 s = fault eb 0) ∧
        (eb < 2 ^ 56 → eb + p.2 ≤ 2 ^ 56 → eb % p.2 ≠ 0 → exec p.1 s = fault eb 1) ∧
        (∀ off, eb = 0xFE * 2 ^ 56 + off → eb % p.2 = 0 → outside off p.2 → exec p.1 s = fault eb 5)))

/-- R240, R251, R254: a store to a place in the own Loop, or in the cluster window: it is to perform three issue cycles on, or ten, with
its bytes, on its tracks; one that releases is held until the commit, and is the illegal-syllable fault in a bundle without `rgnc` or
`end`. The commands that its bundle commits wait for it. -/
def Sys2Proof.Claims.loopStored (s : State) (c : CoreId) (k : CtxId) (w : Option (Fin 8)) (tracks : BitVec 16) (off : Nat)
    (bs : List Byte) (g : Ctx → Ctx) : Out :=
  let x := s.ctx c k
  let rel := relScope s x.hart
  let to_ := (Claims.loopOf c w).1
  if rel.isNone || x.hart.closes then
    .next ((({ s with
      loopq := s.loopq ++ [{ id := s.fresh, core := c, ctx := k, slot := x.hart.slot, pc := x.hart.bpc,
                             ic := some (x.hart.ic + if w.isNone then 3 else 10),
                             target := to_, own := w.isNone, tracks := tracks, clocks := (bs.length + 511) / 512,
                             segs := [{ key := 2 ^ 52 + to_.val * 2 ^ 21 + off, len := bs.length }], wr := some bs, req := none, lag := 0,
                             scope := rel, held := rel.isSome }],
      fresh := s.fresh + 1 } : State).updCtx c k (fun y => { y with
        batches := mapWhere (fun b => b.ic == y.hart.ic) (fun b => { b with loops := b.loops ++ [s.fresh] }) y.batches })).updCtx c k g)
  else .next (s.raise { code := 0x01 })

/-- R159, R160: a write that is withheld: the Cask takes it within CASKMAX lines, and past them it is the Cask-overflow fault. -/
def Sys2Proof.Claims.withheld (s : State) (c : CoreId) (k : CtxId) (segs : List Seg) (ents : List TlbEnt) (va : Nat) (op : WOp)
    (rel : Option Scope) (g : Ctx → Ctx) : Out :=
  let x := s.ctx c k
  let w : WEnt := { id := s.fresh, segs := segs, va := va, op := op, rel := wider rel x.relF, pc := x.hart.bpc, slot := x.hart.slot,
                    na := x.hart.na }
  let s1 := s.fillTlbs (tileOf c) (some c) ents
  if caskUse (x.cask ++ [w]) ≤ x.reg.caskmax then
    .next { s1.updCtx c k (fun y => g { y with cask := y.cask ++ [w] }) with fresh := s1.fresh + 1 }
  else .next (s.raise { code := 0x0B })

/-- R159, R160, R240, R251: a scalar store of a task with a clean base and datum. In its own Loop or in the cluster window, aligned and
inside the footprint, it is to perform three or ten issue cycles on, under its prefix. In the global window, where it translates for
writing, it is withheld in the Cask. In a rerun pair its address and bytes join the event stream. -/
def Obligations.ScalarStoresIssue : Prop :=
  ∀ (s : State) (c : CoreId) (k : CtxId) (d : Reg) (f : StF), s.cur = .core c k →
    let x := s.ctx c k
    let ea := (x.hart.rs f.base + f.off.signExtend 64).toNat
    x.hart.sPois f.base = false → x.hart.sPois d = false →
    ∀ p ∈ scalarStores d f, ea % p.2 = 0 →
      let bs := bytesOf p.2 (x.hart.rs d).toNat
      let g (y : Ctx) : Ctx := y.event (bytesOf 8 ea ++ bs)
      (∀ w off, ea = (Claims.loopOf c w).2 + off → off + p.2 ≤ 2 ^ 21 → Claims.admitted s c x (Claims.loopOf c w).1 off p.2 →
        exec p.1 s = Claims.loopStored s c k w (1#16 <<< f.trk.toNat) off bs g) ∧
      (ea + p.2 ≤ 2 ^ 56 → ∀ segs ents,
        xlateSegs s true (tileOf c) (some c) x.asid.toNat .write 2 ea p.2 = .ok (segs, ents) →
        exec p.1 s = Claims.withheld s c k segs ents ea (.st bs) (relScope s x.hart) g)

/-- R321: a Cellarer's scalar loads and stores. A load waits for its data like a `.w` load; a store performs at once: the bytes at
its pieces become those of the register, little-endian. A misaligned address is cause 1 of the access fault. That a Cellarer's store
performs as it issues is the model's reading (log 10). -/
def Obligations.CellarerLoadsAndStores : Prop :=
  ∀ (s : State) (t : TileId) (d : Reg) (f : LdF) (g : StF), s.cur = .cell t →
    let h := (s.cell t).hart
    let ea := (h.rs f.base + f.off.signExtend 64).toNat
    let eb := (h.rs g.base + g.off.signExtend 64).toNat
    (h.sPois f.base = false → ∀ p ∈ scalarLoads d f,
      (ea % p.2.1 ≠ 0 → exec p.1 s = .next (s.raise { code := 0x05, cause := 1, addr := ea })) ∧
      (ea % p.2.1 = 0 → ∀ segs ents, cellSegs s t ea p.2.1 .read = .ok (segs, ents) →
        let s1 := s.fillTlbs t none ents
        let x := s1.cell t
        exec p.1 s = .next
          { s1.setCell t { x with
              hart := x.hart.emit (latency f.lat) (.s d) (.wait s.fresh (.sc p.2.1 p.2.2)) false .wt [],
              reqs := x.reqs ++ [{ id := s.fresh, segs := segs, na := x.hart.na, acq := acqScope s x.hart,
                                   barR := max x.acqRet x.acqPkg, barP := x.acqPkg }] } with fresh := s.fresh + 1 })) ∧
    (h.sPois g.base = false → h.sPois d = false → ∀ p ∈ scalarStores d g,
      (eb % p.2 ≠ 0 → exec p.1 s = .next (s.raise { code := 0x05, cause := 1, addr := eb })) ∧
      (eb % p.2 = 0 → ∀ segs ents, cellSegs s t eb p.2 .write = .ok (segs, ents) →
        exec p.1 s = .next ((s.fillTlbs t none ents).writeSegs (.cell t) t segs (bytesOf p.2 (h.rs d).toNat))))


/-- R88, R161-R163: a vector load of a task, of elements of its kind or of a register image, whose address lies in its own Loop,
aligned and inside its footprint, is issued as a scalar one is, on its track class, at one clock per 512 bytes. A kind field
that names no kind is the illegal-syllable fault. -/
def Sys2Proof.Claims.LoopVectorLoadsIssue : Prop :=
  ∀ (s : State) (c : CoreId) (k : CtxId) (d : Reg) (f : VLdF) (off : Nat), s.cur = .core c k →
    let x := s.ctx c k
    let ea := (x.hart.rs f.base + f.off.signExtend 64).toNat
    let done (len : Nat) (dec : Dec) : Out :=
      let seg : List Seg := [{ key := 2 ^ 52 + c.val * 2 ^ 21 + off, len := len }]
      .next
        { s.setCtx c k { x with
            hart := x.hart.emit 6 (.v d) (.wait s.fresh dec) false (Claims.form f.sp f.wt) [],
            reqs := x.reqs ++ [{ id := s.fresh, segs := seg, acq := acqScope s x.hart, sure := true }] } with
          loopq := s.loopq ++ [{ id := s.fresh, core := c, ctx := k, slot := x.hart.slot, ic := some (x.hart.ic + 3), target := c,
                                 own := true, tracks := if 8 ≤ f.trk.toNat then 0xFF00 else 0x00FF, clocks := (len + 511) / 512,
                                 segs := seg, wr := none, req := some s.fresh, lag := 3, pc := x.hart.bpc }],
          fresh := s.fresh + 1 }
    let inside (len : Nat) : Prop := off + len ≤ 2 ^ 21 ∧ x.fpUnit * 65536 ≤ off ∧ off + len ≤ (x.fpUnit + x.fpCnt) * 65536
    x.hart.sPois f.base = false → ea = 0xFE * 2 ^ 56 + off → off < 2 ^ 21 →
    (off % 64 = 0 → inside 2112 → exec (.vldImg d f) s = done 2112 .img) ∧
    (match kindField x.hart.fr f.kind with
     | none => exec (.vld d f) s = .next (s.raise { code := 0x01 })
     | some kd => off % vecAlign kd = 0 → inside (footprint kd 512) → exec (.vld d f) s = done (footprint kd 512) (.vec kd))

/-- R88, R161-R163, R240, R251: a vector store of a task with a clean base and datum. In its own Loop, aligned and inside its
footprint, it is to perform three issue cycles on, with the bytes of the elements finally rounded to its kind, or of the register's
image; in the global window, where it translates for writing, it is withheld in the Cask. A poisoned base, datum or source of random
words is late, and a kind field that names no kind the illegal-syllable fault. -/
def Obligations.VectorStoresIssue : Prop :=
  ∀ (s : State) (c : CoreId) (k : CtxId) (d : Reg) (f : VStF), s.cur = .core c k →
    let x := s.ctx c k
    let ea := (x.hart.rs f.base + f.off.signExtend 64).toNat
    let go (i : Instr) (align : Nat) (bs : List Byte) (fl : List (Nat × Nat)) : Prop :=
      let g (y : Ctx) : Ctx := (y.event (bytesOf 8 ea ++ bs)).storeFlags fl
      ea % align = 0 →
      (∀ off, ea = 0xFE * 2 ^ 56 + off → off + bs.length ≤ 2 ^ 21 → x.fpUnit * 65536 ≤ off →
        off + bs.length ≤ (x.fpUnit + x.fpCnt) * 65536 → bs ≠ [] →
        exec i s = Claims.loopStored s c k none (if 8 ≤ f.trk.toNat then 0xFF00 else 0x00FF) off bs g) ∧
      (ea + bs.length ≤ 2 ^ 56 → bs ≠ [] → ∀ segs ents,
        xlateSegs s true (tileOf c) (some c) x.asid.toNat .write (segFuel bs.length) ea bs.length = .ok (segs, ents) →
        exec i s = Claims.withheld s c k segs ents ea (.st bs) (relScope s x.hart) g)
    (x.hart.sPois f.base = true ∨ x.vPois d = true →
      exec (.vst d f) s = .next (s.raise { code := 0x07 }) ∧ exec (.vstImg d f) s = .next (s.raise { code := 0x07 })) ∧
    (x.hart.sPois f.base = false → x.vPois d = false →
      ((imageOf (x.rv d)).length = 2112 → go (.vstImg d f) 64 (imageOf (x.rv d)) []) ∧
      (match kindField x.hart.fr f.kind with
       | none => exec (.vst d f) s = .next (s.raise { code := 0x01 })
       | some kd =>
         (srPois x = true → exec (.vst d f) s = .next (s.raise { code := 0x07 })) ∧
         (srPois x = false →
           let r := narrow kd (frnd x.hart.fr) (x.rv d) (srWords x)
           r.1.length = footprint kd 512 → go (.vst d f) (vecAlign kd) r.1 r.2)))

/-- R88, R164, R240, R251: a gather and a scatter of a task with clean sources, of a kind they admit, whose 512 places resolve, all in
the window of the first, are issued: a gather as one load of all its pieces, a scatter as one Loop store or as one withheld write
per element, within CASKMAX lines. With a poisoned source each is late; a kind that they do not admit is the illegal-syllable fault. -/
def Obligations.GathersAndScattersIssue : Prop :=
  ∀ (s : State) (c : CoreId) (k : CtxId) (d : Reg) (f : GatF) (g : ScaF), s.cur = .core c k →
    let x := s.ctx c k
    (x.hart.sPois f.base = true ∨ x.vPois f.vi = true → exec (.vldg d f) s = .next (s.raise { code := 0x07 })) ∧
    (x.hart.sPois f.base = false → x.vPois f.vi = false →
      (∀ kd, kindField x.hart.fr f.kind = some kd → gatherKind kd = false → exec (.vldg d f) s = .next (s.raise { code := 0x01 })) ∧
      (∀ kd ps, kindField x.hart.fr f.kind = some kd → gatherKind kd = true →
        gatherPlaces s c x (bitsOf16 kd / 128) .read
          ((x.rv f.vi).map (fun q => (x.hart.rs f.base + f.off.signExtend 64 + q.v.signExtend 64).toNat)) = .ok ps →
        let ld : LoadTo := { dst := .v d, dec := .gat kd, form := Claims.form f.sp f.wt }
        exec (.vldg d f) s = .next (match ps.head? with
          | some (.loop own t _) => s.loopLoad c k own t (ps.flatMap (·.segs)) 0 1 (latency f.lat) 0 (acqScope s x.hart) ld
          | _ => s.globLoad c k .load (ps.flatMap (·.segs)) (ps.flatMap (·.ents)) (latency f.lat) ld))) ∧
    (x.hart.sPois g.base = true ∨ x.vPois g.vi = true ∨ x.vPois d = true → exec (.vsts d g) s = .next (s.raise { code := 0x07 })) ∧
    (x.hart.sPois g.base = false → x.vPois g.vi = false → x.vPois d = false →
      (∀ kd, kindField x.hart.fr g.kind = some kd → gatherKind kd = false → exec (.vsts d g) s = .next (s.raise { code := 0x01 })) ∧
      (∀ kd ps, kindField x.hart.fr g.kind = some kd → gatherKind kd = true → srPois x = false →
        let n := bitsOf16 kd / 128
        let eas := (x.rv g.vi).map (fun q => (x.hart.rs g.base + g.off.signExtend 64 + q.v.signExtend 64).toNat)
        let r := narrow kd (frnd x.hart.fr) (x.rv d) (srWords x)
        let elems := chunks n 512 r.1
        let ws := scatterWs s x s.fresh eas ps elems
        let put (y : Ctx) : Ctx := (y.event ((List.zipWith (fun ea b => bytesOf 8 ea ++ b) eas elems).flatMap (fun l => l))).storeFlags r.2
        gatherPlaces s c x n .write eas = .ok ps →
        exec (.vsts d g) s = (match ps.head? with
          | some (.loop own t _) =>
            if (relScope s x.hart).isNone || x.hart.closes then
              .next ((s.loopStore c k own t (ps.flatMap (·.segs)) 0 1 10 r.1).updCtx c k put)
            else .next (s.raise { code := 0x01 })
          | _ =>
            let s1 := s.fillTlbs (tileOf c) (some c) (ps.flatMap (·.ents))
            if caskUse (x.cask ++ ws) ≤ x.reg.caskmax then
              .next { s1.updCtx c k (fun y => put { y with cask := y.cask ++ ws }) with fresh := s1.fresh + ws.length }
            else .next (s.raise { code := 0x0B }))))

/-! ## Atomics, reductions, fences, blocks -/

/-- The returning atomics. -/
def Sys2Proof.Claims.atomics (f : AmoF) : List (Instr × AmoOp) :=
  [(.amoAdd f, .add), (.amoMin f, .min), (.amoMax f, .max), (.amoMinn f, .minn), (.amoMaxn f, .maxn), (.amoAnd f, .and),
   (.amoOr f, .or), (.amoXor f, .xor), (.amoSwap f, .swap), (.amoCas f, .cas)]

/-- R166, R167, R251, R261: a returning atomic, the only one of its bundle. With the latch EMPTY it is sent, once, at the pieces its address
translates to, under its own orders and the release fences issued since the last commit or just before the commit of its bundle, and the
latch is PENDING; with the latch PENDING or FULL (a re-entry) nothing is sent and its result waits for the value that the first sending
returns, an acquire again where it is one. -/
def Sys2Proof.Claims.AtomicsAreSentOnce : Prop :=
  ∀ (s : State) (c : CoreId) (k : CtxId) (f : AmoF), s.cur = .core c k →
    let x := s.ctx c k
    let n := if f.w64 then 8 else 4
    let ea := (x.hart.rs f.base + f.off.signExtend 64).toNat
    let r2 : Reg := Fin.ofNat 64 (f.r.val + 1)
    let fence : Option Scope := match x.relB with
      | some (ic, a) => if ic = x.hart.ic then some a else none
      | none => none
    x.hart.amoIssued = false →
    ∀ p ∈ atomics f,
      (∀ segs ents, x.latch = .empty → x.hart.sPois f.r = false → x.hart.sPois f.base = false →
        (p.2 = .cas → x.hart.sPois r2 = false) → ea < 2 ^ 56 → ea % n = 0 → ea + n ≤ 2 ^ 56 →
        xlateSegs s true (tileOf c) (some c) x.asid.toNat .rw 2 ea n = .ok (segs, ents) →
        let s1 := s.bump.fillTlbs (tileOf c) (some c) ents
        let y := s1.ctx c k
        exec p.1 s = .next (s1.setCtx c k { y with
          reqs := y.reqs ++ [{ id := s.fresh, op := .amo p.2 f.w64 (x.hart.rs f.r) (x.hart.rs r2), segs := segs,
                               acq := ordAt s x.hart 0 f.scope, rel := wider (ordAt s x.hart 1 f.scope) (wider x.relF fence), na := x.hart.na }],
          latch := .pending s.fresh,
          hart := y.hart.emit (latency f.lat) (.s f.r) (.wait s.fresh .amo) false (Claims.form false f.wt) [] })) ∧
      (∀ id, x.latch = .pending id →
        exec p.1 s = .next (s.setCtx c k
          { x with hart := x.hart.emit (latency f.lat) (.s f.r) (.wait id .amo) false (Claims.form false f.wt) [] })) ∧
      (∀ m done, x.latch = .full m done →
        exec p.1 s = .next (s.bump.setCtx c k { x with
          reqs := x.reqs ++ [{ id := s.fresh, segs := [], got := some (bytesOf n m.toNat), arr := some s.gt,
                               acq := ordAt s x.hart 0 f.scope, done := done }],
          hart := x.hart.emit (latency f.lat) (.s f.r) (.wait s.fresh .amo) false (Claims.form false f.wt) [] }))

/-- R166, R321: a returning atomic of a Cellarer performs as it issues: the bytes at its home become what the operation gives of the
old value and the operands, and its result waits for the old value as that of a `.w` load does. A misaligned address is the access
fault, cause 1. That it performs as it issues, and that in the device registers it is the access fault with cause 2, are the model's
readings (log 10, log 96). -/
def Sys2Proof.Claims.CellarerAtomicsPerformAtOnce : Prop :=
  ∀ (s : State) (t : TileId) (f : AmoF), s.cur = .cell t →
    let h := (s.cell t).hart
    let n := if f.w64 then 8 else 4
    let ea := (h.rs f.base + f.off.signExtend 64).toNat
    let m (r : Reg) : Nat := (h.rs r).toNat % 2 ^ (8 * n)
    ∀ p ∈ atomics f,
      (ea % n ≠ 0 → exec p.1 s = .next (s.raise { code := 0x05, cause := 1, addr := ea })) ∧
      (ea % n = 0 → ∀ segs ents, cellSegs s t ea n .rw = .ok (segs, ents) →
        (touchesDev segs = true → exec p.1 s = .next (s.raise { code := 0x05, cause := 2, addr := ea })) ∧
        (touchesDev segs = false →
        let s1 := s.fillTlbs t none ents
        let old := s1.segBytes segs
        let s2 := match amoNew p.2 (8 * n) (leNat old) (m f.r) (m (Fin.ofNat 64 (f.r.val + 1))), segs.head? with
          | some v, some g => s1.putBytes t g.ks g.key (bytesOf n v)
          | _, _ => s1
        ∃ u r, exec p.1 s = .next u ∧ u.mem = s2.mem ∧ (u.cell t).reqs = (s2.cell t).reqs ++ [r] ∧ r.id = s.fresh ∧ r.got = some old ∧
          r.acq = ordAt s h 0 f.scope ∧ (u.cell t).perfAt = r.done ∧
          (u.cell t).hart = (s2.cell t).hart.emit (latency f.lat) (.s f.r) (.wait s.fresh .amo) false .wt []))

/-- R166: what each atomic writes at its home, of the old value m and the operands a and b, all below 2^w; and that its result is
the old value. -/
def Sys2Proof.Claims.AtomicNewValues : Prop :=
  (∀ (n : Fin 2) (m a b : Nat),
    let w := if n.val = 0 then 32 else 64
    m < 2 ^ w → a < 2 ^ w → b < 2 ^ w →
    let sg (z : Nat) : Int := Int.bmod z (2 ^ w)
    amoNew .add w m a b = some ((m + a) % 2 ^ w) ∧
    amoNew .min w m a b = some (if sg a < sg m then a else m) ∧
    amoNew .max w m a b = some (if sg m < sg a then a else m) ∧
    amoNew .minn w m a b = some (if a < m then a else m) ∧
    amoNew .maxn w m a b = some (if m < a then a else m) ∧
    amoNew .and w m a b = some (m &&& a) ∧
    amoNew .or w m a b = some (m ||| a) ∧
    amoNew .xor w m a b = some (m ^^^ a) ∧
    amoNew .swap w m a b = some a ∧
    amoNew .cas w m a b = (if m = a then some b else none)) ∧
  (∀ (s : State) (t : TileId) (keep : Bool) (r : Req) (op : AmoOp) (w64 : Bool) (a b : Word), r.op = .amo op w64 a b →
    (s.performAt t keep r).2.got = some (s.segBytes r.segs) ∧ (s.performAt t keep r).2.id = r.id)

/-- R168, R321: `red.add` and `red.fadd`. Those of a task are withheld in the Cask until the commit, under the release of their prefix
or of a fence; those of a Cellarer perform at once at their home, or are the access fault with cause 2 in the device registers (the
model's readings, log 10 and log 96). The wider form of `red.add` is 8 bytes. Poisoned operands are late, a misaligned address the
access fault, cause 1. -/
def Obligations.ReductionsAreWithheld : Prop :=
  ∀ (s : State) (f : RedF),
    let h := s.hart
    let ea := (h.rs f.base + f.off.signExtend 64).toNat
    ((h.sPois f.base = true ∨ h.sPois f.r = true) → (∃ c k, s.cur = .core c k) ∨ (∃ t, s.cur = .cell t) →
      exec (.redAdd f) s = .next (s.raise { code := 0x07 }) ∧ exec (.redFadd f) s = .next (s.raise { code := 0x07 })) ∧
    (h.sPois f.base = false → h.sPois f.r = false →
      (∀ p ∈ [(Instr.redAdd f, if f.w64 then 8 else 4), (Instr.redFadd f, 4)], (∃ c k, s.cur = .core c k) ∨ (∃ t, s.cur = .cell t) →
        ea + p.2 ≤ 2 ^ 56 → ea % p.2 ≠ 0 → exec p.1 s = .next (s.raise { code := 0x05, cause := 1, addr := ea })) ∧
      (∀ c k, s.cur = .core c k →
        ∀ p ∈ [(Instr.redAdd f, WOp.add f.w64 (h.rs f.r), if f.w64 then 8 else 4),
               (Instr.redFadd f, WOp.fadd ((h.rs f.r).setWidth 32), 4)],
        ea + p.2.2 ≤ 2 ^ 56 → ea % p.2.2 = 0 → ∀ segs ents,
          xlateSegs s true (tileOf c) (some c) (s.ctx c k).asid.toNat .write 2 ea p.2.2 = .ok (segs, ents) →
          exec p.1 s = Claims.withheld s c k segs ents ea p.2.1 (ordAt s h 1 f.scope) (fun y => y)) ∧
      (∀ t segs ents, s.cur = .cell t →
        let n := if f.w64 then 8 else 4
        let s1 := s.fillTlbs t none ents
        let log (u : State) : State := u.logEv 1 (segs.head?.elim 0 (fun g => g.key))
        let device (i : Instr) : Prop := exec i s = .next (s.raise { code := 0x05, cause := 2, addr := ea })
        (ea % n = 0 → cellSegs s t ea n .write = .ok (segs, ents) →
          if touchesDev segs = true then device (.redAdd f)
          else exec (.redAdd f) s = .next (log (s1.putSegs t segs
            (bytesOf n ((leNat (s.segBytes segs) + (h.rs f.r).toNat) % 2 ^ (8 * n)))))) ∧
        (ea % 4 = 0 → cellSegs s t ea 4 .write = .ok (segs, ents) →
          let r := faddHome (BitVec.ofNat 32 (leNat (s.segBytes segs))) ((h.rs f.r).setWidth 32)
          if touchesDev segs = true then device (.redFadd f)
          else ∃ u, exec (.redFadd f) s = .next u ∧ u.mem = (s1.putSegs t segs (bytesOf 4 r.1.toNat)).mem ∧
            (r.2 = 0 → u = log (s1.putSegs t segs (bytesOf 4 r.1.toNat))))))

/-- R170, R251, R252, R321: a fence holds the next bundle back for F cycles, the least number that is at least one and the FEN of its
scope's cost entry, with an acquire lets the loads in flight land, and with a release of a task lets its Loop stores in flight
perform. The release and the acquire that it leaves in force are the wider of theirs and its own; with an acquire, loads in flight become
acquires. What a load in flight that a copy has served then does is the model's reading (log 69). -/
def Obligations.FencesHoldTheIssue : Prop :=
  ∀ (s : State) (sc : Scope) (ord : BitVec 2),
    let a := ord.getLsbD 0
    let r := ord.getLsbD 1
    let e := s.scopeEff sc
    let enough (h : Hart) (stores : List LoopAcc) (g : Nat) : Prop :=
      1 ≤ g ∧ (s.sctAt (scNum e)).toNat % 2 ^ 16 ≤ g ∧
      (a = true → ∀ p ∈ h.pend, p.isLoad = true → p.ic ≤ h.ic + g) ∧
      (r = true → ∀ q ∈ stores, ∀ i, q.ic = some i → i ≤ h.ic + g)
    let least (h : Hart) (stores : List LoopAcc) (g : Nat) : Prop := enough h stores g ∧ ∀ n, enough h stores n → g ≤ n
    let gap (h : Hart) (g : Nat) : Hart := { h with gapTo := max h.gapTo (h.ic + g) }
    let reqs (t : TileId) (l : List Req) : List Req := if a then l.map (Req.acquires t (some e)) else l
    (∀ c k, s.cur = .core c k →
      let x := s.ctx c k
      ∃ g, least x.hart (s.loopq.filter (fun q => q.core == c && q.ctx == k && q.wr.isSome)) g ∧
        exec (.fence sc ord) s = .next (s.setCtx c k { x with
          hart := gap x.hart g,
          relF := if r then wider x.relF (some e) else x.relF,
          acqF := if a then wider x.acqF (some e) else x.acqF,
          reqs := reqs (tileOf c) x.reqs })) ∧
    (∀ t, s.cur = .cell t →
      let x := s.cell t
      ∃ g, least x.hart [] g ∧
        exec (.fence sc ord) s = .next (s.setCell t { x with
          hart := gap x.hart g,
          acqF := if a then wider x.acqF (some e) else x.acqF,
          reqs := reqs t x.reqs }))

/-- R103, R171-R173: `ldblk`, `blkrel` and `pref`, of a core or a Cellarer. A block already held is not fetched again; a ninth is the
queue fault, cause 6, a token with 63 producers cause 2; one that would leave its 4 KiB page the access fault, cause 1; where its
lines translate the block is held, its token is armed, and with HBM lines it gains a producer. `blkrel` of a block not held does
nothing; with another producer outstanding on the token it is the queue fault, cause 4; otherwise the block is held no more, or
released while it fills, and the token is no longer armed. A `pref` raises no fault and changes no register. The order of the faults
of `ldblk` and a poisoned base of `pref` are the model's readings (log 70, 71). -/
def Obligations.BlocksAndPrefetch : Prop :=
  ∀ (s : State) (t : Tok) (base : Reg) (off : BitVec 32) (n : BitVec 6) (m : BitVec 4),
    let h := s.hart
    let ea := (h.rs base + off.signExtend 64).toNat
    let lines := n.toNat + 1
    let held := s.blocks.filter (fun b => !b.released)
    let same (b : Block) : Bool := b.tok == t && b.ea == ea && b.lines == lines
    (exec (.pref base off m) s = .next
      (if h.sPois base then s else (s.refresh s.curTile true (prefLines s ea (m.toNat + 1))).bump)) ∧
    (h.sPois base = true → exec (.ldblk t base off n) s = .next (s.raise { code := 0x07 }) ∧
      exec (.blkrel t base off) s = .next (s.raise { code := 0x07 })) ∧
    (h.sPois base = false →
      (held.any same = true → exec (.ldblk t base off n) s = .next s) ∧
      (held.any same = false → 8 ≤ held.length → exec (.ldblk t base off n) s = .next (s.raise { code := 0x0F, cause := 6 })) ∧
      (held.any same = false → held.length < 8 → 63 ≤ (h.tok t).p →
        exec (.ldblk t base off n) s = .next (s.raise { code := 0x0F, cause := 2 })) ∧
      (held.any same = false → held.length < 8 → (h.tok t).p < 63 → 4096 < ea % 4096 + 64 * lines →
        exec (.ldblk t base off n) s = .next (s.raise { code := 0x05, cause := 1, addr := ea })) ∧
      (held.any same = false → held.length < 8 → (h.tok t).p < 63 → ea % 4096 + 64 * lines ≤ 4096 →
        (∀ tr, s.globPlace ea (64 * lines) 64 .read = .error tr → exec (.ldblk t base off n) s = .next (s.raise tr)) ∧
        ∀ segs es, s.globPlace ea (64 * lines) 64 .read = .ok (segs, es) →
        let s1 := s.fillCur es
        let b (prod : Nat) (fl : Bool) : Block := { tok := t, ea := ea, lines := lines, keys := blockLines segs, prod := prod, filling := fl }
        exec (.ldblk t base off n) s = .next
          (if blockLines segs = [] then
             (s1.setBlocks (s1.blocks ++ [{ b 0 false with keys := [] }])).setHart (h.setTok t { (h.tok t) with armed := true })
           else
             let s2 := (s1.newProd s.curOwner t false false).1
             (s2.setBlocks (s2.blocks ++ [b s1.fresh true])).setHart (s2.hart.addProd t))) ∧
      (match s.blocks.find? (fun b => b.tok == t && b.ea == ea && !b.released) with
       | none => exec (.blkrel t base off) s = .next s
       | some b =>
         if ((s.prodsOf s.curOwner [t]).filter (fun i => !(b.filling && i == b.prod))) ≠ [] then
           exec (.blkrel t base off) s = .next (s.raise { code := 0x0F, cause := 4 })
         else exec (.blkrel t base off) s = .next
           ((s.setBlocks (if b.filling then s.blocks.map (fun y => if y = b then { y with released := true } else y)
             else s.blocks.filter (fun y => y ≠ b))).setHart (h.setTok t { (h.tok t) with armed := false }))))

/-! ## Commands and tokens -/

/-- R174, R176-R179, R321: pushes and tokens, of a core or a Cellarer. A push whose registers are clean, whose queue may be named (0 to 2
by a core, 1 alone by a Cellarer) and accepts its code, and whose token has room takes a slot when one is free: its token gains a producer
and bF is false; with no free slot only bF is written, true. A core's push waits for the commit; a Cellarer's is sent at once. That
poisoned registers are found before a queue fault, and the queue faults in this order, are the model's readings (log 102, 43). -/
def Obligations.PushesAndTokens : Prop :=
  ∀ (s : State) (q : BitVec 3) (sn sd : Reg) (t : Tok) (bf : BReg) (cons : List Tok),
    let h := s.hart
    let bs := (List.range 8).flatMap (fun j => bytesOf 8 (h.rs (Fin.ofNat 64 (sn.val + j))).toNat)
    let ok := cmdPois h sn = false ∧ queueOk s q.toNat = true ∧ accepts q.toNat ((bs.getD 0 0).toNat) = true ∧ (h.tok t).p < 63
    let push : Instr := .push q sn t bf cons
    (cmdPois h sn = true → exec push s = .next (s.raise { code := 0x07 })) ∧
    (cmdPois h sn = false → queueOk s q.toNat = false → exec push s = .next (s.raise { code := 0x0F, cause := 0 })) ∧
    (cmdPois h sn = false → queueOk s q.toNat = true → accepts q.toNat ((bs.getD 0 0).toNat) = false →
      exec push s = .next (s.raise { code := 0x0F, cause := 1 })) ∧
    (cmdPois h sn = false → queueOk s q.toNat = true → accepts q.toNat ((bs.getD 0 0).toNat) = true → 63 ≤ (h.tok t).p →
      exec push s = .next (s.raise { code := 0x0F, cause := 2 })) ∧
    (ok → freeSlots s q.toNat = 0 → exec push s = .next (s.setHart (h.outB 1 bf true))) ∧
    (ok → freeSlots s q.toNat ≠ 0 →
      let s1 := (s.newProd s.curOwner t true false).1
      let s2 := s1.setHart ((h.addProd t).outB 1 bf false)
      (∀ c k, s.cur = .core c k →
        exec push s = .next (s2.updCtx c k (fun x => { x with
          pushes := x.pushes ++ [{ q := q.toNat, cmd := bs, prod := s.fresh, cons := cons, pc := h.bpc }] }))) ∧
      (∀ tl, s.cur = .cell tl →
        exec push s = .next (s2.send (.cell tl) tl q.toNat (s.cell tl).casid.toNat h.bpc 0 bs s.fresh cons))) ∧
    ((∃ tl, s.cur = .cell tl) → (queueOk s q.toNat = true ↔ q.toNat = 1)) ∧
    ((¬ ∃ tl, s.cur = .cell tl) → (queueOk s q.toNat = true ↔ q.toNat < 3)) ∧
    exec (.tkst bf t) s = .next (s.setHart (h.outB 1 bf ((h.tok t).armed && (h.tok t).p == 0))) ∧
    exec (.tksig t) s = .next (s.setHart (h.setTok t { (h.tok t) with armed := true })) ∧
    exec (.tkclr t) s = .next
      (if 0 < (h.tok t).p then s.raise { code := 0x0F, cause := 3 } else s.setHart (h.setTok t { armed := false, p := 0 })) ∧
    exec (.qst q sd) s =
      (if queueOk s q.toNat then sRes s 1 sd (BitVec.ofNat 64 (freeSlots s q.toNat)) [] else .next (s.raise { code := 0x0F, cause := 0 }))


/-! ## Vector instructions -/

namespace Sys2Proof.Claims
open Sys2Proof.Machine

/-- The outcome of a task's instruction whose only effect is one vector result: the selected containers of vD, `lat` cycles on,
with its flags unless it is poisoned (R192, R193), and with what its floating-point units gave, which the shadow checks (R284). -/
def vRes (s : State) (c : CoreId) (k : CtxId) (lat : Nat) (vd : Reg) (sel : BitVec 512) (cs : List Cont) (pois : Bool)
    (fl : List (Nat × Nat)) (fp : List (BitVec 512 × List W32) := []) : Out :=
  let h := (s.ctx c k).hart.emit lat (.v vd) (.have (.v sel false cs)) pois .plain (if pois then [] else fl) fp
  .next (s.setCtx c k { s.ctx c k with hart := h })

/-- The outcome of a task's instruction whose only effect is one mask result, at latency 2. -/
def mRes (s : State) (c : CoreId) (k : CtxId) (md : MReg) (m : BitVec 512) : Out :=
  let h := (s.ctx c k).hart.emit 2 (.m md) (.have (.m m)) false .plain []
  .next (s.setCtx c k { s.ctx c k with hart := h })

/-- Container i of a register. -/
def at_ (cs : List Cont) (i : Nat) : Cont := cs.getD i {}

/-- The value of a container as f32. -/
def fv (c : Cont) : FVal := f32Val c.v

/-- R63, R193: the flags of a vector operation: each bit that a selected container raises, with the lowest such container. -/
def FlagsOf (sel : BitVec 512) (raised : Nat → Fl) (fl : List (Nat × Nat)) : Prop :=
  ∀ b i, (b, i) ∈ fl ↔ (b < 6 ∧ i < 512 ∧ sel.getLsbD i = true ∧ (raised i).getLsbD b = true ∧
    ∀ j, j < i → sel.getLsbD j = true → (raised j).getLsbD b = false)

/-- R195: the f32 x rounded to an integer of 32 bits, saturated: NaN gives 0; beyond the range the flag is invalid alone, and
otherwise inexact when the value changes. -/
def Integer32Of (mu : RM) (x : W32) (z : Int) (f : Fl) : Prop :=
  let m := roundedAt (2 ^ 149) mu (x.getLsbD 31) (mag32 x)
  let r : Int := if x.getLsbD 31 then -(m / 2 ^ 149 : Nat) else (m / 2 ^ 149 : Nat)
  (nanP x = true → z = 0 ∧ f = 1) ∧
  (nanP x = false → infP x = true ∨ r < -2 ^ 31 ∨ 2 ^ 31 ≤ r →
    z = (if x.getLsbD 31 then -2 ^ 31 else 2 ^ 31 - 1) ∧ f = 1) ∧
  (finP x = true → -2 ^ 31 ≤ r → r < 2 ^ 31 → z = r ∧ f = (if m = mag32 x then 0 else 16))

/-- The order of numbers in f32, −0 below +0 (R195 `fmin` and `fmax`). -/
def ord32 (x : W32) : Int := if x.getLsbD 31 then -((x.toNat % 2 ^ 31 : Nat) : Int) - 1 else (x.toNat % 2 ^ 31 : Nat)

/-- R74: what an operation of one operand gives for a NaN, and for +0, −0, +∞ and −∞ in that order. -/
def SpecialInputs (y : W32) (v : W32) (f : Fl) (row : List (W32 × Fl)) : Prop :=
  (nanP y = true → v = 0x7FC00000 ∧ f = 0) ∧
  ∀ p ∈ List.zip [0, 0x80000000, 0x7F800000, 0xFF800000] row, y = p.1 → v = p.2.1 ∧ f = p.2.2

/-- R48, R73, R74, R195: the floating-point stages on one container. fadd, fsub, fmul, frcp, frsq, fsq and i2f round the exact result
once; fmin and fmax return an operand with its S, or the canonical NaN; f2i rounds to i32; frnd to an integral value. The special
inputs of R74, a negative root or logarithm, an integral exponent of fex2 and a power of two of flg2 give what the spec states; any
other result of fex2, flg2, fth and fsgm is one rounding of the fixed-point value that the model computes (log 12: that this is
the correct rounding is the model's reading). -/
def FloatStages (mu : RM) (sb : Bool) (y z : Cont) : Prop :=
  let st (op : CasOp) := stage op mu sb y z
  let res (op : CasOp) (p : W32 → Fl → Prop) : Prop := ∃ v f, st op = ({ v := v, s := false }, f) ∧ p v f
  let neg := y.v.getLsbD 31
  let m := mag32 y.v
  let below : Prop := finP y.v = true ∧ m ≠ 0 ∧ neg = true
  let above : Prop := finP y.v = true ∧ m ≠ 0 ∧ neg = false
  let sticky (r : Nat) (exact : Prop) [Decidable exact] : Nat := 2 * r + (if exact then 0 else 1)
  res .fadd (SumsTo mu y.v z.v) ∧ res .fsub (SumsTo mu y.v (z.v ^^^ 0x80000000)) ∧ res .fmul (MultipliesTo mu y.v z.v) ∧
  (let pick (op : CasOp) (second : Bool) : Prop :=
     (nanP y.v = true → nanP z.v = true → st op = ({ v := 0x7FC00000, s := false }, 0)) ∧
     (nanP y.v = true → nanP z.v = false → st op = (z, 0)) ∧ (nanP y.v = false → nanP z.v = true → st op = (y, 0)) ∧
     (nanP y.v = false → nanP z.v = false → st op = (if second then z else y, 0))
   pick .fmin (decide (ord32 z.v < ord32 y.v)) ∧ pick .fmax (decide (ord32 y.v < ord32 z.v))) ∧
  res .frcp (fun v f => SpecialInputs y.v v f [(0x7F800000, 2), (0xFF800000, 2), (0, 0), (0x80000000, 0)] ∧
    (above ∨ below → RoundsTo 24 32 2 mu neg (sticky (2 ^ 299 / m) (2 ^ 299 % m = 0)) v.toNat f)) ∧
  res .frsq (fun v f => SpecialInputs y.v v f [(0x7F800000, 2), (0xFF800000, 2), (0, 0), (0x7FC00000, 1)] ∧
    (below → v = 0x7FC00000 ∧ f = 1) ∧
    (above → ∃ r, r * r * m ≤ 2 ^ 449 ∧ 2 ^ 449 < (r + 1) * (r + 1) * m ∧
      RoundsTo 24 32 2 mu false (sticky r (r * r * m = 2 ^ 449)) v.toNat f)) ∧
  res .fsq (fun v f => SpecialInputs y.v v f [(0, 0), (0x80000000, 0), (0x7F800000, 0), (0x7FC00000, 1)] ∧
    (below → v = 0x7FC00000 ∧ f = 1) ∧
    (above → ∃ r, r * r ≤ m * 2 ^ 151 ∧ m * 2 ^ 151 < (r + 1) * (r + 1) ∧
      RoundsTo 24 32 2 mu false (sticky r (r * r = m * 2 ^ 151)) v.toNat f)) ∧
  res .fex2 (fun v f => SpecialInputs y.v v f [(0x3F800000, 0), (0x3F800000, 0), (0x7F800000, 0), (0, 0)] ∧
    (∀ n : Int, above ∨ below → val32 y.v = n * 2 ^ 149 → -149 ≤ n → n ≤ 127 →
      f = 0 ∧ finP v = true ∧ val32 v = 2 ^ (n + 149).toNat) ∧
    (∀ n a e, f32Val y.v = .fin n a e → a ≠ 0 → (v, f) = round32 mu (exp2Val n a e))) ∧
  res .flg2 (fun v f => SpecialInputs y.v v f [(0xFF800000, 2), (0xFF800000, 2), (0x7F800000, 0), (0x7FC00000, 1)] ∧
    (below → v = 0x7FC00000 ∧ f = 1) ∧
    (∀ n : Nat, above → m = 2 ^ n → f = 0 ∧ finP v = true ∧ v ≠ 0x80000000 ∧ val32 v = ((n : Int) - 149) * 2 ^ 149) ∧
    (∀ a e, f32Val y.v = .fin false a e → a ≠ 0 → (v, f) = round32 mu (log2Val a e))) ∧
  res .fth (fun v f => SpecialInputs y.v v f [(0, 0), (0x80000000, 0), (0x3F800000, 0), (0xBF800000, 0)] ∧
    (∀ n a e, f32Val y.v = .fin n a e → a ≠ 0 → (v, f) = round32 mu (tanhVal n a e))) ∧
  res .fsgm (fun v f => SpecialInputs y.v v f [(0x3F000000, 0), (0x3F000000, 0), (0x3F800000, 0), (0, 0)] ∧
    (∀ n a e, f32Val y.v = .fin n a e → a ≠ 0 → (v, f) = round32 mu (sigmoidVal n a e))) ∧
  res .i2f (fun v f => RoundsTo 24 32 0 mu (decide (y.v.toInt < 0)) (y.v.toInt.natAbs * 2 ^ 149) v.toNat f) ∧
  res .f2i (fun v f => ∃ i, v = BitVec.ofInt 32 i ∧ Integer32Of mu y.v i f) ∧
  res .frnd (fun v f => (nanP y.v = true → v = 0x7FC00000 ∧ f = 0) ∧ (infP y.v = true → v = y.v ∧ f = 0) ∧
    (finP y.v = true → let r := roundedAt (2 ^ 149) mu neg m
      finP v = true ∧ v.getLsbD 31 = neg ∧ mag32 v = r ∧ f = (if r = m then 0 else 16)))

end Sys2Proof.Claims

/-- R192, R193, R197-R199, R202: the moves, element accesses, permutations and index vectors. A write under a mask other than m0
takes the old vD as a source. `vget` and `vput` name container sI mod 512; a permutation takes container vI[i] mod 512, or that of
its run of 16. -/
def Obligations.VectorMoves : Prop :=
  ∀ (s : State) (c : CoreId) (k : CtxId) (vd vs vi : Reg) (sd ss si : Reg) (msk ma : MReg), s.cur = .core c k →
    let x := s.ctx c k
    let old := msk ≠ 0 ∧ x.vPois vd = true
    let e := at_ (x.rv vs) ((x.hart.rs si).toNat % 512)
    let pe := x.vPois vs || x.hart.sPois si
    let sc (v : Word) (lat : Nat) (p : Bool) : Out := .next (s.setCtx c k { x with hart := x.hart.outS lat sd v p })
    exec (.vmov vd vs msk) s = vRes s c k 2 vd (x.rm msk) (x.rv vs) (x.vPois vs || decide old) [] ∧
    exec (.vbc vd ss msk) s = vRes s c k 2 vd (x.rm msk)
      (List.replicate 512 { v := (x.hart.rs ss).setWidth 32 }) (x.hart.sPois ss || decide old) [] ∧
    exec (.vget sd vs si) s = sc (e.v.setWidth 64) 3 pe ∧
    exec (.vgetSx sd vs si) s = sc (e.v.signExtend 64) 3 pe ∧
    exec (.vgetS sd vs si) s = sc (if e.s then 1 else 0) 3 pe ∧
    (∃ cs, exec (.vput vd ss si) s = vRes s c k 4 vd (1#512 <<< ((x.hart.rs si).toNat % 512)) cs
        (x.hart.sPois ss || x.hart.sPois si || x.vPois vd) [] ∧
      at_ cs ((x.hart.rs si).toNat % 512) = { v := (x.hart.rs ss).setWidth 32 }) ∧
    ((x.rv vi).length = 512 →
      (∃ cs, exec (.vprm vd vs vi) s = vRes s c k 4 vd (BitVec.allOnes 512) cs (x.vPois vs || x.vPois vi) [] ∧
        ∀ i, i < 512 → at_ cs i = at_ (x.rv vs) ((at_ (x.rv vi) i).v.toNat % 512)) ∧
      (∃ cs, exec (.vprmG16 vd vs vi) s = vRes s c k 4 vd (BitVec.allOnes 512) cs (x.vPois vs || x.vPois vi) [] ∧
        ∀ i, i < 512 → at_ cs i = at_ (x.rv vs) (i / 16 * 16 + (at_ (x.rv vi) i).v.toNat % 16))) ∧
    (∃ cs, exec (.viota vd msk) s = vRes s c k 2 vd (x.rm msk) cs (decide old) [] ∧
      ∀ i, i < 512 → at_ cs i = { v := BitVec.ofNat 32 i }) ∧
    (∃ cs, exec (.viotaRank vd ma msk) s = vRes s c k 2 vd (x.rm msk) cs (decide old) [] ∧
      ∀ i, i < 512 → at_ cs i = { v := BitVec.ofNat 32 ((List.range i).filter (fun j => (x.rm ma).getLsbD j)).length })

/-- R200, R239, R240: `vxc` of an aligned image that lies in one Loop of the cluster and in a footprint the task may use: the load is
to perform four issue cycles on and lands at six, with no order of the memory model (R84); the store is to perform at four, and the
commands of its region wait for it; neither takes a track. A poisoned address, or datum
of a store, is late; outside the cluster window it is the access fault, cause 0. -/
def Obligations.ClusterCopies : Prop :=
  ∀ (s : State) (c : CoreId) (k : CtxId) (v sa : Reg) (off : BitVec 32), s.cur = .core c k →
    let x := s.ctx c k
    let ea := (x.hart.rs sa + off.signExtend 64).toNat
    (x.hart.sPois sa = true → exec (.vxcLd v sa off) s = .next (s.raise { code := 0x07 }) ∧
      exec (.vxcSt v sa off) s = .next (s.raise { code := 0x07 })) ∧
    (x.vPois v = true → exec (.vxcSt v sa off) s = .next (s.raise { code := 0x07 })) ∧
    (x.hart.sPois sa = false → ea / 2 ^ 56 ≠ 0xFD →
      exec (.vxcLd v sa off) s = .next (s.raise { code := 0x05, cause := 0, addr := ea }) ∧
      (x.vPois v = false → exec (.vxcSt v sa off) s = .next (s.raise { code := 0x05, cause := 0, addr := ea }))) ∧
    (x.hart.sPois sa = false → ∀ n o, n < 8 → ea = 0xFD * 2 ^ 56 + n * 2 ^ 21 + o → o + 2112 ≤ 2 ^ 21 → o % 64 = 0 →
      fpAllows s c x (peerOf c n) o 2112 = true →
      let seg : List Seg := [{ key := 2 ^ 52 + (peerOf c n).val * 2 ^ 21 + o, len := 2112 }]
      let acc (wr : Option (List Byte)) (req : Option Nat) (lag : Nat) : LoopAcc :=
        { id := s.fresh, core := c, ctx := k, slot := x.hart.slot, pc := x.hart.bpc, ic := some (x.hart.ic + 4), target := peerOf c n,
          own := false, tracks := 0, clocks := 1, segs := seg, wr := wr, req := req, lag := lag }
      exec (.vxcLd v sa off) s = .next
        { s.setCtx c k { x with
            hart := x.hart.emit 6 (.v v) (.wait s.fresh .img) false .plain [],
            reqs := x.reqs ++ [{ id := s.fresh, segs := seg }] } with
          loopq := s.loopq ++ [acc none (some s.fresh) 2], fresh := s.fresh + 1 } ∧
      (x.vPois v = false →
        exec (.vxcSt v sa off) s = .next
          (({ s with loopq := s.loopq ++ [acc (some (imageOf (x.rv v))) none 0], fresh := s.fresh + 1 } : State).updCtx c k
            (fun w => (w.noteStore s.fresh).event (bytesOf 8 ea ++ imageOf (x.rv v))))))

/-- R201, R202, R212: the vector compares, bit by bit, and the mask operations. A poisoned source of a compare or of `vsx` is
late. -/
def Obligations.VectorComparesAndMasks : Prop :=
  ∀ (s : State) (c : CoreId) (k : CtxId) (md ma mb : MReg) (sd a b vd : Reg) (lo : Bool), s.cur = .core c k →
    let x := s.ctx c k
    let p (i : Nat) : Cont := at_ (x.rv a) i
    let q (i : Nat) : Cont := at_ (x.rv b) i
    let clean := x.vPois a = false ∧ x.vPois b = false
    let cmp (i : Instr) (t : Cont → Cont → Bool) : Prop :=
      (¬clean → exec i s = .next (s.raise { code := 0x07 })) ∧
      (clean → (x.rv a).length = 512 → (x.rv b).length = 512 →
        ∃ m, exec i s = mRes s c k md m ∧ ∀ n, n < 512 → m.getLsbD n = t (p n) (q n))
    let eqs (e : Bool) (y z : Cont) : Bool := e && (lo || (!y.s && !z.s))
    let less (l e : Bool) (y z : Cont) : Bool := l || (!lo && e && !y.s && z.s)
    cmp (.vcmpFeq md a b lo) (fun y z => eqs ((fv y).eq (fv z)) y z) ∧
    cmp (.vcmpFne md a b lo) (fun y z => !eqs ((fv y).eq (fv z)) y z) ∧
    cmp (.vcmpFlt md a b lo) (fun y z => less ((fv y).lt (fv z)) ((fv y).eq (fv z)) y z) ∧
    cmp (.vcmpFle md a b lo) (fun y z => !((fv y).isNan || (fv z).isNan) && !less ((fv z).lt (fv y)) ((fv z).eq (fv y)) z y) ∧
    cmp (.vcmpIeq md a b lo) (fun y z => eqs (y.v == z.v) y z) ∧
    cmp (.vcmpIne md a b lo) (fun y z => !eqs (y.v == z.v) y z) ∧
    cmp (.vcmpIlt md a b lo) (fun y z => less (decide (y.v.toInt < z.v.toInt)) (y.v == z.v) y z) ∧
    cmp (.vcmpIltn md a b lo) (fun y z => less (decide (y.v.toNat < z.v.toNat)) (y.v == z.v) y z) ∧
    exec (.mopAnd md ma mb) s = mRes s c k md (x.rm ma &&& x.rm mb) ∧
    exec (.mopOr md ma mb) s = mRes s c k md (x.rm ma ||| x.rm mb) ∧
    exec (.mopXor md ma mb) s = mRes s c k md (x.rm ma ^^^ x.rm mb) ∧
    exec (.mopAndn md ma mb) s = mRes s c k md (x.rm ma &&& ~~~x.rm mb) ∧
    (let n := ((List.range 512).filter (fun i => (x.rm ma).getLsbD i)).length
     exec (.mcnt sd ma) s = .next (s.setCtx c k { x with hart := x.hart.outS 2 sd (BitVec.ofNat 64 n) false })) ∧
    (∃ n, exec (.mcntFirst sd ma) s = .next (s.setCtx c k { x with hart := x.hart.outS 2 sd (BitVec.ofNat 64 n) false }) ∧
      n ≤ 512 ∧ (∀ i, i < n → (x.rm ma).getLsbD i = false) ∧ (n < 512 → (x.rm ma).getLsbD n = true)) ∧
    ((x.vPois a = true → exec (.vsx md a) s = .next (s.raise { code := 0x07 })) ∧
      (x.vPois a = false → ∃ m, exec (.vsx md a) s = mRes s c k md m ∧ ∀ n, n < 512 → m.getLsbD n = (p n).s)) ∧
    (let sset (i : Instr) (t : Bool → Bool → Bool) : Prop :=
       ∃ cs, (let h := x.hart.emit 2 (.v vd) (.have (.v (BitVec.allOnes 512) true cs)) (x.vPois vd) .plain []
              exec i s = .next (s.setCtx c k { x with hart := h })) ∧
         ∀ n, n < 512 → (at_ cs n).s = t ((at_ (x.rv vd) n).s) ((x.rm ma).getLsbD n)
     (x.rv vd).length = 512 →
     sset (.vsset vd ma) (fun _ m => m) ∧ sset (.vssetOr vd ma) (fun o m => o || m) ∧ sset (.vssetClr vd ma) (fun o m => o && !m))

/-- R194, R195: the cascade: its result lands nine cycles on; container i is op3(op2(op1(a, b), c), e), or zero where the mask is 0
under zero-masking; it is poisoned by a source that a stage reads, and by the old vD when it merges; its flags are those that the
three stages raise in the selected containers, each with the lowest; the shadow is to check what its floating-point units gave, stage
by stage, in the selected containers (log 98). And what every stage gives: integer, sign, selection and floating-point. -/
def Obligations.CascadeResults : Prop :=
  (∀ (s : State) (c : CoreId) (k : CtxId) (f : CasF), s.cur = .core c k →
    let x := s.ctx c k
    let mu := RM.of (wbits x.hart.fr 0 2)
    let m := x.rm f.mask
    let st1 (i : Nat) := stage f.op1 mu ((x.rm f.selm).getLsbD i) (at_ (x.rv f.va) i) (at_ (x.rv f.vb) i)
    let st2 (i : Nat) := stage f.op2 mu ((x.rm f.selm).getLsbD i) (st1 i).1 (at_ (x.rv f.vc) i)
    let st3 (i : Nat) := stage f.op3 mu ((x.rm f.selm).getLsbD i) (st2 i).1 (at_ (x.rv f.ve) i)
    let fp (op : CasOp) (v : List W32) : BitVec 512 × List W32 := if casIsFp op then (m, v) else (0, [])
    (x.rv f.va).length = 512 → (x.rv f.vb).length = 512 → (x.rv f.vc).length = 512 → (x.rv f.ve).length = 512 →
    ∃ cs fl v1 v2 v3, exec (.vcas f) s = vRes s c k 9 f.vd (if f.zm then BitVec.allOnes 512 else m) cs
        (x.vPois f.va || (readsY f.op1 && x.vPois f.vb) || (readsY f.op2 && x.vPois f.vc) || (readsY f.op3 && x.vPois f.ve) ||
          (!f.zm && f.mask.val != 0 && x.vPois f.vd)) fl [fp f.op1 v1, fp f.op2 v2, fp f.op3 v3] ∧
      FlagsOf m (fun i => (st1 i).2 ||| (st2 i).2 ||| (st3 i).2) fl ∧
      ∀ i, i < 512 → at_ cs i = (if f.zm && !m.getLsbD i then {} else (st3 i).1) ∧
        v1.getD i 0 = (st1 i).1.v ∧ v2.getD i 0 = (st2 i).1.v ∧ v3.getD i 0 = (st3 i).1.v) ∧
  (∀ (mu : RM) (sb : Bool) (y z : Cont), mu ∈ [.rne, .rtz, .rup, .rdn] → FloatStages mu sb y z) ∧
  (∀ (mu : RM) (sb : Bool) (y z : Cont),
    let n := z.v.toNat % 32
    let int (v : W32) : Cont × Fl := ({ v := v, s := false }, 0)
    stage .pass mu sb y z = (y, 0) ∧
    stage .fsel mu sb y z = (if sb then y else z, 0) ∧
    stage .iadd mu sb y z = int (BitVec.ofNat 32 (y.v.toNat + z.v.toNat)) ∧
    stage .isub mu sb y z = int (BitVec.ofInt 32 (y.v.toInt - z.v.toInt)) ∧
    stage .imul mu sb y z = int (BitVec.ofNat 32 (y.v.toNat * z.v.toNat)) ∧
    stage .iand mu sb y z = int (y.v &&& z.v) ∧
    stage .ior mu sb y z = int (y.v ||| z.v) ∧
    stage .ixor mu sb y z = int (y.v ^^^ z.v) ∧
    stage .shl mu sb y z = int (BitVec.ofNat 32 (y.v.toNat * 2 ^ n)) ∧
    stage .shr mu sb y z = int (BitVec.ofNat 32 (y.v.toNat / 2 ^ n)) ∧
    stage .sar mu sb y z = int (BitVec.ofInt 32 (y.v.toInt / 2 ^ n)) ∧
    stage .imin mu sb y z = int (BitVec.ofInt 32 (min y.v.toInt z.v.toInt)) ∧
    stage .imax mu sb y z = int (BitVec.ofInt 32 (max y.v.toInt z.v.toInt)) ∧
    (f32Val y.v ≠ .nan → stage .fabs mu sb y z = ({ v := y.v &&& 0x7FFFFFFF, s := y.s }, 0) ∧
      stage .fneg mu sb y z = ({ v := y.v ^^^ 0x80000000, s := y.s }, 0)) ∧
    (f32Val y.v = .nan → stage .fabs mu sb y z = ({ v := nan32, s := y.s }, 0) ∧
      stage .fneg mu sb y z = ({ v := nan32, s := y.s }, 0)))

/-- R203-R207, R213, R214: conversions, unpacking, packing, random words, reduction trees and the transposer complete for every
kind that they admit, at their latencies; a kind field that names none, or one the transposer does not admit, is a fault. `cvt`
raises the flags of the selected containers, a floating-point tree those of its additions, each with the lowest container that feeds
one; the shadow is to check their results (log 98: the model's choice of the operations with floating-point units). -/
def Obligations.ConversionsTreesAndTransposes : Prop :=
  ∀ (s : State) (c : CoreId) (k : CtxId) (vd vs : Reg) (sk sb : Reg) (kind : BitVec 4) (part : BitVec 3) (msk : MReg),
    s.cur = .core c k →
    let x := s.ctx c k
    let m := x.rm msk
    let old := msk ≠ 0 ∧ x.vPois vd = true
    let ill := Host.Outcome.next (φ := Fault) (ρ := Refusal) (s.raise { code := 0x01 })
    (match kindOf kind.toNat with
     | none => exec (.cvt vd vs kind msk) s = ill ∧ exec (.unpk vd vs kind part) s = ill ∧ exec (.pack vd vs kind part) s = ill
     | some kd =>
       (let rs := (chunks 16 32 (x.rv vs)).flatMap (cvtRun kd)
        ∃ fl, exec (.cvt vd vs kind msk) s = vRes s c k 4 vd m (rs.map (·.1)) (x.vPois vs || decide old) fl
            [(m, rs.map (·.1.v))] ∧
          ((x.rv vs).length = 512 → FlagsOf m (fun i => (rs.getD i ({}, 0)).2) fl)) ∧
       (exec (.unpk vd vs kind part) s = vRes s c k 4 vd (BitVec.allOnes 512)
          (widen kd ((((x.rv vs).flatMap (fun e => bytesOf 4 e.v.toNat)).drop (part.toNat * footprint kd 512)).take (footprint kd 512)))
          (x.vPois vs) []) ∧
       (∃ sel cs, exec (.pack vd vs kind part) s = vRes s c k 4 vd sel cs (x.vPois vs || x.vPois vd || srPois x)
            (narrow kd (frnd x.hart.fr) (x.rv vs) (srWords x)).2 ∧
          let first := part.toNat * footprint kd 512 / 4
          (∀ i, i < 512 → sel.getLsbD i = decide (first ≤ i ∧ i < first + footprint kd 512 / 4)) ∧
          let bs := (narrow kd (frnd x.hart.fr) (x.rv vs) (srWords x)).1
          ((x.rv vs).length = 512 → ∀ i, i < 512 → sel.getLsbD i = true →
            at_ cs i = { v := BitVec.ofNat 32 (leNat ((bs.drop (4 * (i - first))).take 4)) }))) ∧
    (∃ cs, exec (.rnd vd sk sb msk) s = vRes s c k 5 vd m cs (x.hart.sPois sk || x.hart.sPois sb || decide old) [] ∧
      ∀ i, i < 512 → at_ cs i = { v := randWord (x.hart.rs sk) (BitVec.ofNat 32 ((x.hart.rs sb).toNat + i)) }) ∧
    (let tree (i : Instr) (group float : Bool) (add : W32 → W32 → W32 × Fl) : Prop :=
       let sums := (List.range 8).flatMap (fun g => (treeSum add 6 (treeInputs (x.rv vs) m g)).2) ++
         (if group then [] else (treeSum add 3 ((List.range 8).map (fun g => (treeSum add 6 (treeInputs (x.rv vs) m g)).1))).2)
       ∃ cs fl, exec i s = vRes s c k 12 vd (BitVec.allOnes 512) cs (x.vPois vs) fl
           (if float then [(BitVec.allOnes 512, cs.map (·.v))] else []) ∧
         (∀ b n, (b, n) ∈ fl ↔ (b < 6 ∧ (∃ p ∈ sums, p.1.getLsbD b = true ∧ p.2 = n) ∧
           ∀ p ∈ sums, p.1.getLsbD b = true → n ≤ p.2)) ∧
         ∀ n, n < 512 → at_ cs n = { v :=
           if group then (treeSum add 6 (treeInputs (x.rv vs) m (n / 16 % 8))).1.v
           else (treeSum add 3 ((List.range 8).map (fun g => (treeSum add 6 (treeInputs (x.rv vs) m g)).1))).1.v }
     let fa := fadd32 (RM.of (wbits x.hart.fr 0 2))
     let ia (a b : W32) : W32 × Fl := (a + b, 0)
     tree (.vtree vd vs msk) false true fa ∧ tree (.vtreeG vd vs msk) true true fa ∧ tree (.vtreeI vd vs msk) false false ia ∧
       tree (.vtreeGI vd vs msk) true false ia) ∧
    (let tps (i : Instr) (p : Nat) (ok : List Kind) : Prop :=
       match kindOf (wbits x.hart.fr 5 4) with
       | none => exec i s = .next (s.raise { code := 0x11 })
       | some kd =>
         (kd ∉ ok → exec i s = .next (s.raise { code := 0x11 })) ∧
         (kd ∈ ok → ∃ h, exec i s = .next (s.setCtx c k { x with hart := h }) ∧ h.pend.length = x.hart.pend.length + 4 ∧
           ∀ j : Fin 4, ∃ q, h.pend[x.hart.pend.length + j.val]? = some q ∧ q.ic = x.hart.ic + 20 ∧
             q.dst = .v (Fin.ofNat 64 (vd.val + j.val)) ∧ q.src = .have (.v m false (tabulate 512 (tpsCont p
               ((List.range 4).map (fun n => x.rv (Fin.ofNat 64 (vs.val + n)))) j.val))))
     tps (.tps32 vd vs msk) 1 [.f32, .i32] ∧ tps (.tps16 vd vs msk) 2 [.bf16, .f16, .i16] ∧
       tps (.tps8 vd vs msk) 4 [.e4m3, .e5m2, .i8, .n8])

/-- R208-R210: the deferral queue. A push of E entries is scheduled three cycles on, unless COUNT + PEND + E, with the entries
still in flight, would exceed 2,048: the deferral-overflow fault. A pop removes min(COUNT, sL, 512) entries at issue and writes two
registers eight cycles on; COUNT falls and PEND rises by as many. -/
def Obligations.DeferralQueue : Prop :=
  ∀ (s : State) (c : CoreId) (k : CtxId) (vd vs sl sd : Reg) (msk : MReg) (tag : BitVec 6), s.cur = .core c k →
    let x := s.ctx c k
    let sel := (List.range 512).filter (fun i => (x.rm msk).getLsbD i)
    let es : List DEnt := sel.map (fun i => { v := (at_ (x.rv vs) i).v, s := (at_ (x.rv vs) i).s, idx := i, tag := tag.toNat })
    let flying := (x.dqIn.map (fun d => d.ents.length)).sum
    let n := min x.dq.length (min (x.hart.rs sl).toNat 512)
    (x.vPois vs = true → exec (.dpush vs msk tag) s = .next (s.raise { code := 0x07 })) ∧
    (x.vPois vs = false → exec (.dpush vs msk tag) s = .next
      (if 2048 < x.dq.length + x.dqPop + (es.length + flying) then s.raise { code := 0x12 }
       else s.setCtx c k { x with dqIn := x.dqIn ++ [{ ic := x.hart.ic + 3, ents := es, comm := false }] })) ∧
    (x.hart.sPois sl = true → exec (.dpop vd sl) s = .next (s.raise { code := 0x07 })) ∧
    (x.hart.sPois sl = false → ∃ a b,
      exec (.dpop vd sl) s = .next (s.setCtx c k { x with
        hart := (x.hart.emit 8 (.v vd) (.have (.v (BitVec.allOnes 512) false a)) false .plain []).emit 8
          (.v (Fin.ofNat 64 (vd.val + 1))) (.have (.v (BitVec.allOnes 512) false b)) false .plain [],
        dq := x.dq.drop n, dqPop := x.dqPop + n }) ∧
      ∀ j, j < 512 →
        at_ a j = (if j < n then { v := (x.dq.getD j { v := 0, s := false, idx := 0, tag := 0 }).v,
                                   s := (x.dq.getD j { v := 0, s := false, idx := 0, tag := 0 }).s } else {}) ∧
        at_ b j = (if j < n then { v := BitVec.ofNat 32 ((x.dq.getD j { v := 0, s := false, idx := 0, tag := 0 }).tag * 512 +
                                     (x.dq.getD j { v := 0, s := false, idx := 0, tag := 0 }).idx) } else {})) ∧
    exec (.dcnt sd) s = .next (s.setCtx c k { x with hart := x.hart.outS 2 sd (BitVec.ofNat 64 x.dq.length) false })


/-! ## The matrix unit -/

/-- R217-R219, R221, R229: the X syllables. `mcall`, `mwr`, `macz` and `mst` queue a command: a poisoned operand is late, an eighth-full
queue is the queue fault, cause 7, and a full token cause 2; otherwise the command joins the matrix queue with what it captured (its
operand pair, MP0-MP7, FR) and the producers that it consumes, and its token is armed with one producer more. That the full queue comes
before the full token when both apply is the model's choice (log 43). `mpw` writes its parameter register at once, an event of a rerun
pair; `mpr` reads one; `mpr.mq` reads the free entries and BUSY. -/
def Obligations.MatrixSyllables : Prop :=
  ∀ (s : State) (c : CoreId) (k : CtxId) (idx : BitVec 8) (ptok : Tok) (cons : List Tok) (ss sd : Reg) (plane int : Bool)
    (okind : BitVec 4) (rm : BitVec 3) (n : MReg), s.cur = .core c k → (s.core c).ctxs.length = 3 →
    let x := s.ctx c k
    let s2 : Reg := Fin.ofNat 64 (ss.val + 1)
    let used := ((s.core c).matrixOf k).length
    let queued (i : Instr) (op : MOp) (late : Bool) : Prop :=
      (late = true → exec i s = .next (s.raise { code := 0x07 })) ∧
      (late = false → 8 ≤ used → exec i s = .next (s.raise { code := 0x0F, cause := 7 })) ∧
      (late = false → used < 8 → 63 ≤ (x.hart.tok ptok).p → exec i s = .next (s.raise { code := 0x0F, cause := 2 })) ∧
      (late = false → used < 8 → (x.hart.tok ptok).p < 63 →
        let o : Owner := .mem x.gang.toNat c
        let m : MCmd := {
          id := s.fresh + 1, ctx := k, pc := x.hart.bpc, op := op, prod := s.fresh, mp := x.mp, fr := x.hart.fr,
          waits := (s.prods.filter (fun p => p.owner == o && cons.contains p.tok)).map (fun p => p.id) }
        ∃ t, exec i s = .next t ∧ (t.core c).mq = (s.core c).mq ++ [m] ∧
          t.prods = { id := s.fresh, owner := o, tok := ptok, rout := true } :: s.prods ∧
          t.ctx c k = { x with hart := x.hart.setTok ptok { armed := true, p := (x.hart.tok ptok).p + 1 } } ∧
          t.mem = s.mem ∧ t.loopq = s.loopq ∧ t.handles = s.handles)
    let late := x.hart.sPois ss || x.hart.sPois s2
    let mode : RM := match (if rm = 7 then (x.hart.fr.toNat / 4 % 8) else rm.toNat) with
      | 1 => .rtz | 2 => .rup | 3 => .rdn | 4 => .rna | _ => .rne
    queued (.mcall idx ptok cons) (.mcall idx.toNat) false ∧
    queued (.mwr ss ptok cons) (.mwr (x.hart.rs ss) (x.hart.rs s2)) late ∧
    queued (.macz plane int ptok cons) (.macz plane int) false ∧
    queued (.mst plane okind rm ss ptok cons) (.mst plane okind mode (x.hart.rs ss) (x.hart.rs s2)) late ∧
    (x.hart.sPois ss = true → exec (.mpw n ss) s = .next (s.raise { code := 0x07 })) ∧
    (x.hart.sPois ss = false →
      exec (.mpw n ss) s = .next (s.setCtx c k (({ x with mp := mapSet x.mp n.val (x.hart.rs ss) } : Ctx).event
        (bytesOf 2 (0x400 + n.val) ++ bytesOf 8 (x.hart.rs ss).toNat ++ [0])))) ∧
    exec (.mpr sd n) s = sRes s 2 sd (mapGet 0 x.mp n.val) [] ∧
    exec (.mprMq sd) s = sRes s 2 sd (BitVec.ofNat 64 (8 - used + (if used = 0 then 0 else 16))) []

namespace Sys2Proof.Claims
open Sys2Proof.Machine

/-- A micro-op executes (R222, R223): the routine goes on in the state given after the clocks given. -/
def moGo (s : State) (c : CoreId) (r : Routine) (clk : Nat) (s1 : State) : Out :=
  .next (s1.updCore c (fun y => { y with rt := some { r with busy := s.gt + clk } }))

/-- A microprogram fault of the routine's command: while a rerun pair of its context begins in that gt, the pair comes first and the
routine stays where it is (R268). -/
def moFaults (s : State) (c : CoreId) (r : Routine) (detail : Word) : Out :=
  .next (if pairDue s c r.cmd.ctx = true then s else s.microFault c r.cmd r.pc detail)

/-- A breach (R235, R368): the microprogram fault of the command with DETAIL bit 63 and the breach's number. -/
def moBreach (s : State) (c : CoreId) (r : Routine) (n : Nat) : Out := moFaults s c r (BitVec.ofNat 64 (2 ^ 63 + n))

/-- A micro-op waits: it changes nothing but that the routine waits, or that it is suspended because its gang has stopped (R224,
R234). -/
def moWaits (s : State) (c : CoreId) (r : Routine) : Out := .next (s.suspend c { r with mma := none })

end Sys2Proof.Claims

/-- R222-R224, R226, R236, R283: the micro-ops of control, latches and scales, on the routine that the sequencer runs. A rack with CAP 0
is breach 10, one that holds no panel but those written in this clock waits. `mo.popa` and `mo.popb` latch and pop the head panel,
`mo.peeka` latches it alone; a scale micro-op pops a panel of 8 or 6 lines (breach 7 otherwise) inside the footprint (breach 14
otherwise) into the scales, unless a unit of it is marked bad. `mo.wait` of the token that its own command feeds is breach 13. -/
def Obligations.MicroOpControl : Prop :=
  ∀ (s : State) (c : CoreId) (r : Routine) (rack mpd : BitVec 3) (lc : BitVec 2) (target : BitVec 12) (count code : BitVec 16)
    (imm : BitVec 32) (t : Tok), s.cur = .seq c → (s.core c).rt = some r →
    let x := s.ctx c r.cmd.ctx
    let on : Routine := { r with mma := none }
    let nx : Routine := { on with pc := r.pc + 1 }
    let n := rack.toNat
    let cfg : Word := mapGet 0 x.rkcfg n
    let ptr : Word := mapGet 0 x.rkptr n
    let head := ptr.toNat / 2 ^ 32
    let popped := s.updCtx c r.cmd.ctx (fun x => x.setRp n r.cmd.comm (fun p => withHead p (rkHead p + 1)))
    let panel (i : Instr) (go : Out) : Prop :=
      (rkCap cfg = 0 → exec i s = moBreach s c r 10) ∧
      (rkCap cfg ≠ 0 → x.rkReady n s.gt = 0 → exec i s = moWaits s c r) ∧
      (rkCap cfg ≠ 0 → x.rkReady n s.gt ≠ 0 → exec i s = go)
    let off := 64 * (rkBase cfg + head % rkCap cfg * rkPanl cfg)
    let seg : List Seg := [{ key := loopKey c off, len := 64 * rkPanl cfg }]
    let inFoot := x.fpUnit * 65536 ≤ off ∧ off + 64 * rkPanl cfg ≤ (x.fpUnit + x.fpCnt) * 65536
    let words (lines : Nat) : List W32 :=
      (chunks 4 128 (s.bytesAt 0 (loopKey c off) (64 * lines))).map (fun b => BitVec.ofNat 32 (leNat b))
    let scl (i : Instr) (lines : Nat) (r1 : Routine) : Prop :=
      (rkPanl cfg ≠ lines → panel i (moBreach s c r 7)) ∧
      (rkPanl cfg = lines → ¬ inFoot → panel i (moBreach s c r 14)) ∧
      (rkPanl cfg = lines → inFoot → readsBad s seg = true → panel i (.next (s.matrixBad c r.cmd seg))) ∧
      (rkPanl cfg = lines → inFoot → readsBad s seg = false → panel i (moGo s c r1 1 popped))
    exec .moNop s = moGo s c nx 1 s ∧
    exec .moEnd s = moGo s c { on with ended := true } 1 s ∧
    exec (.moTrap code) s = moFaults s c r (code.setWidth 64) ∧
    exec (.moTok t) s = moGo s c nx 1 (s.updCtx c r.cmd.ctx (fun y =>
      { y with hart := y.hart.setTok t { (y.hart.tok t) with armed := true } })) ∧
    exec (.moPadd mpd imm) s =
      moGo s c { nx with mp := mapSet r.mp mpd.toNat (mapGet 0 r.mp mpd.toNat + imm.signExtend 64) } 1 s ∧
    exec .moSclClr s = moGo s c { nx with rows := none, cols := none } 1 s ∧
    exec (.moLoop target lc count) s =
      (let m := (if mapGet 0 r.lc lc.toNat = 0 then count.toNat else mapGet 0 r.lc lc.toNat) - 1
       moGo s c { on with lc := mapSet r.lc lc.toNat m, pc := if m = 0 then r.pc + 1 else target.toNat } 1 s) ∧
    exec (.moWait t) s =
      (if s.prods.any (fun p => p.id == r.cmd.prod && p.tok == t) then moBreach s c r 13
       else if (x.hart.tok t).armed && (x.hart.tok t).p == 0 then moGo s c nx 1 s else moWaits s c r) ∧
    panel (.moPopa rack) (moGo s c { nx with la := some { rack := n, n := rkHead ptr } } 1 popped) ∧
    panel (.moPopb rack) (moGo s c { nx with lb := some { rack := n, n := rkHead ptr } } 1 popped) ∧
    panel (.moPeeka rack) (moGo s c { nx with la := some { rack := n, n := rkHead ptr } } 1 s) ∧
    scl (.moSclRow rack) 8 { nx with rows := some (words 8) } ∧
    scl (.moSclCol rack) 6 { nx with cols := some (words 6) }

/-- The integer of byte `n` of a panel: i8 is signed, n8 is not (R69, R228). -/
def Sys2Proof.Claims.panelInt (k : Kind) (bs : List Byte) (n : Nat) : Int :=
  if k = .i8 then (bs.getD n 0).toInt else (bs.getD n 0).toNat

/-- R224, R226, R228-R231, R67, R69, R236, R283: the micro-ops of the planes. Those that touch a plane wait while a drain of it runs.
`mo.zero` gives the plane its INT tag and zeros. `mo.mma` takes 32 clocks for each group: it needs operand kinds that the plane admits
(breach 5), both latches (6), panels of the size that the kinds and groups give (7) and inside the footprint (14), of which no unit is
marked bad; on an integer plane each cell gains the sum of the products of its row and column, modulo 2^32. `mo.drn` starts a drain
to the Loop, or is its breach. `mo.pushr` needs a SELF rack (10), an admitted kind (8), panels of 128 rows of the kind (7) inside the
footprint (14), and waits for a free slot. `mo.shr` checks its receivers, its panel and the descriptor record that a read-only
receiver takes (14) and their tails (12), waits for them, and starts a transfer of the head panel to the cores of its mask. That the
breaches of `mo.mma` come in the order 5, 6, 7, 14 is log 42, that breach 12 counts the sender's own transfers log 51: both are the
model's choice. -/
def Obligations.MicroOpPlanes : Prop :=
  (∀ (s : State) (c : CoreId) (r : Routine) (plane int clr : Bool) (ka kb okind : BitVec 4) (ng : BitVec 6) (rm mpd rack drack : BitVec 3)
    (rstr : BitVec 16) (cmask : BitVec 8), s.cur = .seq c → (s.core c).rt = some r →
    let x := s.ctx c r.cmd.ctx
    let nx : Routine := { r with mma := none, pc := r.pc + 1 }
    let p : Plane := if plane then x.acc1 else x.acc0
    let put (q : Plane) : State := s.updCtx c r.cmd.ctx (fun y => y.setPlane plane r.cmd.comm q)
    let draining := (s.core c).drains.any (fun d => d.ctx == r.cmd.ctx && d.plane == plane)
    let cfg : Word := mapGet 0 x.rkcfg rack.toNat
    let seg (g : Word) (n : Nat) : Seg := { key := loopKey c (panelOff g n), len := 64 * rkPanl g }
    (draining = true → exec (.moZero plane int) s = moWaits s c r ∧ exec (.moMma plane ka kb ng) s = moWaits s c r ∧
      exec (.moDrn plane okind rm mpd rstr clr) s = moWaits s c r ∧ exec (.moPushr plane okind rm rack clr) s = moWaits s c r) ∧
    (draining = false →
      exec (.moZero plane int) s = moGo s c nx 1 (put { int := int }) ∧
      (match kindOf ka.toNat, kindOf kb.toNat with
       | some a, some b =>
         if ¬ (if p.int then (a = .i8 ∨ a = .n8) ∧ (b = .i8 ∨ b = .n8)
               else mmaFloat a = true ∧ mmaFloat b = true) then exec (.moMma plane ka kb ng) s = moBreach s c r 5
         else match r.la, r.lb with
           | some la, some lb =>
             let n := ng.toNat * min (groupSize a) (groupSize b)
             let ca : Word := mapGet 0 x.rkcfg la.rack
             let cb : Word := mapGet 0 x.rkcfg lb.rack
             if 64 * rkPanl ca ≠ 128 * (bitsOf16 a * n / 128) ∨ 64 * rkPanl cb ≠ 96 * (bitsOf16 b * n / 128) then
               exec (.moMma plane ka kb ng) s = moBreach s c r 7
             else if ¬ (panelInFp x ca la.n = true ∧ panelInFp x cb lb.n = true) then
               exec (.moMma plane ka kb ng) s = moBreach s c r 14
             else if readsBad s [seg ca la.n, seg cb lb.n] then
               exec (.moMma plane ka kb ng) s = .next (s.matrixBad c r.cmd [seg ca la.n, seg cb lb.n])
             else
               let q := mmaPlane p a b ng.toNat (panelBytes s c ca la.n) (panelBytes s c cb lb.n)
               exec (.moMma plane ka kb ng) s =
                 moGo s c { nx with fl := r.fl ||| q.2, mma := some (plane, p) } (32 * ng.toNat) (put q.1)
           | _, _ => exec (.moMma plane ka kb ng) s = moBreach s c r 6
       | _, _ => exec (.moMma plane ka kb ng) s = moBreach s c r 5) ∧
      exec (.moDrn plane okind rm mpd rstr clr) s =
        (match s.startDrain c r.cmd plane okind (drainMode rm r.cmd.fr) (mapGet (0 : Word) r.mp mpd.toNat).toNat rstr.toNat clr
            r.rows r.cols s.gt with
         | .ok (t, fl) => moGo s c { nx with fl := r.fl ||| fl } 1 t
         | .error b => moBreach s c r b) ∧
      (let i : Instr := .moPushr plane okind rm rack clr
       let tail := rkTail (x.rp rack.toNat)
       if rkCap cfg = 0 ∨ cfg.getLsbD 26 = false then exec i s = moBreach s c r 10
       else match kindOf okind.toNat with
         | none => exec i s = moBreach s c r 8
         | some kd =>
           if ¬ (p.int = true ∨ intOf kd = none) then exec i s = moBreach s c r 8
           else if 64 * rkPanl cfg ≠ 128 * (bitsOf16 kd * 96 / 128) then exec i s = moBreach s c r 7
           else if ¬ panelInFp x cfg tail = true then exec i s = moBreach s c r 14
           else if slotFree s c r.cmd.ctx rack.toNat = false ∨
               (s.core c).drains.any (fun d => d.ctx == r.cmd.ctx && d.rack == some rack.toNat) = true then exec i s = moWaits s c r
           else
             let q := drainBytes p kd (drainMode rm r.cmd.fr) r.rows r.cols
             exec i s = moGo s c { nx with fl := r.fl ||| q.2 } 1 ((put (if clr then { p with rows := [] } else p)).updCore c (fun y =>
               { y with drains := y.drains ++ [{
                   cmd := r.cmd.id, ctx := r.cmd.ctx, plane := plane, rack := some rack.toNat, bytes := q.1.flatMap (fun b => b),
                   endGt := s.gt + 128, segs := [seg cfg tail] }] })))) ∧
    (let i : Instr := .moShr rack cmask drack
     let n := rkHead (x.rp rack.toNat)
     let g := x.gang.toNat
     let ts := maskCores c cmask
     if rkCap cfg = 0 then exec i s = moBreach s c r 10
     else if x.rkReady rack.toNat s.gt = 0 then exec i s = moWaits s c r
     else match ts.filterMap (shrStatic s c g cfg drack.toNat) with
       | b :: _ => exec i s = moBreach s c r b
       | [] =>
         if ¬ panelInFp x cfg n = true then exec i s = moBreach s c r 14
         else if ts.any (fun t => (peerCtx s g t).any (fun q => ((s.ctx t q).rk drack.toNat).getLsbD 63)) = true ∧
             inFp x.fpUnit x.fpCnt (sdpOff cfg) 64 = false then
           exec i s = moBreach s c r 14
         else if ts.any (shrAhead s c g drack.toNat n) = true then exec i s = moBreach s c r 12
         else if shrWaits s g drack.toNat n ts = true then exec i s = moWaits s c r
         else if readsBad s [seg cfg n] = true then exec i s = .next (s.matrixBad c r.cmd [seg cfg n])
         else exec i s = moGo s c nx 1 ((s.updCore c (fun y => { y with shrs := y.shrs ++ [{
           id := s.fresh, cmd := r.cmd.id, ctx := r.cmd.ctx, rack := rack.toNat, n := n, drack := drack.toNat, cores := ts,
           bytes := panelBytes s c cfg n, endGt := s.gt + 1 + (64 * rkPanl cfg + 511) / 512, mcmd := r.cmd, pc := r.pc }] })).bump))) ∧
  (∀ (p : Plane) (ka kb : Kind) (ng : BitVec 6) (a b : List Byte) (i j : Nat), p.int = true → (ka = .i8 ∨ ka = .n8) →
    (kb = .i8 ∨ kb = .n8) → i < 128 → j < 96 →
    let n := 32 * ng.toNat
    a.length = 128 * n → b.length = 96 * n →
    ((mmaPlane p ka kb ng.toNat a b).1.cell i j).i = (p.cell i j).i +
      BitVec.ofInt 32 (((List.range n).map (fun t => panelInt ka a (i * n + t) * panelInt kb b (j * n + t))).sum))

/-! ## The fabric -/

/-- R309, R310, R318, R285: `snd` and `rcv`. A task that is the source of a LIVE handle with credit and room for 33 flits sends its
register's image: 33 DATA flits whose SEQ run on from NEXT, LAST and SPL with the last, kept until they are acknowledged (those that
went out before are not sent again), and the flag reads false; without credit or room nothing is sent and the flag reads true;
before the handle is LIVE it waits. Attempt A of a rerun pair waits for nothing and sends nothing, and counts as the other does.
A task that is the destination of a handle whose queue holds a whole register message takes it: the register receives the image
four issue cycles on, and the head moves by 33; without one it waits. A poisoned source is late; a free handle, a handle of another
task, a broken and a dead one are the no-live-circuit fault with causes 0, 1, 0 and 2. An encrypted circuit whose SEQ would reach
2^32 dies, and the `snd` takes the fault. -/
def Sys2Proof.Claims.MessagesSentAndReceived : Prop :=
  ∀ (s : State) (c : CoreId) (k : CtxId) (n : Handle) (v : Reg) (bd : BReg), s.cur = .core c k →
    let x := s.ctx c k
    let h := s.hnd n
    let trap (cause : Nat) : Trap := { code := 0x06, cause := cause, detail := BitVec.ofNat 64 n.val }
    let noLive (cause : Nat) : Out := .next (s.raise (trap cause))
    let used := (s.handles.map (fun (p : Nat × Hnd) => if p.2.srcp = h.srcp then p.2.unacked.length else 0)).foldl (· + ·) 0
    let credit := (h.limit + 2 ^ 32 - h.next) % 2 ^ 32
    let first := ∃ r, x.rerun = some r ∧ r.second = false
    let flag (u : State) (b : Bool) : State := u.updCtx c k (fun y => { y with hart := x.hart.outB 1 bd b })
    let flits := (List.range 33).filterMap (fun j =>
      let q := (h.next + j) % 2 ^ 32
      if seqBefore q h.sentTo then none
      else some ({ sq := q, gen := h.g, lastf := j == 32, spl := j == 32, isRed := false,
                   data := ((imageOf (x.rv v)).drop (64 * j)).take 64, sbits := 0, ok := true, at_ := s.gt } : Flit))
    (x.vPois v = true → exec (.snd n v bd) s = .next (s.raise { code := 0x07 })) ∧
    (x.vPois v = false →
      (h.st = .free → exec (.snd n v bd) s = noLive 0) ∧
      (h.st ≠ .free → isSrc x c h = false → exec (.snd n v bd) s = noLive 1) ∧
      (isSrc x c h = true → h.st = .broken → exec (.snd n v bd) s = noLive 0) ∧
      (isSrc x c h = true → h.st = .dead → exec (.snd n v bd) s = noLive 2) ∧
      (isSrc x c h = true → (h.st = .scheduled ∨ h.st = .settling) → ¬ first →
        exec (.snd n v bd) s = .next (s.setStall (.snd n (imageOf (x.rv v)) bd x.hart.slot))) ∧
      (isSrc x c h = true → (h.st = .live ∨ (first ∧ h.st ≠ .broken ∧ h.st ≠ .dead)) →
        (h.key ≠ none → 2 ^ 32 ≤ h.next + 33 →
          exec (.snd n v bd) s = .next { (s.dieHandle n (widthH s h)).coreFault c k x.hart.slot x.hart.bpc (trap 2) with abort := true }) ∧
        ((h.key = none ∨ h.next + 33 < 2 ^ 32) →
          ((credit < 33 ∨ 2 ^ 31 ≤ credit ∨ 4096 < used + 33) → exec (.snd n v bd) s = .next (flag s true)) ∧
          (33 ≤ credit → credit < 2 ^ 31 → used + 33 ≤ 4096 →
            (first → exec (.snd n v bd) s = .next (flag (s.setHnd n { h with next := (h.next + 33) % 2 ^ 32 }) false)) ∧
            ((imageOf (x.rv v)).length = 2112 → ¬ first → exec (.snd n v bd) s = .next (flag (s.setHnd n { h with
              next := (h.next + 33) % 2 ^ 32, unacked := h.unacked ++ flits, wire := h.wire ++ flits.map (·.sq),
              sentTo := match flits.getLast? with
                | some f => (f.sq + 1) % 2 ^ 32
                | none => h.sentTo }) false)))))) ∧
    (h.st = .free → exec (.rcv v n) s = noLive 0) ∧
    (h.st ≠ .free → isDst x c h = false → exec (.rcv v n) s = noLive 1) ∧
    (isDst x c h = true → badMessage h.rq = false → 33 ≤ h.rq.length →
      exec (.rcv v n) s = .next (((s.setHnd n { h with rq := h.rq.drop 33, poppedF := h.poppedF ++ h.rq.take 33,
                                                        head := (h.head + 33) % 2 ^ 32 }).logEv 4 n.val).updCtx c k (fun y =>
        { y with hart := x.hart.emit 4 (.v v)
                   (.have (.v (BitVec.allOnes 512) false (ofImage ((h.rq.take 33).flatMap (·.data))))) false .plain [] }))) ∧
    (isDst x c h = true → badMessage h.rq = true → exec (.rcv v n) s = noLive 3) ∧
    (isDst x c h = true → badMessage h.rq = false → h.rq.length < 33 →
      ((h.st = .live ∨ h.st = .settling ∨ h.st = .scheduled) →
        exec (.rcv v n) s = .next (s.setStall (.rcv n v x.hart.slot s.gt))) ∧
      (h.st = .dead → exec (.rcv v n) s = noLive 2) ∧
      (h.st = .broken → exec (.rcv v n) s = noLive 0))

/-- R311, R312, R293, R292: `cst` and `chq`. `cst` of a handle that the task owns reads its state, and when it is LIVE its width,
its active wavelengths and its version, its generation, and to the source its credit, at most 1,024; the flag is LIVE. While a flit
goes out the wavelengths are those it goes out on. `chq` reads
to the destination the number of whole messages, at most 31, and of flits, at most 1,024; the flag is that a whole message is
there. To another task both read 0 and false. -/
def Sys2Proof.Claims.CircuitStatus : Prop :=
  ∀ (s : State) (c : CoreId) (k : CtxId) (n : Handle) (sd : Reg) (bd : BReg), s.cur = .core c k →
    let x := s.ctx c k
    let h := s.hnd n
    let two (w : Nat) (b : Bool) : Out := .next (s.setHart ((x.hart.outS 2 sd (BitVec.ofNat 64 w) false).outB 2 bd b))
    let state := match h.st with
      | .free => 0 | .scheduled => 1 | .settling => 2 | .live => 3 | .broken => 4 | .dead => 5
    let d := (h.limit + 2 ^ 32 - h.next) % 2 ^ 32
    let credit := if isSrc x c h then (if 2 ^ 31 ≤ d then 0 else min d 1024) else 0
    let act := if 1000 * s.gt < h.wireEnd then h.eff else activeOf s h.srcp h.dstp h.mask
    let width := ((List.range 8).filter (fun i => act.getLsbD i)).length
    let msgs := min ((h.rq.filter (fun f => f.lastf)).length) 31
    (ownedBy x h = false → exec (.cst sd bd n) s = two 0 false) ∧
    (ownedBy x h = true → h.st ≠ .live → exec (.cst sd bd n) s = two (credit * 2 ^ 32 + h.g % 16 * 2 ^ 16 + state) false) ∧
    (ownedBy x h = true → h.st = .live →
      exec (.cst sd bd n) s =
        two (credit * 2 ^ 32 + h.ver % 16 * 2 ^ 20 + h.g % 16 * 2 ^ 16 + act.toNat * 2 ^ 8 + width * 16 + 3) true) ∧
    (isDst x c h = false → exec (.chq sd bd n) s = two 0 false) ∧
    (isDst x c h = true → exec (.chq sd bd n) s = two (msgs * 2 ^ 16 + min h.rq.length 1024) (decide (msgs ≠ 0)))

/-- R302-R307, R313: the events of the transport. A flit is taken only when it is whole, of the generation in force, the next expected
and within the 1,024-flit queue; a REDUCE and a DATA flit are taken each by its own event, and each is answered to a sender in another
package: ACK when taken or taken before, NACK with EXPECT when it is ahead, STALE for a generation 1 to 7 behind; one of another package
with a bad CRC asks that package for a link replay, and a whole one is acknowledged by the link (log 115). An ACK frees the flits
up to its SEQ that the receiver has taken; a NACK and a time-out of the oldest flit resend from it, the eighth time-out kills the
handle; a STALE sends the flit again under the generation in force, or where the circuit is not LIVE drops the data and reports 0x34
with the first SEQ undelivered; a CREDIT moves the limit to 1,024 above the receiver's committed head; a HELLO agrees on version 1, or
kills the handle with 0x36; the data that a BREAK caught is dropped and reported 2,048 gt after it; a link replay sends again the flits
of the circuit in the buffer from the damaged one on, beside the replays of other circuits. That a flit arrives by an event that names
it is the model's (log 58), and so is what a request names (log 115). -/
def Obligations.TransportEvents : Prop :=
  ∀ (s : State),
    let n := s.arg.handle
    let h := s.hnd n
    let q := s.arg.n
    let behind (gen : Nat) : Prop := 1 ≤ (h.g + 16 - gen % 16) % 16 ∧ (h.g + 16 - gen % 16) % 16 ≤ 7
    let reply (u : State) (g : Hnd) (type sq : Nat) : State := if h.sep = 0x3FF then u.outFlit n (ctlFlit g n type sq h.ver) else u
    let again : Hnd := { h with unacked := h.unacked.map (fun f => { f with at_ := s.gt }), wire := h.unacked.map (·.sq) }
    let linked (q : Nat) : Hnd := { h with linkTo := if seqBefore q h.linkTo then h.linkTo else (q + 1) % 2 ^ 32 }
    (arriving s n = none → exec .dataFlit s = .next s ∧ exec .reduceFlit s = .next s) ∧
    (∀ f, arriving s n = some f →
      let stands := h.here = true ∧ f.ok = true ∧ (h.sep = 0x3FF → h.st = .live)
      let acts (u : State) : Prop := if f.isRed then exec .reduceFlit s = .next u ∧ exec .dataFlit s = .next s
        else exec .dataFlit s = .next u ∧ exec .reduceFlit s = .next s
      let g := linked f.sq
      let u := s.setHnd n g
      (f.ok = false → acts (if h.sep = 0x3FF ∧ (h.st = .live ∨ h.st = .settling) then s.out (.event "LINKREPLAY" [h.srcp, n.val]) else s)) ∧
      (f.ok = true → ¬ stands → acts u) ∧
      (stands → f.gen ≠ h.g → (behind f.gen → acts (reply u g 4 f.sq)) ∧ (¬ behind f.gen → acts u)) ∧
      (stands → f.gen = h.g → f.sq = h.expect →
        let g1 : Hnd := { g with rq := h.rq ++ [{ f with peer := h.peer }], expect := (h.expect + 1) % 2 ^ 32 }
        (h.rq.length + h.poppedF.length < 1024 → acts (reply (u.setHnd n g1) g1 2 f.sq)) ∧
        (1024 ≤ h.rq.length + h.poppedF.length → acts u)) ∧
      (stands → f.gen = h.g → f.sq ≠ h.expect →
        acts (if seqBefore f.sq h.expect then reply u g 2 f.sq else reply u g 3 h.expect))) ∧
    ((h.dep = 0x3FF ∨ seqBefore q h.expect = true) →
      let rest := h.unacked.filter (fun f => seqBefore q f.sq)
      exec .ack s = .next (s.setHnd n { (linked q) with
                                               unacked := rest, wire := h.wire.filter (seqBefore q),
                                               tmo := if rest.length < h.unacked.length then 0 else h.tmo })) ∧
    (h.dep ≠ 0x3FF → seqBefore q h.expect = false → exec .ack s = .next s) ∧
    exec .nack s = .next (s.setHnd n again) ∧
    (h.unacked.find? (fun f => f.sq == q) = none → exec .stale s = .next s) ∧
    (∀ f, h.unacked.find? (fun f => f.sq == q) = some f →
      (h.dep ≠ 0x3FF → ¬ behind f.gen → exec .stale s = .next s) ∧
      ((h.dep = 0x3FF ∨ behind f.gen) →
        (h.st = .live → exec .stale s = .next (s.setHnd n { h with
          wire := h.wire ++ [q],
          unacked := h.unacked.map (fun g => if g.sq = q then { g with gen := h.g, at_ := s.gt } else g) })) ∧
        (h.st ≠ .live → exec .stale s = .next ((s.setHnd n { h with unacked := [], wire := [] }).hndRec n 0x34
          (BitVec.ofNat 64 (h.unacked.head?.elim 0 (·.sq))))))) ∧
    exec .credit s = .next (s.setHnd n (if h.st = .free then h else
      { h with limit := ((if h.dep = 0x3FF then q else h.headCk) + 1024) % 2 ^ 32 })) ∧
    (h.st ≠ .live ∨ h.hello = false → exec .hello s = .next s) ∧
    (h.st = .live → h.hello = true →
      (1 ≤ q → exec .hello s = .next ((if h.sep = 0x3FF then s.outFlit n (ctlFlit h n 1 0 1) else s).updHnd n (fun h =>
        { h with ver := 1, hello := false }))) ∧
      (q = 0 → exec .hello s = .next ((s.hndRec n 0x36 0).updHnd n (fun h =>
        { h.fall .dead with unacked := [], rq := wholeOnly h.rq, hello := false })))) ∧
    (h.unacked = [] → exec .transportTimeout s = .next s) ∧
    (∀ f l, h.unacked = f :: l →
      (h.st ≠ .live ∨ s.gt < f.at_ + 2048 → exec .transportTimeout s = .next s) ∧
      (h.st = .live → f.at_ + 2048 ≤ s.gt →
        (h.tmo = 7 → exec .transportTimeout s = .next (s.dieHandle n (widthH s h + 16))) ∧
        (h.tmo ≠ 7 → exec .transportTimeout s = .next (s.setHnd n { again with tmo := h.tmo + 1 })))) ∧
    (let u := match h.caught with
       | e :: l => if e.gt + 2048 ≤ s.gt then
           (s.setHnd n { h with caught := l }).fabricRec e.tile 0x34 n.val (BitVec.ofNat 64 e.seq) e.asid e.gang 0 else s
       | [] => s
     let g := u.hnd n
     let dark := g.st = .broken ∨ (g.st = .scheduled ∧ g.base = .broken)
     (g.unacked = [] ∨ ¬ dark ∨ u.gt < g.brokeAt + 2048 → exec .breakDataDrop s = .next u) ∧
     (∀ f l, g.unacked = f :: l → dark → g.brokeAt + 2048 ≤ u.gt →
       exec .breakDataDrop s = .next ((u.setHnd n { g with unacked := [] }).hndRec n 0x34 (BitVec.ofNat 64 f.sq)))) ∧
    (let x := s.port s.arg.port
     let e := (n.val, q)
     (e ∉ x.buf → exec .linkReplayRequest s = .next s) ∧
     (e ∈ x.buf → exec .linkReplayRequest s = .next (s.setPort s.arg.port { x with
       replay := x.replay.filter (fun f => f.1 != n.val) ++ (x.buf.dropWhile (fun f => f != e)).filter (fun f => f.1 == n.val) })))

/-- R291, R316-R318, R299, R6: light that is lost and restored, and boundary links. Failed laser banks take their wavelengths from the
transmit sides of their reticles, and 0x31 is reported to the tiles there with the banks that failed in that gt; a ring takes its
wavelength from both sides of its port and reports 0x32 to the tile of the port. A waking wavelength that is lost does not join. After a
loss circuits whose width has fallen below 2 die at their flit boundary (log 47: at once when no flit is going out), the link replays on
the source ports of circuits whose wavelengths changed start again, each from the oldest flit that the link has not acknowledged (log
115), and tiles without the service mesh fault their gangs. A restore clears what was lost, and is refused in the Safe Talkative State
(R365). A boundary link is established only where the boundary ports are enabled; one that goes down is reported by each slot that holds
its port. -/
def Obligations.LightAndLinks : Prop :=
  ∀ (s : State),
    let p := s.arg.port
    let l : BitVec 8 := 1#8 <<< s.arg.lam.val
    let x := s.port p
    let banks := s.arg.ids.filter (fun b => b < 32)
    let dark (b : Nat) (s : State) : State :=
      let m : BitVec 8 := 1#8 <<< (b % 8)
      let u : State := (bankPorts b).foldl (fun s p => s.setPort p { s.port p with
        failed := (s.port p).failed ||| m, waking := (s.port p).waking.filter (fun w => !m.getLsbD w.lam.val) }) s
      { u with laserF := u.laserF ||| (1#32 <<< b) }
    (p < 320 → exec .ringTuningLoss s = .next (((s.setPort p { x with
        failed := x.failed ||| l, failedR := x.failedR ||| l,
        waking := x.waking.filter (fun w => !l.getLsbD w.lam.val) }).fabricRec (portTile p) 0x32 p (l.setWidth 64) 0 0 0).afterLoss s)) ∧
    (s.safe = true → exec .wavelengthRestore s = .next (s.out (.event "REFUSED" [10, s.gt]))) ∧
    (s.safe = false → p < 320 → exec .wavelengthRestore s = .next { (s.setPort p { x with failed := x.failed &&& ~~~l, failedR := x.failedR &&& ~~~l }) with
      laserF := s.laserF &&& ~~~(1#32 <<< (8 * (if p < 256 then p / 64 else (p - 256) / 16) + s.arg.lam.val)) }) ∧
    (∀ (before : State) (q : Nat),
      let ch (h : Hnd) : Bool := (h.st == .settling || h.st == .live) &&
        activeOf s h.srcp h.dstp h.mask != activeOf before h.srcp h.dstp h.mask
      let l := s.handles.filter (fun e => ch e.2 && e.2.srcp == q)
      (s.linkRestart before).port q = (if l = [] then s.port q else { s.port q with
        replay := l.flatMap (fun e => ((s.port q).buf.filter (fun f => f.1 == e.1)).dropWhile (fun f => seqBefore f.2 e.2.linkTo)) })) ∧
    (∀ n : Handle, let h := s.hnd n
      let late : Bool := decide (1000 * (s.gt + 1) ≤ h.wireEnd)
      (h.dying = 0 ∨ late = true → s.dieAtFlit n = s) ∧
      (h.dying ≠ 0 → late = false → (h.st = .settling ∨ h.st = .live) → widthH s h < 2 → s.dieAtFlit n = s.dieHandle n h.dying)) ∧
    (320 ≤ p → exec .ringTuningLoss s = .next s ∧ (s.safe = false → exec .wavelengthRestore s = .next s)) ∧
    (∃ tiles : List Nat, (∀ t, t ∈ tiles ↔ t < 16 ∧ ∃ b ∈ banks, b / 8 = t / 4) ∧ tiles.Pairwise (· < ·) ∧
      exec .laserBankFailure s = .next ((tiles.foldl (fun u t => u.fabricRec (Fin.ofNat 16 t) 0x31 0
        (BitVec.ofNat 64 (banks.foldl (fun m b => m ||| 2 ^ b) 0)) 0 0 0) (banks.foldl (fun u b => dark b u) s)).afterLoss s)) ∧
    exec .boundaryLinkEstablish s = .next (if s.feats.getLsbD 1 then { s with links := mapSet s.links (p % 64) (s.arg.n % 65536) } else s) ∧
    (let u := ((List.range 8).filter (fun v => (s.slot (Fin.ofNat 8 v)).ports.contains (Fin.ofNat 64 p))).foldl (fun u v =>
       let w := u.slot (Fin.ofNat 8 v)
       u.fabricRec w.tile 0x35 (p % 64) 0 w.asid w.gang 0) s
     exec .boundaryLinkDown s = .next { u with links := mapDel u.links (p % 64) })

/-! ## The Cellarer -/

namespace Sys2Proof.Claims
open Sys2Proof.Machine

/-- A scalar result of a Cellarer lands four issue cycles on (R321). -/
def cellS (s : State) (t : TileId) (sd : Reg) (v : Word) : State :=
  s.updCell t (fun y => { y with hart := y.hart.outS 4 sd v false })

/-- Eight scalar results of a Cellarer in consecutive registers. -/
def cellS8 (s : State) (t : TileId) (sd : Reg) (f : Nat → Word) : State :=
  s.updCell t (fun y => { y with hart := [0, 1, 2, 3, 4, 5, 6, 7].foldl (fun (h : Hart) j =>
    h.outS 4 (Fin.ofNat 64 (sd.val + j)) (f j) false) y.hart })

/-- A Cellarer stalls; the wait of a K syllable of its bundle goes on beside (R101). -/
def cellWaits (s : State) (t : TileId) (st : Stall) : State :=
  s.updCell t (fun y => { y with
    stall := some st
    stallK := match y.stall with
      | some k => some (k, 0)
      | none => y.stallK })

/-- The core that bits 8:0 of a word name lies on a tile. -/
def onTile (t : TileId) (w : Word) : Prop := w.toNat % 512 / 32 = t.val

end Sys2Proof.Claims

/-- R128, R129, R321, R324-R326, R322, R340: control registers, waits, events and the return from one. `csrr` reads a register and `csrw`
writes it: RUN is ignored, EVTPEND clears the bits written 1, PKGID and CPC stay. `rdsr` reads GT, FR, FLAGS, FEVT and DEVREC and `wrsr`
writes; `trap` and `brk` stop the Cellarer with their faults. `semw` stalls until a semaphore has reached a value and `semw.t` tests it;
`irq` sends a PF vector, or leaves it pending where the MSI-X table holds it back; `wfe` reads EVTPEND when an enabled event is pending
and stalls otherwise. `eret` is a taken branch to EPC, and EIE is set as its target issues; an EPC that is no address of a bundle is the
access fault. An enabled event is entered with EPC at the next bundle, EIE 0 and EVEC as the address, when no branch and no wait stands;
TIMER is set once when GT has reached EVTTIME. The model's readings: a vector held back by MSI-X is pending once (log 88), `eret` tests
EPC as an access fault, and TIMER is set once for a value of EVTTIME (log 29). -/
def Sys2Proof.Claims.CellarerRegistersAndEvents : Prop :=
  ∀ (s : State) (t : TileId) (sd sa sb r : Reg) (ix : BitVec 12) (bd : BReg) (code : BitVec 16), s.cur = .cell t → ix.toNat ≤ 8 →
    let x := s.cell t
    let v := x.hart.rs sb
    let pending : Word := x.evtpend.setWidth 64 &&& x.evtmask
    let sem := s.sem ((x.hart.rs sa).setWidth 16)
    let n (b : Bool) : Nat := if b then 1 else 0
    let stop (tr : Trap) : Out := .next ({ s.cellFault t x.hart.slot x.hart.bpc tr with abort := true } : State)
    exec (.trap code) s = stop { code := 0x13, detail := code.setWidth 64 } ∧ exec .brk s = stop { code := 0x14 } ∧
    (let w : Word := match r.val with
       | 0 => BitVec.ofNat 64 s.gt
       | 8 => x.hart.fr
       | 9 => x.hart.flags
       | 10 => x.hart.fevt0
       | 11 => x.hart.fevt1
       | 34 => s.devrec
       | _ => 0
     r.val ∈ [0, 8, 9, 10, 11, 34] → exec (.rdsr sd r) s = .next (s.updCell t (fun y => { y with hart := y.hart.outS 1 sd w false }))) ∧
    (r.val ∈ [9, 10, 11] → exec (.wrsr r sb) s = (if x.hart.sPois sb then stop { code := 0x07 } else
      .next (s.updCell t (fun y => { y with hart := y.hart.later r.val v })))) ∧
    exec (.csrr sd ix) s = .next (cellS s t sd (match ix.toNat with
      | 0 => BitVec.ofNat 64 (t.val * 16 + n x.faulted * 4 + n x.eie * 2 + n x.run)
      | 1 => BitVec.ofNat 64 x.cpc
      | 2 => x.evtpend.setWidth 64
      | 3 => x.evtmask
      | 4 => x.evec
      | 5 => x.epc
      | 6 => x.casid.setWidth 64
      | 7 => x.evttime
      | _ => s.pkgid.setWidth 64)) ∧
    exec (.csrw ix sb) s = .next (match ix.toNat with
      | 0 => s.updCell t (fun y => { y with eie := v.getLsbD 1 })
      | 2 => s.updCell t (fun y => { y with evtpend := y.evtpend &&& ~~~(v.setWidth 8) })
      | 3 => s.updCell t (fun y => { y with evtmask := v })
      | 4 => s.updCell t (fun y => { y with evec := v })
      | 5 => s.updCell t (fun y => { y with epc := v })
      | 6 => s.updCell t (fun y => { y with casid := v.setWidth 16 })
      | 7 => s.updCell t (fun y => { y with evttime := v, fired := false })
      | _ => s) ∧
    exec (.semw sa sb) s = .next
      (if v.toNat ≤ sem.toNat then s
       else cellWaits s t (.semw ((x.hart.rs sa).setWidth 16) v)) ∧
    exec (.semwT bd sa sb) s = .next (s.updCell t (fun y => { y with hart := y.hart.outB 4 bd (decide (v.toNat ≤ sem.toNat)) })) ∧
    (let f := s.fn 0
     let k := (x.hart.rs sa).toNat % 2048
     exec (.irq sa) s = .next (if f.msixEn = true ∧ f.msixMask = false ∧ k ∈ f.unmasked then { s with hostOut := s.hostOut ++ [.vector 0 k] }
       else s.updFn 0 (fun f => { f with pendV := if k ∈ f.pendV then f.pendV else f.pendV ++ [k] }))) ∧
    (pending ≠ 0 → exec (.wfe sd) s = .next (cellS s t sd (x.evtpend.setWidth 64))) ∧
    (pending = 0 → exec (.wfe sd) s = .next (cellWaits s t (.wfe sd))) ∧
    (x.epc.toNat % 4 ≠ 0 ∨ 2 ^ 56 ≤ x.epc.toNat →
      exec .eret s = .next (s.raise { code := 0x05, cause := 6, addr := x.epc.toNat })) ∧
    (x.epc.toNat % 4 = 0 → x.epc.toNat < 2 ^ 56 →
      (x.hart.redir = none →
        exec .eret s = .next (s.updCell t (fun y => { y with hart := { y.hart with redir := some (4, x.epc.toNat), eretP := true } }))) ∧
      (∀ n a, x.hart.redir = some (n, a) →
        exec .eret s = .next (if n = 4 then s.updCell t (fun y => y) else s.raise shadowTrap))) ∧
    (let enter := x.run = true ∧ x.eie = true ∧ pending ≠ 0 ∧ x.hart.redir = none ∧ x.stall = none ∧ x.stallK = none
     exec .eventEntry s = .next (if enter then s.updCell t (fun y =>
       { y with epc := BitVec.ofNat 64 x.hart.pc, eie := false, hart := { y.hart with pc := x.evec.toNat } }) else s)) ∧
    exec .evttimeTimer s = .next (if x.fired = false ∧ x.evttime.toNat ≤ s.gt then
      s.updCell t (fun y => { y with fired := true, evtpend := y.evtpend ||| 0x20 }) else s)

/-- R326, R334: `semsig` adds, `semsig.max` takes the unsigned maximum, `semset` writes; each answers the old value, changes no
other semaphore and no memory, and sets EVTPEND.SEM of the semaphore's tile exactly when the value changed. -/
def Sys2Proof.Claims.SemaphoreOperations : Prop :=
  ∀ (s : State) (t : TileId) (sd sa sb : Reg), s.cur = .cell t →
    let x := s.cell t
    let r : BitVec 16 := (x.hart.rs sa).setWidth 16
    let tl : TileId := Fin.ofNat 16 (r.toNat / 4096)
    let old := s.sem r
    let v := x.hart.rs sb
    let op (i : Instr) (new : Word) : Prop :=
      ∃ u, exec i s = .next u ∧ u.sem r = new ∧ (∀ q, q ≠ r → u.sem q = s.sem q) ∧
        (u.cell t).hart = x.hart.outS 4 sd old false ∧
        (u.cell tl).evtpend = (if new = old then (s.cell tl).evtpend else (s.cell tl).evtpend ||| 0x04) ∧
        u.mem = s.mem ∧ u.cores = s.cores ∧ u.gangs = s.gangs
    op (.semsigAdd sd sa sb) (old + v) ∧ op (.semsigMax sd sa sb) (if old.toNat < v.toNat then v else old) ∧ op (.semset sd sa sb) v

/-- R280, R281, R326: `tlbi` drops from every TLB of the package the translations of an ASID, of one page, or all of them, at once
when every walk that began so far has ended, and otherwise stalls until they have. A walk ends with its translation in the TLBs it was
for, or in none when an invalidation came after it began; the misses that queued behind it go on, and the fetches that waited for it
issue again. -/
def Obligations.TranslationsInvalidated : Prop :=
  ∀ (s : State) (t : TileId) (sa sb : Reg), s.cur = .cell t →
    let x := s.cell t
    let asid := (x.hart.rs sa).toNat % 65536
    let va := (x.hart.rs sb).toNat % 2 ^ 56
    let ended (gt : Nat) := ∀ p ∈ s.tiles, ∀ w ∈ p.2.walks, gt < w.gt
    let gone (u : State) (kind a v : Nat) : Prop :=
      let stays (e : TlbEnt) : Bool := match kind with
        | 0 => e.asid != a
        | 1 => !(e.asid == a && e.va ≤ v && v < e.va + e.size)
        | _ => false
      (∀ c, (u.core c).tlb = (s.core c).tlb.filter stays) ∧ (∀ t, (u.tile t).tlb = (s.tile t).tlb.filter stays) ∧
      (∀ t, (u.tile t).walks = (s.tile t).walks.map (fun w => if kind = 2 ∨ w.asid = a then { w with stale := true } else w)) ∧
      u.mem = s.mem ∧ (∀ c k, u.ctx c k = s.ctx c k)
    let does (i : Instr) (kind a v : Nat) : Prop :=
      (ended s.gt → ∃ u, exec i s = .next u ∧ gone u kind a v ∧ ∀ t, u.cell t = s.cell t) ∧
      (¬ ended s.gt → exec i s = .next (cellWaits s t (.tlbi kind a v s.gt)))
    does (.tlbiAsid sa) 0 asid 0 ∧ does (.tlbiPage sa sb) 1 asid va ∧ does .tlbiAll 2 0 0 ∧
    (∀ kind a v gt, kind ≤ 2 → (s.cell s.arg.tile).stall = some (.tlbi kind a v gt) →
      (ended gt → ∃ u, exec .tlbiComplete s = .next u ∧ gone u kind a v ∧
        u.cell s.arg.tile = { s.cell s.arg.tile with stall := none }) ∧
      (¬ ended gt → exec .tlbiComplete s = .next s)) ∧
    ((∀ kind a v gt, (s.cell s.arg.tile).stall ≠ some (.tlbi kind a v gt)) → exec .tlbiComplete s = .next s) ∧
    ((s.tile s.arg.tile).walks[s.arg.n]? = none → exec .pageWalkComplete s = .next s) ∧
    (∀ w, (s.tile s.arg.tile).walks[s.arg.n]? = some w →
      let y := s.tile s.arg.tile
      ∃ u, exec .pageWalkComplete s = .next u ∧ u.mem = s.mem ∧ (u.tile s.arg.tile).walkq = y.walkq.drop 1 ∧
        (u.tile s.arg.tile).walks = y.walks.eraseIdx s.arg.n ++ (y.walkq.take 1).map (fun v => { v with gt := s.gt }) ∧
        (w.stale = true → (u.tile s.arg.tile).tlb = y.tlb ∧ ∀ c, (u.core c).tlb = (s.core c).tlb) ∧
        (∀ e, w.stale = false → walk s w.asid w.va = .ok e →
          e ∈ (u.tile s.arg.tile).tlb ∧ ∀ c ∈ w.cores, e ∈ (u.core c).tlb) ∧
        (∀ c k a, c ∈ w.cores → (s.core c).ctxs.length = 3 → (s.core c).run = some k → (s.ctx c k).stall = some (.fetch a) →
          (s.ctx c k).asid.toNat = w.asid → a / 4096 = w.va / 4096 → (u.ctx c k).stall = none))

/-- R327, R328-R333, R271: the Cellarer's operations on packets, gangs, cores and the fault ring. `lnch` answers the first check that
fails, of the eleven in their order, and with code 0 the gang is ready from this gt. `qpop` and `fltp` answer the head, or eight zeros.
`kill` gives a live gang the status KILLED, unless it has one (its members end after the bundles of that gt: GangEvents); `retire` retires
a core of the tile; `fltr.reenter` readies a parked task, `fltr.resume` lets one parked in place go on with its breakpoint suppressed
once, `fltr.kill` kills its gang, `fltr.cmd` queues the tile's commands parked with 0x20. A core of another tile is code 2, an operand in
the wrong state code 1. Verdicts at once, and records that must have been delivered, are the model's readings (log 23, 30). -/
def Obligations.CellarerOnGangs : Prop :=
  ∀ (s : State) (t : TileId) (sd sa sb : Reg), s.cur = .cell t →
    let x := s.cell t
    let a := x.hart.rs sa
    let b := x.hart.rs sb
    let p : List Word := (fromTo 0 8).map (fun j => x.hart.rs (Fin.ofNat 64 (sa.val + j)))
    let q := b.toNat % 16
    let code (u : State) (n : Nat) : Out := .next (cellS u t sd (BitVec.ofNat 64 n))
    let c : CoreId := Fin.ofNat 512 (a.toNat % 512)
    let killed (g : Word) : State := { s with gangs := s.gangs.map (fun y =>
      if y.id = g.toNat ∧ y.status = 0 then { y with status := 2, reason := 0, statGt := s.gt } else y) }
    (let w (j : Nat) : Nat := (p.getD j 0).toNat
     let en (n : Nat) : Bool := (p.getD 0 0).getLsbD n
     let prio := w 0 / 2 ^ 18 % 4
     let mslen := w 0 / 2 ^ 48
     let fp := w 5 % 2 ^ 16
     let hdr := imgRead s t (w 0 / 2 ^ 32 % 2 ^ 16) (w 1) 64
     let lenOk := ∃ h, hdr = some h ∧ imgLenOk h (w 1) = true
     let img := hdr.bind (fun h => if imgLenOk h (w 1) then imgRead s t (w 0 / 2 ^ 32 % 2 ^ 16) (w 1) (leNat ((h.drop 56).take 8)) else none)
     let at_ := relocated p (placements (img.getD []))
     let zeroUnless (e : Bool) (n : Nat) : Prop := e = true ∨ n = 0
     let fields := w 0 / 2 ^ 29 % 8 = 0 ∧ 64 ≤ mslen ∧ mslen ≤ 4096 ∧ fp < 2 ^ 11 ∧ 1 ≤ fp / 32 ∧ fp % 32 + fp / 32 ≤ 32 ∧
       zeroUnless (en 20) (w 5 / 2 ^ 32 % 2 ^ 16) ∧ zeroUnless (en 20) (w 6 % 2 ^ 32) ∧ zeroUnless (en 21) (w 5 / 2 ^ 48) ∧
       zeroUnless (en 21) (w 6 / 2 ^ 32) ∧ zeroUnless (en 22) (w 7 % 2 ^ 16) ∧ zeroUnless (en 23) (w 7 / 2 ^ 16 % 2 ^ 16) ∧
       w 7 / 2 ^ 43 % 16 = 0 ∧ w 7 / 2 ^ 48 = 0
     let long := ∃ b, img = some b ∧ imgStruct b = true ∧ ∃ e ∈ placements b, mslen < (microOf b e.1).2
     let met (e : Bool) (r v : Nat) : Prop := e = true → v ≤ (s.sem (BitVec.ofNat 16 r)).toNat
     let refused (n : Nat) : Prop := exec (.lnch sd sa sb) s = code s n
     if w 0 % 65536 ≠ 1 then refused 1
     else if ¬ fields ∨ long then refused 2
     else if prio ≠ q / 4 then refused 3
     else if hdr = none ∨ (lenOk ∧ img = none) then refused 4
     else if ¬ ∃ b, img = some b ∧ imgStruct b = true ∧ placedOk b (w 0 / 2 ^ 16 % 2) prio = true then refused 5
     else if revOk s (img.getD []) = false then refused 6
     else if at_ = [] ∨ none ∈ at_ ∨ ¬ at_.Nodup ∨ ∃ c, some c ∈ at_ ∧ (s.core c).retired = true then refused 7
     else if ∀ c, at_.head? = some (some c) → tileOf c ≠ t then refused 8
     else if ¬ (met (en 20) (w 5 / 2 ^ 32) (w 6 % 2 ^ 32) ∧ met (en 21) (w 5 / 2 ^ 48) (w 6 / 2 ^ 32)) then refused 9
     else if en 28 = true ∧ (s.podRef = false ∨ w 4 ≤ s.gt + 160) then refused 10
     else if ∃ g ∈ s.gangs, g.id = gangIdOf s t p then refused 11
     else ∃ u g, exec (.lnch sd sa sb) s = code u 0 ∧ u.gangs = s.gangs ++ [g] ∧ g.mems = membersOf p (img.getD []) ∧
       g.id = gangIdOf s t p ∧ g.home = t ∧ g.lq = q ∧ g.pkt = p ∧ g.st = .ready ∧ g.since = s.gt ∧ g.eff = prio ∧ u.mem = s.mem) ∧
    (match (s.lq t (a.toNat % 16)).pkts with
     | [] => exec (.qpop sd sa) s = .next (cellS8 s t sd (fun _ => 0))
     | e :: rest =>
       (s.gt ≤ e.gt → exec (.qpop sd sa) s = .next (cellS8 s t sd (fun _ => 0))) ∧
       (e.gt < s.gt → ∃ u, exec (.qpop sd sa) s = .next (cellS8 u t sd (fun j => e.pkt.getD j 0)) ∧
         (u.lq t (a.toNat % 16)).pkts = rest ∧ u.mem = s.mem ∧ u.cell t = x)) ∧
    (match (s.tile t).frec with
     | [] => exec (.fltp sd) s = .next (cellS8 s t sd (fun _ => 0))
     | r :: rest => ∃ u, exec (.fltp sd) s = .next (cellS8 u t sd (fun j => r.getD j 0)) ∧ (u.tile t).frec = rest ∧ u.mem = s.mem) ∧
    exec (.kill sd sa) s =
      (if (s.gangs.find? (fun g => g.id == a.toNat)).any (fun g => g.mems.any (·.live)) then code (killed a) 0 else code s 1) ∧
    (¬ onTile t a → exec (.retire sd sa) s = code s 2 ∧ exec (.fltrReenter sd sa sb) s = code s 2 ∧
      exec (.fltrResume sd sa sb) s = code s 2 ∧ exec (.fltrKill sd sa sb) s = code s 2) ∧
    (onTile t a →
      exec (.retire sd sa) s = (if (s.core c).retired then code s 1 else code (s.retireCore c) 0) ∧
      (match parkedAt s b.toNat c with
       | .no => exec (.fltrReenter sd sa sb) s = code s 1 ∧ exec (.fltrResume sd sa sb) s = code s 1 ∧
           exec (.fltrKill sd sa sb) s = code s 1
       | .resident k =>
         exec (.fltrReenter sd sa sb) s = code ((s.updCtx c k (fun x => { x with st := .ready })).reenter c k) 0 ∧
           exec (.fltrResume sd sa sb) s = code s 1 ∧ exec (.fltrKill sd sa sb) s = code (killed b) 0
       | .place k =>
         exec (.fltrReenter sd sa sb) s = code s 1 ∧
           exec (.fltrResume sd sa sb) s = code (s.updCtx c k (fun x => { x with st := .running, brkSkip := true })) 0 ∧
           exec (.fltrKill sd sa sb) s = code (killed b) 0
       | .saved =>
         exec (.fltrReenter sd sa sb) s = code (s.updMember b.toNat c (fun m => { m with reent := true })) 0 ∧
           exec (.fltrResume sd sa sb) s = code s 1 ∧ exec (.fltrKill sd sa sb) s = code (killed b) 0)) ∧
    (let mine (d : Cmd) : Bool := d.tile == t && d.st == .parked20
     (s.cmds.any mine = false → exec (.fltrCmd sd) s = code s 1) ∧
     (s.cmds.any mine = true →
       exec (.fltrCmd sd) s = code { s with cmds := s.cmds.map (fun d => if mine d then { d with st := .queued } else d) } 0))

/-- R26, R35, R36, R273, R275, R326, R329: `cxsv`, `cxld`, `vprog` and `vprog.stop`. `cxsv` of a free context is code 1, of a running one,
or one that the core switches to, code 2; a ready or parked one at rest it saves and answers 0, and one not at rest it waits for. `cxld`
of a gang that saved nothing on the core is code 1, with no context free code 2; with room it restores the member and answers 0, after the
window move that it may need, and it waits for a move or a save under way. A core of another tile is code 2. That the code after a save
area that faults is a free value is the model's (log 31). `vprog` of a running slot is code 1, with a field rule broken or a window that
meets another running slot's code 2, and otherwise starts the slot at step 0 with its ASID, handle window and gang; `vprog.stop` makes a
running slot idle and cancels its queued steps. The order of the codes of `vprog`, and code 2 where footprints or windows leave no room,
are the model's (log 24, 85). -/
def Obligations.CellarerOnContextsAndSlots : Prop :=
  ∀ (s : State) (t : TileId) (sd sa sb : Reg), s.cur = .cell t →
    let x := s.cell t
    let a := x.hart.rs sa
    let b := x.hart.rs sb
    let code (u : State) (n : Nat) : Out := .next (cellS u t sd (BitVec.ofNat 64 n))
    let open_ (u : State) (n : Nat) : Out := .next (cellS { u with fresh := u.fresh + 1 } t sd (Config.freeWord n))
    let c : CoreId := Fin.ofNat 512 (a.toNat % 512)
    let n : SlotId := Fin.ofNat 8 (b.toNat % 8)
    let lo := b.toNat / 2 ^ 8 % 256
    let hi := b.toNat / 2 ^ 16 % 256
    let v := s.slot n
    let runs := v.st = 1 ∨ v.st = 2 ∨ v.st = 3
    (¬ onTile t a → exec (.cxsv sd sa sb) s = code s 2 ∧ exec (.cxld sd sa sb) s = code s 2) ∧
    (onTile t a →
      (b.toNat % 4 = 3 → exec (.cxsv sd sa sb) s = code s 1) ∧
      (∀ k : CtxId, b.toNat % 4 = k.val →
        let y := s.ctx c k
        let next := ∃ m, (s.core c).switch = some (m, k)
        (y.st = .free ∨ y.st = .reserved ∨ y.st = .ended → exec (.cxsv sd sa sb) s = code s 1) ∧
        (y.st = .running ∨ y.st = .parkedPlace → exec (.cxsv sd sa sb) s = code s 2) ∧
        (y.st = .ready ∨ y.st = .parked →
          (next → exec (.cxsv sd sa sb) s = code s 2) ∧
          (¬ next → canSave s c k = true →
            (∀ u, s.saveNow c k = (u, true) → exec (.cxsv sd sa sb) s = code u 0) ∧
            (∀ u, s.saveNow c k = (u, false) → exec (.cxsv sd sa sb) s = open_ u (u.fresh + 1))) ∧
          (¬ next → canSave s c k = false → exec (.cxsv sd sa sb) s = .next
            (cellWaits (s.updCtx c k (fun y => { y with saving := true })) t (.cxsv c k sd))))) ∧
      (s.gangs.find? (fun g => g.id == b.toNat) = none → exec (.cxld sd sa sb) s = code s 1) ∧
      (∀ g, s.gangs.find? (fun g => g.id == b.toNat) = some g →
        (g.mems.find? (fun m => m.core == c) = none → exec (.cxld sd sa sb) s = code s 1) ∧
        (∀ m, g.mems.find? (fun m => m.core == c) = some m →
          let full := ∀ k : CtxId, (s.ctx c k).busy = true
          let waits : Out := .next (cellWaits s t (.cxld c b.toNat sd))
          ((∀ p, m.st ≠ .saved p) → exec (.cxld sd sa sb) s = code s 1) ∧
          (∀ p, m.st = .saved p →
            let brings (u : State) : Prop :=
              (∀ w, u.bringBack g m p = (w, true) → exec (.cxld sd sa sb) s = code w 0) ∧
              (∀ w, u.bringBack g m p = (w, false) → exec (.cxld sd sa sb) s = open_ w w.fresh)
            (full → exec (.cxld sd sa sb) s = code s 2) ∧
            (¬ full → needOf s g c = .none → brings s) ∧
            (¬ full → needOf s g c = .move → windowsStill s c = true → brings (s.moveWindows c)) ∧
            (¬ full → needOf s g c = .move → windowsStill s c = false → exec (.cxld sd sa sb) s = waits) ∧
            (¬ full → (needOf s g c = .wait ∨ ∃ k, needOf s g c = .evict k) →
              ((∃ k : CtxId, (s.ctx c k).busy = true ∧ (s.ctx c k).saving = true) → exec (.cxld sd sa sb) s = waits) ∧
              ((∀ k : CtxId, (s.ctx c k).busy = true → (s.ctx c k).saving = false) → exec (.cxld sd sa sb) s = code s 2)))))) ∧
    (runs → exec (.vprog sd sa sb) s = code s 1) ∧
    (¬ runs → (hi < lo ∨ a.toNat % 16 ≠ 0 ∨ b &&& 0xFFFF0000FF0000F8 ≠ 0 ∨ windowTaken s n lo hi = true) →
      exec (.vprog sd sa sb) s = code s 2) ∧
    (¬ runs → lo ≤ hi → a.toNat % 16 = 0 → b &&& 0xFFFF0000FF0000F8 = 0 → windowTaken s n lo hi = false →
      exec (.vprog sd sa sb) s = code (s.updSlot n (fun v =>
        { v with asid := b.toNat / 2 ^ 32 % 65536, hbase := lo, hlast := hi, late := 0, step := 0, seen := 0, st := 1,
                 first := a.toNat, gang := x.hart.rs (Fin.ofNat 64 (sa.val + 1)), lc := [], wait := none, full := none, at_ := 0,
                 tile := t, ports := [], peers := [] })) 0) ∧
    (b.toNat < 8 → runs → exec (.vprogStop sd sb) s =
      code ((s.updSlot n (fun v => { v with st := 0, wait := none, full := none })).cancelSteps n) 0) ∧
    (b.toNat < 8 → ¬ runs → exec (.vprogStop sd sb) s = code s 1) ∧
    (8 ≤ b.toNat → exec (.vprogStop sd sb) s = code s 2)

/-! ## Engines -/

/-- R180-R186, R188, R189, R227, R314, R323, R327, R330, R352: what the unit of each command does, on the engine or Cellarer that runs
it. COPY reads the next row at its strided source and converts it, and then writes it up to each 4 KiB boundary at its strided
destination; FILL writes the next 4 KiB of its pattern; RACKFILL, for a read-only rack whose record it does not continue, writes the
record once the rack is empty, and then reads panel after panel to the tail of its rack once a slot is free; COPYRED adds the next 16
elements, waiting for its circuits; SEMSIG does its operation; WAITSEM takes an entry of the trigger table when one is free; LAUNCH
places its packet in a queue that has room, and one refused is reported and faults. A broken field rule is the queue fault, cause
0x11, and an access that faults is its fault or parks the command; no fault of it is taken while a rerun pair of its owner begins
(R268). The model's readings: the units in which an engine acts (log 49), the refusal of a bound ASID with code 12 and cause 0x2C (log
25), the park of a RACKFILL whose member is live but not resident (log 82), a COPY with a broken field rule and a count of 0 faults (log
104). -/
def Obligations.EngineCommandUnits : Prop :=
  ∀ (s : State) (d : Cmd) (cp : CopyF) (cr : CopyRedF) (rf : RackFillF) (fl : FillF) (sm : SemF) (la : LaunchF),
    s.curCmd = some d →
    let upd (u : State) (f : Cmd → Cmd) : State := { u with cmds := u.cmds.map (fun e => if e.id == d.id then f e else e) }
    let done (u : State) : State := upd u (fun e => { e with done := true })
    let wrap (a : Nat) (z : Int) : Nat := (((a : Int) + z) % 2 ^ 64).toNat
    let fault (e : EngErr) : Out := .next (s.engErr d e)
    let bad : EngErr := .fault 0x11 0
    ((kindOf cp.dk.toNat = none ∨ kindOf cp.sk.toNat = none) → exec (.cmdCopy cp) s = fault bad) ∧
    (∀ dk sk, kindOf cp.dk.toNat = some dk → kindOf cp.sk.toNat = some sk →
      let n := cp.n0.toNat
      let rows := cp.n1.toNat * cp.n2.toNat * cp.n3.toNat
      let rb := bitsOf16 dk * n / 128
      let i := d.resume / rb
      let b : Int := ((i % cp.n1.toNat : Nat) : Int)
      let c : Int := ((i / cp.n1.toNat % cp.n2.toNat : Nat) : Int)
      let e : Int := ((i / cp.n1.toNat / cp.n2.toNat : Nat) : Int)
      let src := wrap cp.src.toNat (b * cp.ss1.toInt + c * cp.ss2.toInt + e * cp.ss3.toInt)
      let dst := wrap cp.dst.toNat (b * cp.ds1.toInt + c * cp.ds2.toInt + e * cp.ds3.toInt)
      let sound := cp.rm.toNat < 6 ∧ badCount dk n = false ∧ badCount sk n = false
      (¬ sound → exec (.cmdCopy cp) s = fault bad) ∧
      (sound → n * rows = 0 → exec (.cmdCopy cp) s = .next (done s)) ∧
      (sound → n * rows ≠ 0 → d.row = [] →
        (∀ x, engRead s d src (bitsOf16 sk * n / 128) = .error x → exec (.cmdCopy cp) s = fault x) ∧
        (∀ bs es, engRead s d src (bitsOf16 sk * n / 128) = .ok (bs, es) →
          exec (.cmdCopy cp) s = .next (upd (s.fillTlbs d.tile none es) (fun e =>
            { e with row := convRow dk sk (RM.of cp.rm.toNat).noSr n bs })))) ∧
      (sound → n * rows ≠ 0 → d.row ≠ [] →
        let m := min d.row.length (4096 - d.resume % 4096)
        (∀ x, s.engWrite d (wrap dst ((d.resume % rb : Nat) : Int)) (d.row.take m) = .error x → exec (.cmdCopy cp) s = fault x) ∧
        (∀ u, s.engWrite d (wrap dst ((d.resume % rb : Nat) : Int)) (d.row.take m) = .ok u →
          exec (.cmdCopy cp) s = .next (upd u (fun e =>
            { e with resume := d.resume + m, row := d.row.drop m, done := d.resume + m == rb * rows }))))) ∧
    (let n := fl.nbytes.toNat
     let m := min 4096 (n - 4096 * d.resume)
     let pat := (fromTo 0 m).map (fun j => BitVec.ofNat 8 (fl.pat.toNat / 2 ^ (8 * (j % 8))))
     (n = 0 → exec (.cmdFill fl) s = .next (done s)) ∧
     (n ≠ 0 → ∀ u, s.engWrite d (wrap fl.dst.toNat ((4096 * d.resume : Nat) : Int)) pat = .ok u →
       exec (.cmdFill fl) s = .next (upd u (fun e => { e with resume := d.resume + 1, done := decide (n ≤ 4096 * d.resume + 4096) }))) ∧
     (n ≠ 0 → ∀ x, s.engWrite d (wrap fl.dst.toNat ((4096 * d.resume : Nat) : Int)) pat = .error x →
       exec (.cmdFill fl) s = fault x)) ∧
    (3 ≤ sm.sop.toNat → exec (.cmdSemsig sm) s = fault bad) ∧
    (sm.sop.toNat < 3 → ∃ u, exec (.cmdSemsig sm) s = .next (done u) ∧ u.mem = s.mem ∧ u.cmds = s.cmds ∧
      u.sem sm.tsem = (match sm.sop.toNat with
        | 0 => s.sem sm.tsem + sm.value
        | 1 => sm.value
        | _ => if (s.sem sm.tsem).toNat < sm.value.toNat then sm.value else s.sem sm.tsem)) ∧
    (sm.sop ≠ 0 → exec (.cmdWaitsem sm) s = fault bad) ∧
    (sm.sop = 0 →
      ((s.cmds.filter (fun e => e.tile == d.tile && e.st == .trigger)).length < 512 →
        exec (.cmdWaitsem sm) s = .next (upd s (fun e => { e with st := .trigger }))) ∧
      (512 ≤ (s.cmds.filter (fun e => e.tile == d.tile && e.st == .trigger)).length → exec (.cmdWaitsem sm) s = .next s)) ∧
    (la.pkt.toNat % 64 ≠ 0 → exec (.cmdLaunch la) s = fault bad) ∧
    (la.pkt.toNat % 64 = 0 → ∀ x, engRead s d la.pkt.toNat 64 = .error x → exec (.cmdLaunch la) s = fault x) ∧
    (la.pkt.toNat % 64 = 0 → ∀ bs es, engRead s d la.pkt.toNat 64 = .ok (bs, es) →
      let pkt : List Word := (chunks 8 8 bs).map (fun b => BitVec.ofNat 64 (leNat b))
      let t : TileId := Fin.ofNat 16 la.ltile.toNat
      let q := la.lq.toNat
      let u := s.fillTlbs d.tile none es
      let refused (code cause : Nat) : Out :=
        .next (if ownerPair s d = true then s else (u.refuse t q pkt 0xFFFF code).cmdFault d cause la.pkt.toNat)
      let low := (pkt.getD 0 0).toNat / 2 ^ 18 % 4 = 0
      (boundRefused u t pkt = true → exec (.cmdLaunch la) s = refused 12 0x2C) ∧
      (boundRefused u t pkt = false → low → exec (.cmdLaunch la) s = refused 3 0x23) ∧
      (boundRefused u t pkt = false → ¬ low → 64 ≤ (u.lq t q).pkts.length → exec (.cmdLaunch la) s = refused 13 0x2D) ∧
      (boundRefused u t pkt = false → ¬ low → (u.lq t q).pkts.length < 64 →
        ∃ v, exec (.cmdLaunch la) s = .next (done v) ∧ v.mem = s.mem ∧ v.cmds = s.cmds ∧
          (v.lq t q).pkts = (u.lq t q).pkts ++ [{ pkt := pkt, src := 0xFFFF, gt := s.gt }])) ∧
    (∀ t, d.owner = .cell t → exec (.cmdRackfill rf) s = fault bad) ∧
    (∀ g c, d.owner = .mem g c → s.ctxOf g c = none → exec (.cmdRackfill rf) s = fault
      (if (s.member g c).any (·.live) then .nonres 0 else .fault 0x10 0)) ∧
    (∀ g c k, d.owner = .mem g c → s.ctxOf g c = some k →
      let x := s.ctx c k
      let n := rf.rack.toNat
      let cfg : Word := mapGet 0 x.rkcfg n
      let tail := rkTail (mapGet 0 x.rkptr n)
      let sound := rkCap cfg ≠ 0 ∧ cfg.getLsbD 26 = false ∧ cfg.getLsbD 63 = rf.hdr.ro ∧
        rf.rowb.toNat * rf.rows.toNat = 64 * rkPanl cfg
      let key := loopKey c (sdpOff cfg)
      let head := rf.hdr.ro = true ∧ d.resume = 0
      let marked := readsBad s [{ key := key, len := 64 }] = true
      let fresh := sdpContinues (s.bytesAt 0 key 64) rf tail = false
      let ready := sound ∧ (rf.hdr.ro = true → inFp x.fpUnit x.fpCnt (sdpOff cfg) 64 = true) ∧ (head → ¬ marked ∧ ¬ fresh)
      let base := wrap rf.src.toNat ((d.resume : Int) * rf.pstr.toInt)
      let panel := panelRead s d base rf.sstr.toInt rf.rowb.toNat 0 rf.rows.toNat
      (¬ sound → exec (.cmdRackfill rf) s = fault bad) ∧
      (sound → rf.hdr.ro = true → inFp x.fpUnit x.fpCnt (sdpOff cfg) 64 = false → exec (.cmdRackfill rf) s = fault (.fault 0x10 0)) ∧
      (sound → head → inFp x.fpUnit x.fpCnt (sdpOff cfg) 64 = true →
        (marked → exec (.cmdRackfill rf) s = fault (.fault 0xFF 0)) ∧
        (¬ marked → fresh → tail ≠ rkHead (mapGet 0 x.ck.rkptr n) → exec (.cmdRackfill rf) s = .next s) ∧
        (¬ marked → fresh → tail = rkHead (mapGet 0 x.ck.rkptr n) →
          exec (.cmdRackfill rf) s = .next (s.putBytes (tileOf c) 0 key (sdpRecord rf tail)))) ∧
      (ready → rf.npan.toNat = 0 → exec (.cmdRackfill rf) s = .next (done s)) ∧
      (ready → rf.npan.toNat ≠ 0 → panelInFp x cfg tail = false → exec (.cmdRackfill rf) s = fault (.fault 0x10 0)) ∧
      (ready → rf.npan.toNat ≠ 0 → panelInFp x cfg tail = true →
        (slotFree s c k n = false → exec (.cmdRackfill rf) s = .next s) ∧
        (slotFree s c k n = true → (∀ x, panel = .error x → exec (.cmdRackfill rf) s = fault x) ∧
          (∀ bs es, panel = .ok (bs, es) →
            exec (.cmdRackfill rf) s = .next (upd
              (((s.fillTlbs d.tile none es).putBytes (tileOf c) 0 (loopKey c (panelOff cfg tail)) bs).updCtx c k
                (fun y => y.pushTail n false s.gt))
              (fun e => { e with resume := d.resume + 1, done := d.resume + 1 == rf.npan.toNat })))))) ∧
    ((kindOf cr.dk.toNat = none ∨ kindOf cr.lk.toNat = none) → exec (.cmdCopyred cr) s = fault bad) ∧
    (∀ dk lk, kindOf cr.dk.toNat = some dk → kindOf cr.lk.toNat = some lk →
      let n := cr.n.toNat
      let sound := intOf dk = none ∧ intOf lk = none ∧ cr.rm.toNat < 6 ∧ ((blockK dk = none ∧ blockK lk = none) ∨ n % 16 = 0)
      (¬ sound → exec (.cmdCopyred cr) s = fault bad) ∧
      (sound → n = 0 → exec (.cmdCopyred cr) s = .next (done s)) ∧
      (sound → n ≠ 0 →
        let last := decide (n ≤ 16 * d.resume + 16)
        let m := min 16 (n - 16 * d.resume)
        let o : Handle := Fin.ofNat 256 cr.outch.toNat
        let spent := cr.last = false ∧ (s.hnd o).key ≠ none ∧ 2 ^ 32 ≤ (s.hnd o).next + 1
        (∀ x, hopIn s d cr m last = .error x → exec (.cmdCopyred cr) s = fault x) ∧
        (∀ i, hopIn s d cr m last = .ok i →
          (hopOut s d cr = .bad → exec (.cmdCopyred cr) s = fault bad) ∧
          (hopOut s d cr = .wait → exec (.cmdCopyred cr) s = .next s) ∧
          (hopOut s d cr = .ready → i = none → exec (.cmdCopyred cr) s = .next s) ∧
          (hopOut s d cr = .ready → ∀ inc, i = some inc →
            (spent → exec (.cmdCopyred cr) s = .next (s.dieHandle o (widthH s (s.hnd o)))) ∧
            (¬ spent → (∀ x, hopRuns d cr dk lk 16 (16 * d.resume) inc s = .error x → exec (.cmdCopyred cr) s = fault x) ∧
              (∀ u l, hopRuns d cr dk lk 16 (16 * d.resume) inc s = .ok (u, l) →
                exec (.cmdCopyred cr) s = .next (upd ((u.hopPop cr).hopSend cr l last)
                  (fun e => { e with resume := d.resume + 1, done := last }))))))))

/-- R18, R171, R172, R185, R187, R189, R217, R222, R226, R229, R231, R234, R236, R360: the events of engines and of the matrix unit. A
free engine of a tile in C0 takes the oldest CE0 command of its cluster that can start, else the oldest CE1 command, one that an engine
gave up keeping its age (log 97); a finished command, and a WAITSEM whose semaphore was found at its value, leaves, its token loses its
producer, and then SEMREF gains 1; an engine gives its command up to a waiting one of higher priority that it could take (log 107) when
every engine of the tile is busy and the command stands at a boundary (log 49: some COPYs have none; log 83: that of COPYRED). A block's
fill ends, with the pins that it may have. A free sequencer resumes a suspended routine whose gang runs again, no other context's drain
being under way, before any other command (log 42), and else starts the oldest matrix command that may start, no drain being under way; a
command that has ended, its drains with it, leaves and its token loses its producer; a drain whose time has come writes its bytes; a
transfer whose time has come is delivered when no receiver holds it back, or faults its sender before anything is written, unless a rerun
pair of the sender begins; a halted core's drains and transfers wait (log 116). That a drain takes its bytes at its start is the model's
(log 41), and so is what the logs named say. -/
def Obligations.EngineAndMatrixEvents : Prop :=
  ∀ (s : State), s.cur = .idle →
    let t := s.arg.tile
    let e := s.arg.eng
    let c := s.arg.core
    let y := s.core c
    let busy (i : EngId) := s.cmds.any (fun d => d.tile == t && d.st == .running i)
    let ready (q : Nat) (d : Cmd) : Bool :=
      d.tile == t && d.q == q && d.st == .queued && !d.done && s.prodsDone d.waits && (q != 0 || servesCe0 e d)
    let upd (id : Nat) (f : Cmd → Cmd) : State := { s with cmds := s.cmds.map (fun d => if d.id == id then f d else d) }
    let takes (d : Cmd) : Out := .next (upd d.id (fun d => { d with st := .running e }))
    ((busy e = true ∨ (s.tile t).pwrSt ≠ 0) → exec .engineTake s = .next s) ∧
    (busy e = false → (s.tile t).pwrSt = 0 → exec .engineTake s = (match s.cmds.find? (ready 0), s.cmds.find? (ready 1) with
      | some d, _ => takes d
      | none, some d => takes d
      | none, none => .next s)) ∧
    (let ends (d : Cmd) : Bool := d.id == s.arg.id && (d.done || (d.st == .trigger && d.met))
     (s.cmds.find? ends = none → exec .commandComplete s = .next s) ∧
     (∀ d, s.cmds.find? ends = some d →
       let u := (({ s with cmds := s.cmds.filter (fun a => a.id != d.id) }).endProd d.prod).logEv 5 d.id
       let head : Word := BitVec.ofNat 64 (leNat (d.bytes.take 8))
       exec .commandComplete s = .next (if head.getLsbD 9 then u.semOp 0 (head.extractLsb' 16 16) 1 else u) ∧
       u.mem = s.mem ∧ u.prods = s.prods.filter (fun p => p.id != d.prod) ∧ ∀ r, u.sem r = s.sem r)) ∧
    (s.cmds.find? (fun d => d.tile == t && d.st == .running e && !d.done) = none → exec .engineYield s = .next s) ∧
    (∀ d, s.cmds.find? (fun d => d.tile == t && d.st == .running e && !d.done) = some d →
      let gives := (∀ i, busy i = true) ∧ (∃ w ∈ s.cmds, (ready 0 w = true ∨ ready 1 w = true) ∧ cmdPrio s w < cmdPrio s d) ∧
        atBoundary d = true ∧ neverYields d = false
      (gives → exec .engineYield s = .next (upd d.id (fun d => { d with st := .queued }))) ∧
      (¬ gives → exec .engineYield s = .next s)) ∧
    (let due (b : Block) : Bool := b.filling && b.prod == s.arg.id
     let settle (at_ : TileId) (b : Block) (l : List Block) : List Block :=
       if b.released then l.filter (fun a => a != b) else l.map (fun a => if a = b then a.filled s at_ else a)
     (s.arg.flag = false →
       ((s.ctx c s.arg.ctx).blocks.find? due = none → exec .blockFillComplete s = .next s) ∧
       (∀ b, (s.ctx c s.arg.ctx).blocks.find? due = some b → exec .blockFillComplete s =
         .next ((s.fillBlock (tileOf c) b).updCtx c s.arg.ctx (fun x => { x with blocks := settle (tileOf c) b x.blocks })))) ∧
     (s.arg.flag = true →
       ((s.cell t).blocks.find? due = none → exec .blockFillComplete s = .next s) ∧
       (∀ b, (s.cell t).blocks.find? due = some b → exec .blockFillComplete s =
         .next ((s.fillBlock t b).updCell t (fun x => { x with blocks := settle t b x.blocks }))))) ∧
    (∀ r, y.rt = some r → exec .matrixCommandStart s = .next s) ∧
    (let goes (k : CtxId) : Prop := (∃ g, s.gang (s.ctx c k).gang.toNat = some g ∧ g.st ≠ .ready) ∧ ∀ d ∈ y.drains, d.ctx = k
     y.rt = none →
      (∀ (k : CtxId) r, (s.ctx c k).susp = some r → goes k → (∀ j : CtxId, j < k → (s.ctx c j).susp = none ∨ ¬ goes j) →
        exec .matrixCommandStart s = .next ((s.updCtx c k (fun x => { x with susp := none })).setRt c (some { r with busy := s.gt }))) ∧
      ((∀ k : CtxId, (s.ctx c k).susp = none ∨ ¬ goes k) → exec .matrixCommandStart s = (match nextMatrix s c with
        | some m => .next (if y.drains = [] then s.startMatrix c m else s)
        | none => .next s))) ∧
    (y.rt = none → exec .routineComplete s = .next s ∧ exec .matrixCommandComplete s = .next s) ∧
    (∀ r, y.rt = some r →
      let ends := r.ended = true ∧ r.busy ≤ s.gt ∧ (∀ d ∈ y.drains, d.cmd ≠ r.cmd.id)
      let fin : Out := .next (((s.setRt c none).updCtx c r.cmd.ctx (fun x => { x with
        flq := x.flq ++ [{ slot := 10, pc := r.cmd.pc, fl := r.fl, due := 0, both := r.cmd.comm }] })).endProd r.cmd.prod)
      let own (i j : Instr) : Prop := (ends → exec i s = fin) ∧ (¬ ends → exec i s = .next s) ∧ exec j s = .next s
      match r.cmd.op with
      | .mcall _ => own .routineComplete .matrixCommandComplete
      | _ => own .matrixCommandComplete .routineComplete) ∧
    (y.drains = [] → exec .drainComplete s = .next s) ∧
    (∀ d l, y.drains = d :: l → exec .drainComplete s = .next (if d.endGt ≤ s.gt ∧ y.halted = false then s.finishDrain c d else s)) ∧
    (y.shrs = [] → exec .shrTransferComplete s = .next s) ∧
    (∀ d l, y.shrs = d :: l →
      let g := (s.ctx c d.ctx).gang.toNat
      let u := s.updCore c (fun y => { y with shrs := l })
      (s.gt < d.endGt ∨ y.halted = true ∨ shrWaits s g d.drack d.n d.cores = true → exec .shrTransferComplete s = .next s) ∧
      (d.endGt ≤ s.gt → y.halted = false → shrWaits s g d.drack d.n d.cores = false →
        exec .shrTransferComplete s = (match shrBreach s g d.drack d.n d.cores with
          | some b => .next (if pairDue s c d.mcmd.ctx = true then s else u.microFault c d.mcmd d.pc (breachDetail b))
          | none => .next (u.shrDeliver c d (mapGet 0 (s.ctx c d.ctx).rkcfg d.rack) g d.cores))))

/-! ## The Vintner -/

/-- R296-R300, R312, R224, R290, R294, R6: what reading each step of a circuit program does. A timed step whose fields the rules admit
enters the timer queue with the slot's generation, ASID, gang and peer, to act at the later of its AT and the gt after that in which it
was read, and the next step is read; at a queue of 64 it waits, its handle SCHEDULED by a MAKE all the same, and one overdue as it enters
acts at once; a handle outside the window is cause 2, a port that the slot may not name cause 4, an endpoint off its port's tile cause 5,
fewer than two wavelengths cause 6. HOLD and WAITQ wait, WAITQ going on at once when the queue is deep enough or its deadline has come;
SIGNAL operates on its semaphore; JUMP and LOOP go to their target, outside the program it is cause 9; GEN counts; ATTACH claims an
established port with its peer, or is cause 11; END makes the slot idle. The bound of a jump is the model's reading (log 44). -/
def Obligations.CircuitStepsRead : Prop :=
  ∀ (s : State) (n : SlotId) (h : Handle) (srcp dstp port : BitVec 9) (mask : BitVec 8) (sep dep : BitVec 10) (at_ dl val : Word)
    (th : BitVec 11) (disp : BitVec 24) (sem peer count : BitVec 16) (sop lc : BitVec 2) (bport : BitVec 6), s.cur = .slot n →
    let v := s.slot n
    let idx := v.step
    let go (u : State) (i : Nat) : State := u.updSlot n (fun v => { v with step := i })
    let bad (cause : Nat) : Out := .next (s.progFault n cause idx)
    let inWin := v.hbase ≤ h.val ∧ h.val ≤ v.hlast
    let target : Int := (idx : Int) + disp.toInt
    let inProg := 0 ≤ target ∧ target < (v.seen : Int) + 131071
    let port_ (p : Nat) : Prop := if p < 256 then p % 16 < 14 else
      p < 320 ∧ s.feats.getLsbD 1 = true ∧ Fin.ofNat 64 (p - 256) ∈ v.ports
    let read := if v.full = none then s.gt else v.fullAt
    let due := max at_.toNat (read + 1)
    let timed (i act : Instr) (peer : Nat) (after : State → State) : Prop :=
      (64 ≤ s.timerq.length → exec i s = .next (after (s.updSlot n (fun v =>
        { v with full := some i, at_ := idx, step := idx + 1, fullAt := read })))) ∧
      (s.timerq.length < 64 → exec i s = .next (after (({ s with
        fresh := s.fresh + 1,
        timerq := s.timerq ++ [{ slot := n, g := v.g, step := i, idx := s.fresh, read := idx, at_ := due, asid := v.asid,
                                 gang := v.gang, peer := peer }],
        agenda := if due ≤ s.gt then .ev act {} :: s.agenda else s.agenda } : State).updSlot n
          (fun v => { v with full := none, step := idx + 1 }))))
    (¬ inWin → exec (.vMake h srcp dstp mask sep dep at_) s = bad 2 ∧ exec (.vBreak h at_) s = bad 2 ∧
      exec (.vWaitq h th disp dl) s = bad 2) ∧
    (inWin → timed (.vBreak h at_) .breakAct 0 (fun u => u.reschedule h)) ∧
    (inWin →
      let i : Instr := .vMake h srcp dstp mask sep dep at_
      let ports := port_ srcp.toNat ∧ port_ dstp.toNat ∧ (srcp.toNat < 256 ∨ dstp.toNat < 256)
      let ends := endOk sep.toNat srcp.toNat false = true ∧ endOk dep.toNat dstp.toNat (decide (256 ≤ srcp.toNat)) = true
      let wide := 2 ≤ ((List.range 8).filter (fun i => mask.getLsbD i)).length
      (¬ ports → exec i s = bad 4) ∧ (ports → ¬ ends → exec i s = bad 5) ∧ (ports → ends → ¬ wide → exec i s = bad 6) ∧
      (ports → ends → wide →
        timed i .makeAct (if srcp.toNat < 256 then 0 else mapGet 0 v.peers (srcp.toNat - 256)) (fun u => u.reschedule h))) ∧
    (port_ port.toNat → timed (.vPark port mask at_) .parkAct 0 (fun u => u) ∧ timed (.vUnpark port mask at_) .unparkAct 0 (fun u => u)) ∧
    (¬ port_ port.toNat → exec (.vPark port mask at_) s = bad 4 ∧ exec (.vUnpark port mask at_) s = bad 4) ∧
    exec (.vHold at_) s = .next ((go s (idx + 1)).updSlot n (fun v => { v with st := 2, wait := some (.vHold at_, s.gt) })) ∧
    (inWin → ¬ inProg → exec (.vWaitq h th disp dl) s = bad 9) ∧
    (inWin → inProg → th.toNat ≤ (s.hnd h).rq.length → exec (.vWaitq h th disp dl) s = .next (go s (idx + 1))) ∧
    (inWin → inProg → (s.hnd h).rq.length < th.toNat → dl.toNat ≤ s.gt →
      exec (.vWaitq h th disp dl) s = .next (go s (if disp = 0 then idx + 1 else target.toNat))) ∧
    (inWin → inProg → (s.hnd h).rq.length < th.toNat → s.gt < dl.toNat → exec (.vWaitq h th disp dl) s = .next ((go s (idx + 1)).updSlot n (fun v =>
      { v with st := 3, wait := some (.vWaitq h th disp dl, s.gt), at_ := idx }))) ∧
    (∃ u, exec (.vSignal sem sop val) s = .next u ∧ u.slot n = { v with step := idx + 1 } ∧ u.mem = s.mem ∧
      u.sem sem = (match sop.toNat with
        | 0 => s.sem sem + val
        | 1 => val
        | _ => if (s.sem sem).toNat < val.toNat then val else s.sem sem)) ∧
    (¬ inProg → exec (.vJump disp) s = bad 9 ∧ exec (.vLoop lc count disp) s = bad 9) ∧
    (inProg → exec (.vJump disp) s = .next (go s target.toNat) ∧
      exec (.vLoop lc count disp) s =
        (let m := (if mapGet 0 v.lc lc.toNat = 0 then count.toNat else mapGet 0 v.lc lc.toNat) - 1
         .next ((go s (if m = 0 then idx + 1 else target.toNat)).updSlot n (fun w => { w with lc := mapSet v.lc lc.toNat m })))) ∧
    exec .vGen s = .next ((go s (idx + 1)).updSlot n (fun w => { w with g := (v.g + 1) % 16 })) ∧
    (let b : Fin 64 := Fin.ofNat 64 bport.toNat
     let mine := s.feats.getLsbD 1 = true ∧ mapHas s.links bport.toNat = true ∧ mapGet 0 s.links bport.toNat = peer.toNat ∧
       ∀ m : SlotId, m ≠ n → b ∉ (s.slot m).ports
     (mine → exec (.vAttach bport peer) s = .next ((go s (idx + 1)).updSlot n (fun w =>
       { w with ports := if b ∈ w.ports then w.ports else b :: w.ports, peers := mapSet w.peers bport.toNat peer.toNat }))) ∧
     (¬ mine → exec (.vAttach bport peer) s = bad 11)) ∧
    exec .vEnd s = .next ((go s (idx + 1)).updSlot n (fun v => { v with st := 0 }))

/-- R9, R291, R293, R295, R297-R300, R307, R315, R320, R306: the acts of the timed steps, the waits of a program, and a circuit that settles
and wakes. The due entry that stands first acts: a MAKE of a lit handle is cause 3, of wavelengths in use cause 6, of other endpoints
in the same generation cause 7, and otherwise the handle settles with what the step gives, new endpoints with an empty queue and
sequence numbers from 0; a BREAK breaks a lit handle, and a DEAD one is BROKEN then; a PARK that would narrow a live circuit below 2 is
cause 8 and otherwise parks; an UNPARK wakes what is parked and not failed, locking 2,400 gt and 64 more for each on. A HOLD ends at the
first later gt with GT at AT, a WAITQ when its queue is deep enough or at its deadline, and the next step is read in the following gt; a
circuit is LIVE 160 gt after its MAKE, its HELLO takes a flit time, and what was not acknowledged is to go out under the new generation; a
wavelength that has locked is active. Wavelengths are in use only where a lit circuit of the same source or destination port holds one of
them, wherever the tiles lie in the grid. A BREAK of a FREE handle and a PARK under a settling circuit are the model's readings (log 46, 47),
and so is that the HELLO and that data are ready in the gt in which the circuit is LIVE (log 56). -/
def Obligations.TimedStepsAct : Prop :=
  ∀ (s : State) (e : TEnt),
    let u := s.leaveQueue e
    let first := firstEnt s.timerq = some e ∧ e.at_ ≤ s.gt
    let bad (n : Handle) (cause : Nat) : Out := .next ((u.reschedule n).progFault e.slot cause e.read)
    (∀ n srcp dstp mask sep dep at_, first → e.step = .vMake n srcp dstp mask sep dep at_ →
      let h := u.hnd n
      let m : Make := { srcp := srcp.toNat, dstp := dstp.toNat, mask := mask, sep := sep.toNat, dep := dep.toNat, slot := e.slot, g := e.g,
                        asid := e.asid, gang := e.gang, peer := e.peer }
      let lit := h.st = .settling ∨ h.st = .live
      let same := h.base ≠ .free ∧ h.sep = m.sep ∧ h.dep = m.dep
      let stale := h.base ≠ .free ∧ (h.sep ≠ m.sep ∨ h.dep ≠ m.dep) ∧ h.g = e.g
      (lit → exec .makeAct s = bad n 3) ∧
      (¬ lit → maskTaken u n m.srcp m.dstp mask = true → exec .makeAct s = bad n 6) ∧
      (¬ lit → maskTaken u n m.srcp m.dstp mask = false → stale → exec .makeAct s = bad n 7) ∧
      (¬ lit → maskTaken u n m.srcp m.dstp mask = false → ¬ stale →
        let w := u.makeNow n m
        let k := w.hnd n
        exec .makeAct s = .next (w.reschedule n) ∧ k.st = .settling ∧ k.base = .settling ∧ k.madeAt = u.gt ∧ k.g = e.g ∧ k.mask = mask ∧
          k.srcp = m.srcp ∧ k.dstp = m.dstp ∧ k.sep = m.sep ∧ k.dep = m.dep ∧ k.asid = e.asid ∧ k.gang = e.gang ∧ k.peer = e.peer ∧ k.slot = some e.slot ∧
          (same → k.next = h.next ∧ k.expect = h.expect ∧ k.limit = h.limit ∧ k.rq = h.rq ∧ k.unacked = h.unacked ∧ k.caught = h.caught) ∧
          (¬ same → k.next = 0 ∧ k.expect = 0 ∧ k.limit = 1024 ∧ k.rq = [] ∧ k.unacked = [] ∧
            k.caught.map (fun c => (c.seq, c.gt)) =
              h.caught.map (fun c => (c.seq, c.gt)) ++ (h.unacked.take 1).map (fun f => (f.sq, h.brokeAt))))) ∧
    (∀ n at_, first → e.step = .vBreak n at_ →
      exec .breakAct s = .next (u.updHnd n (fun h =>
        if h.st = .settling ∨ h.st = .live then
          { h with st := if h.nxt.isSome then .scheduled else .broken, base := .broken, brokeAt := s.gt, wire := [], wireEnd := 0, dying := 0 }
        else if h.st = .dead then { h with st := .broken, base := .broken }
        else if h.st = .scheduled ∧ h.base = .dead then { h with base := .broken }
        else h))) ∧
    (∀ port mask at_, first → e.step = .vPark port mask at_ →
      let p := port.toNat
      (parkNarrows u p mask = true → exec .parkAct s = .next (u.progFault e.slot 8 e.read)) ∧
      (parkNarrows u p mask = false →
        let w := u.setPort p { u.port p with parked := (u.port p).parked ||| mask,
                                             waking := (u.port p).waking.filter (fun w => !mask.getLsbD w.lam.val) }
        exec .parkAct s = .next (w.dieNarrow u w.handles))) ∧
    (∀ port mask at_, first → e.step = .vUnpark port mask at_ →
      let p := port.toNat
      let x := u.port p
      let m := mask &&& x.parked &&& ~~~x.failed
      let ls := (List.range 8).filter (fun i => m.getLsbD i)
      exec .unparkAct s = .next (u.setPort p { x with
        parked := x.parked &&& ~~~m,
        waking := x.waking ++ (List.range ls.length).map (fun j => { lam := Fin.ofNat 8 (ls.getD j 0), lock := s.gt + 2400 + 64 * (j + 1) }) })) ∧
    (∀ n srcp dstp mask, maskTaken u n srcp dstp mask = true ↔ ∃ p ∈ u.handles, p.1 ≠ n.val ∧ (p.2.st = .settling ∨ p.2.st = .live) ∧
      (p.2.srcp = srcp ∨ p.2.dstp = dstp) ∧ p.2.mask &&& mask ≠ 0) ∧
    (∀ q i : Nat, q < 4 → i < 4 → gridPos (Fin.ofNat 16 (4 * q + i)) = (2 * (q % 2) + i % 2, 2 * (q / 2) + i / 2)) ∧
    ((∀ n a b c d f g, ¬ first ∨ e.step ≠ .vMake n a b c d f g) → firstEnt s.timerq = some e → exec .makeAct s = .next s) ∧
    ((∀ n a, ¬ first ∨ e.step ≠ .vBreak n a) → firstEnt s.timerq = some e → exec .breakAct s = .next s) ∧
    ((∀ p m a, ¬ first ∨ e.step ≠ .vPark p m a) → firstEnt s.timerq = some e → exec .parkAct s = .next s) ∧
    ((∀ p m a, ¬ first ∨ e.step ≠ .vUnpark p m a) → firstEnt s.timerq = some e → exec .unparkAct s = .next s) ∧
    (s.timerq = [] → exec .makeAct s = .next s ∧ exec .breakAct s = .next s ∧ exec .parkAct s = .next s ∧ exec .unparkAct s = .next s) ∧
    (let n := s.arg.slot
     let v := s.slot n
     (∀ at_ read, v.wait = some (.vHold at_, read) →
       exec .holdExpiry s = .next (if v.st = 2 ∧ read < s.gt ∧ at_.toNat ≤ s.gt then s.updSlot n (fun v => { v with st := 1, wait := none }) else s)) ∧
     ((∀ at_ read, v.wait ≠ some (.vHold at_, read)) → exec .holdExpiry s = .next s) ∧
     (∀ h th disp dl read, v.wait = some (.vWaitq h th disp dl, read) →
       let goes (i : Nat) : Out := .next ((s.updSlot n (fun v => { v with step := i })).updSlot n (fun v =>
         { v with st := 1, wait := none, cycled := true }))
       let target : Int := (v.at_ : Int) + disp.toInt
       (v.st ≠ 3 → exec .waitqDeadline s = .next s) ∧
       (v.st = 3 → th.toNat ≤ (s.hnd h).rq.length → exec .waitqDeadline s = goes (v.at_ + 1)) ∧
       (v.st = 3 → (s.hnd h).rq.length < th.toNat → s.gt < dl.toNat → exec .waitqDeadline s = .next s) ∧
       (v.st = 3 → (s.hnd h).rq.length < th.toNat → dl.toNat ≤ s.gt →
         (disp = 0 → exec .waitqDeadline s = goes (v.at_ + 1)) ∧
         (disp ≠ 0 → 0 ≤ target → target < (v.seen : Int) + 131071 → exec .waitqDeadline s = goes target.toNat))) ∧
     ((∀ h th disp dl read, v.wait ≠ some (.vWaitq h th disp dl, read)) → exec .waitqDeadline s = .next s)) ∧
    (let n := s.arg.handle
     let h := s.hnd n
     let inside := h.sep ≠ 0x3FF ∧ h.dep ≠ 0x3FF
     (h.st = .settling → h.madeAt + 160 ≤ s.gt →
       let act := activeOf s h.srcp h.dstp h.mask
       let lit := s.setHnd n { h with eff := act, wireEnd := 1000 * s.gt + flitTime (ones8 act) }
       let sent := if h.sep = 0x3FF then s else if h.dep = 0x3FF then lit.outLight n act (ctlFlit h n 1 0 1) else lit
       exec .circuitLive s = .next (sent.updHnd n (fun h =>
         { h with st := .live, hello := decide (¬ inside), ver := if inside then 1 else h.ver, tmo := 0,
                  unacked := h.unacked.map (fun f => { f with gen := h.g, at_ := s.gt }), wire := h.unacked.map (·.sq) }))) ∧
     (h.st ≠ .settling ∨ s.gt < h.madeAt + 160 → exec .circuitLive s = .next s)) ∧
    (let p := s.port s.arg.port
     exec .wavelengthLock s = .next (if p.waking.any (fun w => w.lam == s.arg.lam && decide (w.lock ≤ s.gt)) then
       s.setPort s.arg.port { p with waking := p.waking.filter (fun w => w.lam != s.arg.lam) } else s))

/-! ## Landing, stalls and scheduling -/

/-- R62, R63, R98-R103, R142-R144, R154, R166-R168, R176, R240-R243, R254, R268, R284, R310, R355, R358: what happens to a context between
its bundles. Results land unless the core is frozen; a shadow unit that disagrees at the cycle of landing keeps its result back and
makes the divergence fault. Data of a performed load or atomic arrives, a pending latch filling; flags of a `red.fadd` come back, to be
set with the next results. A Loop access that performs writes its bytes or fixes its data, accesses of one context through one window in
effect in issue order, and one that had to move is traced. Pushes
are sent once what their commit wrote and the Loop stores before it have performed. A `twait`, a `wgt`, a `gbar` and a `rcv` that has
waited 4,096 gt end, but on a halted core; one that waits beside another syllable of its bundle ends by itself. Late results are poisons
in service mode, each with a record, and the timing fault of the lowest slot in strict mode. The model's choices: the order of landing
where the spec leaves it open (log 7), the deviation records at the end of a stall (log 16), the free syndrome (log 66), and the `mo.mma`
that stands to be executed again after a divergence (log 75). -/
def Obligations.ContextEvents : Prop :=
  ∀ (s : State), s.cur = .idle →
    let c := s.arg.core
    let k := s.arg.ctx
    let x := s.ctx c k
    let y := s.core c
    let idOf := s.arg.id
    let lates := sortPend (x.hart.pend.filter (isLate s.gt y.ic x.reqs))
    let task := x.st = .running ∨ x.st = .ready ∨ x.st = .parked ∨ x.st = .parkedPlace
    let stops := y.halted = true ∨ (∃ j, y.run = some j ∧ ((y.ctx j).stall ≠ none ∨ (y.ctx j).stallK ≠ none)) ∨
      (∃ j : CtxId, ∃ p ∈ (s.ctx c j).hart.pend, holdsCore s.gt y.ic (s.ctx c j).reqs p = true)
    let arrived (l : List Req) : List Req :=
      l.map (fun r => if r.id == idOf && r.got.isSome && r.arr.isNone then { r with arr := some s.gt } else r)
    let waits (w : Stall) : Prop := (∃ n, x.stallK = some (w, n)) ∨ (x.stallK = none ∧ x.stall = some w)
    let resumes (cause : Nat) : State := match x.stallK with
      | some p => (s.updCtx c k (fun x => { x with stallK := none })).trace (tileOf c) x.hart.bpc p.2 cause (s.gt - x.stallAt)
      | none => (s.updCtx c k (fun x => { x with stall := none })).trace (tileOf c) x.hart.bpc x.stallSl cause (s.gt - x.stallAt)
    let split (cause : Nat) (u : State) : Trap := { code := 0x09, cause := cause, detail := Config.freeWord u.fresh }
    (s.arg.flag2 = false →
      (stops → exec .resultLanding s = .next s) ∧
      (¬ stops → s.arg.flag = false → exec .resultLanding s = .next (s.landCtx c k (fun _ => false))) ∧
      (¬ stops → s.arg.flag = true →
        let here (p : Pend) : Option W32 := (p.fp[s.arg.n / 512]?).bind (fun f =>
          if p.ic = y.ic ∧ f.1.getLsbD (s.arg.n % 512) = true then f.2[s.arg.n % 512]? else none)
        let v : W32 := s.arg.word.setWidth 32
        (∀ p w, x.hart.pend.find? (fun p => p.id == idOf) = some p → here p = some w → diverges w v = true →
          let u := (s.landCtx c k (fun q => q.id == p.id)).updCtx c k (fun z => z.shelve p)
          exec .resultLanding s = .next (if x.faults then u.bump.coreFault c k p.slot p.pc (split (s.arg.n % 512) u) else u)) ∧
        ((∀ p w, x.hart.pend.find? (fun p => p.id == idOf) = some p → here p = some w → diverges w v = false) →
          exec .resultLanding s = .next s))) ∧
    (s.arg.flag2 = true →
      let off (r : Routine) (pl : Bool) : Prop := r.busy = s.gt + 1 ∧ y.halted = false ∧
        accDiverges (cellVal ((s.ctx c r.cmd.ctx).plane pl).int (((s.ctx c r.cmd.ctx).plane pl).cell (s.arg.n / 96) (s.arg.n % 96))) s.arg.word = true
      (∀ r pl old, y.rt = some r → r.mma = some (pl, old) → off r pl →
        ∃ u, u.mem = s.mem ∧ (u.core c).rt = some { r with pc := r.pc - 1, mma := none, busy := s.gt + 1 } ∧
          exec .resultLanding s = .next (if (s.ctx c r.cmd.ctx).faults then u.bump.coreFault c r.cmd.ctx 10 r.cmd.pc (split s.arg.n u) else u)) ∧
      ((∀ r pl old, y.rt = some r → r.mma = some (pl, old) → ¬ off r pl) → exec .resultLanding s = .next s)) ∧
    (lates = [] → exec .lateResult s = .next s) ∧
    (∀ p, lowSlot lates = some p → p ∈ lates ∧ (∀ q ∈ lates, p.slot ≤ q.slot) ∧
      ((x.strict = true ∨ x.rerun ≠ none) ∧ task → exec .lateResult s = .next
        ((s.updCtx c k (fun y => lates.foldl Ctx.shelve y)).coreFault c k p.slot p.pc { code := 0x08 })) ∧
      (¬ ((x.strict = true ∨ x.rerun ≠ none) ∧ task) → exec .lateResult s = .next
        (lates.foldl (fun u q => u.trace (tileOf c) q.pc q.slot 9 0) (s.updCtx c k (fun z => z.poisonLate s.gt y.ic))))) ∧
    (s.arg.flag = false → exec .memoryDataArrival s = .next (s.updCtx c k (fun x => { x with reqs := arrived x.reqs }))) ∧
    (s.arg.flag = true → exec .memoryDataArrival s = .next (s.updCell s.arg.tile (fun x => { x with reqs := arrived x.reqs }))) ∧
    (let back (bs : List Byte) (done : Nat) : Prop :=
       x.latch = .pending idOf ∧ ∃ r, x.reqs.find? (fun r => r.id == idOf) = some r ∧ r.got = some bs ∧ r.done = done
     ((∀ bs n, ¬ back bs n) → exec .atomicReturn s = .next (s.updCtx c k (fun x => { x with reqs := arrived x.reqs }))) ∧
     (∀ bs n, back bs n → exec .atomicReturn s = .next (s.updCtx c k (fun x =>
       { x with reqs := arrived x.reqs, latch := .full (BitVec.ofNat 64 (leNat bs)) n })))) ∧
    (x.redfl = [] → exec .redFaddFlagReturn s = .next (s.updCtx c k (fun x => x))) ∧
    (∀ r l, x.redfl = r :: l → exec .redFaddFlagReturn s = .next (s.updCtx c k (fun x => { x with redfl := l, flq := x.flq ++ [r] }))) ∧
    (s.loopq.find? (fun a => a.id == idOf) = none → exec .loopAccessPerform s = .next s) ∧
    (∀ a, s.loopq.find? (fun a => a.id == idOf) = some a →
      let s1 : State := { s with loopq := s.loopq.filter (fun b => b.id != a.id) }
      let u := if a.moved then s1.trace (tileOf a.core) a.pc a.slot 8 (s.gt - a.movedAt) else s1
      let kin := u.loopq.filter (fun b => b.core == a.core && b.ctx == a.ctx && b.own == a.own && decide (b.id < a.id))
      (∀ bs, a.wr = some bs → exec .loopAccessPerform s = .next
        ((u.passKin a (kin.filter (fun b => segsMeet a.segs b.segs))).putSegs (tileOf a.target) a.segs (a.kept u bs)) ∧
        (kin.filter (fun b => segsMeet a.segs b.segs) = [] → a.skip = [] →
          exec .loopAccessPerform s = .next (u.putSegs (tileOf a.target) a.segs bs))) ∧
      (a.wr = none → a.req = none → exec .loopAccessPerform s = .next u) ∧
      (∀ r, a.wr = none → a.req = some r → exec .loopAccessPerform s = .next (u.bump.updCtx a.core a.ctx (fun x =>
        { x with perfAt := u.fresh,
                 reqs := x.reqs.map (fun q => if q.id == r then
                   { q with got := some (loopRead u a (((u.ctx a.core a.ctx).reqs.find? (fun q => q.id == r)).elim [] (·.fwd))), bad := readsBad u a.segs, arr := some (u.gt + a.lag), done := u.fresh } else q) })))) ∧
    (∀ (u : State) (a : LoopAcc) (fwd : List (Option Byte)),
      let kin := u.loopq.filter (fun b => b.core == a.core && b.ctx == a.ctx && b.own == a.own && decide (b.id < a.id) && b.wr.isSome)
      (kin = [] → fwd = [] → loopRead u a fwd = u.segBytes a.segs) ∧
      (kin ≠ [] ∨ fwd ≠ [] → (loopRead u a fwd).length = (segKeys a.segs).length ∧ ∀ j key, (segKeys a.segs)[j]? = some key →
        (∀ b, fwd.getD j none = some b → (loopRead u a fwd)[j]? = some b) ∧
        (fwd.getD j none = none →
          ((∀ d ∈ kin, d.byteFor key = none) → (loopRead u a fwd)[j]? = some (memGet u.mem key)) ∧
          (∀ l1 d l2 b, kin = l1 ++ d :: l2 → d.byteFor key = some b → (∀ e ∈ l2, e.byteFor key = none) →
            (loopRead u a fwd)[j]? = some b)))) ∧
    (x.batches = [] → exec .pushSend s = .next s) ∧
    (∀ b l, x.batches = b :: l →
      let held := (∃ w ∈ x.wbuf, w.id ∈ b.writes) ∨ (∃ a ∈ s.loopq, a.id ∈ b.loops)
      let what (d : Cmd) := (d.tile, d.q, d.owner, d.asid, d.pc, d.bytes, d.prod, d.sent)
      let sent := b.pushes.map (fun p => (tileOf c, p.q, Owner.mem x.gang.toNat c, x.asid.toNat, p.pc, p.cmd, p.prod, s.gt))
      (held → exec .pushSend s = .next s) ∧
      (¬ held → ∃ u : State, exec .pushSend s = .next (u.sendBatches c k l) ∧ u.mem = s.mem ∧
        (u.cmds.map what).Perm (s.cmds.map what ++ sent) ∧
        ((∀ e ∈ s.cmds, ¬ (e.owner = .cell (tileOf c) ∧ e.q = 1 ∧ e.sent = s.gt)) → u.cmds.map what = s.cmds.map what ++ sent))) ∧
    (∀ m, waits (.twait m) → exec .twaitResume s = .next
      (if y.halted = false ∧ (List.finRange 32).all (fun (i : Tok) => !m.getLsbD i.val || ((x.hart.tok i).armed && (x.hart.tok i).p == 0)) then
         resumes 2 else s)) ∧
    (∀ t, waits (.wgt t) → exec .wgtResume s = .next (if y.halted = false ∧ t ≤ s.gt then resumes 5 else s)) ∧
    (∀ n g, waits (.gbar n) → s.gang x.gang.toNat = some g → exec .barrierRelease s = .next
      (if y.halted = false ∧ n ≤ mapGet 0 g.bars (tileOf c).val ∧ mapGet 0 g.barAt (tileOf c).val ≤ s.gt then
         (resumes 4).updCtx c k (fun y => { y with bar := n, arrived := none }) else s)) ∧
    (x.stall = none → x.stallK = none → exec .twaitResume s = .next s ∧ exec .wgtResume s = .next s ∧ exec .barrierRelease s = .next s) ∧
    (∀ h v slot start, y.run = some k → x.stall = some (.rcv h v slot start) → exec .rcvSkewExpiry s = .next
      (if y.halted = false ∧ start + 4096 ≤ s.gt then s.coreFault c k slot x.hart.bpc { code := 0x07 } else s)) ∧
    (y.run = none → exec .rcvSkewExpiry s = .next s)

/-- R23-R25, R29-R37, R286, R331, R333, R355: the events of gangs. A gang starts at its T; one whose members have all stopped is ready;
a gang that waits below level 1 rises after 2^24 gt; an arriving pre-emption stops the gangs that hold a core that the gang needs,
where it is strictly above each of them and first of those that wait; a ready gang with nothing in its way reserves everything at once
and starts 160 gt on or at START; windows move where that makes room; the start of a cross-package gang whose reservations are not held
at START - 160 is withdrawn; a gang that a kill or a fault has reached ends its members; one whose members have ended, its records and its
work done, completes: with status DONE its enabled semaphores gain 1 each, and otherwise none changes, and GEND and its completion
record follow; a core that retires stops the gangs on it. Reservations at once, when a pre-emption arrives and how a move is chosen
are the model's readings (log 17, 18, 20). -/
def Obligations.GangEvents : Prop :=
  ∀ (s : State),
    (s.gang s.arg.gang = none → ∀ i ∈ [Instr.gangStart, .gangStopped, .agingRise, .preemptionArrival, .gangReservationConfirm, .windowMove,
      .xpkgWithdraw, .gangCompletion], exec i s = .next s) ∧
    ((s.core s.arg.core).retired = true → exec .coreRetire s = .next s) ∧
    ((s.core s.arg.core).retired = false → exec .coreRetire s = .next (s.retireCore s.arg.core)) ∧
    ∀ g, s.gang s.arg.gang = some g →
      let now (f : Gang → Gang) (u : State) : State := { u with gangs := u.gangs.map (fun x => if x.id == g.id then f x else x) }
      let waits := g.st = .ready ∨ ∃ t, g.st = .starting t
      let cs := needCores s g
      (∀ t, g.st = .starting t → (s.gt < t → exec .gangStart s = .next s) ∧
        (t ≤ s.gt → exec .gangStart s = .next (({ now (fun x => { x with st := .running, started := true }) s with
          boot := { s.boot with ran := true } } : State).startMembers g.id g.mems))) ∧
      ((∀ t, g.st ≠ .starting t) → exec .gangStart s = .next s) ∧
      (g.st ≠ .stopping → exec .gangStopped s = .next s) ∧
      (g.st = .stopping →
        let u := s.stopHeld g.id g.mems
        (gangHalted u g = false → exec .gangStopped s = .next u) ∧
        (gangHalted u g = true → exec .gangStopped s = .next ((now (fun x =>
          { x with st := .ready, since := s.gt, aged := s.gt, order := 2 ^ 70 + g.id }) u).moveOrFault g.id))) ∧
      (waits → 1 < g.eff → g.aged + 2 ^ 24 ≤ s.gt →
        exec .agingRise s = .next (now (fun x => { x with eff := x.eff - 1, aged := s.gt }) s)) ∧
      (¬ waits ∨ g.eff ≤ 1 ∨ s.gt < g.aged + 2 ^ 24 → exec .agingRise s = .next s) ∧
      exec .preemptionArrival s = .next (s.preemptAll s.arg.flag ((cs.filter (fun c =>
        !(aheadOn s g c) && (holders s g c).all (fun h => g.eff < h.eff))).flatMap (holders s g))) ∧
      (let want := (g.mems.filter (·.wants)).map (·.core)
       let way := g.st = .ready ∧ blocked s g = false ∧ savingOf s g = false ∧ cs ≠ [] ∧
         (∀ c ∈ cs, (s.core c).retired = false ∧ (s.core c).run = none ∧ holders s g c = [])
       (¬ way → exec .gangReservationConfirm s = .next s) ∧
       (way → (∃ c ∈ want, needOf s g c = .wait) → exec .gangReservationConfirm s = .next s) ∧
       (way → (∀ c ∈ want, needOf s g c = .none) →
         exec .gangReservationConfirm s = .next ((s.reserveAll g g.mems).confirm g.id)) ∧
       (way → (∀ c ∈ want, needOf s g c ≠ .wait) → (∃ c ∈ want, needOf s g c ≠ .none) →
         exec .gangReservationConfirm s = .next (s.evictFor g want))) ∧
      (let moves := (∃ m ∈ g.mems, m.core = s.arg.core ∧ m.wants = true) ∧ needOf s g s.arg.core = .move ∧ windowsStill s s.arg.core = true
       (moves → exec .windowMove s = .next (s.moveWindows s.arg.core)) ∧ (¬ moves → exec .windowMove s = .next s)) ∧
      (let late := g.xpkg = true ∧ g.started = false ∧ g.st = .ready ∧ (g.pkt.getD 4 0).toNat = s.gt + 160
       (late → exec .xpkgWithdraw s = .next ((s.unstart g.id).killGang g.id 3 10)) ∧ (¬ late → exec .xpkgWithdraw s = .next s)) ∧
      (let lives := ∃ m ∈ g.mems, m.live = true
       (g.status ≠ 0 → lives → exec .gangCompletion s = .next (s.killMembers g.id g.mems)) ∧
       (g.status = 0 → lives → exec .gangCompletion s = .next s) ∧
       (¬ lives → (s.arg.flag = true ∨ recsOut s g = false ∨ (g.status = 0 ∧ worksDone s g = false)) →
         exec .gangCompletion s = .next s) ∧
       (¬ lives → s.arg.flag = false → recsOut s g = true → (g.status ≠ 0 ∨ worksDone s g = true) →
         let signal (en lo : Nat) (q : BitVec 16) : Word :=
           if g.status = 0 ∧ (g.pkt.getD 0 0).getLsbD en = true ∧ (g.pkt.getD 7 0).extractLsb' lo 16 = q then 1 else 0
         ∃ u, exec .gangCompletion s = .next u ∧ u.gangs = s.gangs.filter (fun h => h.id != g.id) ∧ u.mem = s.mem ∧
           (∀ q, u.sem q = s.sem q + signal 22 0 q + signal 23 16 q) ∧
           (u.cell g.home).evtpend.getLsbD 3 = true ∧
           (u.fn (srcFn g.src)).cwait = (s.fn (srcFn g.src)).cwait ++ [(bytesOf 8 g.id ++
             bytesOf 4 (g.status + g.reason * 256 + g.lq * 65536 + g.home.val * 2 ^ 24) ++ bytesOf 4 g.src, pktVector s g.src g.pkt)]))

/-- R24-R26, R36, R148, R265, R267, R271-R275, R286, R328, R339, R340, R355: the events of contexts and records. An idle core that is not
halted gives itself to the first candidate, at once to the context that ran last and 24 gt on to another; a save completes once its
context is at rest, and where its area faults a member that was to move faults its gang; a restore completes in the context that its
reservation holds, or brings a running gang's member back where there is room; a discarded region may issue from its gt on; a watchdog at
0 is the watchdog fault, unless a rerun pair begins (R268), and waits on a halted core; an ended context at rest is free, and CTXF is set;
the oldest completion record enters its ring when that has room, its vector after it, and a record that waits at its context or member is
delivered when its ring has room, and a member that is to move then moves. From where the 24 gt count, and what a save whose area faults
answers, are the model's readings (log 19, 31). That the deviation
record of a switch has SLOT 15 is its choice (log 101). -/
def Obligations.ContextAndRecordEvents : Prop :=
  ∀ (s : State),
    let c := s.arg.core
    let k := s.arg.ctx
    let x := s.ctx c k
    let y := s.core c
    let take (j : CtxId) : State := (s.updCtx c j (fun x => { x with st := .running })).updCore c (fun y =>
      { y with run := some j, last := some j, switch := none })
    (y.halted = true → exec .contextSwitch s = .next s) ∧
    (y.halted = false →
      (∀ t j, y.switch = some (t, j) → (y.run ≠ none ∨ s.gt < t → exec .contextSwitch s = .next s) ∧
        (y.run = none → t ≤ s.gt → exec .contextSwitch s = .next ((take j).trace (tileOf c) (s.ctx c j).hart.pc 15 11 24))) ∧
      (y.switch = none → y.run ≠ none → exec .contextSwitch s = .next s) ∧
      (y.switch = none → y.run = none →
        (firstOf s c (candidates s c) = none → exec .contextSwitch s = .next s) ∧
        (∀ j, firstOf s c (candidates s c) = some j →
          ((y.last = none ∨ y.last = some j) → exec .contextSwitch s = .next (take j)) ∧
          (y.last ≠ none → y.last ≠ some j →
            exec .contextSwitch s = .next (s.updCore c (fun y => { y with switch := some (s.gt + 24, j) })))))) ∧
    (x.saving = false → exec .contextSaveComplete s = .next s) ∧
    (x.saving = true → (x.st = .ended ∨ x.st = .free) →
      exec .contextSaveComplete s = .next ((s.updCtx c k (fun y => { y with saving := false })).cxsvCode c k 1)) ∧
    (x.saving = true → x.st ≠ .ended → x.st ≠ .free →
      let g := x.gang.toNat
      let moves := ∃ z : Gang, s.gang g = some z ∧ mapHas z.moveTo (clusterNum c) = true
      (canSave s c k = false → exec .contextSaveComplete s = .next s) ∧
      (canSave s c k = true →
        (∀ u, s.saveNow c k = (u, true) → exec .contextSaveComplete s = .next ((u.relocateAt g c).cxsvCode c k 0)) ∧
        (∀ u, s.saveNow c k = (u, false) →
          let w := u.bump.cxsvCode c k (Config.freeWord u.fresh)
          (¬ moves ∨ w.gang g = none ∨ w.member g c = none → exec .contextSaveComplete s = .next w) ∧
          (∀ y m, moves → w.gang g = some y → w.member g c = some m → exec .contextSaveComplete s = .next (w.retireFault y m))))) ∧
    (s.gang s.arg.gang = none → exec .contextRestoreComplete s = .next s) ∧
    (∀ g, s.gang s.arg.gang = some g →
      (g.mems.find? (fun m => m.core == c) = none → exec .contextRestoreComplete s = .next s) ∧
      (∀ m, g.mems.find? (fun m => m.core == c) = some m →
        (∀ j p, m.st = .restoring j p →
          let r := s.restoreNow g.id c j p m.keep
          exec .contextRestoreComplete s = .next (if r.2 = true ∧ m.reent = true then r.1.reenterSaved g.id c j else r.1)) ∧
        (∀ p, m.st = .saved p →
          (g.st ≠ .running ∨ m.wants = false → exec .contextRestoreComplete s = .next s) ∧
          (g.st = .running → m.wants = true → exec .contextRestoreComplete s = .next (match needOf s g c with
            | .none => (s.bringBack g m p).1
            | .evict k => s.evict c k
            | .move | .wait => s))) ∧
        ((∀ j p, m.st ≠ .restoring j p) → (∀ p, m.st ≠ .saved p) → exec .contextRestoreComplete s = .next s))) ∧
    (∀ t, x.reAt = some t → exec .reentry s = .next (if t ≤ s.gt then s.updCtx c k (fun x => { x with reAt := none }) else s)) ∧
    (x.reAt = none → exec .reentry s = .next s) ∧
    (let due := x.st = .running ∧ x.wdog = some 0 ∧ pairDue s c k = false ∧ y.halted = false
     (due → exec .watchdogExpiry s = .next (s.coreFault c k 0xFF x.hart.bpc { code := 0x15 })) ∧
     (¬ due → exec .watchdogExpiry s = .next s)) ∧
    (x.st = .ended → atRest s c k = true → exec .contextFree s = .next ((s.setCtx c k {}).updCell (tileOf c) (fun y =>
      { y with evtpend := y.evtpend ||| 0x10 }))) ∧
    (x.st ≠ .ended ∨ atRest s c k = false → exec .contextFree s = .next s) ∧
    (let n := s.arg.fn
     let f := s.fn n
     (f.cwait = [] → exec .completionRecordDelivery s = .next s) ∧
     (∀ bs vec l, f.cwait = (bs, vec) :: l →
       let u := (s.out (.ring n (f.cbase.toNat / 4096 * 4096 + f.crtail % 2 ^ f.clog * 16) bs)).updFn n (fun f =>
         { f with crtail := (f.crtail + 1) % 2 ^ 32, cwait := l })
       (f.cRoom = false → exec .completionRecordDelivery s = .next s) ∧
       (f.cRoom = true → exec .completionRecordDelivery s = .next (match vec with
         | some v => u.sendVec v
         | none => u)))) ∧
    (let g := s.arg.gang
     let waits : Option RecWait := if s.arg.flag then (s.member g c).bind (·.frec) else x.frec
     (waits = none → exec .faultRecordDelivery s = .next s) ∧
     (∀ w u, waits = some w →
       (s.deliverWait w = (u, false) → exec .faultRecordDelivery s = .next s) ∧
       (s.deliverWait w = (u, true) → exec .faultRecordDelivery s = .next (if s.arg.flag then
         (u.updMember g c (fun m => { m with frec := none })).moveMember g c else u.updCtx c k (fun x => { x with frec := none })))) ∧
     (∀ w tl sem, waits = some w → w.dest = .ring tl sem →
       (256 ≤ (s.tile tl).frec.length → exec .faultRecordDelivery s = .next s) ∧
       (w.more = none → (s.tile tl).frec.length < 256 → ∃ u, exec .faultRecordDelivery s = .next u ∧
         (u.tile tl).frec = (s.tile tl).frec ++ [w.frec] ∧ (u.cell tl).evtpend = (s.cell tl).evtpend ||| 0x02 ∧ u.mem = s.mem)))

/-! ## The host, service and the package -/

/-- R4, R245, R322, R324, R330, R335-R338, R341-R343, R349, R365: what the host and the peers do. A write of a whole launch slot that the
function may make enters its queue when that has room, is refused with the first code that its packet meets, or is dropped and counted:
with the queue full, a VF without the queue, another offset or length, and in safe mode. The peer inlet consumes the first whole message
of a handle and admits its packet by the Access Control Table, under the peer that its circuit was made for. An aperture access is cut
into aligned parts; a part that is refused reads all ones and counts. A write of the doorbell sets EVTPEND.HOST (bit 6), of CSTAT from RUN 0
restarts at CPC, of TSCFG gives SCRW at most 16 and EWM; a BAR0 write changes its register of its function alone. In the Safe Talkative
State none of these answers. The model's readings: how an aperture access is cut into parts, and what answers there (log 26, 92); a VF
with EN 0 that writes a slot is dropped and counted, and a bound ASID is refused with code 12 at admission (log 25). -/
def Obligations.HostEvents : Prop :=
  ∀ (s : State),
    let t := s.arg.tile
    let q := s.arg.id % 16
    let bs := s.arg.data
    let fn := s.arg.fn
    let p : List Word := (chunks 8 8 bs).map (fun b => BitVec.ofNat 64 (leNat b))
    let prio (p : List Word) := (p.getD 0 0).toNat / 2 ^ 18 % 4
    (let l := s.lq t q
     let v := (s.fn fn).vfmap
     let w7 := p.getD 7 0
     let barred := s.safe = true ∨ s.arg.n ≠ 0 ∨ bs.length ≠ 64 ∨ (fn ≠ 0 ∧ (v.getLsbD 63 = false ∨ q < 4 ∨ v.getLsbD q = false))
     let foreign := fn ≠ 0 ∧ (p.getD 0 0).toNat / 2 ^ 32 % 65536 ≠ v.toNat / 2 ^ 32 % 65536
     let top := fn ≠ 0 ∧ prio p = 0
     let vector := fn ≠ 0 ∧ w7.getLsbD 47 = true ∧ 32 ≤ w7.toNat / 2 ^ 32 % 2048
     let refused (code : Nat) : Out := .next (s.refuse t q p fn code)
     let dropped : Out := .next (s.dropLq t q)
     (barred → exec .launchSlotWrite s = dropped) ∧
     (¬ barred → foreign → exec .launchSlotWrite s = refused 12) ∧
     (¬ barred → ¬ foreign → top → exec .launchSlotWrite s = refused 3) ∧
     (¬ barred → ¬ foreign → ¬ top → vector → exec .launchSlotWrite s = refused 2) ∧
     (¬ barred → ¬ foreign → ¬ top → ¬ vector →
       (boundRefused s t p = true → exec .launchSlotWrite s = refused 12) ∧
       (boundRefused s t p = false → 64 ≤ l.pkts.length → exec .launchSlotWrite s = dropped) ∧
       (boundRefused s t p = false → l.pkts.length < 64 →
         ∃ u, exec .launchSlotWrite s = .next u ∧ (u.lq t q).pkts = l.pkts ++ [{ pkt := p, src := fn, gt := s.gt }] ∧
           (u.lq t q).tail = (l.tail + 1) % 65536 ∧ (u.cell t).evtpend = (s.cell t).evtpend ||| 0x01 ∧ u.mem = s.mem)) ∧
     ((s.dropLq t q).lq t q).drop = min (l.drop + 1) 65535 ∧ ((s.dropLq t q).lq t q).pkts = l.pkts ∧
     (∀ code, ((s.refuse t q p fn code).fn (srcFn fn)).cwait = (s.fn (srcFn fn)).cwait ++
       [(bytesOf 8 (p.getD 1 0).toNat ++ bytesOf 4 (3 + code * 256 + q * 65536 + t.val * 2 ^ 24) ++ bytesOf 4 fn, none)])) ∧
    (let n := s.arg.handle
     let h := s.hnd n
     ((h.dep < 0x300 ∨ 0x310 ≤ h.dep ∨ firstMessage h.rq = none) → exec .peerPacket s = .next s) ∧
     (∀ (fs : List Flit) (i : TileId), firstMessage h.rq = some fs → h.dep = 0x300 + i.val →
       let k := fs.length
       let raw : List Word := (chunks 8 8 ((fs.flatMap (·.data)).take 64)).map (fun b => BitVec.ofNat 64 (leNat b))
       let w0 := raw.getD 0 0
       let lq := 4 * prio raw + w0.toNat / 2 ^ 29 % 4
       let pkt := (w0 &&& ~~~0x60000000) :: raw.drop 1
       let u := (s.updHnd n (fun x => { x with rq := x.rq.drop k, head := (x.head + k) % 2 ^ 32, headCk := (x.headCk + k) % 2 ^ 32 })).evt i 7
       let asked := u.actAdmit (fs.head?.elim 0 (·.peer)) (w0.toNat / 2 ^ 32 % 65536) lq
       let w := asked.1
       let refused (code : Nat) : Out := .next (w.refuse i lq pkt 0xFFFF code)
       (asked.2 = false → exec .peerPacket s = refused 12) ∧
       (asked.2 = true → boundRefused w i pkt = true → exec .peerPacket s = refused 12) ∧
       (asked.2 = true → boundRefused w i pkt = false →
         (prio pkt = 0 → exec .peerPacket s = refused 3) ∧
         (prio pkt ≠ 0 → 64 ≤ (w.lq i lq).pkts.length → exec .peerPacket s = refused 13) ∧
         (prio pkt ≠ 0 → (w.lq i lq).pkts.length < 64 → exec .peerPacket s = .next (w.enterLq i lq pkt 0xFFFF))))) ∧
    (∀ peer asid lq,
      let c (e : Nat) : Nat := if s.actWin = s.gt / 2 ^ 20 then mapGet 0 s.actCnt e else 0
      (s.actAdmit peer asid lq).2 = true ↔ ∃ e, actEntry s peer asid = some e ∧ 4 ≤ lq ∧ lq < 16 ∧ (mapGet 0 s.act e).getLsbD lq = true ∧
        c e < (mapGet 0 s.act e).toNat / 2 ^ 48 % 256) ∧
    (s.safe = true → exec .apertureRead s = .next s ∧ exec .apertureWrite s = .next s ∧ exec .cdoorbellWrite s = .next s ∧
      exec .cstatRunWrite s = .next s ∧ exec .tscfgWrite s = .next s ∧ exec .registerWrite s = .next s) ∧
    (s.safe = false → ∃ u out, exec .apertureRead s = .next u ∧ u.mem = s.mem ∧ u.hostOut = s.hostOut ++ [.data fn out] ∧ out.length = s.arg.len ∧
      (∀ m, m ≠ fn → u.fn m = s.fn m) ∧ ((s.fn fn).hapctl.getLsbD 0 = false → out = List.replicate s.arg.len 0xFF)) ∧
    (s.safe = false → ∃ u, exec .apertureWrite s = .next u ∧ u.hostOut = s.hostOut ∧ (∀ m, m ≠ fn → u.fn m = s.fn m) ∧
      ((s.fn fn).hapctl.getLsbD 0 = false → u.mem = s.mem)) ∧
    (s.safe = false → fn = 0 → (s.fn 0).hapctl = 1 → s.arg.n % 8 = 0 → s.arg.n < 2 ^ 32 →
      (∀ g, s.arg.len = 8 → apSeg s .read s.arg.n 8 = some g →
        exec .apertureRead s = .next (s.out (.data 0 (s.bytesAt 0 s.arg.n 8)))) ∧
      (∀ g, bs.length = 8 → apSeg s .write s.arg.n 8 = some g → (∀ i < 8, boundEntry s (s.arg.n + i) = false) →
        exec .apertureWrite s = .next (s.putBytes (homeOf s.arg.n) 0 s.arg.n bs))) ∧
    (s.safe = false → exec .cdoorbellWrite s = .next (s.updCell t (fun c => { c with evtpend := c.evtpend ||| 0x40 }))) ∧
    (s.safe = false → exec .cstatRunWrite s = .next (s.updCell t (fun c =>
      if s.arg.word.getLsbD 0 = true ∧ c.run = false then
        { c with eie := s.arg.word.getLsbD 1, run := true, faulted := false, stall := none, stallK := none,
                 hart := { c.hart with pc := c.cpc, redir := none, eretP := false } }
      else { c with eie := s.arg.word.getLsbD 1, run := s.arg.word.getLsbD 0 }))) ∧
    (s.safe = false → ∃ u, exec .tscfgWrite s = .next u ∧ (u.tile t).scrw = min (s.arg.word.toNat / 2 ^ 32 % 32) 16 ∧
      (u.tile t).ewm = s.arg.word.extractLsb' 16 16 ∧ (min (s.arg.word.toNat / 2 ^ 32 % 32) 16 = (s.tile t).scrw → u.mem = s.mem)) ∧
    (∀ f off, s.safe = false → s.arg.reg = .bar0 f off → ∃ u, exec .registerWrite s = .next u ∧ u.mem = s.mem ∧ u.tiles = s.tiles ∧ u.cores = s.cores ∧
      (∀ m, m ≠ f → ¬ (f = 0 ∧ off / 8 * 8 = 0x8000 + 8 * m) → u.fn m = s.fn m)) ∧
    (s.safe = false → s.arg.reg = .bar0 0 0x40 → bs.length = 8 → ∃ u, exec .registerWrite s = .next u ∧
      (u.fn 0).cbase = BitVec.ofNat 64 (leNat bs / 4096 * 4096) ∧ (u.fn 0).crtail = (s.fn 0).crtail) ∧
    (∀ b off, s.safe = false → s.arg.reg = .dev b off → exec .registerWrite s = .next (if b = 0 ∨ (16 ≤ b ∧ b < 32) then
      s.devWrite .host b ((bs.take 8).length / 8 + 2) off (bs.take 8) else s))

/-- R285, R345, R349-R359, R363: security and debug. ENCREATE makes an enclave of free tiles at D0, with GAUNTLET and its owner's
signature; ATTEST sends a report, and a key pair sends its public key and one; KEYEST installs the participant's memory key in its slot of
its tiles and erases the pair. REVOKE wakes the C1 tiles with work of the participant, or ends the participant's triggers and parked
commands, its slots, its queued steps and its circuits at once, whatever their state; a repeated one sends REVOKED again with the gt of
step 3, and zeroising waits for the participant's commands. GRANT gives a level to the tiles of an enclave, which it taints, under this
package's DEVID, and D2 needs DBGINV; a level below D2 ends halts and breakpoints (log 100). ENDESTROY makes every unrevoked participant
revoking and changes its enclave in nothing else, and with no participant left to revoke the enclave is gone. A request that these do not
admit, or in the Safe Talkative State, is refused and answered so. HALT freezes a core of a tile at D2, a write without it resumes, its
matrix unit where it stood (log 116), with STEP for one bundle; a halted core's registers are written at once with poison cleared, except
where `wrsr` would refuse the value. Replay takes an interval of 1-1,000 ms while a tile is at D1, and a checkpoint begins at its
multiples with the resident tasks. Whether a request is signed is an operand (log 36); levels on open tiles, repeated requests, which
handles are a participant's, and the debugger's special registers are the model's readings (log 37, 39, 91, 114). -/
def Obligations.SecurityAndDebugEvents : Prop :=
  (∀ s : State,
    let id := s.arg.encid.toNat
    let old := s.enc id
    let no (what : String) : Out := .next (s.out (.event "REFUSED" [what.length, s.gt]))
    (s.safe = true →
      exec .attest s = no "ATTEST" ∧ (s.arg.key ≠ none → exec .keyest s = no "KEYEST") ∧ exec .revoke s = no "REVOKE" ∧
      exec .endestroy s = no "ENDESTROY") ∧
    (let fine := s.safe = false ∧ s.arg.flag = true ∧ s.feats.getLsbD 0 = true ∧ old = none ∧ ∀ e ∈ s.encs, ∀ t ∈ e.tiles, t ∉ s.arg.tiles
     (fine → exec .encreate s = .next (({ s with
       encs := s.encs ++ [{ id := id, owner := s.arg.data, tiles := s.arg.tiles, parts := [] }] } : State).setLevel 0 s.arg.tiles)) ∧
     (¬ fine → exec .encreate s = no "ENCREATE")) ∧
    (∀ n (ts : List TileId), let u := s.setLevel n ts
      let frees (c : CoreId) : Prop := n < 2 ∧ tileOf c ∈ ts
      u.encs = s.encs ∧ u.gt = s.gt ∧ (∀ t, (u.tile t).dbg = if t ∈ ts then n else (s.tile t).dbg) ∧
      (∀ c, (frees c → (u.core c).halted = false ∧ (u.core c).dbgctl = 0 ∧
          ∀ k, (u.core c).run = some k → (u.ctx c k).st ≠ .parkedPlace) ∧
        (¬ frees c → u.core c = s.core c)) ∧
      ((∀ c, frees c → (s.core c).underDebug = false) → (∀ c, u.core c = s.core c) ∧ u.mem = s.mem ∧
        ∀ t, u.tile t = { s.tile t with dbg := if t ∈ ts then n else (s.tile t).dbg })) ∧
    (let r := reportOf s id s.arg.data (zeroBytes 32)
     s.safe = false → exec .attest s = .next (s.out (.report r (Config.slhSign s.secret r)))) ∧
    (let fine := s.safe = false ∧ old ≠ none ∧ s.arg.part < 16
     let pub := Config.kemPublic s.fresh
     let r := reportOf s id s.arg.data (Config.sha256 pub)
     (fine → exec .kemKeyPairGenerate s = .next { s with
       fresh := s.fresh + 1, kems := s.kems ++ [{ encid := s.arg.encid, part := s.arg.part, num := s.fresh }],
       hostOut := s.hostOut ++ [.data 0 pub, .report r (Config.slhSign s.secret r)] }) ∧
     (¬ fine → exec .kemKeyPairGenerate s = no "KEM")) ∧
    (s.arg.key = none → exec .keyest s = .next s) ∧
    (∀ k, s.safe = false → s.arg.key = some k →
      let pair := s.kems.find? (fun m => m.encid == k.encid && m.part == k.part)
      (s.enc k.encid.toNat = none ∨ pair = none → exec .keyest s = no "KEYEST") ∧
      (∀ e m, s.enc k.encid.toNat = some e → pair = some m →
        let part := e.parts.find? (fun p => p.id == k.part)
        let z := Config.kemDecap m.num k.cipher
        let fine := s.arg.flag = true ∧ 1 ≤ k.slot ∧ k.slot < 256 ∧ k.part < 16 ∧ (∀ p, part = some p → p.revoked = false) ∧
          ∀ t ∈ k.tiles, t ∈ e.tiles
        (¬ fine → exec .keyest s = no "KEYEST") ∧
        (fine → ∃ u, exec .keyest s = .next u ∧ u.kems = s.kems.filter (fun q => q.num != m.num) ∧ u.mem = s.mem ∧ u.tags = s.tags ∧
          u.cores = s.cores ∧ u.enc e.id = some { e with parts := e.parts.filter (fun q => q.id != k.part) ++ [partOf k z part] } ∧
          (partOf k z part).slots = (part.elim [] (·.slots)).filter (· != k.slot) ++ [k.slot] ∧
          (partOf k z part).link = Config.hkdf z infoLink ∧
          (∀ t ∈ k.tiles, (u.tile t).key k.slot = {
            valid := true, encid := k.encid, part := k.part, epoch := keyNum s t (Config.hkdf z infoMem) (s.fresh + 1) }) ∧
          (∀ t, t ∉ k.tiles → u.tile t = s.tile t)))) ∧
    (old = none → exec .revoke s = no "REVOKE" ∧ exec .revokeZeroise s = .next s ∧ exec .endestroy s = no "ENDESTROY") ∧
    (∀ e, old = some e →
      let part := e.parts.find? (fun p => p.id == s.arg.part)
      (part = none ∨ s.arg.flag = false → exec .revoke s = no "REVOKE") ∧
      (∀ p, s.safe = false → part = some p → s.arg.flag = true →
        let sleeps (t : TileId) : Prop := (s.tile t).pwrSt = 1 ∧ worksOn s p t = true
        (p.revoked = true → p.revoking = true → exec .revoke s = .next s) ∧
        (p.revoked = true → p.revoking = false →
          exec .revoke s = .next ((s.out (.event "REVOKED" [e.id, p.id, p.revokedAt])).sendReport e.id [] (zeroBytes 32))) ∧
        (p.revoked = false → (∀ t, ¬ sleeps t) → exec .revoke s = .next ((s.revokeStart p.asids).updPart e.id p.id (fun q =>
          { q with revoked := true, revoking := true, waking := false }))) ∧
        (p.revoked = false → (∃ t, sleeps t) → ∃ w : State, exec .revoke s = .next (w.updPart e.id p.id (fun q =>
          { q with revoked := true, revoking := true, waking := true })) ∧ w = { s with tiles := w.tiles } ∧
          ∀ t, sleeps t → (w.tile t).pwrAt ≠ none)) ∧
      (let going := e.parts.find? (fun p => p.id == s.arg.part && p.revoking && !p.waking)
       (going = none → exec .revokeZeroise s = .next s) ∧
       (∀ p, going = some p → let s0 := s.endParked p.asids
         ((∃ d ∈ s0.cmds, d.asid ∈ p.asids) → exec .revokeZeroise s = .next s0) ∧
         ((∀ d ∈ s0.cmds, d.asid ∉ p.asids) → ∃ u r, exec .revokeZeroise s = .next u ∧ u.mem = s0.mem ∧
           u.hostOut = s0.hostOut ++ [.event "REVOKED" [e.id, p.id, s0.gt], r] ∧
           (∀ t n, n ≠ 0 → ((u.tile t).key n).valid = true →
             ¬ (((u.tile t).key n).encid = s.arg.encid ∧ ((u.tile t).key n).part = p.id))))) ∧
      (s.arg.flag = false → exec .endestroy s = no "ENDESTROY") ∧
      (s.safe = false → s.arg.flag = true → (∀ x ∈ s.encs, x.id = e.id → x = e) →
        let left := ∃ q ∈ e.parts, q.revoked = false ∨ q.revoking = true
        let lone (q : Part) : Prop := ∀ p ∈ e.parts, p.id = q.id → p.revoked = q.revoked
        ∃ u : State, exec .endestroy s = .next u ∧ (∀ x : Enclave, x.id ≠ e.id → (x ∈ u.encs ↔ x ∈ s.encs)) ∧
          (¬ left → ∀ x ∈ u.encs, x.id ≠ e.id) ∧
          (left → ∃ x : Enclave, x ∈ u.encs ∧ x = { e with parts := x.parts, dying := true } ∧ x.parts.length = e.parts.length ∧
            ∀ (i : Nat) (q : Part), e.parts[i]? = some q → lone q → ∃ q', x.parts[i]? = some q' ∧
              (q.revoked = true → q' = q) ∧
              (q.revoked = false → q' = { q with revoked := true, revoking := true, waking := q'.waking })))) ∧
    (∀ asids, let u := s.revokeStart asids
      (∀ d ∈ u.cmds, d.asid ∈ asids → d.st ≠ .trigger ∧ d.st ≠ .parked20 ∧ d.st ≠ .parked21) ∧
      (∀ n, (u.slot n).runs = true → (u.slot n).asid ∉ asids) ∧ (∀ e ∈ u.timerq, e.asid ∉ asids) ∧
      (∀ n, (s.hnd n).base ≠ .free → (s.hnd n).asid ∈ asids → (u.hnd n).base = .broken ∧ (u.hnd n).lit = false)) ∧
    (let n := s.arg.n
     let barred := s.safe = true ∨ 2 < n ∨ (n = 2 ∧ s.feats.getLsbD 3 = false)
     (barred → exec .grant s = no "GRANT") ∧
     (∀ e, old = some e → ¬ barred →
       let fine := s.arg.flag = true ∧ s.arg.data = Config.sha256 (Config.identity s.secret)
       (fine → exec .grant s = .next ((s.updEnc id (fun x => { x with taint := true, grants := x.grants ++ [n] })).setLevel n e.tiles)) ∧
       (¬ fine → exec .grant s = no "GRANT")) ∧
     (old = none → ¬ barred →
       ((∀ e ∈ s.encs, ∀ t ∈ e.tiles, t ∉ s.arg.tiles) → exec .grant s = .next (s.setLevel n s.arg.tiles)) ∧
       ((∃ e ∈ s.encs, ∃ t ∈ e.tiles, t ∈ s.arg.tiles) → exec .grant s = no "GRANT")))) ∧
  (∀ s : State,
    let c := s.arg.core
    let k := s.arg.ctx
    let t := tileOf c
    let r := s.arg.dreg
    (s.safe = true ∨ (s.tile t).dbg < 2 → exec .dbgHalt s = .next s ∧ exec .dbgResume s = .next s ∧ exec .dbgStep s = .next s ∧
      exec .debugRegisterWrite s = .next s) ∧
    (s.safe = false → 2 ≤ (s.tile t).dbg →
      exec .dbgHalt s = .next (s.updCore c (fun y =>
        { y with dbgctl := (y.dbgctl ||| 1) &&& 13, halted := true, haltAt := if y.halted then y.haltAt else s.gt })) ∧
      exec .dbgResume s = .next ((s.updCore c (fun y => { y with dbgctl := y.dbgctl &&& 8 })).dbgResumeCore c) ∧
      exec .dbgStep s = .next ((s.updCore c (fun y => { y with dbgctl := (y.dbgctl &&& 8) ||| 4 })).dbgResumeCore c)) ∧
    (∀ v : State, let u := v.dbgResumeCore c
      let held := if (v.core c).halted then v.gt - (v.core c).haltAt else 0
      (u.core c).rt = (v.core c).rt.map (fun r => { r with busy := r.busy + held }) ∧
      (u.core c).drains = (v.core c).drains.map (fun d => { d with endGt := d.endGt + held }) ∧
      (u.core c).shrs = (v.core c).shrs.map (fun d => { d with endGt := d.endGt + held }) ∧
      (u.core c).halted = false ∧ (u.core c).dbgctl = (v.core c).dbgctl ∧ (∀ d, d ≠ c → u.core d = v.core d)) ∧
    ((s.core c).halted = false → exec .debugRegisterWrite s = .next s) ∧
    (s.safe = false → (s.core c).halted = true → 2 ≤ (s.tile t).dbg →
      (dbgRefused s c k r = false → exec .debugRegisterWrite s = .next (s.updCtx c k (·.dbgSet r))) ∧
      (dbgRefused s c k r = true → exec .debugRegisterWrite s = .next s)) ∧
    ((∀ ix v, r ≠ .sr ix v) → dbgRefused s c k r = false) ∧
    (∀ ix v, r = .sr ix v → (dbgRefused s c k r = true ↔ ∃ tr, wrsrCore s c k ix v (s.ctx c k).hart = .trap tr)) ∧
    (∀ x : Ctx,
      (∀ q v, x.dbgSet (.s q v) = { x with hart := x.hart.setS q v false }) ∧
      (∀ q v, x.dbgSet (.b q v) = { x with hart := x.hart.setB q v }) ∧
      (∀ q bs, x.dbgSet (.v q bs) = x.write (.v q) (.v (BitVec.allOnes 512) false (ofImage bs)) false) ∧
      (∀ q v, x.dbgSet (.m q v) = if q.val = 0 then x else { x with m := mapSet x.m q.val v }) ∧
      (∀ q v, x.dbgSet (.mp q v) = { x with mp := mapSet x.mp q.val v }) ∧
      (∀ q a p, x.dbgSet (.tk q a p) = { x with hart := x.hart.setTok q { armed := a, p := p } }) ∧
      (∀ i j v, i < 128 → j < 96 → ∀ p a b, a < 128 → b < 96 →
        ((x.dbgSet (.acc p i j v)).accOf p).cell a b =
          if a = i ∧ b = j then cellOf (x.accOf p).int v.toNat else (x.accOf p).cell a b) ∧
      (∀ ix v, x.dbgSet (.sr ix v) = if ix = 8 then { x with hart := { x.hart with fr := v } } else x.applySr ix v)) ∧
    (let n := s.arg.n
     let fine := s.safe = false ∧ 1 ≤ n ∧ n ≤ 1000 ∧ ∃ p ∈ s.tiles, 1 ≤ p.2.dbg
     (fine → exec .replayConfigure s = .next { s with replay := { ms := n, base := s.arg.word.toNat, len := s.arg.len } }) ∧
     (¬ fine → exec .replayConfigure s = .next (s.out (.event "REFUSED" [6, s.gt])))) ∧
    (let due := s.replay.ms ≠ 0 ∧ s.gt % (s.replay.ms * 1600000) = 0
     (due → exec .replayCheckpointBegin s = .next { s with
       replay := { s.replay with inProg := true, todo := residentTasks s, images := [] } }) ∧
     (¬ due → exec .replayCheckpointBegin s = .next s)))

/-- R6, R14, R15, R19, R21, R282, R283, R287, R288, R322, R346, R360-R366: the package, its power and its errors. A reset zeroes GT and
runs the mask ROM: images that verify give the configuration, and nothing runs before self-test; others leave the Safe Talkative State. A
sound self-test, once after a reset, gives eight entries of the Scope Cost Table that do not decrease, retires cores and starts every
Cellarer at the firmware entry; a failed one leaves the Safe Talkative State, as a thermal trip does, which ends gangs with no completion
record, darkens the circuits and stops the programs, at the first sensor at 110 degrees in a die or 105 in a stack; RETRY works there
alone, and after a trip only below 85 degrees. A fenced package of a pod joins it before any task has run and loads GT the first time. C1
is entered from C0 with nothing running, ready or halted, C3 from C0 or C1, C6 by the whole package; a request that its conditions do not
admit is refused; C1 keeps state, and C3 and C6 keep the launch queues and lose the rest. An exit whose time has come is C0, with the
Cellarer restarted out of C3 and C6; C6 stops the programs and the lasers. A failed training leaves the Safe Talkative State. Errors are
counted, marked or taken; a window sets the scrub factor; a Pruner that is enabled, powered and not throttled reports marked units and
late passes. What self-test and sensors find are operands (log 62). The model's choices: memory is empty after a reset or a failed exit
(log 4), no error in flight without a running task (log 15), its free syndrome (log 66), the exit times (log 61), what C3 keeps beyond
R360 (log 40), a rejoin that leaves GT (log 89), the time of an overrun's report (log 110), one junction sensor per tile and the circuits
at a trip (log 112), and when REQ clears (log 113). -/
def Obligations.PackageEvents : Prop :=
  ∀ (s : State),
    let t := s.arg.tile
    let x := s.tile t
    let n := s.arg.n
    let no : Out := .next (s.out (.event "REFUSED" [6, s.gt]))
    (exec .packageReset s = .next s.bootRom ∧
      (let fw : FlashImage := s.flash.getD 0 { body := [], sign := [], version := 0 }
       let cfg : FlashImage := s.flash.getD 1 { body := [], sign := [], version := 0 }
       let good (i : FlashImage) : Prop := Config.slhVerify Config.rootKey i.body i.sign = true ∧ s.counter ≤ i.version
       let u := s.bootRom
       u.gt = 0 ∧ u.gangs = [] ∧ u.cmds = [] ∧ u.handles = [] ∧ u.podRef = false ∧ u.asidtab = 0 ∧ u.mem = [] ∧ u.flash = s.flash ∧
       u.boot = {} ∧ (∀ t, (u.cell t).run = false ∧ (u.tile t).temp = (s.tile t).temp ∧ (u.tile t).junc = (s.tile t).junc) ∧ (∀ c k, (u.ctx c k).st = .free) ∧
       (good fw ∧ good cfg → u.safe = false ∧ u.feats = Config.cfgFeats cfg.body ∧ u.pkgid = Config.cfgPkgid cfg.body ∧
         u.fwEntry = Config.cfgEntry cfg.body ∧ u.counter = max s.counter fw.version) ∧
       (¬ (good fw ∧ good cfg) → u.safe = true ∧ u.laserF = BitVec.allOnes 32 ∧ u.feats = 0 ∧ u.counter = s.counter))) ∧
    (s.arg.self = none → exec .selfTestComplete s = .next s) ∧
    (∀ r, s.arg.self = some r →
      (s.safe = true ∨ s.boot.tested = true → exec .selfTestComplete s = .next s) ∧
      (s.safe = false → s.boot.tested = false →
        (r.failed = true → ∃ u, exec .selfTestComplete s = .next u ∧ u.safe = true ∧ u.laserF = BitVec.allOnes 32 ∧
          u.stRec = selfRec { u with laserF := r.lasers } r.stage 1 r.tiles r.hbm (retiredCores u) ∧ u.sct = s.sct ∧ u.boot = s.boot ∧
          u.gt = s.gt ∧ u.mem = s.mem ∧ u.tiles = s.tiles ∧
          (∀ c, u.core c = { s.core c with retired := (s.core c).retired || r.retired.contains c })) ∧
        let sct := (r.sct.take 4).map (· &&& 0x80000000FFFFFFFF) ++ (r.sct.drop 4).map (· &&& 0x8000FFFFFFFFFFFF)
        (r.failed = false → sctOk sct = false → exec .selfTestComplete s = .next s) ∧
        (r.failed = false → sctOk sct = true → ∃ u, exec .selfTestComplete s = .next u ∧
          u.sct = sct ∧ u.laserF = r.lasers ∧ u.boot = { s.boot with tested := true } ∧ u.safe = false ∧
          u.gt = s.gt ∧ u.mem = s.mem ∧ u.gangs = s.gangs ∧ (∀ t, u.cell t = { hart := { pc := s.fwEntry }, cpc := s.fwEntry }) ∧
          (∀ c, u.core c = { s.core c with retired := (s.core c).retired || r.retired.contains c })))) ∧
    (∀ l, sctOk l = true ↔ l.length = 8 ∧
      ∀ lo, lo = 0 ∨ lo = 16 ∨ lo = 32 → ((l.filter (·.getLsbD 63)).map (fun w => w.toNat / 2 ^ lo % 65536)).Pairwise (· ≤ ·)) ∧
    (let hot := s.stRec.getD 3 0 = 2 ∧ ∃ p ∈ s.tiles, 85 ≤ p.2.junc ∨ 85 ≤ p.2.temp
     (s.safe = true → ¬ hot → exec .retry s = .next s.bootRom) ∧ (s.safe = false ∨ hot → exec .retry s = .next s)) ∧
    (let tooHot := ∃ p ∈ s.tiles, 110 ≤ p.2.junc ∨ 105 ≤ p.2.temp
     (¬ tooHot → exec .thermalTrip s = .next s) ∧
     (tooHot → ∃ u, exec .thermalTrip s = .next u ∧ u.safe = true ∧ u.laserF = BitVec.allOnes 32 ∧ u.gangs = [] ∧ u.cmds = [] ∧
       (∀ t, u.cell t = { s.cell t with run := false }) ∧ (∀ c k, (u.core c).run = none ∧ (u.ctx c k).st = .free) ∧ u.fns = s.fns ∧
       u.stRec.getD 3 0 = 2 ∧ u.timerq = [] ∧ (∀ m, (u.slot m).runs = false) ∧
       (∀ h, (s.hnd h).lit = true → (u.hnd h).st = .dead) ∧ u.hostOut = s.hostOut ∧ u.gt = s.gt ∧ u.mem = s.mem)) ∧
    (∀ j n,
      let u := s.setTile j { s.tile j with junc := n % 256 }
      let tooHot := ∃ p ∈ u.tiles, 110 ≤ p.2.junc ∨ 105 ≤ p.2.temp
      (s.safe = false → tooHot → s.junction j n = { u with agenda := .ev .thermalTrip {} :: s.agenda }) ∧
      (s.safe = true ∨ ¬ tooHot → s.junction j n = u)) ∧
    (let fine := s.gangs = [] ∧ (∀ t, (s.cell t).run = false) ∧ s.podRef = false ∧ s.feats.getLsbD 2 = true ∧ s.boot.ran = false
     (fine → exec .podJoin s = .next { s with
       gt := if s.boot.joined then s.gt else s.arg.word.toNat, podRef := true, boot := { s.boot with joined := true } }) ∧
     (¬ fine → exec .podJoin s = .next s)) ∧
    (s.podRef = true → exec .podReferenceLoss s = .next ({ s with podRef := false }.out (.event "POD_REFERENCE_LOSS" [s.gt]))) ∧
    (s.podRef = false → exec .podReferenceLoss s = .next s) ∧
    (s.safe = true → exec .pstate s = no) ∧
    (s.safe = false → n = 0 → s.sleep = false → exec .pstate s = .next ((s.wake t).setTile t { (s.wake t).tile t with pwrReq := 0 })) ∧
    (s.safe = false → n = 0 → s.sleep = true → ∃ u, exec .pstate s = .next u ∧ u.mem = s.mem ∧ u.cores = s.cores ∧
      ∀ j, u.tile j = { (s.wake t).tile j with pwrReq := 0 }) ∧
    (s.safe = false → n ≠ 0 → n ≠ 1 → n ≠ 3 → n ≠ 6 → exec .pstate s = no) ∧
    (let wait (d : Nat) (y : Tile) : Tile := if y.pwrSt = 0 ∨ y.pwrAt ≠ none then y else { y with pwrAt := some (s.gt + d) }
     (s.sleep = false → s.wake t = s.setTile t (wait (if x.pwrSt = 1 then 3200 else 160000) x)) ∧
     (s.sleep = true → ∀ j, (s.wake t).tile j = wait 16000000 (s.tile j))) ∧
    (s.safe = false → n = 1 →
      (let fine := x.pwrSt = 0 ∧ x.backC1 = false ∧ c1Ok s t = true
       (fine → exec .pstate s = .next (s.setTile t { x with pwrReq := 1, pwrSt := 1 })) ∧ (¬ fine → exec .pstate s = no))) ∧
    (c1Ok s t = true ↔ (∀ c, tileOf c = t → (s.core c).halted = false ∧ ∀ k, (s.ctx c k).st ≠ .running ∧ (s.ctx c k).st ≠ .ready) ∧
      ∀ d ∈ s.cmds, d.tile = t → ∀ e, d.st ≠ .running e) ∧
    (s.safe = false → n = 3 →
      (let fine := x.pwrSt ≤ 1 ∧ x.pwrAt = none ∧ c3Ok s t = true
       (fine → ∃ u, exec .pstate s = .next u ∧ (u.tile t).pwrSt = 3 ∧ (u.tile t).pwrReq = 3 ∧ (u.tile t).lq = x.lq ∧
         (u.cell t).run = false ∧ (u.tile t).keys = [] ∧ (u.tile t).copies = [] ∧ (u.cell t).blocks = [] ∧ u.gt = s.gt ∧
         (∀ c, tileOf c = t → (u.core c).retired = (s.core c).retired ∧ (u.core c).ctxs = ({} : Core).ctxs) ∧
         (∀ j, j ≠ t → u.tile j = s.tile j) ∧ (∀ c, tileOf c ≠ t → u.core c = s.core c)) ∧
       (¬ fine → exec .pstate s = no))) ∧
    (s.safe = false → n = 6 →
      (let fine := s.sleep = false ∧ ∀ j, c3Ok s j = true
       (fine → ∃ u, exec .pstate s = .next u ∧ u.sleep = true ∧ u.gt = s.gt ∧ (∀ m, (u.slot m).runs = false) ∧ u.timerq = [] ∧
         (∀ h, (s.hnd h).lit = true → (u.hnd h).st = .dead) ∧
         ∀ j, (u.tile j).pwrSt = 6 ∧ (u.tile j).lq = (s.tile j).lq ∧ (u.cell j).run = false) ∧
       (¬ fine → exec .pstate s = no))) ∧
    (x.pwrAt = none → exec .powerStateExit s = .next s) ∧
    (∀ a, x.pwrAt = some a →
      (s.gt < a → exec .powerStateExit s = .next s) ∧
      (a ≤ s.gt → s.sleep = false → exec .powerStateExit s = .next (s.wakeTile t).revokeWoken) ∧
      (a ≤ s.gt → s.sleep = true → s.arg.flag = false → ∃ u : State, exec .powerStateExit s = .next u.revokeWoken ∧ u.sleep = false ∧ u.mem = s.mem ∧
        ∀ j, (u.tile j).pwrSt = 0 ∧ (u.tile j).pwrAt = none) ∧
      (a ≤ s.gt → s.sleep = true → s.arg.flag = true → ∃ u, exec .powerStateExit s = .next u ∧ u.safe = true ∧
        u.laserF = BitVec.allOnes 32 ∧ u.gt = s.gt ∧ u.mem = [] ∧ (∀ j, (u.cell j).run = false ∧ (u.tile j).lq = []))) ∧
    (s.wakeTile t = s.setTile t { x with
      pwrReq := 0, pwrSt := 0, pwrAt := none, cell := if x.pwrSt = 1 then x.cell else { hart := { pc := s.fwEntry }, cpc := s.fwEntry } }) ∧
    ((∀ e ∈ s.encs, ∀ p ∈ e.parts, p.waking = false) → s.revokeWoken = s) ∧
    exec .correctedError s = .next (s.setTile t { x with cecount := min (x.cecount + 1) (2 ^ 32 - 1), ceWin := x.ceWin + 1 }) ∧
    (∀ key, s.arg.err = .mark key → exec .uncorrectableError s = .next { s with
      bad := if key / 64 ∈ s.bad then s.bad else s.bad ++ [key / 64] }) ∧
    (∀ c slot cause, s.arg.err = .flight c slot cause →
      ((s.core c).halted = true ∨ (∀ k, (s.core c).run = some k → (s.ctx c k).st ≠ .running) → exec .uncorrectableError s = .next s) ∧
      (∀ k, (s.core c).halted = false → (s.core c).run = some k → (s.ctx c k).st = .running →
        exec .uncorrectableError s = .next (({ s with fresh := s.fresh + 1 } : State).coreFault c k slot (s.ctx c k).hart.bpc
          { code := 0x0A, cause := cause, detail := Config.freeWord s.fresh }))) ∧
    (prunes s t = true ↔ x.pren = true ∧ x.throttle ≤ s.gt ∧ x.pwrSt = 0) ∧
    (∀ j key, s.arg.err = .scrub j key →
      (key / 64 ∈ s.bad → prunes s j = true →
        exec .uncorrectableError s = .next (s.tileRec j 0x25 0 (BitVec.ofNat 64 (key / 64 * 64)))) ∧
      (key / 64 ∉ s.bad ∨ prunes s j = false → exec .uncorrectableError s = .next s)) ∧
    (let high : Bool := x.cethr.toNat < x.ceWin
     let u := s.setTile t { x with factor := min ((if high then 4 else 1) * 2 ^ ((x.temp - 85) / 10)) 64, ceWin := 0 }
     exec .prunerWindow s = .next (if high then u.tileRec t 0x23 0 0 else u)) ∧
    exec .scrubThrottleWindow s = .next (s.setTile t { x with throttle := s.gt + 1024 }) ∧
    (prunes s t = false → exec .scrubPassEnd s = .next s) ∧
    (prunes s t = true →
      (let late : Bool := x.passAt + 24 * 3600 * 1600000000 / x.factor < s.gt
       let u := s.setTile t { x with passAt := s.gt, ovr := x.ovr || late }
       exec .scrubPassEnd s = .next (if late then u.tileRec t 0x24 0 0 else u)))

/-! ## Encodings -/

namespace Sys2Proof.Claims

/-- What reads an instruction's bits: a core or a Cellarer (a bundle of it alone), a sequencer, a program slot, an engine. -/
inductive Reader where
  | core | cell | sequencer | slot | engine
deriving DecidableEq, Repr

/-- Micro-ops, step records and commands; on a Cellarer the S syllables, and the returning atomics, which stand alone in a bundle
only there (R80, R321). -/
def reader : Instr → Reader
  | .moEnd | .moPopa _ | .moPopb _ | .moPeeka _ | .moMma _ _ _ _ | .moSclRow _ | .moSclCol _ | .moSclClr | .moZero _ _
  | .moDrn _ _ _ _ _ _ | .moLoop _ _ _ | .moPadd _ _ | .moShr _ _ _ | .moWait _ | .moTok _ | .moPushr _ _ _ _ _ | .moNop
  | .moTrap _ => .sequencer
  | .vMake _ _ _ _ _ _ _ | .vBreak _ _ | .vPark _ _ _ | .vUnpark _ _ _ | .vHold _ | .vWaitq _ _ _ _ | .vSignal _ _ _
  | .vJump _ | .vLoop _ _ _ | .vGen | .vAttach _ _ | .vEnd => .slot
  | .cmdCopy _ | .cmdCopyred _ | .cmdRackfill _ | .cmdFill _ | .cmdSemsig _ | .cmdWaitsem _ | .cmdLaunch _ => .engine
  | .amoAdd _ | .amoMin _ | .amoMax _ | .amoMinn _ | .amoMaxn _ | .amoAnd _ | .amoOr _ | .amoXor _ | .amoSwap _ | .amoCas _
  | .csrr _ _ | .csrw _ _ | .tlbiAsid _ | .tlbiPage _ _ | .tlbiAll | .lnch _ _ _ | .semw _ _ | .semwT _ _ _ | .semsigAdd _ _ _
  | .semsigMax _ _ _ | .semset _ _ _ | .irq _ | .wfe _ | .eret | .cxsv _ _ _ | .cxld _ _ _ | .qpop _ _ | .fltp _
  | .fltrReenter _ _ _ | .fltrKill _ _ _ | .fltrResume _ _ _ | .fltrCmd _ | .kill _ _ | .vprog _ _ _ | .vprogStop _ _
  | .retire _ _ => .cell
  | _ => .core

end Sys2Proof.Claims

/-- R94, R180-R186, R223, R298: every well-formed micro-op, step record and engine command is what its words decode to, with every
operand at every value that the encoding admits. -/
def Obligations.RecordsReadBackAsEncoded : Prop :=
  ∀ i : Instr, i.wf = true →
    (reader i = .sequencer → decodeMicro (unwords32 (encode i)) = some i) ∧
    (reader i = .slot → decodeStep (unwords32 (encode i)) = .ok i) ∧
    (reader i = .engine → decodeCmd (unwords32 (encode i)) = some i)

/-- R77-R97, R196, R204, R218, R326: every well-formed syllable that stands alone in a bundle is what its words decode to, on a core,
or on a Cellarer for those that only a Cellarer reads alone; an event has no words. -/
def Obligations.SyllablesReadBackAsEncoded : Prop :=
  ∀ i : Instr, i.wf = true → encode i ≠ [] →
    (reader i = .core → soleInstr (decodeBundle false (encode i)) = some i) ∧
    (reader i = .cell → soleInstr (decodeBundle true (encode i)) = some i)

/-- R77, R85-R95, R223, R298: words written out bit by bit from the encoding tables, of several families, and what they stand for:
`rgn` 1,0 (CLS 1, OP 9, CASKMAX 1); `add` s4,s4,s9; `movi` s6,0x5A; `st64` s6,[s5]; `vld` v2,[s5+0x40] with KIND 15; `cvt` v6,v5 of
kind 3; `tps.16` v8,v0; `snd` h17,v4,b2; `semw` s20,s27 on a Cellarer, and the privilege fault on a core; mo.zero 0,0; mo.popb 1;
a MAKE; a bundle of four of them in their slots; a scalar syllable after an immediate one, and no words, which are no bundle. -/
def Obligations.WordsOfTheTablesDecode : Prop :=
  soleInstr (decodeBundle false [0x89200800]) = some (.rgn 1 0) ∧
  soleInstr (decodeBundle false [0x90010424]) = some (.add .w64 4 4 9) ∧
  soleInstr (decodeBundle false [0x9943005A]) = some (.movi 6 0x5A) ∧
  soleInstr (decodeBundle false [0xA2861400]) = some (.st64 6 { base := 5, off := 0, trk := 0 }) ∧
  soleInstr (decodeBundle false [0xA6C21404, 0xF0000040]) =
    some (.vld 2 { base := 5, off := 0x40, kind := 15, trk := 0, sp := false, wt := false, lat := 2 }) ∧
  soleInstr (decodeBundle false [0xC891850C]) = some (.cvt 6 5 3 0) ∧
  soleInstr (decodeBundle false [0xD9200000]) = some (.tps16 8 0 0) ∧
  soleInstr (decodeBundle false [0xE0088840]) = some (.snd 17 4 2) ∧
  soleInstr (decodeBundle true [0xE840146C]) = some (.semw 20 27) ∧
  decodeBundle false [0xE840146C] = .error (.privilege 13) ∧
  decodeMicro 0x6000000000000000 = some (.moZero false false) ∧
  decodeMicro 0x2200000000000000 = some (.moPopb 1) ∧
  decodeStep (10000 * 2 ^ 64 + 0x1C5297FDC4521101) = .ok (.vMake 17 0x052 0x0E2 0xFF 0x0A5 0x1C5 10000) ∧
  (decodeBundle false [0x09200800, 0x10010424, 0x1943005A, 0xA2861400]).toOption.map (fun b => (b.len, b.syls)) =
    some (4, [(1, .rgn 1 0), (3, .add .w64 4 4 9), (4, .movi 6 0x5A), (5, .st64 6 { base := 5, off := 0, trk := 0 })]) ∧
  (decodeBundle false [0x09200800, 0x1943005A, 0x90010424]).toOption = none ∧
  decodeBundle false [] = .error .illegalBundle

/-! ## Frames -/

namespace Sys2Proof.Claims
open Sys2Proof.Machine

/-- The destination registers of a scalar syllable whose only effect is a result (R117-R128). -/
def scalarDests : Instr → Option (List Dst)
  | .add _ d _ _ | .sub _ d _ _ | .and _ d _ _ | .or _ d _ _ | .xor _ d _ _ | .andn _ d _ _ | .shl _ d _ _ | .shr _ d _ _
  | .sar _ d _ _ | .rol _ d _ _ | .mul _ d _ _ | .mulh _ d _ _ | .mulhn _ d _ _ | .div _ d _ _ | .divn _ d _ _ | .rem _ d _ _
  | .remn _ d _ _ | .min _ d _ _ | .max _ d _ _ | .minn _ d _ _ | .maxn _ d _ _ | .sel d _ _ | .selNot d _ _ | .clz _ d _
  | .ctz _ d _ | .pop _ d _ | .bext _ d _ _ | .bins _ d _ _ | .sxt _ d _ | .zxt _ d _ | .adds _ d _ _ | .mov d _ | .rdsr d _
  | .fadds d _ _ | .fsubs d _ _ | .fmuls d _ _ | .fcvtsF2i d _ | .fcvtsI2f d _ | .fcvtsBf16 d _ | .fcvtsF16 d _ | .addi d _ _
  | .andi d _ _ | .ori d _ _ | .xori d _ _ | .shli d _ _ | .shri d _ _ | .sari d _ _ | .movi d _ | .movh d _ _ | .muli d _ _
  | .addpc d _ => some [.s d]
  | .cmpEq _ d _ _ | .cmpNe _ d _ _ | .cmpLt _ d _ _ | .cmpLtn _ d _ _ | .cmpLe _ d _ _ | .cmpLen _ d _ _ | .bopAnd d _ _
  | .bopOr d _ _ | .bopXor d _ _ | .bopAndn d _ _ | .cmpiEq d _ _ | .cmpiLt d _ _ | .cmpiLtn d _ _ => some [.b d]
  | _ => none

/-- The destination registers of a vector syllable whose only effect is a result (R191-R214). -/
def vectorDests : Instr → Option (List Dst)
  | .vget d _ _ | .vgetSx d _ _ | .vgetS d _ _ | .mcnt d _ | .mcntFirst d _ | .dcnt d => some [.s d]
  | .vmov d _ _ | .vbc d _ _ | .vput d _ _ | .vprm d _ _ | .vprmG16 d _ _ | .viota d _ | .viotaRank d _ _ | .vsset d _
  | .vssetOr d _ | .vssetClr d _ | .cvt d _ _ _ | .unpk d _ _ _ | .pack d _ _ _ | .rnd d _ _ _ | .vtree d _ _ | .vtreeG d _ _
  | .vtreeI d _ _ | .vtreeGI d _ _ => some [.v d]
  | .vcas f => some [.v f.vd]
  | .vcmpFeq d _ _ _ | .vcmpFne d _ _ _ | .vcmpFlt d _ _ _ | .vcmpFle d _ _ _ | .vcmpIeq d _ _ _ | .vcmpIne d _ _ _
  | .vcmpIlt d _ _ _ | .vcmpIltn d _ _ _ | .mopAnd d _ _ | .mopOr d _ _ | .mopXor d _ _ | .mopAndn d _ _ | .vsx d _ => some [.m d]
  | .tps32 d _ _ | .tps16 d _ _ | .tps8 d _ _ => some [.v d, .v (d + 1), .v (d + 2), .v (d + 3)]
  | _ => none

/-- An instruction that only gives results: it answers the state with new results in flight, for its destinations alone, and
changes nothing else at all; or it raises a fault. -/
def resultOnly (i : Instr) (ds : List Dst) (s : State) : Prop :=
  (∃ ps : List Pend, (∀ p ∈ ps, p.dst ∈ ds) ∧
    exec i s = .next (s.setHart { s.hart with pend := s.hart.pend ++ ps, nid := s.hart.nid + ps.length })) ∨
  ∃ t, exec i s = .next (s.raise t)

end Sys2Proof.Claims

/-- R98, R105, R108, R117-R128, R191-R214: the frame of the syllables that only give results. Only results for their destination
registers come to be in flight, or a fault is raised; and putting results in flight on a core changes no byte of memory, no tag, no
other tile, core or context, and of the context itself nothing but what is in flight. -/
def Obligations.ResultSyllablesFrame : Prop :=
  (∀ (s : State) (i : Instr) (ds : List Dst), scalarDests i = some ds → (∃ c k, s.cur = .core c k) ∨ (∃ t, s.cur = .cell t) →
    resultOnly i ds s) ∧
  (∀ (s : State) (i : Instr) (ds : List Dst) (c : CoreId) (k : CtxId), vectorDests i = some ds → s.cur = .core c k →
    resultOnly i ds s) ∧
  (∀ (s : State) (c : CoreId) (k : CtxId) (h : Hart), s.cur = .core c k → (s.core c).ctxs.length = 3 →
    let u := s.setHart h
    (∀ a, mapGet 0 u.mem a = mapGet 0 s.mem a) ∧ u = { s with cores := u.cores } ∧ (∀ d, d ≠ c → u.core d = s.core d) ∧
    u.core c = { s.core c with ctxs := (u.core c).ctxs } ∧ (∀ j, j ≠ k → u.ctx c j = s.ctx c j) ∧
    u.ctx c k = { s.ctx c k with hart := h })

/-! ## Steps -/

namespace Sys2Proof.Claims
open Sys2Proof.Machine

/-- The canonical form of a state: memory lists rising addresses and no zero byte, and every core has three contexts. -/
def Inv (s : State) : Prop := memWf s.mem = true ∧ ∀ p ∈ s.cores, p.2.ctxs.length = 3

end Sys2Proof.Claims

/-- R24, R237: every step keeps the canonical form of memory and the three contexts of every core, from any state that has them. That an
unwritten byte reads 0 is the model's choice (log 4). -/
def Obligations.StepKeepsTheInvariant : Prop :=
  ∀ s t : State, Inv s → step s = .next t → Inv t

/-- Every instruction, and every step, answers a next state: nothing stops the machine (the model has no stop). -/
def Obligations.NothingStopsTheMachine : Prop :=
  (∀ (i : Instr) (s : State), ∃ t, exec i s = .next t) ∧ ∀ s : State, SafeStep s

/-- R19, R35, R324, R334, R348: after reset GT is 0; the state has its canonical form; every line has tag 0; every context is free,
no gang, command or circuit exists, and every Cellarer runs with its events clear, EVTTIME all ones and EIE 0. By the model's
choice (log 4, 5) unwritten memory reads 0 and the registers whose reset value the spec does not give are 0. -/
def Obligations.ResetState : Prop :=
  Inv State.reset ∧ State.reset.gt = 0 ∧ (∀ a, mapGet 0 State.reset.mem a = 0) ∧ (∀ l, mapGet 0 State.reset.tags l = 0) ∧
  (∀ c k, (State.reset.ctx c k).st = .free ∧ (State.reset.ctx c k).hart.b = 1 ∧ (State.reset.core c).ic = 0 ∧
    ∀ r, (State.reset.ctx c k).hart.rs r = 0) ∧
  State.reset.gangs = [] ∧ State.reset.cmds = [] ∧ State.reset.handles = [] ∧ State.reset.asidtab = 0 ∧
  (∀ t, (State.reset.cell t).run = true ∧ (State.reset.cell t).eie = false ∧ (State.reset.cell t).evtpend = 0 ∧
    (State.reset.cell t).evtmask = 0 ∧ (State.reset.cell t).evttime = BitVec.allOnes 64 ∧ (State.reset.cell t).casid = 0) ∧
  (∀ r, State.reset.sem r = 0)

/-- R25, R77-R81, R98, R222, R280, R297: a step runs the decoded instruction. An event is run as it stands. A core whose clock has come,
which waits for nothing and whose fetch misses no page, fetches the bundle at its program counter, decodes it and runs it, and then takes
its next address and ends its issue cycle; of a bundle of one ordinary syllable that is the instruction itself, and then the writes of
special registers. So do a Cellarer with no event to take, which late in the gt issues only a bundle that samples semaphores, a sequencer,
a program slot and an engine of a powered tile. The agenda, which says whose act comes first, is the model's choice (log 1). -/
def Obligations.AStepRunsTheDecodedInstruction : Prop :=
  (∀ (s : State) (i : Instr) (a : EvArg) (l : List Act), s.agenda = .ev i a :: l →
    step s = exec i { s with agenda := l, cur := .idle, arg := a, abort := false }) ∧
  (∀ (s : State) (c : CoreId) (k : CtxId) (l : List Act) (ws : List Nat) (es : List TlbEnt) (b : Bundle),
    s.agenda = .core c :: l → (s.core c).cycled = false → (s.core c).halted = false →
    let s0 := { s with agenda := l }.updCore c (fun y => { y with cycled := true })
    let w := s0.waitEnd c
    let s1 := (w.updCtx c k (fun x => x.prepared (w.core c).ic)).landCore c
    tileOn { s with agenda := l } (tileOf c) = true → (s.core c).run = some k → (s.ctx c k).stall = none → (s.ctx c k).stallK = none →
    coreWaits s0 c = false →
    (w.core c).run = some k → mayIssue w c k = true → fetchMiss w c k = none → mayIssue s1 c k = true →
    let x := s1.ctx c k
    let s2 : State := { s1.updCtx c k (fun y => { y with hart := y.hart.begin (s1.core c).ic }) with cur := .core c k, abort := false }
    let s3 := s2.fillTlbs (tileOf c) (some c) es
    fetchCore s2 c x.asid.toNat x.hart.pc = .ok (ws, es) →
    fetchBad s3 c x.asid.toNat x.hart.pc (4 * ws.length) = false → decodeBundle false ws = .ok b →
    let s4 := s3.updCtx c k (fun y => { y with hart := y.hart.decoded b })
    step s = Out.then (s4.runCore c k b) (fun u => .next (u.finishCore s2 c k)) ∧
    (∀ n i, b.syls = [(n, i)] →
      (i = .brk → (s4.ctx c k).brkSkip = false →
        step s = Out.then (exec i (s4.atSlot n)) (fun u => .next (u.finishCore s2 c k))) ∧
      (i ≠ .brk → bpMatch (s4.tile (tileOf c)).dbg (s4.core c) (s4.ctx c k).hart.bpc = false →
        shadowSlot (s4.ctx c k).hart (s4.ctx c k).vp b = none →
        isRgn i = true ∨ (s4.ctx c k).reg.cnt < 2 ^ (8 + (s4.ctx c k).reg.blim) →
        let s5 := (s4.updCtx c k (fun x => { x with brkSkip := false })).updCtx c k (fun x => x.enter (s4.core c).ic (isRgn i))
        (atEnd i = false → step s = Out.then (exec i (s5.atSlot n)) (fun u => .next (u.applySrs.finishCore s2 c k))) ∧
        (atEnd i = true → step s = Out.then (exec i (s5.applySrs.atSlot n)) (fun u => .next (u.finishCore s2 c k)))))) ∧
  (∀ (s : State) (t : TileId) (late : Bool) (l : List Act) (ws : List Nat) (es : List TlbEnt) (b : Bundle) (n : Nat) (i : Instr),
    s.agenda = (if late then .cellLate t else .cell t) :: l →
    let s0 := { s with agenda := l }
    let x := s.cell t
    x.cycled = false → x.run = true → x.stall = none → x.stallK = none → tileOn s0 t = true →
    let x1 := x.ticked
    x1.waits s.gt = false → x1.badDue s.gt = [] → x1.hart.gapTo ≤ x1.hart.ic →
    cellSamples (s0.setCell t (x1.land s.gt)) t = late →
    let s1 := (s0.setCell t (x1.land s.gt)).updCell t Cell.enter
    (s1.cell t).hart.eretP = false → (s1.cell t).eie = false →
    let s2 : State := { s1 with cur := .cell t, abort := false }.updCell t (fun y =>
      { y with hart := y.hart.begin y.hart.ic, cycled := true })
    fetchCell s2 t (s2.cell t).hart.pc = .ok (ws, es) →
    cellFetchBad (s2.fillTlbs t none es) t (s2.cell t).hart.pc (4 * ws.length) = false →
    decodeBundle true ws = .ok b → b.syls = [(n, i)] →
    let s3 := (s2.fillTlbs t none es).updCell t (fun y => { y with hart := y.hart.decoded b })
    (i = .brk → step s = Out.then (exec i (s3.atSlot n)) (fun u => .next (u.finishCell t))) ∧
    (i ≠ .brk → shadowSlot (s3.cell t).hart 0 b = none →
      (atEnd i = false → step s = Out.then (exec i (s3.atSlot n)) (fun u => .next (u.applySrs.finishCell t))) ∧
      (atEnd i = true → step s = Out.then (exec i (s3.applySrs.atSlot n)) (fun u => .next (u.finishCell t))))) ∧
  (∀ (s : State) (c : CoreId) (l : List Act) (r : Routine) (i : Instr), s.agenda = .seq c :: l → (s.core c).rt = some r →
    (s.core c).halted = false → r.busy ≤ s.gt → r.ended = false → r.cmd.isCall = true → tileOn { s with agenda := l } (tileOf c) = true →
    r.pc < (s.ctx c r.cmd.ctx).mslen → decodeMicro (windowWord (s.core c) (s.ctx c r.cmd.ctx) r.pc).toNat = some i →
    step s = exec i { s with agenda := l, cur := .seq c, abort := false }) ∧
  (∀ (s : State) (n : SlotId) (l : List Act) (g : List Seg) (es : List TlbEnt) (i : Instr), s.agenda = .slot n :: l →
    let v := s.slot n
    let s0 : State := { { s with agenda := l }.updSlot n (fun w =>
      { w with cycled := true, step := v.step, seen := max w.seen (v.step + 1) }) with cur := .slot n, abort := false }
    s.safe = false → v.st = 1 → v.cycled = false → v.full = none →
    xlateSegs s0 true v.tile none v.asid .read 2 (v.addrOf v.step) 16 = .ok (g, es) → decodeStep (leNat (s0.segBytes g)) = .ok i →
    step s = exec i (s0.fillTlbs v.tile none es)) ∧
  (∀ (s : State) (who : Cur) (a : Act) (l : List Act) (d : Cmd) (i : Instr), s.agenda = a :: l →
    (∃ t e, a = .eng t e ∧ who = .eng t e ∧ (s.tile t).pwrSt = 0) ∨ (∃ t, a = .cq t ∧ who = .cell t ∧ (s.tile t).pwrSt = 0) →
    let s0 : State := { s with agenda := l, cur := who, abort := false }
    s0.curCmd = some d → s0.prodsDone d.waits = true → decodeCmd (leNat d.bytes) = some i → step s = exec i s0)


/-! ## Claims in several parts -/

/-- R119: the field syllables. -/
def Obligations.FieldExtractAndInsertResults : Prop := Claims.FieldExtractAndInsertBits

/-- R121-R123: compares, selects and predicate logic. -/
def Obligations.CompareSelectAndPredicateResults : Prop :=
  Claims.CompareResults ∧ Claims.SelectAndPredicateLogicResults

/-- R98, R100, R103, R105: a result lands in its issue cycle and not before, and a register reads what was last written to it. -/
def Obligations.ScalarResultsLandAndAreRead : Prop :=
  Claims.ScalarRegistersReadWhatWasWritten ∧ Claims.DueScalarResultLands ∧ Claims.ResultsWaitForTheirCycle

/-- R4, R59-R63, R116, R129, R220, R225: the writes of special registers, and when they take effect. -/
def Obligations.SpecialRegisterWrites : Prop :=
  Claims.SpecialRegisterWrites ∧ Claims.QueuedRegisterWritesTakeEffect

/-- R130-R135: the branch syllables, and the way of the program counter after them. -/
def Obligations.BranchesRedirectAfterThreeBundles : Prop :=
  Claims.BranchesTakenAndLinked ∧ Claims.ThreeDelayBundlesThenTarget

/-- R31, R133, R136, R139, R148: region boundaries, and where they may stand. That attempt A of a pair is discarded at its commit point and B
begins at least 8 gt on is the model's reading (log 14), and so is that a stop at a commit undoes the bundle of the `rgn` (log 18). -/
def Obligations.RegionsOpenAndClose : Prop :=
  Claims.RegionSyllables ∧ Claims.RegionEdgesInABranchShadow

/-- R265-R269: what a fault does to the open region, and what follows a re-entry. -/
def Obligations.FaultsRestoreOrRetireARegion : Prop :=
  Claims.FaultDispositions ∧ Claims.ReentryCountsAndLivelocks

/-- R166, R167: the returning atomics. That those of a Cellarer perform as they issue is the model's reading (log 10), and so is the fault
of one on a device window (log 96). -/
def Obligations.AtomicsAndTheirValues : Prop :=
  Claims.AtomicsAreSentOnce ∧ Claims.CellarerAtomicsPerformAtOnce ∧ Claims.AtomicNewValues

/-- R293, R309-R312, R318: messages over a circuit and the circuit's status. That attempt A of a pair takes sequence numbers and sends
nothing is the model's reading (log 14), and so is that the status shows WIDTH, WMASK and VER only when LIVE (log 46). -/
def Obligations.MessagesAndCircuitStatus : Prop :=
  Claims.MessagesSentAndReceived ∧ Claims.CircuitStatus

/-- R321-R326, R334, R340: the Cellarer's registers and events, and the semaphores. The model's readings: a vector held back by MSI-X is
pending once (log 88), `eret` tests EPC as an access fault, and TIMER is set once for a value of EVTTIME (log 29). -/
def Obligations.CellarerRegistersAndSemaphores : Prop :=
  Claims.CellarerRegistersAndEvents ∧ Claims.SemaphoreOperations

/-- R139, R249-R255, R264: what a commit keeps and what a discard restores. -/
def Obligations.CommitsAndDiscards : Prop :=
  Claims.CommitReleasesStoresAndCheckpoints ∧ Claims.DiscardRestoresTheCheckpoint

/-- R88, R152-R154, R161-R163, R239, R240: loads of the Loop space, scalar and vector. -/
def Obligations.LoopLoadsIssue : Prop :=
  Claims.LoopScalarLoadsIssue ∧ Claims.LoopVectorLoadsIssue
end

