-- ==== Sys2Proof/Laws/State.lean ====
section
/-! SUPPORT. Laws/State.lean: of every update of the state, the fields that it leaves as they were. -/

namespace Sys2Proof.Machine

variable (s : State)

/-! `State.setCore` -/

@[simp] theorem State.setCore_gt (c : CoreId) (x : Core) : (s.setCore c x).gt = s.gt := rfl
@[simp] theorem State.setCore_agenda (c : CoreId) (x : Core) : (s.setCore c x).agenda = s.agenda := rfl
@[simp] theorem State.setCore_cur (c : CoreId) (x : Core) : (s.setCore c x).cur = s.cur := rfl
@[simp] theorem State.setCore_arg (c : CoreId) (x : Core) : (s.setCore c x).arg = s.arg := rfl
@[simp] theorem State.setCore_abort (c : CoreId) (x : Core) : (s.setCore c x).abort = s.abort := rfl
@[simp] theorem State.setCore_fresh (c : CoreId) (x : Core) : (s.setCore c x).fresh = s.fresh := rfl
@[simp] theorem State.setCore_mem (c : CoreId) (x : Core) : (s.setCore c x).mem = s.mem := rfl
@[simp] theorem State.setCore_tags (c : CoreId) (x : Core) : (s.setCore c x).tags = s.tags := rfl
@[simp] theorem State.setCore_epochs (c : CoreId) (x : Core) : (s.setCore c x).epochs = s.epochs := rfl
@[simp] theorem State.setCore_bad (c : CoreId) (x : Core) : (s.setCore c x).bad = s.bad := rfl
@[simp] theorem State.setCore_tiles (c : CoreId) (x : Core) : (s.setCore c x).tiles = s.tiles := rfl
@[simp] theorem State.setCore_loopq (c : CoreId) (x : Core) : (s.setCore c x).loopq = s.loopq := rfl
@[simp] theorem State.setCore_tracks (c : CoreId) (x : Core) : (s.setCore c x).tracks = s.tracks := rfl
@[simp] theorem State.setCore_prods (c : CoreId) (x : Core) : (s.setCore c x).prods = s.prods := rfl
@[simp] theorem State.setCore_cmds (c : CoreId) (x : Core) : (s.setCore c x).cmds = s.cmds := rfl
@[simp] theorem State.setCore_gangs (c : CoreId) (x : Core) : (s.setCore c x).gangs = s.gangs := rfl
@[simp] theorem State.setCore_slots (c : CoreId) (x : Core) : (s.setCore c x).slots = s.slots := rfl
@[simp] theorem State.setCore_timerq (c : CoreId) (x : Core) : (s.setCore c x).timerq = s.timerq := rfl
@[simp] theorem State.setCore_handles (c : CoreId) (x : Core) : (s.setCore c x).handles = s.handles := rfl
@[simp] theorem State.setCore_ports (c : CoreId) (x : Core) : (s.setCore c x).ports = s.ports := rfl
@[simp] theorem State.setCore_laserF (c : CoreId) (x : Core) : (s.setCore c x).laserF = s.laserF := rfl
@[simp] theorem State.setCore_links (c : CoreId) (x : Core) : (s.setCore c x).links = s.links := rfl
@[simp] theorem State.setCore_fns (c : CoreId) (x : Core) : (s.setCore c x).fns = s.fns := rfl
@[simp] theorem State.setCore_act (c : CoreId) (x : Core) : (s.setCore c x).act = s.act := rfl
@[simp] theorem State.setCore_actCnt (c : CoreId) (x : Core) : (s.setCore c x).actCnt = s.actCnt := rfl
@[simp] theorem State.setCore_actWin (c : CoreId) (x : Core) : (s.setCore c x).actWin = s.actWin := rfl
@[simp] theorem State.setCore_asidtab (c : CoreId) (x : Core) : (s.setCore c x).asidtab = s.asidtab := rfl
@[simp] theorem State.setCore_sct (c : CoreId) (x : Core) : (s.setCore c x).sct = s.sct := rfl
@[simp] theorem State.setCore_form (c : CoreId) (x : Core) : (s.setCore c x).form = s.form := rfl
@[simp] theorem State.setCore_feats (c : CoreId) (x : Core) : (s.setCore c x).feats = s.feats := rfl
@[simp] theorem State.setCore_pkgid (c : CoreId) (x : Core) : (s.setCore c x).pkgid = s.pkgid := rfl
@[simp] theorem State.setCore_fwEntry (c : CoreId) (x : Core) : (s.setCore c x).fwEntry = s.fwEntry := rfl
@[simp] theorem State.setCore_podRef (c : CoreId) (x : Core) : (s.setCore c x).podRef = s.podRef := rfl
@[simp] theorem State.setCore_flash (c : CoreId) (x : Core) : (s.setCore c x).flash = s.flash := rfl
@[simp] theorem State.setCore_counter (c : CoreId) (x : Core) : (s.setCore c x).counter = s.counter := rfl
@[simp] theorem State.setCore_secret (c : CoreId) (x : Core) : (s.setCore c x).secret = s.secret := rfl
@[simp] theorem State.setCore_safe (c : CoreId) (x : Core) : (s.setCore c x).safe = s.safe := rfl
@[simp] theorem State.setCore_sleep (c : CoreId) (x : Core) : (s.setCore c x).sleep = s.sleep := rfl
@[simp] theorem State.setCore_stRec (c : CoreId) (x : Core) : (s.setCore c x).stRec = s.stRec := rfl
@[simp] theorem State.setCore_hostOut (c : CoreId) (x : Core) : (s.setCore c x).hostOut = s.hostOut := rfl
@[simp] theorem State.setCore_encs (c : CoreId) (x : Core) : (s.setCore c x).encs = s.encs := rfl
@[simp] theorem State.setCore_kems (c : CoreId) (x : Core) : (s.setCore c x).kems = s.kems := rfl
@[simp] theorem State.setCore_replay (c : CoreId) (x : Core) : (s.setCore c x).replay = s.replay := rfl
@[simp] theorem State.setCore_semRecs (c : CoreId) (x : Core) : (s.setCore c x).semRecs = s.semRecs := rfl
@[simp] theorem State.setCore_boot (c : CoreId) (x : Core) : (s.setCore c x).boot = s.boot := rfl

/-! `State.updCore` -/

@[simp] theorem State.updCore_gt (c : CoreId) (f : Core → Core) : (s.updCore c f).gt = s.gt := rfl
@[simp] theorem State.updCore_agenda (c : CoreId) (f : Core → Core) : (s.updCore c f).agenda = s.agenda := rfl
@[simp] theorem State.updCore_cur (c : CoreId) (f : Core → Core) : (s.updCore c f).cur = s.cur := rfl
@[simp] theorem State.updCore_arg (c : CoreId) (f : Core → Core) : (s.updCore c f).arg = s.arg := rfl
@[simp] theorem State.updCore_abort (c : CoreId) (f : Core → Core) : (s.updCore c f).abort = s.abort := rfl
@[simp] theorem State.updCore_fresh (c : CoreId) (f : Core → Core) : (s.updCore c f).fresh = s.fresh := rfl
@[simp] theorem State.updCore_mem (c : CoreId) (f : Core → Core) : (s.updCore c f).mem = s.mem := rfl
@[simp] theorem State.updCore_tags (c : CoreId) (f : Core → Core) : (s.updCore c f).tags = s.tags := rfl
@[simp] theorem State.updCore_epochs (c : CoreId) (f : Core → Core) : (s.updCore c f).epochs = s.epochs := rfl
@[simp] theorem State.updCore_bad (c : CoreId) (f : Core → Core) : (s.updCore c f).bad = s.bad := rfl
@[simp] theorem State.updCore_tiles (c : CoreId) (f : Core → Core) : (s.updCore c f).tiles = s.tiles := rfl
@[simp] theorem State.updCore_loopq (c : CoreId) (f : Core → Core) : (s.updCore c f).loopq = s.loopq := rfl
@[simp] theorem State.updCore_tracks (c : CoreId) (f : Core → Core) : (s.updCore c f).tracks = s.tracks := rfl
@[simp] theorem State.updCore_prods (c : CoreId) (f : Core → Core) : (s.updCore c f).prods = s.prods := rfl
@[simp] theorem State.updCore_cmds (c : CoreId) (f : Core → Core) : (s.updCore c f).cmds = s.cmds := rfl
@[simp] theorem State.updCore_gangs (c : CoreId) (f : Core → Core) : (s.updCore c f).gangs = s.gangs := rfl
@[simp] theorem State.updCore_slots (c : CoreId) (f : Core → Core) : (s.updCore c f).slots = s.slots := rfl
@[simp] theorem State.updCore_timerq (c : CoreId) (f : Core → Core) : (s.updCore c f).timerq = s.timerq := rfl
@[simp] theorem State.updCore_handles (c : CoreId) (f : Core → Core) : (s.updCore c f).handles = s.handles := rfl
@[simp] theorem State.updCore_ports (c : CoreId) (f : Core → Core) : (s.updCore c f).ports = s.ports := rfl
@[simp] theorem State.updCore_laserF (c : CoreId) (f : Core → Core) : (s.updCore c f).laserF = s.laserF := rfl
@[simp] theorem State.updCore_links (c : CoreId) (f : Core → Core) : (s.updCore c f).links = s.links := rfl
@[simp] theorem State.updCore_fns (c : CoreId) (f : Core → Core) : (s.updCore c f).fns = s.fns := rfl
@[simp] theorem State.updCore_act (c : CoreId) (f : Core → Core) : (s.updCore c f).act = s.act := rfl
@[simp] theorem State.updCore_actCnt (c : CoreId) (f : Core → Core) : (s.updCore c f).actCnt = s.actCnt := rfl
@[simp] theorem State.updCore_actWin (c : CoreId) (f : Core → Core) : (s.updCore c f).actWin = s.actWin := rfl
@[simp] theorem State.updCore_asidtab (c : CoreId) (f : Core → Core) : (s.updCore c f).asidtab = s.asidtab := rfl
@[simp] theorem State.updCore_sct (c : CoreId) (f : Core → Core) : (s.updCore c f).sct = s.sct := rfl
@[simp] theorem State.updCore_form (c : CoreId) (f : Core → Core) : (s.updCore c f).form = s.form := rfl
@[simp] theorem State.updCore_feats (c : CoreId) (f : Core → Core) : (s.updCore c f).feats = s.feats := rfl
@[simp] theorem State.updCore_pkgid (c : CoreId) (f : Core → Core) : (s.updCore c f).pkgid = s.pkgid := rfl
@[simp] theorem State.updCore_fwEntry (c : CoreId) (f : Core → Core) : (s.updCore c f).fwEntry = s.fwEntry := rfl
@[simp] theorem State.updCore_podRef (c : CoreId) (f : Core → Core) : (s.updCore c f).podRef = s.podRef := rfl
@[simp] theorem State.updCore_flash (c : CoreId) (f : Core → Core) : (s.updCore c f).flash = s.flash := rfl
@[simp] theorem State.updCore_counter (c : CoreId) (f : Core → Core) : (s.updCore c f).counter = s.counter := rfl
@[simp] theorem State.updCore_secret (c : CoreId) (f : Core → Core) : (s.updCore c f).secret = s.secret := rfl
@[simp] theorem State.updCore_safe (c : CoreId) (f : Core → Core) : (s.updCore c f).safe = s.safe := rfl
@[simp] theorem State.updCore_sleep (c : CoreId) (f : Core → Core) : (s.updCore c f).sleep = s.sleep := rfl
@[simp] theorem State.updCore_stRec (c : CoreId) (f : Core → Core) : (s.updCore c f).stRec = s.stRec := rfl
@[simp] theorem State.updCore_hostOut (c : CoreId) (f : Core → Core) : (s.updCore c f).hostOut = s.hostOut := rfl
@[simp] theorem State.updCore_encs (c : CoreId) (f : Core → Core) : (s.updCore c f).encs = s.encs := rfl
@[simp] theorem State.updCore_kems (c : CoreId) (f : Core → Core) : (s.updCore c f).kems = s.kems := rfl
@[simp] theorem State.updCore_replay (c : CoreId) (f : Core → Core) : (s.updCore c f).replay = s.replay := rfl
@[simp] theorem State.updCore_semRecs (c : CoreId) (f : Core → Core) : (s.updCore c f).semRecs = s.semRecs := rfl
@[simp] theorem State.updCore_boot (c : CoreId) (f : Core → Core) : (s.updCore c f).boot = s.boot := rfl

/-! `State.setCtx` -/

@[simp] theorem State.setCtx_gt (c : CoreId) (k : CtxId) (x : Ctx) : (s.setCtx c k x).gt = s.gt := rfl
@[simp] theorem State.setCtx_agenda (c : CoreId) (k : CtxId) (x : Ctx) : (s.setCtx c k x).agenda = s.agenda := rfl
@[simp] theorem State.setCtx_cur (c : CoreId) (k : CtxId) (x : Ctx) : (s.setCtx c k x).cur = s.cur := rfl
@[simp] theorem State.setCtx_arg (c : CoreId) (k : CtxId) (x : Ctx) : (s.setCtx c k x).arg = s.arg := rfl
@[simp] theorem State.setCtx_abort (c : CoreId) (k : CtxId) (x : Ctx) : (s.setCtx c k x).abort = s.abort := rfl
@[simp] theorem State.setCtx_fresh (c : CoreId) (k : CtxId) (x : Ctx) : (s.setCtx c k x).fresh = s.fresh := rfl
@[simp] theorem State.setCtx_mem (c : CoreId) (k : CtxId) (x : Ctx) : (s.setCtx c k x).mem = s.mem := rfl
@[simp] theorem State.setCtx_tags (c : CoreId) (k : CtxId) (x : Ctx) : (s.setCtx c k x).tags = s.tags := rfl
@[simp] theorem State.setCtx_epochs (c : CoreId) (k : CtxId) (x : Ctx) : (s.setCtx c k x).epochs = s.epochs := rfl
@[simp] theorem State.setCtx_bad (c : CoreId) (k : CtxId) (x : Ctx) : (s.setCtx c k x).bad = s.bad := rfl
@[simp] theorem State.setCtx_tiles (c : CoreId) (k : CtxId) (x : Ctx) : (s.setCtx c k x).tiles = s.tiles := rfl
@[simp] theorem State.setCtx_loopq (c : CoreId) (k : CtxId) (x : Ctx) : (s.setCtx c k x).loopq = s.loopq := rfl
@[simp] theorem State.setCtx_tracks (c : CoreId) (k : CtxId) (x : Ctx) : (s.setCtx c k x).tracks = s.tracks := rfl
@[simp] theorem State.setCtx_prods (c : CoreId) (k : CtxId) (x : Ctx) : (s.setCtx c k x).prods = s.prods := rfl
@[simp] theorem State.setCtx_cmds (c : CoreId) (k : CtxId) (x : Ctx) : (s.setCtx c k x).cmds = s.cmds := rfl
@[simp] theorem State.setCtx_gangs (c : CoreId) (k : CtxId) (x : Ctx) : (s.setCtx c k x).gangs = s.gangs := rfl
@[simp] theorem State.setCtx_slots (c : CoreId) (k : CtxId) (x : Ctx) : (s.setCtx c k x).slots = s.slots := rfl
@[simp] theorem State.setCtx_timerq (c : CoreId) (k : CtxId) (x : Ctx) : (s.setCtx c k x).timerq = s.timerq := rfl
@[simp] theorem State.setCtx_handles (c : CoreId) (k : CtxId) (x : Ctx) : (s.setCtx c k x).handles = s.handles := rfl
@[simp] theorem State.setCtx_ports (c : CoreId) (k : CtxId) (x : Ctx) : (s.setCtx c k x).ports = s.ports := rfl
@[simp] theorem State.setCtx_laserF (c : CoreId) (k : CtxId) (x : Ctx) : (s.setCtx c k x).laserF = s.laserF := rfl
@[simp] theorem State.setCtx_links (c : CoreId) (k : CtxId) (x : Ctx) : (s.setCtx c k x).links = s.links := rfl
@[simp] theorem State.setCtx_fns (c : CoreId) (k : CtxId) (x : Ctx) : (s.setCtx c k x).fns = s.fns := rfl
@[simp] theorem State.setCtx_act (c : CoreId) (k : CtxId) (x : Ctx) : (s.setCtx c k x).act = s.act := rfl
@[simp] theorem State.setCtx_actCnt (c : CoreId) (k : CtxId) (x : Ctx) : (s.setCtx c k x).actCnt = s.actCnt := rfl
@[simp] theorem State.setCtx_actWin (c : CoreId) (k : CtxId) (x : Ctx) : (s.setCtx c k x).actWin = s.actWin := rfl
@[simp] theorem State.setCtx_asidtab (c : CoreId) (k : CtxId) (x : Ctx) : (s.setCtx c k x).asidtab = s.asidtab := rfl
@[simp] theorem State.setCtx_sct (c : CoreId) (k : CtxId) (x : Ctx) : (s.setCtx c k x).sct = s.sct := rfl
@[simp] theorem State.setCtx_form (c : CoreId) (k : CtxId) (x : Ctx) : (s.setCtx c k x).form = s.form := rfl
@[simp] theorem State.setCtx_feats (c : CoreId) (k : CtxId) (x : Ctx) : (s.setCtx c k x).feats = s.feats := rfl
@[simp] theorem State.setCtx_pkgid (c : CoreId) (k : CtxId) (x : Ctx) : (s.setCtx c k x).pkgid = s.pkgid := rfl
@[simp] theorem State.setCtx_fwEntry (c : CoreId) (k : CtxId) (x : Ctx) : (s.setCtx c k x).fwEntry = s.fwEntry := rfl
@[simp] theorem State.setCtx_podRef (c : CoreId) (k : CtxId) (x : Ctx) : (s.setCtx c k x).podRef = s.podRef := rfl
@[simp] theorem State.setCtx_flash (c : CoreId) (k : CtxId) (x : Ctx) : (s.setCtx c k x).flash = s.flash := rfl
@[simp] theorem State.setCtx_counter (c : CoreId) (k : CtxId) (x : Ctx) : (s.setCtx c k x).counter = s.counter := rfl
@[simp] theorem State.setCtx_secret (c : CoreId) (k : CtxId) (x : Ctx) : (s.setCtx c k x).secret = s.secret := rfl
@[simp] theorem State.setCtx_safe (c : CoreId) (k : CtxId) (x : Ctx) : (s.setCtx c k x).safe = s.safe := rfl
@[simp] theorem State.setCtx_sleep (c : CoreId) (k : CtxId) (x : Ctx) : (s.setCtx c k x).sleep = s.sleep := rfl
@[simp] theorem State.setCtx_stRec (c : CoreId) (k : CtxId) (x : Ctx) : (s.setCtx c k x).stRec = s.stRec := rfl
@[simp] theorem State.setCtx_hostOut (c : CoreId) (k : CtxId) (x : Ctx) : (s.setCtx c k x).hostOut = s.hostOut := rfl
@[simp] theorem State.setCtx_encs (c : CoreId) (k : CtxId) (x : Ctx) : (s.setCtx c k x).encs = s.encs := rfl
@[simp] theorem State.setCtx_kems (c : CoreId) (k : CtxId) (x : Ctx) : (s.setCtx c k x).kems = s.kems := rfl
@[simp] theorem State.setCtx_replay (c : CoreId) (k : CtxId) (x : Ctx) : (s.setCtx c k x).replay = s.replay := rfl
@[simp] theorem State.setCtx_semRecs (c : CoreId) (k : CtxId) (x : Ctx) : (s.setCtx c k x).semRecs = s.semRecs := rfl
@[simp] theorem State.setCtx_boot (c : CoreId) (k : CtxId) (x : Ctx) : (s.setCtx c k x).boot = s.boot := rfl

/-! `State.updCtx` -/

@[simp] theorem State.updCtx_gt (c : CoreId) (k : CtxId) (f : Ctx → Ctx) : (s.updCtx c k f).gt = s.gt := rfl
@[simp] theorem State.updCtx_agenda (c : CoreId) (k : CtxId) (f : Ctx → Ctx) : (s.updCtx c k f).agenda = s.agenda := rfl
@[simp] theorem State.updCtx_cur (c : CoreId) (k : CtxId) (f : Ctx → Ctx) : (s.updCtx c k f).cur = s.cur := rfl
@[simp] theorem State.updCtx_arg (c : CoreId) (k : CtxId) (f : Ctx → Ctx) : (s.updCtx c k f).arg = s.arg := rfl
@[simp] theorem State.updCtx_abort (c : CoreId) (k : CtxId) (f : Ctx → Ctx) : (s.updCtx c k f).abort = s.abort := rfl
@[simp] theorem State.updCtx_fresh (c : CoreId) (k : CtxId) (f : Ctx → Ctx) : (s.updCtx c k f).fresh = s.fresh := rfl
@[simp] theorem State.updCtx_mem (c : CoreId) (k : CtxId) (f : Ctx → Ctx) : (s.updCtx c k f).mem = s.mem := rfl
@[simp] theorem State.updCtx_tags (c : CoreId) (k : CtxId) (f : Ctx → Ctx) : (s.updCtx c k f).tags = s.tags := rfl
@[simp] theorem State.updCtx_epochs (c : CoreId) (k : CtxId) (f : Ctx → Ctx) : (s.updCtx c k f).epochs = s.epochs := rfl
@[simp] theorem State.updCtx_bad (c : CoreId) (k : CtxId) (f : Ctx → Ctx) : (s.updCtx c k f).bad = s.bad := rfl
@[simp] theorem State.updCtx_tiles (c : CoreId) (k : CtxId) (f : Ctx → Ctx) : (s.updCtx c k f).tiles = s.tiles := rfl
@[simp] theorem State.updCtx_loopq (c : CoreId) (k : CtxId) (f : Ctx → Ctx) : (s.updCtx c k f).loopq = s.loopq := rfl
@[simp] theorem State.updCtx_tracks (c : CoreId) (k : CtxId) (f : Ctx → Ctx) : (s.updCtx c k f).tracks = s.tracks := rfl
@[simp] theorem State.updCtx_prods (c : CoreId) (k : CtxId) (f : Ctx → Ctx) : (s.updCtx c k f).prods = s.prods := rfl
@[simp] theorem State.updCtx_cmds (c : CoreId) (k : CtxId) (f : Ctx → Ctx) : (s.updCtx c k f).cmds = s.cmds := rfl
@[simp] theorem State.updCtx_gangs (c : CoreId) (k : CtxId) (f : Ctx → Ctx) : (s.updCtx c k f).gangs = s.gangs := rfl
@[simp] theorem State.updCtx_slots (c : CoreId) (k : CtxId) (f : Ctx → Ctx) : (s.updCtx c k f).slots = s.slots := rfl
@[simp] theorem State.updCtx_timerq (c : CoreId) (k : CtxId) (f : Ctx → Ctx) : (s.updCtx c k f).timerq = s.timerq := rfl
@[simp] theorem State.updCtx_handles (c : CoreId) (k : CtxId) (f : Ctx → Ctx) : (s.updCtx c k f).handles = s.handles := rfl
@[simp] theorem State.updCtx_ports (c : CoreId) (k : CtxId) (f : Ctx → Ctx) : (s.updCtx c k f).ports = s.ports := rfl
@[simp] theorem State.updCtx_laserF (c : CoreId) (k : CtxId) (f : Ctx → Ctx) : (s.updCtx c k f).laserF = s.laserF := rfl
@[simp] theorem State.updCtx_links (c : CoreId) (k : CtxId) (f : Ctx → Ctx) : (s.updCtx c k f).links = s.links := rfl
@[simp] theorem State.updCtx_fns (c : CoreId) (k : CtxId) (f : Ctx → Ctx) : (s.updCtx c k f).fns = s.fns := rfl
@[simp] theorem State.updCtx_act (c : CoreId) (k : CtxId) (f : Ctx → Ctx) : (s.updCtx c k f).act = s.act := rfl
@[simp] theorem State.updCtx_actCnt (c : CoreId) (k : CtxId) (f : Ctx → Ctx) : (s.updCtx c k f).actCnt = s.actCnt := rfl
@[simp] theorem State.updCtx_actWin (c : CoreId) (k : CtxId) (f : Ctx → Ctx) : (s.updCtx c k f).actWin = s.actWin := rfl
@[simp] theorem State.updCtx_asidtab (c : CoreId) (k : CtxId) (f : Ctx → Ctx) : (s.updCtx c k f).asidtab = s.asidtab := rfl
@[simp] theorem State.updCtx_sct (c : CoreId) (k : CtxId) (f : Ctx → Ctx) : (s.updCtx c k f).sct = s.sct := rfl
@[simp] theorem State.updCtx_form (c : CoreId) (k : CtxId) (f : Ctx → Ctx) : (s.updCtx c k f).form = s.form := rfl
@[simp] theorem State.updCtx_feats (c : CoreId) (k : CtxId) (f : Ctx → Ctx) : (s.updCtx c k f).feats = s.feats := rfl
@[simp] theorem State.updCtx_pkgid (c : CoreId) (k : CtxId) (f : Ctx → Ctx) : (s.updCtx c k f).pkgid = s.pkgid := rfl
@[simp] theorem State.updCtx_fwEntry (c : CoreId) (k : CtxId) (f : Ctx → Ctx) : (s.updCtx c k f).fwEntry = s.fwEntry := rfl
@[simp] theorem State.updCtx_podRef (c : CoreId) (k : CtxId) (f : Ctx → Ctx) : (s.updCtx c k f).podRef = s.podRef := rfl
@[simp] theorem State.updCtx_flash (c : CoreId) (k : CtxId) (f : Ctx → Ctx) : (s.updCtx c k f).flash = s.flash := rfl
@[simp] theorem State.updCtx_counter (c : CoreId) (k : CtxId) (f : Ctx → Ctx) : (s.updCtx c k f).counter = s.counter := rfl
@[simp] theorem State.updCtx_secret (c : CoreId) (k : CtxId) (f : Ctx → Ctx) : (s.updCtx c k f).secret = s.secret := rfl
@[simp] theorem State.updCtx_safe (c : CoreId) (k : CtxId) (f : Ctx → Ctx) : (s.updCtx c k f).safe = s.safe := rfl
@[simp] theorem State.updCtx_sleep (c : CoreId) (k : CtxId) (f : Ctx → Ctx) : (s.updCtx c k f).sleep = s.sleep := rfl
@[simp] theorem State.updCtx_stRec (c : CoreId) (k : CtxId) (f : Ctx → Ctx) : (s.updCtx c k f).stRec = s.stRec := rfl
@[simp] theorem State.updCtx_hostOut (c : CoreId) (k : CtxId) (f : Ctx → Ctx) : (s.updCtx c k f).hostOut = s.hostOut := rfl
@[simp] theorem State.updCtx_encs (c : CoreId) (k : CtxId) (f : Ctx → Ctx) : (s.updCtx c k f).encs = s.encs := rfl
@[simp] theorem State.updCtx_kems (c : CoreId) (k : CtxId) (f : Ctx → Ctx) : (s.updCtx c k f).kems = s.kems := rfl
@[simp] theorem State.updCtx_replay (c : CoreId) (k : CtxId) (f : Ctx → Ctx) : (s.updCtx c k f).replay = s.replay := rfl
@[simp] theorem State.updCtx_semRecs (c : CoreId) (k : CtxId) (f : Ctx → Ctx) : (s.updCtx c k f).semRecs = s.semRecs := rfl
@[simp] theorem State.updCtx_boot (c : CoreId) (k : CtxId) (f : Ctx → Ctx) : (s.updCtx c k f).boot = s.boot := rfl

/-! `State.setTile` -/

@[simp] theorem State.setTile_gt (t : TileId) (x : Tile) : (s.setTile t x).gt = s.gt := rfl
@[simp] theorem State.setTile_agenda (t : TileId) (x : Tile) : (s.setTile t x).agenda = s.agenda := rfl
@[simp] theorem State.setTile_cur (t : TileId) (x : Tile) : (s.setTile t x).cur = s.cur := rfl
@[simp] theorem State.setTile_arg (t : TileId) (x : Tile) : (s.setTile t x).arg = s.arg := rfl
@[simp] theorem State.setTile_abort (t : TileId) (x : Tile) : (s.setTile t x).abort = s.abort := rfl
@[simp] theorem State.setTile_fresh (t : TileId) (x : Tile) : (s.setTile t x).fresh = s.fresh := rfl
@[simp] theorem State.setTile_mem (t : TileId) (x : Tile) : (s.setTile t x).mem = s.mem := rfl
@[simp] theorem State.setTile_tags (t : TileId) (x : Tile) : (s.setTile t x).tags = s.tags := rfl
@[simp] theorem State.setTile_epochs (t : TileId) (x : Tile) : (s.setTile t x).epochs = s.epochs := rfl
@[simp] theorem State.setTile_bad (t : TileId) (x : Tile) : (s.setTile t x).bad = s.bad := rfl
@[simp] theorem State.setTile_cores (t : TileId) (x : Tile) : (s.setTile t x).cores = s.cores := rfl
@[simp] theorem State.setTile_loopq (t : TileId) (x : Tile) : (s.setTile t x).loopq = s.loopq := rfl
@[simp] theorem State.setTile_tracks (t : TileId) (x : Tile) : (s.setTile t x).tracks = s.tracks := rfl
@[simp] theorem State.setTile_prods (t : TileId) (x : Tile) : (s.setTile t x).prods = s.prods := rfl
@[simp] theorem State.setTile_cmds (t : TileId) (x : Tile) : (s.setTile t x).cmds = s.cmds := rfl
@[simp] theorem State.setTile_gangs (t : TileId) (x : Tile) : (s.setTile t x).gangs = s.gangs := rfl
@[simp] theorem State.setTile_slots (t : TileId) (x : Tile) : (s.setTile t x).slots = s.slots := rfl
@[simp] theorem State.setTile_timerq (t : TileId) (x : Tile) : (s.setTile t x).timerq = s.timerq := rfl
@[simp] theorem State.setTile_handles (t : TileId) (x : Tile) : (s.setTile t x).handles = s.handles := rfl
@[simp] theorem State.setTile_ports (t : TileId) (x : Tile) : (s.setTile t x).ports = s.ports := rfl
@[simp] theorem State.setTile_laserF (t : TileId) (x : Tile) : (s.setTile t x).laserF = s.laserF := rfl
@[simp] theorem State.setTile_links (t : TileId) (x : Tile) : (s.setTile t x).links = s.links := rfl
@[simp] theorem State.setTile_fns (t : TileId) (x : Tile) : (s.setTile t x).fns = s.fns := rfl
@[simp] theorem State.setTile_act (t : TileId) (x : Tile) : (s.setTile t x).act = s.act := rfl
@[simp] theorem State.setTile_actCnt (t : TileId) (x : Tile) : (s.setTile t x).actCnt = s.actCnt := rfl
@[simp] theorem State.setTile_actWin (t : TileId) (x : Tile) : (s.setTile t x).actWin = s.actWin := rfl
@[simp] theorem State.setTile_asidtab (t : TileId) (x : Tile) : (s.setTile t x).asidtab = s.asidtab := rfl
@[simp] theorem State.setTile_sct (t : TileId) (x : Tile) : (s.setTile t x).sct = s.sct := rfl
@[simp] theorem State.setTile_form (t : TileId) (x : Tile) : (s.setTile t x).form = s.form := rfl
@[simp] theorem State.setTile_feats (t : TileId) (x : Tile) : (s.setTile t x).feats = s.feats := rfl
@[simp] theorem State.setTile_pkgid (t : TileId) (x : Tile) : (s.setTile t x).pkgid = s.pkgid := rfl
@[simp] theorem State.setTile_fwEntry (t : TileId) (x : Tile) : (s.setTile t x).fwEntry = s.fwEntry := rfl
@[simp] theorem State.setTile_podRef (t : TileId) (x : Tile) : (s.setTile t x).podRef = s.podRef := rfl
@[simp] theorem State.setTile_flash (t : TileId) (x : Tile) : (s.setTile t x).flash = s.flash := rfl
@[simp] theorem State.setTile_counter (t : TileId) (x : Tile) : (s.setTile t x).counter = s.counter := rfl
@[simp] theorem State.setTile_secret (t : TileId) (x : Tile) : (s.setTile t x).secret = s.secret := rfl
@[simp] theorem State.setTile_safe (t : TileId) (x : Tile) : (s.setTile t x).safe = s.safe := rfl
@[simp] theorem State.setTile_sleep (t : TileId) (x : Tile) : (s.setTile t x).sleep = s.sleep := rfl
@[simp] theorem State.setTile_stRec (t : TileId) (x : Tile) : (s.setTile t x).stRec = s.stRec := rfl
@[simp] theorem State.setTile_hostOut (t : TileId) (x : Tile) : (s.setTile t x).hostOut = s.hostOut := rfl
@[simp] theorem State.setTile_encs (t : TileId) (x : Tile) : (s.setTile t x).encs = s.encs := rfl
@[simp] theorem State.setTile_kems (t : TileId) (x : Tile) : (s.setTile t x).kems = s.kems := rfl
@[simp] theorem State.setTile_replay (t : TileId) (x : Tile) : (s.setTile t x).replay = s.replay := rfl
@[simp] theorem State.setTile_semRecs (t : TileId) (x : Tile) : (s.setTile t x).semRecs = s.semRecs := rfl
@[simp] theorem State.setTile_boot (t : TileId) (x : Tile) : (s.setTile t x).boot = s.boot := rfl

/-! `State.updTile` -/

@[simp] theorem State.updTile_gt (t : TileId) (f : Tile → Tile) : (s.updTile t f).gt = s.gt := rfl
@[simp] theorem State.updTile_agenda (t : TileId) (f : Tile → Tile) : (s.updTile t f).agenda = s.agenda := rfl
@[simp] theorem State.updTile_cur (t : TileId) (f : Tile → Tile) : (s.updTile t f).cur = s.cur := rfl
@[simp] theorem State.updTile_arg (t : TileId) (f : Tile → Tile) : (s.updTile t f).arg = s.arg := rfl
@[simp] theorem State.updTile_abort (t : TileId) (f : Tile → Tile) : (s.updTile t f).abort = s.abort := rfl
@[simp] theorem State.updTile_fresh (t : TileId) (f : Tile → Tile) : (s.updTile t f).fresh = s.fresh := rfl
@[simp] theorem State.updTile_mem (t : TileId) (f : Tile → Tile) : (s.updTile t f).mem = s.mem := rfl
@[simp] theorem State.updTile_tags (t : TileId) (f : Tile → Tile) : (s.updTile t f).tags = s.tags := rfl
@[simp] theorem State.updTile_epochs (t : TileId) (f : Tile → Tile) : (s.updTile t f).epochs = s.epochs := rfl
@[simp] theorem State.updTile_bad (t : TileId) (f : Tile → Tile) : (s.updTile t f).bad = s.bad := rfl
@[simp] theorem State.updTile_cores (t : TileId) (f : Tile → Tile) : (s.updTile t f).cores = s.cores := rfl
@[simp] theorem State.updTile_loopq (t : TileId) (f : Tile → Tile) : (s.updTile t f).loopq = s.loopq := rfl
@[simp] theorem State.updTile_tracks (t : TileId) (f : Tile → Tile) : (s.updTile t f).tracks = s.tracks := rfl
@[simp] theorem State.updTile_prods (t : TileId) (f : Tile → Tile) : (s.updTile t f).prods = s.prods := rfl
@[simp] theorem State.updTile_cmds (t : TileId) (f : Tile → Tile) : (s.updTile t f).cmds = s.cmds := rfl
@[simp] theorem State.updTile_gangs (t : TileId) (f : Tile → Tile) : (s.updTile t f).gangs = s.gangs := rfl
@[simp] theorem State.updTile_slots (t : TileId) (f : Tile → Tile) : (s.updTile t f).slots = s.slots := rfl
@[simp] theorem State.updTile_timerq (t : TileId) (f : Tile → Tile) : (s.updTile t f).timerq = s.timerq := rfl
@[simp] theorem State.updTile_handles (t : TileId) (f : Tile → Tile) : (s.updTile t f).handles = s.handles := rfl
@[simp] theorem State.updTile_ports (t : TileId) (f : Tile → Tile) : (s.updTile t f).ports = s.ports := rfl
@[simp] theorem State.updTile_laserF (t : TileId) (f : Tile → Tile) : (s.updTile t f).laserF = s.laserF := rfl
@[simp] theorem State.updTile_links (t : TileId) (f : Tile → Tile) : (s.updTile t f).links = s.links := rfl
@[simp] theorem State.updTile_fns (t : TileId) (f : Tile → Tile) : (s.updTile t f).fns = s.fns := rfl
@[simp] theorem State.updTile_act (t : TileId) (f : Tile → Tile) : (s.updTile t f).act = s.act := rfl
@[simp] theorem State.updTile_actCnt (t : TileId) (f : Tile → Tile) : (s.updTile t f).actCnt = s.actCnt := rfl
@[simp] theorem State.updTile_actWin (t : TileId) (f : Tile → Tile) : (s.updTile t f).actWin = s.actWin := rfl
@[simp] theorem State.updTile_asidtab (t : TileId) (f : Tile → Tile) : (s.updTile t f).asidtab = s.asidtab := rfl
@[simp] theorem State.updTile_sct (t : TileId) (f : Tile → Tile) : (s.updTile t f).sct = s.sct := rfl
@[simp] theorem State.updTile_form (t : TileId) (f : Tile → Tile) : (s.updTile t f).form = s.form := rfl
@[simp] theorem State.updTile_feats (t : TileId) (f : Tile → Tile) : (s.updTile t f).feats = s.feats := rfl
@[simp] theorem State.updTile_pkgid (t : TileId) (f : Tile → Tile) : (s.updTile t f).pkgid = s.pkgid := rfl
@[simp] theorem State.updTile_fwEntry (t : TileId) (f : Tile → Tile) : (s.updTile t f).fwEntry = s.fwEntry := rfl
@[simp] theorem State.updTile_podRef (t : TileId) (f : Tile → Tile) : (s.updTile t f).podRef = s.podRef := rfl
@[simp] theorem State.updTile_flash (t : TileId) (f : Tile → Tile) : (s.updTile t f).flash = s.flash := rfl
@[simp] theorem State.updTile_counter (t : TileId) (f : Tile → Tile) : (s.updTile t f).counter = s.counter := rfl
@[simp] theorem State.updTile_secret (t : TileId) (f : Tile → Tile) : (s.updTile t f).secret = s.secret := rfl
@[simp] theorem State.updTile_safe (t : TileId) (f : Tile → Tile) : (s.updTile t f).safe = s.safe := rfl
@[simp] theorem State.updTile_sleep (t : TileId) (f : Tile → Tile) : (s.updTile t f).sleep = s.sleep := rfl
@[simp] theorem State.updTile_stRec (t : TileId) (f : Tile → Tile) : (s.updTile t f).stRec = s.stRec := rfl
@[simp] theorem State.updTile_hostOut (t : TileId) (f : Tile → Tile) : (s.updTile t f).hostOut = s.hostOut := rfl
@[simp] theorem State.updTile_encs (t : TileId) (f : Tile → Tile) : (s.updTile t f).encs = s.encs := rfl
@[simp] theorem State.updTile_kems (t : TileId) (f : Tile → Tile) : (s.updTile t f).kems = s.kems := rfl
@[simp] theorem State.updTile_replay (t : TileId) (f : Tile → Tile) : (s.updTile t f).replay = s.replay := rfl
@[simp] theorem State.updTile_semRecs (t : TileId) (f : Tile → Tile) : (s.updTile t f).semRecs = s.semRecs := rfl
@[simp] theorem State.updTile_boot (t : TileId) (f : Tile → Tile) : (s.updTile t f).boot = s.boot := rfl

/-! `State.setCell` -/

@[simp] theorem State.setCell_gt (t : TileId) (x : Cell) : (s.setCell t x).gt = s.gt := rfl
@[simp] theorem State.setCell_agenda (t : TileId) (x : Cell) : (s.setCell t x).agenda = s.agenda := rfl
@[simp] theorem State.setCell_cur (t : TileId) (x : Cell) : (s.setCell t x).cur = s.cur := rfl
@[simp] theorem State.setCell_arg (t : TileId) (x : Cell) : (s.setCell t x).arg = s.arg := rfl
@[simp] theorem State.setCell_abort (t : TileId) (x : Cell) : (s.setCell t x).abort = s.abort := rfl
@[simp] theorem State.setCell_fresh (t : TileId) (x : Cell) : (s.setCell t x).fresh = s.fresh := rfl
@[simp] theorem State.setCell_mem (t : TileId) (x : Cell) : (s.setCell t x).mem = s.mem := rfl
@[simp] theorem State.setCell_tags (t : TileId) (x : Cell) : (s.setCell t x).tags = s.tags := rfl
@[simp] theorem State.setCell_epochs (t : TileId) (x : Cell) : (s.setCell t x).epochs = s.epochs := rfl
@[simp] theorem State.setCell_bad (t : TileId) (x : Cell) : (s.setCell t x).bad = s.bad := rfl
@[simp] theorem State.setCell_cores (t : TileId) (x : Cell) : (s.setCell t x).cores = s.cores := rfl
@[simp] theorem State.setCell_loopq (t : TileId) (x : Cell) : (s.setCell t x).loopq = s.loopq := rfl
@[simp] theorem State.setCell_tracks (t : TileId) (x : Cell) : (s.setCell t x).tracks = s.tracks := rfl
@[simp] theorem State.setCell_prods (t : TileId) (x : Cell) : (s.setCell t x).prods = s.prods := rfl
@[simp] theorem State.setCell_cmds (t : TileId) (x : Cell) : (s.setCell t x).cmds = s.cmds := rfl
@[simp] theorem State.setCell_gangs (t : TileId) (x : Cell) : (s.setCell t x).gangs = s.gangs := rfl
@[simp] theorem State.setCell_slots (t : TileId) (x : Cell) : (s.setCell t x).slots = s.slots := rfl
@[simp] theorem State.setCell_timerq (t : TileId) (x : Cell) : (s.setCell t x).timerq = s.timerq := rfl
@[simp] theorem State.setCell_handles (t : TileId) (x : Cell) : (s.setCell t x).handles = s.handles := rfl
@[simp] theorem State.setCell_ports (t : TileId) (x : Cell) : (s.setCell t x).ports = s.ports := rfl
@[simp] theorem State.setCell_laserF (t : TileId) (x : Cell) : (s.setCell t x).laserF = s.laserF := rfl
@[simp] theorem State.setCell_links (t : TileId) (x : Cell) : (s.setCell t x).links = s.links := rfl
@[simp] theorem State.setCell_fns (t : TileId) (x : Cell) : (s.setCell t x).fns = s.fns := rfl
@[simp] theorem State.setCell_act (t : TileId) (x : Cell) : (s.setCell t x).act = s.act := rfl
@[simp] theorem State.setCell_actCnt (t : TileId) (x : Cell) : (s.setCell t x).actCnt = s.actCnt := rfl
@[simp] theorem State.setCell_actWin (t : TileId) (x : Cell) : (s.setCell t x).actWin = s.actWin := rfl
@[simp] theorem State.setCell_asidtab (t : TileId) (x : Cell) : (s.setCell t x).asidtab = s.asidtab := rfl
@[simp] theorem State.setCell_sct (t : TileId) (x : Cell) : (s.setCell t x).sct = s.sct := rfl
@[simp] theorem State.setCell_form (t : TileId) (x : Cell) : (s.setCell t x).form = s.form := rfl
@[simp] theorem State.setCell_feats (t : TileId) (x : Cell) : (s.setCell t x).feats = s.feats := rfl
@[simp] theorem State.setCell_pkgid (t : TileId) (x : Cell) : (s.setCell t x).pkgid = s.pkgid := rfl
@[simp] theorem State.setCell_fwEntry (t : TileId) (x : Cell) : (s.setCell t x).fwEntry = s.fwEntry := rfl
@[simp] theorem State.setCell_podRef (t : TileId) (x : Cell) : (s.setCell t x).podRef = s.podRef := rfl
@[simp] theorem State.setCell_flash (t : TileId) (x : Cell) : (s.setCell t x).flash = s.flash := rfl
@[simp] theorem State.setCell_counter (t : TileId) (x : Cell) : (s.setCell t x).counter = s.counter := rfl
@[simp] theorem State.setCell_secret (t : TileId) (x : Cell) : (s.setCell t x).secret = s.secret := rfl
@[simp] theorem State.setCell_safe (t : TileId) (x : Cell) : (s.setCell t x).safe = s.safe := rfl
@[simp] theorem State.setCell_sleep (t : TileId) (x : Cell) : (s.setCell t x).sleep = s.sleep := rfl
@[simp] theorem State.setCell_stRec (t : TileId) (x : Cell) : (s.setCell t x).stRec = s.stRec := rfl
@[simp] theorem State.setCell_hostOut (t : TileId) (x : Cell) : (s.setCell t x).hostOut = s.hostOut := rfl
@[simp] theorem State.setCell_encs (t : TileId) (x : Cell) : (s.setCell t x).encs = s.encs := rfl
@[simp] theorem State.setCell_kems (t : TileId) (x : Cell) : (s.setCell t x).kems = s.kems := rfl
@[simp] theorem State.setCell_replay (t : TileId) (x : Cell) : (s.setCell t x).replay = s.replay := rfl
@[simp] theorem State.setCell_semRecs (t : TileId) (x : Cell) : (s.setCell t x).semRecs = s.semRecs := rfl
@[simp] theorem State.setCell_boot (t : TileId) (x : Cell) : (s.setCell t x).boot = s.boot := rfl

/-! `State.updCell` -/

@[simp] theorem State.updCell_gt (t : TileId) (f : Cell → Cell) : (s.updCell t f).gt = s.gt := rfl
@[simp] theorem State.updCell_agenda (t : TileId) (f : Cell → Cell) : (s.updCell t f).agenda = s.agenda := rfl
@[simp] theorem State.updCell_cur (t : TileId) (f : Cell → Cell) : (s.updCell t f).cur = s.cur := rfl
@[simp] theorem State.updCell_arg (t : TileId) (f : Cell → Cell) : (s.updCell t f).arg = s.arg := rfl
@[simp] theorem State.updCell_abort (t : TileId) (f : Cell → Cell) : (s.updCell t f).abort = s.abort := rfl
@[simp] theorem State.updCell_fresh (t : TileId) (f : Cell → Cell) : (s.updCell t f).fresh = s.fresh := rfl
@[simp] theorem State.updCell_mem (t : TileId) (f : Cell → Cell) : (s.updCell t f).mem = s.mem := rfl
@[simp] theorem State.updCell_tags (t : TileId) (f : Cell → Cell) : (s.updCell t f).tags = s.tags := rfl
@[simp] theorem State.updCell_epochs (t : TileId) (f : Cell → Cell) : (s.updCell t f).epochs = s.epochs := rfl
@[simp] theorem State.updCell_bad (t : TileId) (f : Cell → Cell) : (s.updCell t f).bad = s.bad := rfl
@[simp] theorem State.updCell_cores (t : TileId) (f : Cell → Cell) : (s.updCell t f).cores = s.cores := rfl
@[simp] theorem State.updCell_loopq (t : TileId) (f : Cell → Cell) : (s.updCell t f).loopq = s.loopq := rfl
@[simp] theorem State.updCell_tracks (t : TileId) (f : Cell → Cell) : (s.updCell t f).tracks = s.tracks := rfl
@[simp] theorem State.updCell_prods (t : TileId) (f : Cell → Cell) : (s.updCell t f).prods = s.prods := rfl
@[simp] theorem State.updCell_cmds (t : TileId) (f : Cell → Cell) : (s.updCell t f).cmds = s.cmds := rfl
@[simp] theorem State.updCell_gangs (t : TileId) (f : Cell → Cell) : (s.updCell t f).gangs = s.gangs := rfl
@[simp] theorem State.updCell_slots (t : TileId) (f : Cell → Cell) : (s.updCell t f).slots = s.slots := rfl
@[simp] theorem State.updCell_timerq (t : TileId) (f : Cell → Cell) : (s.updCell t f).timerq = s.timerq := rfl
@[simp] theorem State.updCell_handles (t : TileId) (f : Cell → Cell) : (s.updCell t f).handles = s.handles := rfl
@[simp] theorem State.updCell_ports (t : TileId) (f : Cell → Cell) : (s.updCell t f).ports = s.ports := rfl
@[simp] theorem State.updCell_laserF (t : TileId) (f : Cell → Cell) : (s.updCell t f).laserF = s.laserF := rfl
@[simp] theorem State.updCell_links (t : TileId) (f : Cell → Cell) : (s.updCell t f).links = s.links := rfl
@[simp] theorem State.updCell_fns (t : TileId) (f : Cell → Cell) : (s.updCell t f).fns = s.fns := rfl
@[simp] theorem State.updCell_act (t : TileId) (f : Cell → Cell) : (s.updCell t f).act = s.act := rfl
@[simp] theorem State.updCell_actCnt (t : TileId) (f : Cell → Cell) : (s.updCell t f).actCnt = s.actCnt := rfl
@[simp] theorem State.updCell_actWin (t : TileId) (f : Cell → Cell) : (s.updCell t f).actWin = s.actWin := rfl
@[simp] theorem State.updCell_asidtab (t : TileId) (f : Cell → Cell) : (s.updCell t f).asidtab = s.asidtab := rfl
@[simp] theorem State.updCell_sct (t : TileId) (f : Cell → Cell) : (s.updCell t f).sct = s.sct := rfl
@[simp] theorem State.updCell_form (t : TileId) (f : Cell → Cell) : (s.updCell t f).form = s.form := rfl
@[simp] theorem State.updCell_feats (t : TileId) (f : Cell → Cell) : (s.updCell t f).feats = s.feats := rfl
@[simp] theorem State.updCell_pkgid (t : TileId) (f : Cell → Cell) : (s.updCell t f).pkgid = s.pkgid := rfl
@[simp] theorem State.updCell_fwEntry (t : TileId) (f : Cell → Cell) : (s.updCell t f).fwEntry = s.fwEntry := rfl
@[simp] theorem State.updCell_podRef (t : TileId) (f : Cell → Cell) : (s.updCell t f).podRef = s.podRef := rfl
@[simp] theorem State.updCell_flash (t : TileId) (f : Cell → Cell) : (s.updCell t f).flash = s.flash := rfl
@[simp] theorem State.updCell_counter (t : TileId) (f : Cell → Cell) : (s.updCell t f).counter = s.counter := rfl
@[simp] theorem State.updCell_secret (t : TileId) (f : Cell → Cell) : (s.updCell t f).secret = s.secret := rfl
@[simp] theorem State.updCell_safe (t : TileId) (f : Cell → Cell) : (s.updCell t f).safe = s.safe := rfl
@[simp] theorem State.updCell_sleep (t : TileId) (f : Cell → Cell) : (s.updCell t f).sleep = s.sleep := rfl
@[simp] theorem State.updCell_stRec (t : TileId) (f : Cell → Cell) : (s.updCell t f).stRec = s.stRec := rfl
@[simp] theorem State.updCell_hostOut (t : TileId) (f : Cell → Cell) : (s.updCell t f).hostOut = s.hostOut := rfl
@[simp] theorem State.updCell_encs (t : TileId) (f : Cell → Cell) : (s.updCell t f).encs = s.encs := rfl
@[simp] theorem State.updCell_kems (t : TileId) (f : Cell → Cell) : (s.updCell t f).kems = s.kems := rfl
@[simp] theorem State.updCell_replay (t : TileId) (f : Cell → Cell) : (s.updCell t f).replay = s.replay := rfl
@[simp] theorem State.updCell_semRecs (t : TileId) (f : Cell → Cell) : (s.updCell t f).semRecs = s.semRecs := rfl
@[simp] theorem State.updCell_boot (t : TileId) (f : Cell → Cell) : (s.updCell t f).boot = s.boot := rfl

/-! `State.setHnd` -/

@[simp] theorem State.setHnd_gt (h : Handle) (x : Hnd) : (s.setHnd h x).gt = s.gt := rfl
@[simp] theorem State.setHnd_agenda (h : Handle) (x : Hnd) : (s.setHnd h x).agenda = s.agenda := rfl
@[simp] theorem State.setHnd_cur (h : Handle) (x : Hnd) : (s.setHnd h x).cur = s.cur := rfl
@[simp] theorem State.setHnd_arg (h : Handle) (x : Hnd) : (s.setHnd h x).arg = s.arg := rfl
@[simp] theorem State.setHnd_abort (h : Handle) (x : Hnd) : (s.setHnd h x).abort = s.abort := rfl
@[simp] theorem State.setHnd_fresh (h : Handle) (x : Hnd) : (s.setHnd h x).fresh = s.fresh := rfl
@[simp] theorem State.setHnd_mem (h : Handle) (x : Hnd) : (s.setHnd h x).mem = s.mem := rfl
@[simp] theorem State.setHnd_tags (h : Handle) (x : Hnd) : (s.setHnd h x).tags = s.tags := rfl
@[simp] theorem State.setHnd_epochs (h : Handle) (x : Hnd) : (s.setHnd h x).epochs = s.epochs := rfl
@[simp] theorem State.setHnd_bad (h : Handle) (x : Hnd) : (s.setHnd h x).bad = s.bad := rfl
@[simp] theorem State.setHnd_cores (h : Handle) (x : Hnd) : (s.setHnd h x).cores = s.cores := rfl
@[simp] theorem State.setHnd_tiles (h : Handle) (x : Hnd) : (s.setHnd h x).tiles = s.tiles := rfl
@[simp] theorem State.setHnd_loopq (h : Handle) (x : Hnd) : (s.setHnd h x).loopq = s.loopq := rfl
@[simp] theorem State.setHnd_tracks (h : Handle) (x : Hnd) : (s.setHnd h x).tracks = s.tracks := rfl
@[simp] theorem State.setHnd_prods (h : Handle) (x : Hnd) : (s.setHnd h x).prods = s.prods := rfl
@[simp] theorem State.setHnd_cmds (h : Handle) (x : Hnd) : (s.setHnd h x).cmds = s.cmds := rfl
@[simp] theorem State.setHnd_gangs (h : Handle) (x : Hnd) : (s.setHnd h x).gangs = s.gangs := rfl
@[simp] theorem State.setHnd_slots (h : Handle) (x : Hnd) : (s.setHnd h x).slots = s.slots := rfl
@[simp] theorem State.setHnd_timerq (h : Handle) (x : Hnd) : (s.setHnd h x).timerq = s.timerq := rfl
@[simp] theorem State.setHnd_ports (h : Handle) (x : Hnd) : (s.setHnd h x).ports = s.ports := rfl
@[simp] theorem State.setHnd_laserF (h : Handle) (x : Hnd) : (s.setHnd h x).laserF = s.laserF := rfl
@[simp] theorem State.setHnd_links (h : Handle) (x : Hnd) : (s.setHnd h x).links = s.links := rfl
@[simp] theorem State.setHnd_fns (h : Handle) (x : Hnd) : (s.setHnd h x).fns = s.fns := rfl
@[simp] theorem State.setHnd_act (h : Handle) (x : Hnd) : (s.setHnd h x).act = s.act := rfl
@[simp] theorem State.setHnd_actCnt (h : Handle) (x : Hnd) : (s.setHnd h x).actCnt = s.actCnt := rfl
@[simp] theorem State.setHnd_actWin (h : Handle) (x : Hnd) : (s.setHnd h x).actWin = s.actWin := rfl
@[simp] theorem State.setHnd_asidtab (h : Handle) (x : Hnd) : (s.setHnd h x).asidtab = s.asidtab := rfl
@[simp] theorem State.setHnd_sct (h : Handle) (x : Hnd) : (s.setHnd h x).sct = s.sct := rfl
@[simp] theorem State.setHnd_form (h : Handle) (x : Hnd) : (s.setHnd h x).form = s.form := rfl
@[simp] theorem State.setHnd_feats (h : Handle) (x : Hnd) : (s.setHnd h x).feats = s.feats := rfl
@[simp] theorem State.setHnd_pkgid (h : Handle) (x : Hnd) : (s.setHnd h x).pkgid = s.pkgid := rfl
@[simp] theorem State.setHnd_fwEntry (h : Handle) (x : Hnd) : (s.setHnd h x).fwEntry = s.fwEntry := rfl
@[simp] theorem State.setHnd_podRef (h : Handle) (x : Hnd) : (s.setHnd h x).podRef = s.podRef := rfl
@[simp] theorem State.setHnd_flash (h : Handle) (x : Hnd) : (s.setHnd h x).flash = s.flash := rfl
@[simp] theorem State.setHnd_counter (h : Handle) (x : Hnd) : (s.setHnd h x).counter = s.counter := rfl
@[simp] theorem State.setHnd_secret (h : Handle) (x : Hnd) : (s.setHnd h x).secret = s.secret := rfl
@[simp] theorem State.setHnd_safe (h : Handle) (x : Hnd) : (s.setHnd h x).safe = s.safe := rfl
@[simp] theorem State.setHnd_sleep (h : Handle) (x : Hnd) : (s.setHnd h x).sleep = s.sleep := rfl
@[simp] theorem State.setHnd_stRec (h : Handle) (x : Hnd) : (s.setHnd h x).stRec = s.stRec := rfl
@[simp] theorem State.setHnd_hostOut (h : Handle) (x : Hnd) : (s.setHnd h x).hostOut = s.hostOut := rfl
@[simp] theorem State.setHnd_encs (h : Handle) (x : Hnd) : (s.setHnd h x).encs = s.encs := rfl
@[simp] theorem State.setHnd_kems (h : Handle) (x : Hnd) : (s.setHnd h x).kems = s.kems := rfl
@[simp] theorem State.setHnd_replay (h : Handle) (x : Hnd) : (s.setHnd h x).replay = s.replay := rfl
@[simp] theorem State.setHnd_semRecs (h : Handle) (x : Hnd) : (s.setHnd h x).semRecs = s.semRecs := rfl
@[simp] theorem State.setHnd_boot (h : Handle) (x : Hnd) : (s.setHnd h x).boot = s.boot := rfl

/-! `State.updHnd` -/

@[simp] theorem State.updHnd_gt (h : Handle) (f : Hnd → Hnd) : (s.updHnd h f).gt = s.gt := rfl
@[simp] theorem State.updHnd_agenda (h : Handle) (f : Hnd → Hnd) : (s.updHnd h f).agenda = s.agenda := rfl
@[simp] theorem State.updHnd_cur (h : Handle) (f : Hnd → Hnd) : (s.updHnd h f).cur = s.cur := rfl
@[simp] theorem State.updHnd_arg (h : Handle) (f : Hnd → Hnd) : (s.updHnd h f).arg = s.arg := rfl
@[simp] theorem State.updHnd_abort (h : Handle) (f : Hnd → Hnd) : (s.updHnd h f).abort = s.abort := rfl
@[simp] theorem State.updHnd_fresh (h : Handle) (f : Hnd → Hnd) : (s.updHnd h f).fresh = s.fresh := rfl
@[simp] theorem State.updHnd_mem (h : Handle) (f : Hnd → Hnd) : (s.updHnd h f).mem = s.mem := rfl
@[simp] theorem State.updHnd_tags (h : Handle) (f : Hnd → Hnd) : (s.updHnd h f).tags = s.tags := rfl
@[simp] theorem State.updHnd_epochs (h : Handle) (f : Hnd → Hnd) : (s.updHnd h f).epochs = s.epochs := rfl
@[simp] theorem State.updHnd_bad (h : Handle) (f : Hnd → Hnd) : (s.updHnd h f).bad = s.bad := rfl
@[simp] theorem State.updHnd_cores (h : Handle) (f : Hnd → Hnd) : (s.updHnd h f).cores = s.cores := rfl
@[simp] theorem State.updHnd_tiles (h : Handle) (f : Hnd → Hnd) : (s.updHnd h f).tiles = s.tiles := rfl
@[simp] theorem State.updHnd_loopq (h : Handle) (f : Hnd → Hnd) : (s.updHnd h f).loopq = s.loopq := rfl
@[simp] theorem State.updHnd_tracks (h : Handle) (f : Hnd → Hnd) : (s.updHnd h f).tracks = s.tracks := rfl
@[simp] theorem State.updHnd_prods (h : Handle) (f : Hnd → Hnd) : (s.updHnd h f).prods = s.prods := rfl
@[simp] theorem State.updHnd_cmds (h : Handle) (f : Hnd → Hnd) : (s.updHnd h f).cmds = s.cmds := rfl
@[simp] theorem State.updHnd_gangs (h : Handle) (f : Hnd → Hnd) : (s.updHnd h f).gangs = s.gangs := rfl
@[simp] theorem State.updHnd_slots (h : Handle) (f : Hnd → Hnd) : (s.updHnd h f).slots = s.slots := rfl
@[simp] theorem State.updHnd_timerq (h : Handle) (f : Hnd → Hnd) : (s.updHnd h f).timerq = s.timerq := rfl
@[simp] theorem State.updHnd_ports (h : Handle) (f : Hnd → Hnd) : (s.updHnd h f).ports = s.ports := rfl
@[simp] theorem State.updHnd_laserF (h : Handle) (f : Hnd → Hnd) : (s.updHnd h f).laserF = s.laserF := rfl
@[simp] theorem State.updHnd_links (h : Handle) (f : Hnd → Hnd) : (s.updHnd h f).links = s.links := rfl
@[simp] theorem State.updHnd_fns (h : Handle) (f : Hnd → Hnd) : (s.updHnd h f).fns = s.fns := rfl
@[simp] theorem State.updHnd_act (h : Handle) (f : Hnd → Hnd) : (s.updHnd h f).act = s.act := rfl
@[simp] theorem State.updHnd_actCnt (h : Handle) (f : Hnd → Hnd) : (s.updHnd h f).actCnt = s.actCnt := rfl
@[simp] theorem State.updHnd_actWin (h : Handle) (f : Hnd → Hnd) : (s.updHnd h f).actWin = s.actWin := rfl
@[simp] theorem State.updHnd_asidtab (h : Handle) (f : Hnd → Hnd) : (s.updHnd h f).asidtab = s.asidtab := rfl
@[simp] theorem State.updHnd_sct (h : Handle) (f : Hnd → Hnd) : (s.updHnd h f).sct = s.sct := rfl
@[simp] theorem State.updHnd_form (h : Handle) (f : Hnd → Hnd) : (s.updHnd h f).form = s.form := rfl
@[simp] theorem State.updHnd_feats (h : Handle) (f : Hnd → Hnd) : (s.updHnd h f).feats = s.feats := rfl
@[simp] theorem State.updHnd_pkgid (h : Handle) (f : Hnd → Hnd) : (s.updHnd h f).pkgid = s.pkgid := rfl
@[simp] theorem State.updHnd_fwEntry (h : Handle) (f : Hnd → Hnd) : (s.updHnd h f).fwEntry = s.fwEntry := rfl
@[simp] theorem State.updHnd_podRef (h : Handle) (f : Hnd → Hnd) : (s.updHnd h f).podRef = s.podRef := rfl
@[simp] theorem State.updHnd_flash (h : Handle) (f : Hnd → Hnd) : (s.updHnd h f).flash = s.flash := rfl
@[simp] theorem State.updHnd_counter (h : Handle) (f : Hnd → Hnd) : (s.updHnd h f).counter = s.counter := rfl
@[simp] theorem State.updHnd_secret (h : Handle) (f : Hnd → Hnd) : (s.updHnd h f).secret = s.secret := rfl
@[simp] theorem State.updHnd_safe (h : Handle) (f : Hnd → Hnd) : (s.updHnd h f).safe = s.safe := rfl
@[simp] theorem State.updHnd_sleep (h : Handle) (f : Hnd → Hnd) : (s.updHnd h f).sleep = s.sleep := rfl
@[simp] theorem State.updHnd_stRec (h : Handle) (f : Hnd → Hnd) : (s.updHnd h f).stRec = s.stRec := rfl
@[simp] theorem State.updHnd_hostOut (h : Handle) (f : Hnd → Hnd) : (s.updHnd h f).hostOut = s.hostOut := rfl
@[simp] theorem State.updHnd_encs (h : Handle) (f : Hnd → Hnd) : (s.updHnd h f).encs = s.encs := rfl
@[simp] theorem State.updHnd_kems (h : Handle) (f : Hnd → Hnd) : (s.updHnd h f).kems = s.kems := rfl
@[simp] theorem State.updHnd_replay (h : Handle) (f : Hnd → Hnd) : (s.updHnd h f).replay = s.replay := rfl
@[simp] theorem State.updHnd_semRecs (h : Handle) (f : Hnd → Hnd) : (s.updHnd h f).semRecs = s.semRecs := rfl
@[simp] theorem State.updHnd_boot (h : Handle) (f : Hnd → Hnd) : (s.updHnd h f).boot = s.boot := rfl

/-! `State.setSlot` -/

@[simp] theorem State.setSlot_gt (n : SlotId) (x : Slot) : (s.setSlot n x).gt = s.gt := rfl
@[simp] theorem State.setSlot_agenda (n : SlotId) (x : Slot) : (s.setSlot n x).agenda = s.agenda := rfl
@[simp] theorem State.setSlot_cur (n : SlotId) (x : Slot) : (s.setSlot n x).cur = s.cur := rfl
@[simp] theorem State.setSlot_arg (n : SlotId) (x : Slot) : (s.setSlot n x).arg = s.arg := rfl
@[simp] theorem State.setSlot_abort (n : SlotId) (x : Slot) : (s.setSlot n x).abort = s.abort := rfl
@[simp] theorem State.setSlot_fresh (n : SlotId) (x : Slot) : (s.setSlot n x).fresh = s.fresh := rfl
@[simp] theorem State.setSlot_mem (n : SlotId) (x : Slot) : (s.setSlot n x).mem = s.mem := rfl
@[simp] theorem State.setSlot_tags (n : SlotId) (x : Slot) : (s.setSlot n x).tags = s.tags := rfl
@[simp] theorem State.setSlot_epochs (n : SlotId) (x : Slot) : (s.setSlot n x).epochs = s.epochs := rfl
@[simp] theorem State.setSlot_bad (n : SlotId) (x : Slot) : (s.setSlot n x).bad = s.bad := rfl
@[simp] theorem State.setSlot_cores (n : SlotId) (x : Slot) : (s.setSlot n x).cores = s.cores := rfl
@[simp] theorem State.setSlot_tiles (n : SlotId) (x : Slot) : (s.setSlot n x).tiles = s.tiles := rfl
@[simp] theorem State.setSlot_loopq (n : SlotId) (x : Slot) : (s.setSlot n x).loopq = s.loopq := rfl
@[simp] theorem State.setSlot_tracks (n : SlotId) (x : Slot) : (s.setSlot n x).tracks = s.tracks := rfl
@[simp] theorem State.setSlot_prods (n : SlotId) (x : Slot) : (s.setSlot n x).prods = s.prods := rfl
@[simp] theorem State.setSlot_cmds (n : SlotId) (x : Slot) : (s.setSlot n x).cmds = s.cmds := rfl
@[simp] theorem State.setSlot_gangs (n : SlotId) (x : Slot) : (s.setSlot n x).gangs = s.gangs := rfl
@[simp] theorem State.setSlot_timerq (n : SlotId) (x : Slot) : (s.setSlot n x).timerq = s.timerq := rfl
@[simp] theorem State.setSlot_handles (n : SlotId) (x : Slot) : (s.setSlot n x).handles = s.handles := rfl
@[simp] theorem State.setSlot_ports (n : SlotId) (x : Slot) : (s.setSlot n x).ports = s.ports := rfl
@[simp] theorem State.setSlot_laserF (n : SlotId) (x : Slot) : (s.setSlot n x).laserF = s.laserF := rfl
@[simp] theorem State.setSlot_links (n : SlotId) (x : Slot) : (s.setSlot n x).links = s.links := rfl
@[simp] theorem State.setSlot_fns (n : SlotId) (x : Slot) : (s.setSlot n x).fns = s.fns := rfl
@[simp] theorem State.setSlot_act (n : SlotId) (x : Slot) : (s.setSlot n x).act = s.act := rfl
@[simp] theorem State.setSlot_actCnt (n : SlotId) (x : Slot) : (s.setSlot n x).actCnt = s.actCnt := rfl
@[simp] theorem State.setSlot_actWin (n : SlotId) (x : Slot) : (s.setSlot n x).actWin = s.actWin := rfl
@[simp] theorem State.setSlot_asidtab (n : SlotId) (x : Slot) : (s.setSlot n x).asidtab = s.asidtab := rfl
@[simp] theorem State.setSlot_sct (n : SlotId) (x : Slot) : (s.setSlot n x).sct = s.sct := rfl
@[simp] theorem State.setSlot_form (n : SlotId) (x : Slot) : (s.setSlot n x).form = s.form := rfl
@[simp] theorem State.setSlot_feats (n : SlotId) (x : Slot) : (s.setSlot n x).feats = s.feats := rfl
@[simp] theorem State.setSlot_pkgid (n : SlotId) (x : Slot) : (s.setSlot n x).pkgid = s.pkgid := rfl
@[simp] theorem State.setSlot_fwEntry (n : SlotId) (x : Slot) : (s.setSlot n x).fwEntry = s.fwEntry := rfl
@[simp] theorem State.setSlot_podRef (n : SlotId) (x : Slot) : (s.setSlot n x).podRef = s.podRef := rfl
@[simp] theorem State.setSlot_flash (n : SlotId) (x : Slot) : (s.setSlot n x).flash = s.flash := rfl
@[simp] theorem State.setSlot_counter (n : SlotId) (x : Slot) : (s.setSlot n x).counter = s.counter := rfl
@[simp] theorem State.setSlot_secret (n : SlotId) (x : Slot) : (s.setSlot n x).secret = s.secret := rfl
@[simp] theorem State.setSlot_safe (n : SlotId) (x : Slot) : (s.setSlot n x).safe = s.safe := rfl
@[simp] theorem State.setSlot_sleep (n : SlotId) (x : Slot) : (s.setSlot n x).sleep = s.sleep := rfl
@[simp] theorem State.setSlot_stRec (n : SlotId) (x : Slot) : (s.setSlot n x).stRec = s.stRec := rfl
@[simp] theorem State.setSlot_hostOut (n : SlotId) (x : Slot) : (s.setSlot n x).hostOut = s.hostOut := rfl
@[simp] theorem State.setSlot_encs (n : SlotId) (x : Slot) : (s.setSlot n x).encs = s.encs := rfl
@[simp] theorem State.setSlot_kems (n : SlotId) (x : Slot) : (s.setSlot n x).kems = s.kems := rfl
@[simp] theorem State.setSlot_replay (n : SlotId) (x : Slot) : (s.setSlot n x).replay = s.replay := rfl
@[simp] theorem State.setSlot_semRecs (n : SlotId) (x : Slot) : (s.setSlot n x).semRecs = s.semRecs := rfl
@[simp] theorem State.setSlot_boot (n : SlotId) (x : Slot) : (s.setSlot n x).boot = s.boot := rfl

/-! `State.updSlot` -/

@[simp] theorem State.updSlot_gt (n : SlotId) (f : Slot → Slot) : (s.updSlot n f).gt = s.gt := rfl
@[simp] theorem State.updSlot_agenda (n : SlotId) (f : Slot → Slot) : (s.updSlot n f).agenda = s.agenda := rfl
@[simp] theorem State.updSlot_cur (n : SlotId) (f : Slot → Slot) : (s.updSlot n f).cur = s.cur := rfl
@[simp] theorem State.updSlot_arg (n : SlotId) (f : Slot → Slot) : (s.updSlot n f).arg = s.arg := rfl
@[simp] theorem State.updSlot_abort (n : SlotId) (f : Slot → Slot) : (s.updSlot n f).abort = s.abort := rfl
@[simp] theorem State.updSlot_fresh (n : SlotId) (f : Slot → Slot) : (s.updSlot n f).fresh = s.fresh := rfl
@[simp] theorem State.updSlot_mem (n : SlotId) (f : Slot → Slot) : (s.updSlot n f).mem = s.mem := rfl
@[simp] theorem State.updSlot_tags (n : SlotId) (f : Slot → Slot) : (s.updSlot n f).tags = s.tags := rfl
@[simp] theorem State.updSlot_epochs (n : SlotId) (f : Slot → Slot) : (s.updSlot n f).epochs = s.epochs := rfl
@[simp] theorem State.updSlot_bad (n : SlotId) (f : Slot → Slot) : (s.updSlot n f).bad = s.bad := rfl
@[simp] theorem State.updSlot_cores (n : SlotId) (f : Slot → Slot) : (s.updSlot n f).cores = s.cores := rfl
@[simp] theorem State.updSlot_tiles (n : SlotId) (f : Slot → Slot) : (s.updSlot n f).tiles = s.tiles := rfl
@[simp] theorem State.updSlot_loopq (n : SlotId) (f : Slot → Slot) : (s.updSlot n f).loopq = s.loopq := rfl
@[simp] theorem State.updSlot_tracks (n : SlotId) (f : Slot → Slot) : (s.updSlot n f).tracks = s.tracks := rfl
@[simp] theorem State.updSlot_prods (n : SlotId) (f : Slot → Slot) : (s.updSlot n f).prods = s.prods := rfl
@[simp] theorem State.updSlot_cmds (n : SlotId) (f : Slot → Slot) : (s.updSlot n f).cmds = s.cmds := rfl
@[simp] theorem State.updSlot_gangs (n : SlotId) (f : Slot → Slot) : (s.updSlot n f).gangs = s.gangs := rfl
@[simp] theorem State.updSlot_timerq (n : SlotId) (f : Slot → Slot) : (s.updSlot n f).timerq = s.timerq := rfl
@[simp] theorem State.updSlot_handles (n : SlotId) (f : Slot → Slot) : (s.updSlot n f).handles = s.handles := rfl
@[simp] theorem State.updSlot_ports (n : SlotId) (f : Slot → Slot) : (s.updSlot n f).ports = s.ports := rfl
@[simp] theorem State.updSlot_laserF (n : SlotId) (f : Slot → Slot) : (s.updSlot n f).laserF = s.laserF := rfl
@[simp] theorem State.updSlot_links (n : SlotId) (f : Slot → Slot) : (s.updSlot n f).links = s.links := rfl
@[simp] theorem State.updSlot_fns (n : SlotId) (f : Slot → Slot) : (s.updSlot n f).fns = s.fns := rfl
@[simp] theorem State.updSlot_act (n : SlotId) (f : Slot → Slot) : (s.updSlot n f).act = s.act := rfl
@[simp] theorem State.updSlot_actCnt (n : SlotId) (f : Slot → Slot) : (s.updSlot n f).actCnt = s.actCnt := rfl
@[simp] theorem State.updSlot_actWin (n : SlotId) (f : Slot → Slot) : (s.updSlot n f).actWin = s.actWin := rfl
@[simp] theorem State.updSlot_asidtab (n : SlotId) (f : Slot → Slot) : (s.updSlot n f).asidtab = s.asidtab := rfl
@[simp] theorem State.updSlot_sct (n : SlotId) (f : Slot → Slot) : (s.updSlot n f).sct = s.sct := rfl
@[simp] theorem State.updSlot_form (n : SlotId) (f : Slot → Slot) : (s.updSlot n f).form = s.form := rfl
@[simp] theorem State.updSlot_feats (n : SlotId) (f : Slot → Slot) : (s.updSlot n f).feats = s.feats := rfl
@[simp] theorem State.updSlot_pkgid (n : SlotId) (f : Slot → Slot) : (s.updSlot n f).pkgid = s.pkgid := rfl
@[simp] theorem State.updSlot_fwEntry (n : SlotId) (f : Slot → Slot) : (s.updSlot n f).fwEntry = s.fwEntry := rfl
@[simp] theorem State.updSlot_podRef (n : SlotId) (f : Slot → Slot) : (s.updSlot n f).podRef = s.podRef := rfl
@[simp] theorem State.updSlot_flash (n : SlotId) (f : Slot → Slot) : (s.updSlot n f).flash = s.flash := rfl
@[simp] theorem State.updSlot_counter (n : SlotId) (f : Slot → Slot) : (s.updSlot n f).counter = s.counter := rfl
@[simp] theorem State.updSlot_secret (n : SlotId) (f : Slot → Slot) : (s.updSlot n f).secret = s.secret := rfl
@[simp] theorem State.updSlot_safe (n : SlotId) (f : Slot → Slot) : (s.updSlot n f).safe = s.safe := rfl
@[simp] theorem State.updSlot_sleep (n : SlotId) (f : Slot → Slot) : (s.updSlot n f).sleep = s.sleep := rfl
@[simp] theorem State.updSlot_stRec (n : SlotId) (f : Slot → Slot) : (s.updSlot n f).stRec = s.stRec := rfl
@[simp] theorem State.updSlot_hostOut (n : SlotId) (f : Slot → Slot) : (s.updSlot n f).hostOut = s.hostOut := rfl
@[simp] theorem State.updSlot_encs (n : SlotId) (f : Slot → Slot) : (s.updSlot n f).encs = s.encs := rfl
@[simp] theorem State.updSlot_kems (n : SlotId) (f : Slot → Slot) : (s.updSlot n f).kems = s.kems := rfl
@[simp] theorem State.updSlot_replay (n : SlotId) (f : Slot → Slot) : (s.updSlot n f).replay = s.replay := rfl
@[simp] theorem State.updSlot_semRecs (n : SlotId) (f : Slot → Slot) : (s.updSlot n f).semRecs = s.semRecs := rfl
@[simp] theorem State.updSlot_boot (n : SlotId) (f : Slot → Slot) : (s.updSlot n f).boot = s.boot := rfl

/-! `State.setFn` -/

@[simp] theorem State.setFn_gt (n : Nat) (x : Fn) : (s.setFn n x).gt = s.gt := rfl
@[simp] theorem State.setFn_agenda (n : Nat) (x : Fn) : (s.setFn n x).agenda = s.agenda := rfl
@[simp] theorem State.setFn_cur (n : Nat) (x : Fn) : (s.setFn n x).cur = s.cur := rfl
@[simp] theorem State.setFn_arg (n : Nat) (x : Fn) : (s.setFn n x).arg = s.arg := rfl
@[simp] theorem State.setFn_abort (n : Nat) (x : Fn) : (s.setFn n x).abort = s.abort := rfl
@[simp] theorem State.setFn_fresh (n : Nat) (x : Fn) : (s.setFn n x).fresh = s.fresh := rfl
@[simp] theorem State.setFn_mem (n : Nat) (x : Fn) : (s.setFn n x).mem = s.mem := rfl
@[simp] theorem State.setFn_tags (n : Nat) (x : Fn) : (s.setFn n x).tags = s.tags := rfl
@[simp] theorem State.setFn_epochs (n : Nat) (x : Fn) : (s.setFn n x).epochs = s.epochs := rfl
@[simp] theorem State.setFn_bad (n : Nat) (x : Fn) : (s.setFn n x).bad = s.bad := rfl
@[simp] theorem State.setFn_cores (n : Nat) (x : Fn) : (s.setFn n x).cores = s.cores := rfl
@[simp] theorem State.setFn_tiles (n : Nat) (x : Fn) : (s.setFn n x).tiles = s.tiles := rfl
@[simp] theorem State.setFn_loopq (n : Nat) (x : Fn) : (s.setFn n x).loopq = s.loopq := rfl
@[simp] theorem State.setFn_tracks (n : Nat) (x : Fn) : (s.setFn n x).tracks = s.tracks := rfl
@[simp] theorem State.setFn_prods (n : Nat) (x : Fn) : (s.setFn n x).prods = s.prods := rfl
@[simp] theorem State.setFn_cmds (n : Nat) (x : Fn) : (s.setFn n x).cmds = s.cmds := rfl
@[simp] theorem State.setFn_gangs (n : Nat) (x : Fn) : (s.setFn n x).gangs = s.gangs := rfl
@[simp] theorem State.setFn_slots (n : Nat) (x : Fn) : (s.setFn n x).slots = s.slots := rfl
@[simp] theorem State.setFn_timerq (n : Nat) (x : Fn) : (s.setFn n x).timerq = s.timerq := rfl
@[simp] theorem State.setFn_handles (n : Nat) (x : Fn) : (s.setFn n x).handles = s.handles := rfl
@[simp] theorem State.setFn_ports (n : Nat) (x : Fn) : (s.setFn n x).ports = s.ports := rfl
@[simp] theorem State.setFn_laserF (n : Nat) (x : Fn) : (s.setFn n x).laserF = s.laserF := rfl
@[simp] theorem State.setFn_links (n : Nat) (x : Fn) : (s.setFn n x).links = s.links := rfl
@[simp] theorem State.setFn_act (n : Nat) (x : Fn) : (s.setFn n x).act = s.act := rfl
@[simp] theorem State.setFn_actCnt (n : Nat) (x : Fn) : (s.setFn n x).actCnt = s.actCnt := rfl
@[simp] theorem State.setFn_actWin (n : Nat) (x : Fn) : (s.setFn n x).actWin = s.actWin := rfl
@[simp] theorem State.setFn_asidtab (n : Nat) (x : Fn) : (s.setFn n x).asidtab = s.asidtab := rfl
@[simp] theorem State.setFn_sct (n : Nat) (x : Fn) : (s.setFn n x).sct = s.sct := rfl
@[simp] theorem State.setFn_form (n : Nat) (x : Fn) : (s.setFn n x).form = s.form := rfl
@[simp] theorem State.setFn_feats (n : Nat) (x : Fn) : (s.setFn n x).feats = s.feats := rfl
@[simp] theorem State.setFn_pkgid (n : Nat) (x : Fn) : (s.setFn n x).pkgid = s.pkgid := rfl
@[simp] theorem State.setFn_fwEntry (n : Nat) (x : Fn) : (s.setFn n x).fwEntry = s.fwEntry := rfl
@[simp] theorem State.setFn_podRef (n : Nat) (x : Fn) : (s.setFn n x).podRef = s.podRef := rfl
@[simp] theorem State.setFn_flash (n : Nat) (x : Fn) : (s.setFn n x).flash = s.flash := rfl
@[simp] theorem State.setFn_counter (n : Nat) (x : Fn) : (s.setFn n x).counter = s.counter := rfl
@[simp] theorem State.setFn_secret (n : Nat) (x : Fn) : (s.setFn n x).secret = s.secret := rfl
@[simp] theorem State.setFn_safe (n : Nat) (x : Fn) : (s.setFn n x).safe = s.safe := rfl
@[simp] theorem State.setFn_sleep (n : Nat) (x : Fn) : (s.setFn n x).sleep = s.sleep := rfl
@[simp] theorem State.setFn_stRec (n : Nat) (x : Fn) : (s.setFn n x).stRec = s.stRec := rfl
@[simp] theorem State.setFn_hostOut (n : Nat) (x : Fn) : (s.setFn n x).hostOut = s.hostOut := rfl
@[simp] theorem State.setFn_encs (n : Nat) (x : Fn) : (s.setFn n x).encs = s.encs := rfl
@[simp] theorem State.setFn_kems (n : Nat) (x : Fn) : (s.setFn n x).kems = s.kems := rfl
@[simp] theorem State.setFn_replay (n : Nat) (x : Fn) : (s.setFn n x).replay = s.replay := rfl
@[simp] theorem State.setFn_semRecs (n : Nat) (x : Fn) : (s.setFn n x).semRecs = s.semRecs := rfl
@[simp] theorem State.setFn_boot (n : Nat) (x : Fn) : (s.setFn n x).boot = s.boot := rfl

/-! `State.updFn` -/

@[simp] theorem State.updFn_gt (n : Nat) (f : Fn → Fn) : (s.updFn n f).gt = s.gt := rfl
@[simp] theorem State.updFn_agenda (n : Nat) (f : Fn → Fn) : (s.updFn n f).agenda = s.agenda := rfl
@[simp] theorem State.updFn_cur (n : Nat) (f : Fn → Fn) : (s.updFn n f).cur = s.cur := rfl
@[simp] theorem State.updFn_arg (n : Nat) (f : Fn → Fn) : (s.updFn n f).arg = s.arg := rfl
@[simp] theorem State.updFn_abort (n : Nat) (f : Fn → Fn) : (s.updFn n f).abort = s.abort := rfl
@[simp] theorem State.updFn_fresh (n : Nat) (f : Fn → Fn) : (s.updFn n f).fresh = s.fresh := rfl
@[simp] theorem State.updFn_mem (n : Nat) (f : Fn → Fn) : (s.updFn n f).mem = s.mem := rfl
@[simp] theorem State.updFn_tags (n : Nat) (f : Fn → Fn) : (s.updFn n f).tags = s.tags := rfl
@[simp] theorem State.updFn_epochs (n : Nat) (f : Fn → Fn) : (s.updFn n f).epochs = s.epochs := rfl
@[simp] theorem State.updFn_bad (n : Nat) (f : Fn → Fn) : (s.updFn n f).bad = s.bad := rfl
@[simp] theorem State.updFn_cores (n : Nat) (f : Fn → Fn) : (s.updFn n f).cores = s.cores := rfl
@[simp] theorem State.updFn_tiles (n : Nat) (f : Fn → Fn) : (s.updFn n f).tiles = s.tiles := rfl
@[simp] theorem State.updFn_loopq (n : Nat) (f : Fn → Fn) : (s.updFn n f).loopq = s.loopq := rfl
@[simp] theorem State.updFn_tracks (n : Nat) (f : Fn → Fn) : (s.updFn n f).tracks = s.tracks := rfl
@[simp] theorem State.updFn_prods (n : Nat) (f : Fn → Fn) : (s.updFn n f).prods = s.prods := rfl
@[simp] theorem State.updFn_cmds (n : Nat) (f : Fn → Fn) : (s.updFn n f).cmds = s.cmds := rfl
@[simp] theorem State.updFn_gangs (n : Nat) (f : Fn → Fn) : (s.updFn n f).gangs = s.gangs := rfl
@[simp] theorem State.updFn_slots (n : Nat) (f : Fn → Fn) : (s.updFn n f).slots = s.slots := rfl
@[simp] theorem State.updFn_timerq (n : Nat) (f : Fn → Fn) : (s.updFn n f).timerq = s.timerq := rfl
@[simp] theorem State.updFn_handles (n : Nat) (f : Fn → Fn) : (s.updFn n f).handles = s.handles := rfl
@[simp] theorem State.updFn_ports (n : Nat) (f : Fn → Fn) : (s.updFn n f).ports = s.ports := rfl
@[simp] theorem State.updFn_laserF (n : Nat) (f : Fn → Fn) : (s.updFn n f).laserF = s.laserF := rfl
@[simp] theorem State.updFn_links (n : Nat) (f : Fn → Fn) : (s.updFn n f).links = s.links := rfl
@[simp] theorem State.updFn_act (n : Nat) (f : Fn → Fn) : (s.updFn n f).act = s.act := rfl
@[simp] theorem State.updFn_actCnt (n : Nat) (f : Fn → Fn) : (s.updFn n f).actCnt = s.actCnt := rfl
@[simp] theorem State.updFn_actWin (n : Nat) (f : Fn → Fn) : (s.updFn n f).actWin = s.actWin := rfl
@[simp] theorem State.updFn_asidtab (n : Nat) (f : Fn → Fn) : (s.updFn n f).asidtab = s.asidtab := rfl
@[simp] theorem State.updFn_sct (n : Nat) (f : Fn → Fn) : (s.updFn n f).sct = s.sct := rfl
@[simp] theorem State.updFn_form (n : Nat) (f : Fn → Fn) : (s.updFn n f).form = s.form := rfl
@[simp] theorem State.updFn_feats (n : Nat) (f : Fn → Fn) : (s.updFn n f).feats = s.feats := rfl
@[simp] theorem State.updFn_pkgid (n : Nat) (f : Fn → Fn) : (s.updFn n f).pkgid = s.pkgid := rfl
@[simp] theorem State.updFn_fwEntry (n : Nat) (f : Fn → Fn) : (s.updFn n f).fwEntry = s.fwEntry := rfl
@[simp] theorem State.updFn_podRef (n : Nat) (f : Fn → Fn) : (s.updFn n f).podRef = s.podRef := rfl
@[simp] theorem State.updFn_flash (n : Nat) (f : Fn → Fn) : (s.updFn n f).flash = s.flash := rfl
@[simp] theorem State.updFn_counter (n : Nat) (f : Fn → Fn) : (s.updFn n f).counter = s.counter := rfl
@[simp] theorem State.updFn_secret (n : Nat) (f : Fn → Fn) : (s.updFn n f).secret = s.secret := rfl
@[simp] theorem State.updFn_safe (n : Nat) (f : Fn → Fn) : (s.updFn n f).safe = s.safe := rfl
@[simp] theorem State.updFn_sleep (n : Nat) (f : Fn → Fn) : (s.updFn n f).sleep = s.sleep := rfl
@[simp] theorem State.updFn_stRec (n : Nat) (f : Fn → Fn) : (s.updFn n f).stRec = s.stRec := rfl
@[simp] theorem State.updFn_hostOut (n : Nat) (f : Fn → Fn) : (s.updFn n f).hostOut = s.hostOut := rfl
@[simp] theorem State.updFn_encs (n : Nat) (f : Fn → Fn) : (s.updFn n f).encs = s.encs := rfl
@[simp] theorem State.updFn_kems (n : Nat) (f : Fn → Fn) : (s.updFn n f).kems = s.kems := rfl
@[simp] theorem State.updFn_replay (n : Nat) (f : Fn → Fn) : (s.updFn n f).replay = s.replay := rfl
@[simp] theorem State.updFn_semRecs (n : Nat) (f : Fn → Fn) : (s.updFn n f).semRecs = s.semRecs := rfl
@[simp] theorem State.updFn_boot (n : Nat) (f : Fn → Fn) : (s.updFn n f).boot = s.boot := rfl

/-! `State.setPort` -/

@[simp] theorem State.setPort_gt (p : Nat) (x : Port) : (s.setPort p x).gt = s.gt := rfl
@[simp] theorem State.setPort_agenda (p : Nat) (x : Port) : (s.setPort p x).agenda = s.agenda := rfl
@[simp] theorem State.setPort_cur (p : Nat) (x : Port) : (s.setPort p x).cur = s.cur := rfl
@[simp] theorem State.setPort_arg (p : Nat) (x : Port) : (s.setPort p x).arg = s.arg := rfl
@[simp] theorem State.setPort_abort (p : Nat) (x : Port) : (s.setPort p x).abort = s.abort := rfl
@[simp] theorem State.setPort_fresh (p : Nat) (x : Port) : (s.setPort p x).fresh = s.fresh := rfl
@[simp] theorem State.setPort_mem (p : Nat) (x : Port) : (s.setPort p x).mem = s.mem := rfl
@[simp] theorem State.setPort_tags (p : Nat) (x : Port) : (s.setPort p x).tags = s.tags := rfl
@[simp] theorem State.setPort_epochs (p : Nat) (x : Port) : (s.setPort p x).epochs = s.epochs := rfl
@[simp] theorem State.setPort_bad (p : Nat) (x : Port) : (s.setPort p x).bad = s.bad := rfl
@[simp] theorem State.setPort_cores (p : Nat) (x : Port) : (s.setPort p x).cores = s.cores := rfl
@[simp] theorem State.setPort_tiles (p : Nat) (x : Port) : (s.setPort p x).tiles = s.tiles := rfl
@[simp] theorem State.setPort_loopq (p : Nat) (x : Port) : (s.setPort p x).loopq = s.loopq := rfl
@[simp] theorem State.setPort_tracks (p : Nat) (x : Port) : (s.setPort p x).tracks = s.tracks := rfl
@[simp] theorem State.setPort_prods (p : Nat) (x : Port) : (s.setPort p x).prods = s.prods := rfl
@[simp] theorem State.setPort_cmds (p : Nat) (x : Port) : (s.setPort p x).cmds = s.cmds := rfl
@[simp] theorem State.setPort_gangs (p : Nat) (x : Port) : (s.setPort p x).gangs = s.gangs := rfl
@[simp] theorem State.setPort_slots (p : Nat) (x : Port) : (s.setPort p x).slots = s.slots := rfl
@[simp] theorem State.setPort_timerq (p : Nat) (x : Port) : (s.setPort p x).timerq = s.timerq := rfl
@[simp] theorem State.setPort_handles (p : Nat) (x : Port) : (s.setPort p x).handles = s.handles := rfl
@[simp] theorem State.setPort_laserF (p : Nat) (x : Port) : (s.setPort p x).laserF = s.laserF := rfl
@[simp] theorem State.setPort_links (p : Nat) (x : Port) : (s.setPort p x).links = s.links := rfl
@[simp] theorem State.setPort_fns (p : Nat) (x : Port) : (s.setPort p x).fns = s.fns := rfl
@[simp] theorem State.setPort_act (p : Nat) (x : Port) : (s.setPort p x).act = s.act := rfl
@[simp] theorem State.setPort_actCnt (p : Nat) (x : Port) : (s.setPort p x).actCnt = s.actCnt := rfl
@[simp] theorem State.setPort_actWin (p : Nat) (x : Port) : (s.setPort p x).actWin = s.actWin := rfl
@[simp] theorem State.setPort_asidtab (p : Nat) (x : Port) : (s.setPort p x).asidtab = s.asidtab := rfl
@[simp] theorem State.setPort_sct (p : Nat) (x : Port) : (s.setPort p x).sct = s.sct := rfl
@[simp] theorem State.setPort_form (p : Nat) (x : Port) : (s.setPort p x).form = s.form := rfl
@[simp] theorem State.setPort_feats (p : Nat) (x : Port) : (s.setPort p x).feats = s.feats := rfl
@[simp] theorem State.setPort_pkgid (p : Nat) (x : Port) : (s.setPort p x).pkgid = s.pkgid := rfl
@[simp] theorem State.setPort_fwEntry (p : Nat) (x : Port) : (s.setPort p x).fwEntry = s.fwEntry := rfl
@[simp] theorem State.setPort_podRef (p : Nat) (x : Port) : (s.setPort p x).podRef = s.podRef := rfl
@[simp] theorem State.setPort_flash (p : Nat) (x : Port) : (s.setPort p x).flash = s.flash := rfl
@[simp] theorem State.setPort_counter (p : Nat) (x : Port) : (s.setPort p x).counter = s.counter := rfl
@[simp] theorem State.setPort_secret (p : Nat) (x : Port) : (s.setPort p x).secret = s.secret := rfl
@[simp] theorem State.setPort_safe (p : Nat) (x : Port) : (s.setPort p x).safe = s.safe := rfl
@[simp] theorem State.setPort_sleep (p : Nat) (x : Port) : (s.setPort p x).sleep = s.sleep := rfl
@[simp] theorem State.setPort_stRec (p : Nat) (x : Port) : (s.setPort p x).stRec = s.stRec := rfl
@[simp] theorem State.setPort_hostOut (p : Nat) (x : Port) : (s.setPort p x).hostOut = s.hostOut := rfl
@[simp] theorem State.setPort_encs (p : Nat) (x : Port) : (s.setPort p x).encs = s.encs := rfl
@[simp] theorem State.setPort_kems (p : Nat) (x : Port) : (s.setPort p x).kems = s.kems := rfl
@[simp] theorem State.setPort_replay (p : Nat) (x : Port) : (s.setPort p x).replay = s.replay := rfl
@[simp] theorem State.setPort_semRecs (p : Nat) (x : Port) : (s.setPort p x).semRecs = s.semRecs := rfl
@[simp] theorem State.setPort_boot (p : Nat) (x : Port) : (s.setPort p x).boot = s.boot := rfl

/-! `State.putRaw` -/

@[simp] theorem State.putRaw_gt (k : Nat) (bs : List Byte) : (s.putRaw k bs).gt = s.gt := rfl
@[simp] theorem State.putRaw_agenda (k : Nat) (bs : List Byte) : (s.putRaw k bs).agenda = s.agenda := rfl
@[simp] theorem State.putRaw_cur (k : Nat) (bs : List Byte) : (s.putRaw k bs).cur = s.cur := rfl
@[simp] theorem State.putRaw_arg (k : Nat) (bs : List Byte) : (s.putRaw k bs).arg = s.arg := rfl
@[simp] theorem State.putRaw_abort (k : Nat) (bs : List Byte) : (s.putRaw k bs).abort = s.abort := rfl
@[simp] theorem State.putRaw_fresh (k : Nat) (bs : List Byte) : (s.putRaw k bs).fresh = s.fresh := rfl
@[simp] theorem State.putRaw_tags (k : Nat) (bs : List Byte) : (s.putRaw k bs).tags = s.tags := rfl
@[simp] theorem State.putRaw_epochs (k : Nat) (bs : List Byte) : (s.putRaw k bs).epochs = s.epochs := rfl
@[simp] theorem State.putRaw_bad (k : Nat) (bs : List Byte) : (s.putRaw k bs).bad = s.bad := rfl
@[simp] theorem State.putRaw_cores (k : Nat) (bs : List Byte) : (s.putRaw k bs).cores = s.cores := rfl
@[simp] theorem State.putRaw_tiles (k : Nat) (bs : List Byte) : (s.putRaw k bs).tiles = s.tiles := rfl
@[simp] theorem State.putRaw_loopq (k : Nat) (bs : List Byte) : (s.putRaw k bs).loopq = s.loopq := rfl
@[simp] theorem State.putRaw_tracks (k : Nat) (bs : List Byte) : (s.putRaw k bs).tracks = s.tracks := rfl
@[simp] theorem State.putRaw_prods (k : Nat) (bs : List Byte) : (s.putRaw k bs).prods = s.prods := rfl
@[simp] theorem State.putRaw_cmds (k : Nat) (bs : List Byte) : (s.putRaw k bs).cmds = s.cmds := rfl
@[simp] theorem State.putRaw_gangs (k : Nat) (bs : List Byte) : (s.putRaw k bs).gangs = s.gangs := rfl
@[simp] theorem State.putRaw_slots (k : Nat) (bs : List Byte) : (s.putRaw k bs).slots = s.slots := rfl
@[simp] theorem State.putRaw_timerq (k : Nat) (bs : List Byte) : (s.putRaw k bs).timerq = s.timerq := rfl
@[simp] theorem State.putRaw_handles (k : Nat) (bs : List Byte) : (s.putRaw k bs).handles = s.handles := rfl
@[simp] theorem State.putRaw_ports (k : Nat) (bs : List Byte) : (s.putRaw k bs).ports = s.ports := rfl
@[simp] theorem State.putRaw_laserF (k : Nat) (bs : List Byte) : (s.putRaw k bs).laserF = s.laserF := rfl
@[simp] theorem State.putRaw_links (k : Nat) (bs : List Byte) : (s.putRaw k bs).links = s.links := rfl
@[simp] theorem State.putRaw_fns (k : Nat) (bs : List Byte) : (s.putRaw k bs).fns = s.fns := rfl
@[simp] theorem State.putRaw_act (k : Nat) (bs : List Byte) : (s.putRaw k bs).act = s.act := rfl
@[simp] theorem State.putRaw_actCnt (k : Nat) (bs : List Byte) : (s.putRaw k bs).actCnt = s.actCnt := rfl
@[simp] theorem State.putRaw_actWin (k : Nat) (bs : List Byte) : (s.putRaw k bs).actWin = s.actWin := rfl
@[simp] theorem State.putRaw_asidtab (k : Nat) (bs : List Byte) : (s.putRaw k bs).asidtab = s.asidtab := rfl
@[simp] theorem State.putRaw_sct (k : Nat) (bs : List Byte) : (s.putRaw k bs).sct = s.sct := rfl
@[simp] theorem State.putRaw_form (k : Nat) (bs : List Byte) : (s.putRaw k bs).form = s.form := rfl
@[simp] theorem State.putRaw_feats (k : Nat) (bs : List Byte) : (s.putRaw k bs).feats = s.feats := rfl
@[simp] theorem State.putRaw_pkgid (k : Nat) (bs : List Byte) : (s.putRaw k bs).pkgid = s.pkgid := rfl
@[simp] theorem State.putRaw_fwEntry (k : Nat) (bs : List Byte) : (s.putRaw k bs).fwEntry = s.fwEntry := rfl
@[simp] theorem State.putRaw_podRef (k : Nat) (bs : List Byte) : (s.putRaw k bs).podRef = s.podRef := rfl
@[simp] theorem State.putRaw_flash (k : Nat) (bs : List Byte) : (s.putRaw k bs).flash = s.flash := rfl
@[simp] theorem State.putRaw_counter (k : Nat) (bs : List Byte) : (s.putRaw k bs).counter = s.counter := rfl
@[simp] theorem State.putRaw_secret (k : Nat) (bs : List Byte) : (s.putRaw k bs).secret = s.secret := rfl
@[simp] theorem State.putRaw_safe (k : Nat) (bs : List Byte) : (s.putRaw k bs).safe = s.safe := rfl
@[simp] theorem State.putRaw_sleep (k : Nat) (bs : List Byte) : (s.putRaw k bs).sleep = s.sleep := rfl
@[simp] theorem State.putRaw_stRec (k : Nat) (bs : List Byte) : (s.putRaw k bs).stRec = s.stRec := rfl
@[simp] theorem State.putRaw_hostOut (k : Nat) (bs : List Byte) : (s.putRaw k bs).hostOut = s.hostOut := rfl
@[simp] theorem State.putRaw_encs (k : Nat) (bs : List Byte) : (s.putRaw k bs).encs = s.encs := rfl
@[simp] theorem State.putRaw_kems (k : Nat) (bs : List Byte) : (s.putRaw k bs).kems = s.kems := rfl
@[simp] theorem State.putRaw_replay (k : Nat) (bs : List Byte) : (s.putRaw k bs).replay = s.replay := rfl
@[simp] theorem State.putRaw_semRecs (k : Nat) (bs : List Byte) : (s.putRaw k bs).semRecs = s.semRecs := rfl
@[simp] theorem State.putRaw_boot (k : Nat) (bs : List Byte) : (s.putRaw k bs).boot = s.boot := rfl

/-! `State.evt` -/

@[simp] theorem State.evt_gt (t : TileId) (b : Nat) : (s.evt t b).gt = s.gt := rfl
@[simp] theorem State.evt_agenda (t : TileId) (b : Nat) : (s.evt t b).agenda = s.agenda := rfl
@[simp] theorem State.evt_cur (t : TileId) (b : Nat) : (s.evt t b).cur = s.cur := rfl
@[simp] theorem State.evt_arg (t : TileId) (b : Nat) : (s.evt t b).arg = s.arg := rfl
@[simp] theorem State.evt_abort (t : TileId) (b : Nat) : (s.evt t b).abort = s.abort := rfl
@[simp] theorem State.evt_fresh (t : TileId) (b : Nat) : (s.evt t b).fresh = s.fresh := rfl
@[simp] theorem State.evt_mem (t : TileId) (b : Nat) : (s.evt t b).mem = s.mem := rfl
@[simp] theorem State.evt_tags (t : TileId) (b : Nat) : (s.evt t b).tags = s.tags := rfl
@[simp] theorem State.evt_epochs (t : TileId) (b : Nat) : (s.evt t b).epochs = s.epochs := rfl
@[simp] theorem State.evt_bad (t : TileId) (b : Nat) : (s.evt t b).bad = s.bad := rfl
@[simp] theorem State.evt_cores (t : TileId) (b : Nat) : (s.evt t b).cores = s.cores := rfl
@[simp] theorem State.evt_loopq (t : TileId) (b : Nat) : (s.evt t b).loopq = s.loopq := rfl
@[simp] theorem State.evt_tracks (t : TileId) (b : Nat) : (s.evt t b).tracks = s.tracks := rfl
@[simp] theorem State.evt_prods (t : TileId) (b : Nat) : (s.evt t b).prods = s.prods := rfl
@[simp] theorem State.evt_cmds (t : TileId) (b : Nat) : (s.evt t b).cmds = s.cmds := rfl
@[simp] theorem State.evt_gangs (t : TileId) (b : Nat) : (s.evt t b).gangs = s.gangs := rfl
@[simp] theorem State.evt_slots (t : TileId) (b : Nat) : (s.evt t b).slots = s.slots := rfl
@[simp] theorem State.evt_timerq (t : TileId) (b : Nat) : (s.evt t b).timerq = s.timerq := rfl
@[simp] theorem State.evt_handles (t : TileId) (b : Nat) : (s.evt t b).handles = s.handles := rfl
@[simp] theorem State.evt_ports (t : TileId) (b : Nat) : (s.evt t b).ports = s.ports := rfl
@[simp] theorem State.evt_laserF (t : TileId) (b : Nat) : (s.evt t b).laserF = s.laserF := rfl
@[simp] theorem State.evt_links (t : TileId) (b : Nat) : (s.evt t b).links = s.links := rfl
@[simp] theorem State.evt_fns (t : TileId) (b : Nat) : (s.evt t b).fns = s.fns := rfl
@[simp] theorem State.evt_act (t : TileId) (b : Nat) : (s.evt t b).act = s.act := rfl
@[simp] theorem State.evt_actCnt (t : TileId) (b : Nat) : (s.evt t b).actCnt = s.actCnt := rfl
@[simp] theorem State.evt_actWin (t : TileId) (b : Nat) : (s.evt t b).actWin = s.actWin := rfl
@[simp] theorem State.evt_asidtab (t : TileId) (b : Nat) : (s.evt t b).asidtab = s.asidtab := rfl
@[simp] theorem State.evt_sct (t : TileId) (b : Nat) : (s.evt t b).sct = s.sct := rfl
@[simp] theorem State.evt_form (t : TileId) (b : Nat) : (s.evt t b).form = s.form := rfl
@[simp] theorem State.evt_feats (t : TileId) (b : Nat) : (s.evt t b).feats = s.feats := rfl
@[simp] theorem State.evt_pkgid (t : TileId) (b : Nat) : (s.evt t b).pkgid = s.pkgid := rfl
@[simp] theorem State.evt_fwEntry (t : TileId) (b : Nat) : (s.evt t b).fwEntry = s.fwEntry := rfl
@[simp] theorem State.evt_podRef (t : TileId) (b : Nat) : (s.evt t b).podRef = s.podRef := rfl
@[simp] theorem State.evt_flash (t : TileId) (b : Nat) : (s.evt t b).flash = s.flash := rfl
@[simp] theorem State.evt_counter (t : TileId) (b : Nat) : (s.evt t b).counter = s.counter := rfl
@[simp] theorem State.evt_secret (t : TileId) (b : Nat) : (s.evt t b).secret = s.secret := rfl
@[simp] theorem State.evt_safe (t : TileId) (b : Nat) : (s.evt t b).safe = s.safe := rfl
@[simp] theorem State.evt_sleep (t : TileId) (b : Nat) : (s.evt t b).sleep = s.sleep := rfl
@[simp] theorem State.evt_stRec (t : TileId) (b : Nat) : (s.evt t b).stRec = s.stRec := rfl
@[simp] theorem State.evt_hostOut (t : TileId) (b : Nat) : (s.evt t b).hostOut = s.hostOut := rfl
@[simp] theorem State.evt_encs (t : TileId) (b : Nat) : (s.evt t b).encs = s.encs := rfl
@[simp] theorem State.evt_kems (t : TileId) (b : Nat) : (s.evt t b).kems = s.kems := rfl
@[simp] theorem State.evt_replay (t : TileId) (b : Nat) : (s.evt t b).replay = s.replay := rfl
@[simp] theorem State.evt_semRecs (t : TileId) (b : Nat) : (s.evt t b).semRecs = s.semRecs := rfl
@[simp] theorem State.evt_boot (t : TileId) (b : Nat) : (s.evt t b).boot = s.boot := rfl

/-! `State.updGang` -/

@[simp] theorem State.updGang_gt (g : Nat) (f : Gang → Gang) : (s.updGang g f).gt = s.gt := rfl
@[simp] theorem State.updGang_agenda (g : Nat) (f : Gang → Gang) : (s.updGang g f).agenda = s.agenda := rfl
@[simp] theorem State.updGang_cur (g : Nat) (f : Gang → Gang) : (s.updGang g f).cur = s.cur := rfl
@[simp] theorem State.updGang_arg (g : Nat) (f : Gang → Gang) : (s.updGang g f).arg = s.arg := rfl
@[simp] theorem State.updGang_abort (g : Nat) (f : Gang → Gang) : (s.updGang g f).abort = s.abort := rfl
@[simp] theorem State.updGang_fresh (g : Nat) (f : Gang → Gang) : (s.updGang g f).fresh = s.fresh := rfl
@[simp] theorem State.updGang_mem (g : Nat) (f : Gang → Gang) : (s.updGang g f).mem = s.mem := rfl
@[simp] theorem State.updGang_tags (g : Nat) (f : Gang → Gang) : (s.updGang g f).tags = s.tags := rfl
@[simp] theorem State.updGang_epochs (g : Nat) (f : Gang → Gang) : (s.updGang g f).epochs = s.epochs := rfl
@[simp] theorem State.updGang_bad (g : Nat) (f : Gang → Gang) : (s.updGang g f).bad = s.bad := rfl
@[simp] theorem State.updGang_cores (g : Nat) (f : Gang → Gang) : (s.updGang g f).cores = s.cores := rfl
@[simp] theorem State.updGang_tiles (g : Nat) (f : Gang → Gang) : (s.updGang g f).tiles = s.tiles := rfl
@[simp] theorem State.updGang_loopq (g : Nat) (f : Gang → Gang) : (s.updGang g f).loopq = s.loopq := rfl
@[simp] theorem State.updGang_tracks (g : Nat) (f : Gang → Gang) : (s.updGang g f).tracks = s.tracks := rfl
@[simp] theorem State.updGang_prods (g : Nat) (f : Gang → Gang) : (s.updGang g f).prods = s.prods := rfl
@[simp] theorem State.updGang_cmds (g : Nat) (f : Gang → Gang) : (s.updGang g f).cmds = s.cmds := rfl
@[simp] theorem State.updGang_slots (g : Nat) (f : Gang → Gang) : (s.updGang g f).slots = s.slots := rfl
@[simp] theorem State.updGang_timerq (g : Nat) (f : Gang → Gang) : (s.updGang g f).timerq = s.timerq := rfl
@[simp] theorem State.updGang_handles (g : Nat) (f : Gang → Gang) : (s.updGang g f).handles = s.handles := rfl
@[simp] theorem State.updGang_ports (g : Nat) (f : Gang → Gang) : (s.updGang g f).ports = s.ports := rfl
@[simp] theorem State.updGang_laserF (g : Nat) (f : Gang → Gang) : (s.updGang g f).laserF = s.laserF := rfl
@[simp] theorem State.updGang_links (g : Nat) (f : Gang → Gang) : (s.updGang g f).links = s.links := rfl
@[simp] theorem State.updGang_fns (g : Nat) (f : Gang → Gang) : (s.updGang g f).fns = s.fns := rfl
@[simp] theorem State.updGang_act (g : Nat) (f : Gang → Gang) : (s.updGang g f).act = s.act := rfl
@[simp] theorem State.updGang_actCnt (g : Nat) (f : Gang → Gang) : (s.updGang g f).actCnt = s.actCnt := rfl
@[simp] theorem State.updGang_actWin (g : Nat) (f : Gang → Gang) : (s.updGang g f).actWin = s.actWin := rfl
@[simp] theorem State.updGang_asidtab (g : Nat) (f : Gang → Gang) : (s.updGang g f).asidtab = s.asidtab := rfl
@[simp] theorem State.updGang_sct (g : Nat) (f : Gang → Gang) : (s.updGang g f).sct = s.sct := rfl
@[simp] theorem State.updGang_form (g : Nat) (f : Gang → Gang) : (s.updGang g f).form = s.form := rfl
@[simp] theorem State.updGang_feats (g : Nat) (f : Gang → Gang) : (s.updGang g f).feats = s.feats := rfl
@[simp] theorem State.updGang_pkgid (g : Nat) (f : Gang → Gang) : (s.updGang g f).pkgid = s.pkgid := rfl
@[simp] theorem State.updGang_fwEntry (g : Nat) (f : Gang → Gang) : (s.updGang g f).fwEntry = s.fwEntry := rfl
@[simp] theorem State.updGang_podRef (g : Nat) (f : Gang → Gang) : (s.updGang g f).podRef = s.podRef := rfl
@[simp] theorem State.updGang_flash (g : Nat) (f : Gang → Gang) : (s.updGang g f).flash = s.flash := rfl
@[simp] theorem State.updGang_counter (g : Nat) (f : Gang → Gang) : (s.updGang g f).counter = s.counter := rfl
@[simp] theorem State.updGang_secret (g : Nat) (f : Gang → Gang) : (s.updGang g f).secret = s.secret := rfl
@[simp] theorem State.updGang_safe (g : Nat) (f : Gang → Gang) : (s.updGang g f).safe = s.safe := rfl
@[simp] theorem State.updGang_sleep (g : Nat) (f : Gang → Gang) : (s.updGang g f).sleep = s.sleep := rfl
@[simp] theorem State.updGang_stRec (g : Nat) (f : Gang → Gang) : (s.updGang g f).stRec = s.stRec := rfl
@[simp] theorem State.updGang_hostOut (g : Nat) (f : Gang → Gang) : (s.updGang g f).hostOut = s.hostOut := rfl
@[simp] theorem State.updGang_encs (g : Nat) (f : Gang → Gang) : (s.updGang g f).encs = s.encs := rfl
@[simp] theorem State.updGang_kems (g : Nat) (f : Gang → Gang) : (s.updGang g f).kems = s.kems := rfl
@[simp] theorem State.updGang_replay (g : Nat) (f : Gang → Gang) : (s.updGang g f).replay = s.replay := rfl
@[simp] theorem State.updGang_semRecs (g : Nat) (f : Gang → Gang) : (s.updGang g f).semRecs = s.semRecs := rfl
@[simp] theorem State.updGang_boot (g : Nat) (f : Gang → Gang) : (s.updGang g f).boot = s.boot := rfl

/-! `State.updMember` -/

@[simp] theorem State.updMember_gt (g : Nat) (c : CoreId) (f : Member → Member) : (s.updMember g c f).gt = s.gt := rfl
@[simp] theorem State.updMember_agenda (g : Nat) (c : CoreId) (f : Member → Member) : (s.updMember g c f).agenda = s.agenda := rfl
@[simp] theorem State.updMember_cur (g : Nat) (c : CoreId) (f : Member → Member) : (s.updMember g c f).cur = s.cur := rfl
@[simp] theorem State.updMember_arg (g : Nat) (c : CoreId) (f : Member → Member) : (s.updMember g c f).arg = s.arg := rfl
@[simp] theorem State.updMember_abort (g : Nat) (c : CoreId) (f : Member → Member) : (s.updMember g c f).abort = s.abort := rfl
@[simp] theorem State.updMember_fresh (g : Nat) (c : CoreId) (f : Member → Member) : (s.updMember g c f).fresh = s.fresh := rfl
@[simp] theorem State.updMember_mem (g : Nat) (c : CoreId) (f : Member → Member) : (s.updMember g c f).mem = s.mem := rfl
@[simp] theorem State.updMember_tags (g : Nat) (c : CoreId) (f : Member → Member) : (s.updMember g c f).tags = s.tags := rfl
@[simp] theorem State.updMember_epochs (g : Nat) (c : CoreId) (f : Member → Member) : (s.updMember g c f).epochs = s.epochs := rfl
@[simp] theorem State.updMember_bad (g : Nat) (c : CoreId) (f : Member → Member) : (s.updMember g c f).bad = s.bad := rfl
@[simp] theorem State.updMember_cores (g : Nat) (c : CoreId) (f : Member → Member) : (s.updMember g c f).cores = s.cores := rfl
@[simp] theorem State.updMember_tiles (g : Nat) (c : CoreId) (f : Member → Member) : (s.updMember g c f).tiles = s.tiles := rfl
@[simp] theorem State.updMember_loopq (g : Nat) (c : CoreId) (f : Member → Member) : (s.updMember g c f).loopq = s.loopq := rfl
@[simp] theorem State.updMember_tracks (g : Nat) (c : CoreId) (f : Member → Member) : (s.updMember g c f).tracks = s.tracks := rfl
@[simp] theorem State.updMember_prods (g : Nat) (c : CoreId) (f : Member → Member) : (s.updMember g c f).prods = s.prods := rfl
@[simp] theorem State.updMember_cmds (g : Nat) (c : CoreId) (f : Member → Member) : (s.updMember g c f).cmds = s.cmds := rfl
@[simp] theorem State.updMember_slots (g : Nat) (c : CoreId) (f : Member → Member) : (s.updMember g c f).slots = s.slots := rfl
@[simp] theorem State.updMember_timerq (g : Nat) (c : CoreId) (f : Member → Member) : (s.updMember g c f).timerq = s.timerq := rfl
@[simp] theorem State.updMember_handles (g : Nat) (c : CoreId) (f : Member → Member) : (s.updMember g c f).handles = s.handles := rfl
@[simp] theorem State.updMember_ports (g : Nat) (c : CoreId) (f : Member → Member) : (s.updMember g c f).ports = s.ports := rfl
@[simp] theorem State.updMember_laserF (g : Nat) (c : CoreId) (f : Member → Member) : (s.updMember g c f).laserF = s.laserF := rfl
@[simp] theorem State.updMember_links (g : Nat) (c : CoreId) (f : Member → Member) : (s.updMember g c f).links = s.links := rfl
@[simp] theorem State.updMember_fns (g : Nat) (c : CoreId) (f : Member → Member) : (s.updMember g c f).fns = s.fns := rfl
@[simp] theorem State.updMember_act (g : Nat) (c : CoreId) (f : Member → Member) : (s.updMember g c f).act = s.act := rfl
@[simp] theorem State.updMember_actCnt (g : Nat) (c : CoreId) (f : Member → Member) : (s.updMember g c f).actCnt = s.actCnt := rfl
@[simp] theorem State.updMember_actWin (g : Nat) (c : CoreId) (f : Member → Member) : (s.updMember g c f).actWin = s.actWin := rfl
@[simp] theorem State.updMember_asidtab (g : Nat) (c : CoreId) (f : Member → Member) : (s.updMember g c f).asidtab = s.asidtab := rfl
@[simp] theorem State.updMember_sct (g : Nat) (c : CoreId) (f : Member → Member) : (s.updMember g c f).sct = s.sct := rfl
@[simp] theorem State.updMember_form (g : Nat) (c : CoreId) (f : Member → Member) : (s.updMember g c f).form = s.form := rfl
@[simp] theorem State.updMember_feats (g : Nat) (c : CoreId) (f : Member → Member) : (s.updMember g c f).feats = s.feats := rfl
@[simp] theorem State.updMember_pkgid (g : Nat) (c : CoreId) (f : Member → Member) : (s.updMember g c f).pkgid = s.pkgid := rfl
@[simp] theorem State.updMember_fwEntry (g : Nat) (c : CoreId) (f : Member → Member) : (s.updMember g c f).fwEntry = s.fwEntry := rfl
@[simp] theorem State.updMember_podRef (g : Nat) (c : CoreId) (f : Member → Member) : (s.updMember g c f).podRef = s.podRef := rfl
@[simp] theorem State.updMember_flash (g : Nat) (c : CoreId) (f : Member → Member) : (s.updMember g c f).flash = s.flash := rfl
@[simp] theorem State.updMember_counter (g : Nat) (c : CoreId) (f : Member → Member) : (s.updMember g c f).counter = s.counter := rfl
@[simp] theorem State.updMember_secret (g : Nat) (c : CoreId) (f : Member → Member) : (s.updMember g c f).secret = s.secret := rfl
@[simp] theorem State.updMember_safe (g : Nat) (c : CoreId) (f : Member → Member) : (s.updMember g c f).safe = s.safe := rfl
@[simp] theorem State.updMember_sleep (g : Nat) (c : CoreId) (f : Member → Member) : (s.updMember g c f).sleep = s.sleep := rfl
@[simp] theorem State.updMember_stRec (g : Nat) (c : CoreId) (f : Member → Member) : (s.updMember g c f).stRec = s.stRec := rfl
@[simp] theorem State.updMember_hostOut (g : Nat) (c : CoreId) (f : Member → Member) : (s.updMember g c f).hostOut = s.hostOut := rfl
@[simp] theorem State.updMember_encs (g : Nat) (c : CoreId) (f : Member → Member) : (s.updMember g c f).encs = s.encs := rfl
@[simp] theorem State.updMember_kems (g : Nat) (c : CoreId) (f : Member → Member) : (s.updMember g c f).kems = s.kems := rfl
@[simp] theorem State.updMember_replay (g : Nat) (c : CoreId) (f : Member → Member) : (s.updMember g c f).replay = s.replay := rfl
@[simp] theorem State.updMember_semRecs (g : Nat) (c : CoreId) (f : Member → Member) : (s.updMember g c f).semRecs = s.semRecs := rfl
@[simp] theorem State.updMember_boot (g : Nat) (c : CoreId) (f : Member → Member) : (s.updMember g c f).boot = s.boot := rfl

/-! `State.out` -/

@[simp] theorem State.out_gt (o : HostOut) : (s.out o).gt = s.gt := rfl
@[simp] theorem State.out_agenda (o : HostOut) : (s.out o).agenda = s.agenda := rfl
@[simp] theorem State.out_cur (o : HostOut) : (s.out o).cur = s.cur := rfl
@[simp] theorem State.out_arg (o : HostOut) : (s.out o).arg = s.arg := rfl
@[simp] theorem State.out_abort (o : HostOut) : (s.out o).abort = s.abort := rfl
@[simp] theorem State.out_fresh (o : HostOut) : (s.out o).fresh = s.fresh := rfl
@[simp] theorem State.out_mem (o : HostOut) : (s.out o).mem = s.mem := rfl
@[simp] theorem State.out_tags (o : HostOut) : (s.out o).tags = s.tags := rfl
@[simp] theorem State.out_epochs (o : HostOut) : (s.out o).epochs = s.epochs := rfl
@[simp] theorem State.out_bad (o : HostOut) : (s.out o).bad = s.bad := rfl
@[simp] theorem State.out_cores (o : HostOut) : (s.out o).cores = s.cores := rfl
@[simp] theorem State.out_tiles (o : HostOut) : (s.out o).tiles = s.tiles := rfl
@[simp] theorem State.out_loopq (o : HostOut) : (s.out o).loopq = s.loopq := rfl
@[simp] theorem State.out_tracks (o : HostOut) : (s.out o).tracks = s.tracks := rfl
@[simp] theorem State.out_prods (o : HostOut) : (s.out o).prods = s.prods := rfl
@[simp] theorem State.out_cmds (o : HostOut) : (s.out o).cmds = s.cmds := rfl
@[simp] theorem State.out_gangs (o : HostOut) : (s.out o).gangs = s.gangs := rfl
@[simp] theorem State.out_slots (o : HostOut) : (s.out o).slots = s.slots := rfl
@[simp] theorem State.out_timerq (o : HostOut) : (s.out o).timerq = s.timerq := rfl
@[simp] theorem State.out_handles (o : HostOut) : (s.out o).handles = s.handles := rfl
@[simp] theorem State.out_ports (o : HostOut) : (s.out o).ports = s.ports := rfl
@[simp] theorem State.out_laserF (o : HostOut) : (s.out o).laserF = s.laserF := rfl
@[simp] theorem State.out_links (o : HostOut) : (s.out o).links = s.links := rfl
@[simp] theorem State.out_fns (o : HostOut) : (s.out o).fns = s.fns := rfl
@[simp] theorem State.out_act (o : HostOut) : (s.out o).act = s.act := rfl
@[simp] theorem State.out_actCnt (o : HostOut) : (s.out o).actCnt = s.actCnt := rfl
@[simp] theorem State.out_actWin (o : HostOut) : (s.out o).actWin = s.actWin := rfl
@[simp] theorem State.out_asidtab (o : HostOut) : (s.out o).asidtab = s.asidtab := rfl
@[simp] theorem State.out_sct (o : HostOut) : (s.out o).sct = s.sct := rfl
@[simp] theorem State.out_form (o : HostOut) : (s.out o).form = s.form := rfl
@[simp] theorem State.out_feats (o : HostOut) : (s.out o).feats = s.feats := rfl
@[simp] theorem State.out_pkgid (o : HostOut) : (s.out o).pkgid = s.pkgid := rfl
@[simp] theorem State.out_fwEntry (o : HostOut) : (s.out o).fwEntry = s.fwEntry := rfl
@[simp] theorem State.out_podRef (o : HostOut) : (s.out o).podRef = s.podRef := rfl
@[simp] theorem State.out_flash (o : HostOut) : (s.out o).flash = s.flash := rfl
@[simp] theorem State.out_counter (o : HostOut) : (s.out o).counter = s.counter := rfl
@[simp] theorem State.out_secret (o : HostOut) : (s.out o).secret = s.secret := rfl
@[simp] theorem State.out_safe (o : HostOut) : (s.out o).safe = s.safe := rfl
@[simp] theorem State.out_sleep (o : HostOut) : (s.out o).sleep = s.sleep := rfl
@[simp] theorem State.out_stRec (o : HostOut) : (s.out o).stRec = s.stRec := rfl
@[simp] theorem State.out_encs (o : HostOut) : (s.out o).encs = s.encs := rfl
@[simp] theorem State.out_kems (o : HostOut) : (s.out o).kems = s.kems := rfl
@[simp] theorem State.out_replay (o : HostOut) : (s.out o).replay = s.replay := rfl
@[simp] theorem State.out_semRecs (o : HostOut) : (s.out o).semRecs = s.semRecs := rfl
@[simp] theorem State.out_boot (o : HostOut) : (s.out o).boot = s.boot := rfl

/-! `State.bump` -/

@[simp] theorem State.bump_gt : (s.bump).gt = s.gt := rfl
@[simp] theorem State.bump_agenda : (s.bump).agenda = s.agenda := rfl
@[simp] theorem State.bump_cur : (s.bump).cur = s.cur := rfl
@[simp] theorem State.bump_arg : (s.bump).arg = s.arg := rfl
@[simp] theorem State.bump_abort : (s.bump).abort = s.abort := rfl
@[simp] theorem State.bump_mem : (s.bump).mem = s.mem := rfl
@[simp] theorem State.bump_tags : (s.bump).tags = s.tags := rfl
@[simp] theorem State.bump_epochs : (s.bump).epochs = s.epochs := rfl
@[simp] theorem State.bump_bad : (s.bump).bad = s.bad := rfl
@[simp] theorem State.bump_cores : (s.bump).cores = s.cores := rfl
@[simp] theorem State.bump_tiles : (s.bump).tiles = s.tiles := rfl
@[simp] theorem State.bump_loopq : (s.bump).loopq = s.loopq := rfl
@[simp] theorem State.bump_tracks : (s.bump).tracks = s.tracks := rfl
@[simp] theorem State.bump_prods : (s.bump).prods = s.prods := rfl
@[simp] theorem State.bump_cmds : (s.bump).cmds = s.cmds := rfl
@[simp] theorem State.bump_gangs : (s.bump).gangs = s.gangs := rfl
@[simp] theorem State.bump_slots : (s.bump).slots = s.slots := rfl
@[simp] theorem State.bump_timerq : (s.bump).timerq = s.timerq := rfl
@[simp] theorem State.bump_handles : (s.bump).handles = s.handles := rfl
@[simp] theorem State.bump_ports : (s.bump).ports = s.ports := rfl
@[simp] theorem State.bump_laserF : (s.bump).laserF = s.laserF := rfl
@[simp] theorem State.bump_links : (s.bump).links = s.links := rfl
@[simp] theorem State.bump_fns : (s.bump).fns = s.fns := rfl
@[simp] theorem State.bump_act : (s.bump).act = s.act := rfl
@[simp] theorem State.bump_actCnt : (s.bump).actCnt = s.actCnt := rfl
@[simp] theorem State.bump_actWin : (s.bump).actWin = s.actWin := rfl
@[simp] theorem State.bump_asidtab : (s.bump).asidtab = s.asidtab := rfl
@[simp] theorem State.bump_sct : (s.bump).sct = s.sct := rfl
@[simp] theorem State.bump_form : (s.bump).form = s.form := rfl
@[simp] theorem State.bump_feats : (s.bump).feats = s.feats := rfl
@[simp] theorem State.bump_pkgid : (s.bump).pkgid = s.pkgid := rfl
@[simp] theorem State.bump_fwEntry : (s.bump).fwEntry = s.fwEntry := rfl
@[simp] theorem State.bump_podRef : (s.bump).podRef = s.podRef := rfl
@[simp] theorem State.bump_flash : (s.bump).flash = s.flash := rfl
@[simp] theorem State.bump_counter : (s.bump).counter = s.counter := rfl
@[simp] theorem State.bump_secret : (s.bump).secret = s.secret := rfl
@[simp] theorem State.bump_safe : (s.bump).safe = s.safe := rfl
@[simp] theorem State.bump_sleep : (s.bump).sleep = s.sleep := rfl
@[simp] theorem State.bump_stRec : (s.bump).stRec = s.stRec := rfl
@[simp] theorem State.bump_hostOut : (s.bump).hostOut = s.hostOut := rfl
@[simp] theorem State.bump_encs : (s.bump).encs = s.encs := rfl
@[simp] theorem State.bump_kems : (s.bump).kems = s.kems := rfl
@[simp] theorem State.bump_replay : (s.bump).replay = s.replay := rfl
@[simp] theorem State.bump_semRecs : (s.bump).semRecs = s.semRecs := rfl
@[simp] theorem State.bump_boot : (s.bump).boot = s.boot := rfl

/-! `State.setHart` and `State.atSlot`: only cores and tiles change. -/

@[simp] theorem State.setHart_gt (h : Hart) : (s.setHart h).gt = s.gt := by unfold State.setHart; split <;> rfl
@[simp] theorem State.setHart_agenda (h : Hart) : (s.setHart h).agenda = s.agenda := by unfold State.setHart; split <;> rfl
@[simp] theorem State.setHart_cur (h : Hart) : (s.setHart h).cur = s.cur := by unfold State.setHart; split <;> rfl
@[simp] theorem State.setHart_arg (h : Hart) : (s.setHart h).arg = s.arg := by unfold State.setHart; split <;> rfl
@[simp] theorem State.setHart_abort (h : Hart) : (s.setHart h).abort = s.abort := by unfold State.setHart; split <;> rfl
@[simp] theorem State.setHart_fresh (h : Hart) : (s.setHart h).fresh = s.fresh := by unfold State.setHart; split <;> rfl
@[simp] theorem State.setHart_mem (h : Hart) : (s.setHart h).mem = s.mem := by unfold State.setHart; split <;> rfl
@[simp] theorem State.setHart_tags (h : Hart) : (s.setHart h).tags = s.tags := by unfold State.setHart; split <;> rfl
@[simp] theorem State.setHart_epochs (h : Hart) : (s.setHart h).epochs = s.epochs := by unfold State.setHart; split <;> rfl
@[simp] theorem State.setHart_bad (h : Hart) : (s.setHart h).bad = s.bad := by unfold State.setHart; split <;> rfl
@[simp] theorem State.setHart_loopq (h : Hart) : (s.setHart h).loopq = s.loopq := by unfold State.setHart; split <;> rfl
@[simp] theorem State.setHart_tracks (h : Hart) : (s.setHart h).tracks = s.tracks := by unfold State.setHart; split <;> rfl
@[simp] theorem State.setHart_prods (h : Hart) : (s.setHart h).prods = s.prods := by unfold State.setHart; split <;> rfl
@[simp] theorem State.setHart_cmds (h : Hart) : (s.setHart h).cmds = s.cmds := by unfold State.setHart; split <;> rfl
@[simp] theorem State.setHart_gangs (h : Hart) : (s.setHart h).gangs = s.gangs := by unfold State.setHart; split <;> rfl
@[simp] theorem State.setHart_slots (h : Hart) : (s.setHart h).slots = s.slots := by unfold State.setHart; split <;> rfl
@[simp] theorem State.setHart_timerq (h : Hart) : (s.setHart h).timerq = s.timerq := by unfold State.setHart; split <;> rfl
@[simp] theorem State.setHart_handles (h : Hart) : (s.setHart h).handles = s.handles := by unfold State.setHart; split <;> rfl
@[simp] theorem State.setHart_ports (h : Hart) : (s.setHart h).ports = s.ports := by unfold State.setHart; split <;> rfl
@[simp] theorem State.setHart_laserF (h : Hart) : (s.setHart h).laserF = s.laserF := by unfold State.setHart; split <;> rfl
@[simp] theorem State.setHart_links (h : Hart) : (s.setHart h).links = s.links := by unfold State.setHart; split <;> rfl
@[simp] theorem State.setHart_fns (h : Hart) : (s.setHart h).fns = s.fns := by unfold State.setHart; split <;> rfl
@[simp] theorem State.setHart_act (h : Hart) : (s.setHart h).act = s.act := by unfold State.setHart; split <;> rfl
@[simp] theorem State.setHart_actCnt (h : Hart) : (s.setHart h).actCnt = s.actCnt := by unfold State.setHart; split <;> rfl
@[simp] theorem State.setHart_actWin (h : Hart) : (s.setHart h).actWin = s.actWin := by unfold State.setHart; split <;> rfl
@[simp] theorem State.setHart_asidtab (h : Hart) : (s.setHart h).asidtab = s.asidtab := by unfold State.setHart; split <;> rfl
@[simp] theorem State.setHart_sct (h : Hart) : (s.setHart h).sct = s.sct := by unfold State.setHart; split <;> rfl
@[simp] theorem State.setHart_form (h : Hart) : (s.setHart h).form = s.form := by unfold State.setHart; split <;> rfl
@[simp] theorem State.setHart_feats (h : Hart) : (s.setHart h).feats = s.feats := by unfold State.setHart; split <;> rfl
@[simp] theorem State.setHart_pkgid (h : Hart) : (s.setHart h).pkgid = s.pkgid := by unfold State.setHart; split <;> rfl
@[simp] theorem State.setHart_fwEntry (h : Hart) : (s.setHart h).fwEntry = s.fwEntry := by unfold State.setHart; split <;> rfl
@[simp] theorem State.setHart_podRef (h : Hart) : (s.setHart h).podRef = s.podRef := by unfold State.setHart; split <;> rfl
@[simp] theorem State.setHart_flash (h : Hart) : (s.setHart h).flash = s.flash := by unfold State.setHart; split <;> rfl
@[simp] theorem State.setHart_counter (h : Hart) : (s.setHart h).counter = s.counter := by unfold State.setHart; split <;> rfl
@[simp] theorem State.setHart_secret (h : Hart) : (s.setHart h).secret = s.secret := by unfold State.setHart; split <;> rfl
@[simp] theorem State.setHart_safe (h : Hart) : (s.setHart h).safe = s.safe := by unfold State.setHart; split <;> rfl
@[simp] theorem State.setHart_sleep (h : Hart) : (s.setHart h).sleep = s.sleep := by unfold State.setHart; split <;> rfl
@[simp] theorem State.setHart_stRec (h : Hart) : (s.setHart h).stRec = s.stRec := by unfold State.setHart; split <;> rfl
@[simp] theorem State.setHart_hostOut (h : Hart) : (s.setHart h).hostOut = s.hostOut := by unfold State.setHart; split <;> rfl
@[simp] theorem State.setHart_encs (h : Hart) : (s.setHart h).encs = s.encs := by unfold State.setHart; split <;> rfl
@[simp] theorem State.setHart_kems (h : Hart) : (s.setHart h).kems = s.kems := by unfold State.setHart; split <;> rfl
@[simp] theorem State.setHart_replay (h : Hart) : (s.setHart h).replay = s.replay := by unfold State.setHart; split <;> rfl
@[simp] theorem State.setHart_semRecs (h : Hart) : (s.setHart h).semRecs = s.semRecs := by unfold State.setHart; split <;> rfl
@[simp] theorem State.setHart_boot (h : Hart) : (s.setHart h).boot = s.boot := by unfold State.setHart; split <;> rfl
@[simp] theorem State.atSlot_gt (n : Nat) : (s.atSlot n).gt = s.gt := State.setHart_gt ..
@[simp] theorem State.atSlot_agenda (n : Nat) : (s.atSlot n).agenda = s.agenda := State.setHart_agenda ..
@[simp] theorem State.atSlot_cur (n : Nat) : (s.atSlot n).cur = s.cur := State.setHart_cur ..
@[simp] theorem State.atSlot_arg (n : Nat) : (s.atSlot n).arg = s.arg := State.setHart_arg ..
@[simp] theorem State.atSlot_abort (n : Nat) : (s.atSlot n).abort = s.abort := State.setHart_abort ..
@[simp] theorem State.atSlot_fresh (n : Nat) : (s.atSlot n).fresh = s.fresh := State.setHart_fresh ..
@[simp] theorem State.atSlot_mem (n : Nat) : (s.atSlot n).mem = s.mem := State.setHart_mem ..
@[simp] theorem State.atSlot_tags (n : Nat) : (s.atSlot n).tags = s.tags := State.setHart_tags ..
@[simp] theorem State.atSlot_epochs (n : Nat) : (s.atSlot n).epochs = s.epochs := State.setHart_epochs ..
@[simp] theorem State.atSlot_bad (n : Nat) : (s.atSlot n).bad = s.bad := State.setHart_bad ..
@[simp] theorem State.atSlot_loopq (n : Nat) : (s.atSlot n).loopq = s.loopq := State.setHart_loopq ..
@[simp] theorem State.atSlot_tracks (n : Nat) : (s.atSlot n).tracks = s.tracks := State.setHart_tracks ..
@[simp] theorem State.atSlot_prods (n : Nat) : (s.atSlot n).prods = s.prods := State.setHart_prods ..
@[simp] theorem State.atSlot_cmds (n : Nat) : (s.atSlot n).cmds = s.cmds := State.setHart_cmds ..
@[simp] theorem State.atSlot_gangs (n : Nat) : (s.atSlot n).gangs = s.gangs := State.setHart_gangs ..
@[simp] theorem State.atSlot_slots (n : Nat) : (s.atSlot n).slots = s.slots := State.setHart_slots ..
@[simp] theorem State.atSlot_timerq (n : Nat) : (s.atSlot n).timerq = s.timerq := State.setHart_timerq ..
@[simp] theorem State.atSlot_handles (n : Nat) : (s.atSlot n).handles = s.handles := State.setHart_handles ..
@[simp] theorem State.atSlot_ports (n : Nat) : (s.atSlot n).ports = s.ports := State.setHart_ports ..
@[simp] theorem State.atSlot_laserF (n : Nat) : (s.atSlot n).laserF = s.laserF := State.setHart_laserF ..
@[simp] theorem State.atSlot_links (n : Nat) : (s.atSlot n).links = s.links := State.setHart_links ..
@[simp] theorem State.atSlot_fns (n : Nat) : (s.atSlot n).fns = s.fns := State.setHart_fns ..
@[simp] theorem State.atSlot_act (n : Nat) : (s.atSlot n).act = s.act := State.setHart_act ..
@[simp] theorem State.atSlot_actCnt (n : Nat) : (s.atSlot n).actCnt = s.actCnt := State.setHart_actCnt ..
@[simp] theorem State.atSlot_actWin (n : Nat) : (s.atSlot n).actWin = s.actWin := State.setHart_actWin ..
@[simp] theorem State.atSlot_asidtab (n : Nat) : (s.atSlot n).asidtab = s.asidtab := State.setHart_asidtab ..
@[simp] theorem State.atSlot_sct (n : Nat) : (s.atSlot n).sct = s.sct := State.setHart_sct ..
@[simp] theorem State.atSlot_form (n : Nat) : (s.atSlot n).form = s.form := State.setHart_form ..
@[simp] theorem State.atSlot_feats (n : Nat) : (s.atSlot n).feats = s.feats := State.setHart_feats ..
@[simp] theorem State.atSlot_pkgid (n : Nat) : (s.atSlot n).pkgid = s.pkgid := State.setHart_pkgid ..
@[simp] theorem State.atSlot_fwEntry (n : Nat) : (s.atSlot n).fwEntry = s.fwEntry := State.setHart_fwEntry ..
@[simp] theorem State.atSlot_podRef (n : Nat) : (s.atSlot n).podRef = s.podRef := State.setHart_podRef ..
@[simp] theorem State.atSlot_flash (n : Nat) : (s.atSlot n).flash = s.flash := State.setHart_flash ..
@[simp] theorem State.atSlot_counter (n : Nat) : (s.atSlot n).counter = s.counter := State.setHart_counter ..
@[simp] theorem State.atSlot_secret (n : Nat) : (s.atSlot n).secret = s.secret := State.setHart_secret ..
@[simp] theorem State.atSlot_safe (n : Nat) : (s.atSlot n).safe = s.safe := State.setHart_safe ..
@[simp] theorem State.atSlot_sleep (n : Nat) : (s.atSlot n).sleep = s.sleep := State.setHart_sleep ..
@[simp] theorem State.atSlot_stRec (n : Nat) : (s.atSlot n).stRec = s.stRec := State.setHart_stRec ..
@[simp] theorem State.atSlot_hostOut (n : Nat) : (s.atSlot n).hostOut = s.hostOut := State.setHart_hostOut ..
@[simp] theorem State.atSlot_encs (n : Nat) : (s.atSlot n).encs = s.encs := State.setHart_encs ..
@[simp] theorem State.atSlot_kems (n : Nat) : (s.atSlot n).kems = s.kems := State.setHart_kems ..
@[simp] theorem State.atSlot_replay (n : Nat) : (s.atSlot n).replay = s.replay := State.setHart_replay ..
@[simp] theorem State.atSlot_semRecs (n : Nat) : (s.atSlot n).semRecs = s.semRecs := State.setHart_semRecs ..
@[simp] theorem State.atSlot_boot (n : Nat) : (s.atSlot n).boot = s.boot := State.setHart_boot ..

end Sys2Proof.Machine
end

