-- ==== Sys2Proof/Laws/Maps.lean ====
section
/-! SUPPORT. Laws/Maps.lean: what a sparse map and a list read after a write, and with them every accessor of nested state. -/

namespace Sys2Proof.Machine

/-! ## Maps and lists -/

@[simp] theorem mapGet_mapSet_self {α : Type} (d : α) (m : NMap α) (n : Nat) (x : α) : mapGet d (mapSet m n x) n = x := by
  induction m with
  | nil => simp [mapSet, mapGet]
  | cons a l ih =>
    obtain ⟨k, v⟩ := a
    simp only [mapSet]; split
    · simp [mapGet]
    · split
      · simp [mapGet]
      · simp only [mapGet]; split
        · omega
        · exact ih

theorem mapGet_mapSet_of_ne {α : Type} (d : α) (m : NMap α) (n k : Nat) (x : α) (h : k ≠ n) :
    mapGet d (mapSet m n x) k = mapGet d m k := by
  induction m with
  | nil => simp [mapSet, mapGet, Ne.symm h]
  | cons a l ih =>
    obtain ⟨j, v⟩ := a
    simp only [mapSet]; split
    · subst j; simp [mapGet, Ne.symm h]
    · split
      · simp only [mapGet]; rw [if_neg (Ne.symm h)]
      · simp only [mapGet, ih]

/-- Setting a key twice is setting it once. -/
theorem mapSet_mapSet {α : Type} (m : NMap α) (n : Nat) (x y : α) : mapSet (mapSet m n x) n y = mapSet m n y := by
  induction m with
  | nil => simp [mapSet]
  | cons a l ih => obtain ⟨k, v⟩ := a; simp only [mapSet]; split <;> (try split) <;> simp_all [mapSet] <;> omega

theorem mem_mapSet {α : Type} (m : NMap α) (n : Nat) (x : α) (p : Nat × α) (h : p ∈ mapSet m n x) : p = (n, x) ∨ p ∈ m := by
  induction m with
  | nil => simp only [mapSet, List.mem_singleton] at h; exact .inl h
  | cons a l ih =>
    obtain ⟨k, v⟩ := a
    simp only [mapSet] at h
    split at h
    · rcases List.mem_cons.1 h with h | h
      · exact .inl h
      · exact .inr (List.mem_cons_of_mem _ h)
    · split at h
      · rcases List.mem_cons.1 h with h | h
        · exact .inl h
        · exact .inr h
      · rcases List.mem_cons.1 h with h | h
        · exact .inr (h ▸ List.mem_cons_self)
        · exact (ih h).imp id (List.mem_cons_of_mem _)

/-- What every entry has, a value read has too, when the default has it. -/
theorem mapGet_of_forall {α : Type} (P : α → Prop) (d : α) (m : NMap α) (n : Nat) (hd : P d) (h : ∀ p ∈ m, P p.2) : P (mapGet d m n) := by
  induction m with
  | nil => exact hd
  | cons a l ih =>
    obtain ⟨k, v⟩ := a
    simp only [mapGet]; split
    · exact h _ List.mem_cons_self
    · exact ih (fun p hp => h p (List.mem_cons_of_mem _ hp))

/-- What every entry has, every entry has after a value that has it is set. -/
theorem forall_mapSet {α : Type} (P : α → Prop) (m : NMap α) (n : Nat) (x : α) (hx : P x) (h : ∀ p ∈ m, P p.2) :
    ∀ p ∈ mapSet m n x, P p.2 := fun p hp => by
  rcases mem_mapSet m n x p hp with rfl | hp
  · exact hx
  · exact h p hp

@[simp] theorem length_listSet {α : Type} (l : List α) (n : Nat) (x : α) : (listSet l n x).length = l.length := by
  induction l generalizing n with
  | nil => rfl
  | cons a l ih => cases n <;> simp [listSet, ih]

theorem getD_listSet_self {α : Type} (l : List α) (n : Nat) (x d : α) (h : n < l.length) : (listSet l n x).getD n d = x := by
  induction l generalizing n with
  | nil => simp at h
  | cons a l ih =>
    cases n with
    | zero => rfl
    | succ n => simpa [listSet] using ih n (by simpa using h)

theorem getD_listSet_of_ne {α : Type} (l : List α) (n k : Nat) (x d : α) (h : k ≠ n) : (listSet l n x).getD k d = l.getD k d := by
  induction l generalizing n k with
  | nil => rfl
  | cons a l ih =>
    cases n with
    | zero =>
      cases k with
      | zero => exact absurd rfl h
      | succ k => rfl
    | succ n =>
      cases k with
      | zero => rfl
      | succ k => simpa [listSet] using ih n k (by omega)

/-! ## Accessors -/

@[simp] theorem State.core_setCore (s : State) (c : CoreId) (x : Core) : (s.setCore c x).core c = x := by
  simp [State.setCore, State.core]
@[simp] theorem State.core_updCore (s : State) (c : CoreId) (f : Core → Core) : (s.updCore c f).core c = f (s.core c) :=
  State.core_setCore ..
theorem State.core_setCore_of_ne (s : State) (c d : CoreId) (x : Core) (h : d ≠ c) : (s.setCore c x).core d = s.core d :=
  mapGet_mapSet_of_ne _ _ _ _ _ (fun e => h (Fin.ext e))
theorem State.core_updCore_of_ne (s : State) (c d : CoreId) (f : Core → Core) (h : d ≠ c) : (s.updCore c f).core d = s.core d :=
  State.core_setCore_of_ne _ _ _ _ h

/-- A core has its three contexts. -/
abbrev State.three (s : State) (c : CoreId) : Prop := (s.core c).ctxs.length = 3

theorem State.ctx_setCtx (s : State) (c : CoreId) (k : CtxId) (x : Ctx) (h : s.three c) : (s.setCtx c k x).ctx c k = x := by
  simp only [State.setCtx, State.ctx, State.core_updCore, Core.setCtx, Core.ctx]
  exact getD_listSet_self _ _ _ _ (by have := h; simp only [State.three] at this; omega)
theorem State.ctx_updCtx (s : State) (c : CoreId) (k : CtxId) (f : Ctx → Ctx) (h : s.three c) : (s.updCtx c k f).ctx c k = f (s.ctx c k) :=
  State.ctx_setCtx _ _ _ _ h
theorem State.ctx_setCtx_of_ne (s : State) (c : CoreId) (k j : CtxId) (x : Ctx) (h : j ≠ k) : (s.setCtx c k x).ctx c j = s.ctx c j := by
  simp only [State.setCtx, State.ctx, State.core_updCore, Core.setCtx, Core.ctx]
  exact getD_listSet_of_ne _ _ _ _ _ (fun e => h (Fin.ext e))
theorem State.ctx_setCtx_of_core_ne (s : State) (c d : CoreId) (k j : CtxId) (x : Ctx) (h : d ≠ c) : (s.setCtx c k x).ctx d j = s.ctx d j := by
  simp only [State.setCtx, State.ctx]; rw [State.core_updCore_of_ne _ _ _ _ h]
theorem State.core_setCtx (s : State) (c : CoreId) (k : CtxId) (x : Ctx) :
    (s.setCtx c k x).core c = { s.core c with ctxs := listSet (s.core c).ctxs k.val x } := by
  simp only [State.setCtx, State.core_updCore, Core.setCtx]
theorem State.core_updCtx (s : State) (c : CoreId) (k : CtxId) (f : Ctx → Ctx) :
    (s.updCtx c k f).core c = { s.core c with ctxs := listSet (s.core c).ctxs k.val (f (s.ctx c k)) } := State.core_setCtx ..
theorem State.three_setCtx (s : State) (c d : CoreId) (k : CtxId) (x : Ctx) (h : s.three d) : (s.setCtx c k x).three d := by
  by_cases e : d = c
  · subst e; simpa [State.three, State.core_setCtx] using h
  · simpa [State.three, State.setCtx, State.core_updCore_of_ne _ _ _ _ e] using h

@[simp] theorem State.tile_setTile (s : State) (t : TileId) (x : Tile) : (s.setTile t x).tile t = x := by
  simp [State.setTile, State.tile]
@[simp] theorem State.tile_updTile (s : State) (t : TileId) (f : Tile → Tile) : (s.updTile t f).tile t = f (s.tile t) :=
  State.tile_setTile ..
theorem State.tile_setTile_of_ne (s : State) (t u : TileId) (x : Tile) (h : u ≠ t) : (s.setTile t x).tile u = s.tile u :=
  mapGet_mapSet_of_ne _ _ _ _ _ (fun e => h (Fin.ext e))
@[simp] theorem State.cell_setCell (s : State) (t : TileId) (x : Cell) : (s.setCell t x).cell t = x := by
  simp [State.setCell, State.cell]
@[simp] theorem State.cell_updCell (s : State) (t : TileId) (f : Cell → Cell) : (s.updCell t f).cell t = f (s.cell t) :=
  State.cell_setCell ..
@[simp] theorem State.tile_updCell (s : State) (t : TileId) (f : Cell → Cell) :
    (s.updCell t f).tile t = { s.tile t with cell := f (s.cell t) } := by simp [State.updCell, State.setCell]
@[simp] theorem State.cell_updTile (s : State) (t : TileId) (f : Tile → Tile) : (s.updTile t f).cell t = (f (s.tile t)).cell := by
  simp [State.cell]
@[simp] theorem State.hnd_setHnd (s : State) (h : Handle) (x : Hnd) : (s.setHnd h x).hnd h = x := by
  simp [State.setHnd, State.hnd]
theorem State.setHnd_setHnd (s : State) (h : Handle) (x y : Hnd) : (s.setHnd h x).setHnd h y = s.setHnd h y := by
  simp [State.setHnd, mapSet_mapSet]
@[simp] theorem State.hnd_updHnd (s : State) (h : Handle) (f : Hnd → Hnd) : (s.updHnd h f).hnd h = f (s.hnd h) := State.hnd_setHnd ..
@[simp] theorem State.slot_setSlot (s : State) (n : SlotId) (x : Slot) : (s.setSlot n x).slot n = x := by
  simp [State.setSlot, State.slot]
@[simp] theorem State.slot_updSlot (s : State) (n : SlotId) (f : Slot → Slot) : (s.updSlot n f).slot n = f (s.slot n) :=
  State.slot_setSlot ..
@[simp] theorem State.fn_setFn (s : State) (n : Nat) (x : Fn) : (s.setFn n x).fn n = x := by simp [State.setFn, State.fn]
@[simp] theorem State.fn_updFn (s : State) (n : Nat) (f : Fn → Fn) : (s.updFn n f).fn n = f (s.fn n) := State.fn_setFn ..
@[simp] theorem State.port_setPort (s : State) (p : Nat) (x : Port) : (s.setPort p x).port p = x := by
  simp [State.setPort, State.port]

/-! ## The registers in execution -/

theorem State.setHart_core (s : State) (c : CoreId) (k : CtxId) (h : Hart) (e : s.cur = .core c k) :
    s.setHart h = s.setCtx c k { s.ctx c k with hart := h } := by simp only [State.setHart, e]; rfl
theorem State.setHart_cell (s : State) (t : TileId) (h : Hart) (e : s.cur = .cell t) :
    s.setHart h = s.setCell t { s.cell t with hart := h } := by simp only [State.setHart, e]; rfl
theorem State.hart_setHart_core (s : State) (c : CoreId) (k : CtxId) (h : Hart) (e : s.cur = .core c k) (t : s.three c) :
    (s.setHart h).hart = h := by
  rw [s.setHart_core c k h e]
  simp only [State.hart, State.setCtx_cur, e, State.ctx_setCtx _ _ _ _ t]
theorem State.hart_setHart_cell (s : State) (t : TileId) (h : Hart) (e : s.cur = .cell t) : (s.setHart h).hart = h := by
  rw [s.setHart_cell t h e]; simp only [State.hart, State.setCell_cur, e, State.cell_setCell]

end Sys2Proof.Machine
end

