-- ==== Sys2Proof/Laws/Memory.lean ====
section
/-! SUPPORT. Laws/Memory.lean: the byte memory: what a byte reads after a write, and that every change of memory keeps its canonical
form. -/

namespace Sys2Proof.Machine

/-! ## The canonical form -/

theorem memWfFrom_le (m : List Host.Cell) (a b : Nat) (h : a ≤ b) (w : memWfFrom b m = true) : memWfFrom a m = true := by
  cases m with
  | nil => rfl
  | cons p l =>
    obtain ⟨k, v⟩ := p
    simp only [memWfFrom, Bool.and_eq_true, decide_eq_true_eq] at w ⊢
    exact ⟨⟨by omega, w.1.2⟩, w.2⟩

theorem memWfFrom_mapDel (m : List Host.Cell) (k lo : Nat) (w : memWfFrom lo m = true) : memWfFrom lo (mapDel m k) = true := by
  induction m generalizing lo with
  | nil => rfl
  | cons p l ih =>
    obtain ⟨j, v⟩ := p
    simp only [memWfFrom, Bool.and_eq_true, decide_eq_true_eq] at w
    simp only [mapDel]
    split
    · exact ih lo (memWfFrom_le _ _ _ (by omega) w.2)
    · simp only [memWfFrom, Bool.and_eq_true, decide_eq_true_eq]
      exact ⟨w.1, ih _ w.2⟩

theorem memWfFrom_mapSet (m : List Host.Cell) (k lo : Nat) (b : Byte) (hb : b ≠ 0) (hk : lo ≤ k) (w : memWfFrom lo m = true) :
    memWfFrom lo (mapSet m k b) = true := by
  have hb : (b != 0) = true := by simpa using hb
  induction m generalizing lo with
  | nil => simp only [mapSet, memWfFrom, hk, hb, decide_true, Bool.and_self]
  | cons p l ih =>
    obtain ⟨j, v⟩ := p
    simp only [memWfFrom, Bool.and_eq_true, decide_eq_true_eq] at w
    simp only [mapSet]
    split
    · subst j; simp only [memWfFrom, hk, hb, w.2, decide_true, Bool.and_self]
    · split
      · simp only [memWfFrom, Bool.and_eq_true, decide_eq_true_eq]
        exact ⟨⟨hk, hb⟩, ⟨by omega, w.1.2⟩, w.2⟩
      · simp only [memWfFrom, Bool.and_eq_true, decide_eq_true_eq]
        exact ⟨w.1, ih _ (by omega) w.2⟩

theorem memWf_memSet (m : List Host.Cell) (k : Nat) (b : Byte) (w : memWf m = true) : memWf (memSet m k b) = true := by
  simp only [memSet]; split
  · exact memWfFrom_mapDel _ _ _ w
  · exact memWfFrom_mapSet _ _ _ _ ‹_› (Nat.zero_le _) w

theorem memWf_memPut (m : List Host.Cell) (k : Nat) (bs : List Byte) (w : memWf m = true) : memWf (memPut m k bs) = true := by
  induction bs generalizing m k with
  | nil => exact w
  | cons b l ih => exact ih _ _ (memWf_memSet _ _ _ w)

theorem memWfFrom_filter (m : List Host.Cell) (p : Host.Cell → Bool) (lo : Nat) (w : memWfFrom lo m = true) :
    memWfFrom lo (m.filter p) = true := by
  induction m generalizing lo with
  | nil => rfl
  | cons q l ih =>
    obtain ⟨k, v⟩ := q
    simp only [memWfFrom, Bool.and_eq_true, decide_eq_true_eq] at w
    simp only [List.filter_cons]
    split
    · simp only [memWfFrom, Bool.and_eq_true, decide_eq_true_eq]; exact ⟨w.1, ih _ w.2⟩
    · exact ih lo (memWfFrom_le _ _ _ (by omega) w.2)

theorem memWf_filter (m : List Host.Cell) (p : Host.Cell → Bool) (w : memWf m = true) : memWf (m.filter p) = true :=
  memWfFrom_filter _ _ _ w

theorem memWf_mapCut (m : List Host.Cell) (lo hi : Nat) (w : memWf m = true) : memWf (mapCut lo hi m) = true := memWf_filter _ _ w

/-! ## Reading after writing -/

theorem mapGet_lt (m : List Host.Cell) (k lo : Nat) (h : k < lo) (w : memWfFrom lo m = true) : mapGet 0 m k = 0 := by
  induction m generalizing lo with
  | nil => rfl
  | cons p l ih =>
    obtain ⟨j, v⟩ := p
    simp only [memWfFrom, Bool.and_eq_true, decide_eq_true_eq] at w
    simp only [mapGet]; rw [if_neg (by omega)]
    exact ih _ (by omega) w.2

theorem mapGet_mapDel_self (m : List Host.Cell) (k : Nat) : mapGet 0 (mapDel m k) k = 0 := by
  induction m with
  | nil => rfl
  | cons p l ih =>
    obtain ⟨j, v⟩ := p
    simp only [mapDel]; split
    · exact ih
    · simp only [mapGet]; rw [if_neg ‹_›]; exact ih

theorem mapGet_mapDel_of_ne {α : Type} (d : α) (m : NMap α) (k a : Nat) (h : a ≠ k) : mapGet d (mapDel m k) a = mapGet d m a := by
  induction m with
  | nil => rfl
  | cons p l ih =>
    obtain ⟨j, v⟩ := p
    simp only [mapDel]; split
    · subst j; simp only [mapGet]; rw [if_neg (Ne.symm h)]; exact ih
    · simp only [mapGet, ih]

/-- A byte read where it was written is the byte written. -/
@[simp] theorem memGet_memSet_self (m : List Host.Cell) (k : Nat) (b : Byte) : memGet (memSet m k b) k = b := by
  simp only [memGet, memSet]; split
  · rw [mapGet_mapDel_self]; exact (‹b = 0›).symm
  · exact mapGet_mapSet_self ..

/-- Every other byte reads as before. -/
theorem memGet_memSet_of_ne (m : List Host.Cell) (k a : Nat) (b : Byte) (h : a ≠ k) : memGet (memSet m k b) a = memGet m a := by
  simp only [memGet, memSet]; split
  · exact mapGet_mapDel_of_ne _ _ _ _ h
  · exact mapGet_mapSet_of_ne _ _ _ _ _ h

theorem memGet_memPut_of_lt (m : List Host.Cell) (k a : Nat) (bs : List Byte) (h : a < k) : memGet (memPut m k bs) a = memGet m a := by
  induction bs generalizing m k with
  | nil => rfl
  | cons b l ih => rw [memPut, ih _ _ (by omega)]; exact memGet_memSet_of_ne _ _ _ _ (by omega)

theorem memGet_memPut_of_ge (m : List Host.Cell) (k a : Nat) (bs : List Byte) (h : k + bs.length ≤ a) :
    memGet (memPut m k bs) a = memGet m a := by
  induction bs generalizing m k with
  | nil => rfl
  | cons b l ih =>
    rw [memPut, ih _ _ (by simp at h; omega)]; exact memGet_memSet_of_ne _ _ _ _ (by simp at h; omega)

/-- Bytes written one after another read back. -/
theorem memGet_memPut (m : List Host.Cell) (k i : Nat) (bs : List Byte) (h : i < bs.length) : memGet (memPut m k bs) (k + i) = bs[i] := by
  induction bs generalizing m k i with
  | nil => simp at h
  | cons b l ih =>
    cases i with
    | zero => rw [memPut, memGet_memPut_of_lt _ _ _ _ (by omega)]; exact memGet_memSet_self ..
    | succ i =>
      have := ih (memSet m k b) (k + 1) i (by simpa using h)
      rw [memPut]; simpa [Nat.add_assoc, Nat.add_comm 1 i] using this

@[simp] theorem State.putRaw_mem (s : State) (k : Nat) (bs : List Byte) : (s.putRaw k bs).mem = memPut s.mem k bs := rfl

end Sys2Proof.Machine
end

