-- ==== Sys2Proof/Laws/Step.lean ====
section
/-! SUPPORT. Laws/Step.lean: what a step does with the act that stands first, and what issuing a bundle comes to. -/

namespace Sys2Proof.Machine

@[simp] theorem Out.then_next (s : State) (f : State → Out) : Out.then (.next s) f = f s := rfl

/-- A step is the act that stands first. -/
theorem step_act (s : State) (a : Act) (l : List Act) (h : s.agenda = a :: l) : step s = State.run { s with agenda := l } a := by
  simp only [step, State.advanceAct, h]

/-- With no act left a step lists those of the gt. -/
theorem step_refill (s : State) (h : s.agenda = []) : step s = .next s.refill := by
  simp only [step, State.advanceAct, h]

/-- A core with a task that waits for nothing takes its clock. -/
theorem coreAct_clock (s : State) (c : CoreId) (k : CtxId) (h1 : (s.core c).cycled = false) (h2 : (s.core c).halted = false)
    (h3 : tileOn s (tileOf c) = true) (h4 : (s.core c).run = some k) (h5 : (s.ctx c k).stalled = false) :
    s.coreAct c = (s.updCore c (fun y => { y with cycled := true })).clock c := by
  have e : clocks s c = true := by simp only [clocks, h1, h2, h3, Bool.not_false, Bool.and_self]
  simp only [State.coreAct, e, h4, h5, if_true, Bool.false_eq_true, if_false]

/-- The state in which the results of a clock land: the region's first bundle has been prepared. -/
def State.clockBegin (s : State) (c : CoreId) (k : CtxId) : State :=
  (s.waitEnd c).updCtx c k (fun x => x.prepared ((s.waitEnd c).core c).ic)

/-- The running context issues when its fetch misses nothing, its results have landed and nothing holds it. -/
theorem clock_issue (s : State) (c : CoreId) (k : CtxId) (h1 : coreWaits s c = false) (h2 : ((s.waitEnd c).core c).run = some k)
    (h3 : mayIssue (s.waitEnd c) c k = true) (h4 : fetchMiss (s.waitEnd c) c k = none)
    (h5 : mayIssue ((s.clockBegin c k).landCore c) c k = true) :
    s.clock c = ((s.clockBegin c k).landCore c).issueCore c k := by
  simp only [State.clockBegin] at h5 ⊢
  simp only [State.clock, h1, h2, h3, h4, h5, State.landAndIssue, Bool.false_eq_true, if_false, if_true]

/-- The state in which a core's bundle is fetched. -/
def State.coreBegin (s : State) (c : CoreId) (k : CtxId) : State :=
  { s.updCtx c k (fun y => { y with hart := y.hart.begin (s.core c).ic }) with cur := .core c k, abort := false }

/-- A bundle whose words are fetched and decoded runs, and the core goes on. -/
theorem issueCore_ok (s : State) (c : CoreId) (k : CtxId) (ws : List Nat) (es : List TlbEnt) (b : Bundle)
    (h1 : fetchCore (s.coreBegin c k) c (s.ctx c k).asid.toNat (s.ctx c k).hart.pc = .ok (ws, es))
    (h2 : fetchBad ((s.coreBegin c k).fillTlbs (tileOf c) (some c) es) c (s.ctx c k).asid.toNat (s.ctx c k).hart.pc (4 * ws.length) = false)
    (h3 : decodeBundle false ws = .ok b) :
    s.issueCore c k = Out.then
      ((((s.coreBegin c k).fillTlbs (tileOf c) (some c) es).updCtx c k (fun y => { y with hart := y.hart.decoded b })).runCore c k b)
      (fun u => .next (u.finishCore (s.coreBegin c k) c k)) := by
  simp only [State.coreBegin] at h1 h2 ⊢
  simp only [State.issueCore, h1, h2, h3, Bool.false_eq_true, if_false]

/-- A bundle of a breakpoint alone. -/
theorem runCore_brk (s : State) (c : CoreId) (k : CtxId) (b : Bundle) (n : Nat) (h : b.syls = [(n, .brk)])
    (h1 : (s.ctx c k).brkSkip = false) : s.runCore c k b = exec .brk (s.atSlot n) := by
  simp [State.runCore, h, h1]

/-- A bundle of one syllable that breaks no rule of its place. -/
theorem runCore_one (s : State) (c : CoreId) (k : CtxId) (b : Bundle) (n : Nat) (i : Instr) (h : b.syls = [(n, i)]) (h0 : i ≠ .brk)
    (h1 : bpMatch (s.tile (tileOf c)).dbg (s.core c) (s.ctx c k).hart.bpc = false) (h2 : shadowSlot (s.ctx c k).hart (s.ctx c k).vp b = none)
    (h3 : isRgn i = true ∨ (s.ctx c k).reg.cnt < 2 ^ (8 + (s.ctx c k).reg.blim)) :
    s.runCore c k b = runBundle
      ((s.updCtx c k (fun x => { x with brkSkip := false })).updCtx c k (fun x => x.enter (s.core c).ic (isRgn i))) b := by
  have e : (i == Instr.brk) = false := by simpa using h0
  have e1 : (!isRgn i && decide (2 ^ (8 + (s.ctx c k).reg.blim) ≤ (s.ctx c k).reg.cnt)) = false := by
    rcases h3 with h | h
    · simp [h]
    · simp [Nat.not_le.mpr h]
  simp only [State.runCore, h, List.find?, e, h1, h2, List.any, Bool.or_false, Bool.and_false, e1]
  cases (s.ctx c k).brkSkip <;> rfl

/-- Running one syllable. -/
theorem runSyls_one (s : State) (n : Nat) (i : Instr) : runSyls none s [(n, i)] = exec i (s.atSlot n) := by
  simp only [runSyls]
  split
  · next h => rw [h]; split <;> rfl
  · rfl

/-- The bundle of one syllable that acts in its slot. -/
theorem runBundle_one (s : State) (b : Bundle) (n : Nat) (i : Instr) (h : b.syls = [(n, i)]) (h0 : i ≠ .brk) (h1 : atEnd i = false) :
    runBundle s b = Out.then (exec i (s.atSlot n)) (fun u => .next u.applySrs) := by
  have e : isTrap i = false := by simp only [atEnd, Bool.or_eq_false_iff] at h1; exact h1.2
  have e2 : (i != Instr.brk) = true := by simpa using h0
  have e3 : b.syls.find? (fun p => isTrap p.2) = none := by simp [h, e]
  have e4 : b.syls.filter (fun p => isRgn p.2) ++ b.syls.filter (fun p => !isRgn p.2 && !atEnd p.2 && p.2 != .brk) = [(n, i)] := by
    cases hr : isRgn i <;> simp [h, hr, h1, e2]
  have e5 : b.syls.filter (fun p => atEnd p.2) = [] := by simp [h, h1]
  simp only [runBundle, e3, e4, e5, runSyls_one]
  cases exec i (s.atSlot n) <;> simp [Out.then, runSyls, State.postpone]

/-- The bundle of one syllable that acts at its end. -/
theorem runBundle_end (s : State) (b : Bundle) (n : Nat) (i : Instr) (h : b.syls = [(n, i)]) (h1 : atEnd i = true)
    (h2 : isRgn i = false) (h3 : s.applySrs.abort = false) (h4 : s.applySrs.stalls = false) :
    runBundle s b = exec i (s.applySrs.atSlot n) := by
  have e4 : b.syls.filter (fun p => isRgn p.2) ++ b.syls.filter (fun p => !isRgn p.2 && !atEnd p.2 && p.2 != .brk) = [] := by
    simp [h, h1, h2]
  have e5 : b.syls.filter (fun p => atEnd p.2) = [(n, i)] := by simp [h, h1]
  simp only [runBundle, e4, e5, runSyls, Out.then_next, h3, h4, runSyls_one]
  rfl

/-- The writes of special registers raise no fault. -/
@[simp] theorem applySrs_abort (s : State) : s.applySrs.abort = s.abort := by
  unfold State.applySrs; split <;> rfl

/-- A sequencer that is free executes the micro-op at its counter. -/
theorem seqAct_exec (s : State) (c : CoreId) (r : Routine) (i : Instr) (h1 : (s.core c).rt = some r) (h2 : (s.core c).halted = false)
    (h3 : r.busy ≤ s.gt) (h4 : r.ended = false) (h5 : r.cmd.isCall = true) (h6 : tileOn s (tileOf c) = true)
    (h7 : r.pc < (s.ctx c r.cmd.ctx).mslen) (h8 : decodeMicro (windowWord (s.core c) (s.ctx c r.cmd.ctx) r.pc).toNat = some i) :
    s.seqAct c = exec i { s with cur := .seq c, abort := false } := by
  simp only [State.seqAct, h1, h2, h4, h5, h6, h8, Nat.not_lt.mpr h3, Nat.not_le.mpr h7]
  simp

/-- A program slot that runs reads its next step and executes it. -/
theorem slotAct_exec (s : State) (n : SlotId) (g : List Seg) (es : List TlbEnt) (i : Instr) (h1 : s.safe = false)
    (h2 : (s.slot n).st = 1) (h3 : (s.slot n).cycled = false) (h4 : (s.slot n).full = none)
    (h5 : xlateSegs (s.slotBegin n (s.slot n).step) true (s.slot n).tile none (s.slot n).asid .read 2 ((s.slot n).addrOf (s.slot n).step) 16 = .ok (g, es))
    (h6 : decodeStep (leNat ((s.slotBegin n (s.slot n).step).segBytes g)) = .ok i) :
    s.slotAct n = exec i ((s.slotBegin n (s.slot n).step).fillTlbs (s.slot n).tile none es) := by
  simp only [State.slotAct, h1, h2, h3, h4, h5, h6]
  rfl

/-- With entry disabled a Cellarer takes no event. -/
theorem eventEntry_off (s : State) (t : TileId) (h1 : s.cur = .cell t) (h2 : (s.cell t).eie = false) : execEventEntry s = .next s := by
  have e : s.argTile = t := by simp [State.argTile, h1]
  simp [execEventEntry, e, h2]

/-- A Cellarer that waits for nothing issues: after the other operations of the gt, if its bundle samples semaphores, and before them
if not. -/
theorem cellAct_issue (s : State) (t : TileId) (late : Bool) (h1 : (s.cell t).cycled = false) (h2 : (s.cell t).run = true)
    (h3 : (s.cell t).stall = none) (h3' : (s.cell t).stallK = none) (h4 : tileOn s t = true)
    (h5 : (s.cell t).ticked.waits s.gt = false)
    (h6 : (s.cell t).hart.gapTo ≤ (s.cell t).ticked.hart.ic)
    (h7 : (s.cell t).ticked.badDue s.gt = [])
    (h8 : cellSamples (s.setCell t
      ((s.cell t).ticked.land s.gt)) t = late) :
    s.cellAct t late = ((s.setCell t
      ((s.cell t).ticked.land s.gt)).updCell t Cell.enter).issueCell t := by
  have e : s.cellStall t late = s := by simp [State.cellStall, h3, h3']
  have e1 : ((s.cell t).cycled || !(s.cell t).run || (s.cell t).stall.isSome || (s.cell t).stalled && late && (none : Option (Stall × Nat)).isNone ||
      !(tileOn s t)) = false := by
    simp [h1, h2, h3, h3', h4, Cell.stalled]
  unfold State.cellAct
  have e2 : ¬ (s.cell t).ticked.hart.ic < (s.cell t).ticked.hart.gapTo := Nat.not_lt.mpr h6
  simp only [e, e1, h3', h5, h7, h8, lowSlot, e2, Bool.false_eq_true, if_false, bne_self_eq_false]

/-- A Cellarer's bundle of one syllable that breaks no rule of its place. -/
theorem runCell_one (s : State) (t : TileId) (b : Bundle) (n : Nat) (i : Instr) (h : b.syls = [(n, i)]) (h0 : i ≠ .brk)
    (h2 : shadowSlot (s.cell t).hart 0 b = none) : s.runCell t b = runBundle s b := by
  have e : (i == Instr.brk) = false := by simpa using h0
  simp only [State.runCell, h, List.find?, e, h2]

/-- A command whose producers are done runs its next unit. -/
theorem runCmd_exec (s : State) (who : Cur) (d : Cmd) (i : Instr) (h0 : gated s who = false)
    (h1 : ({ s with cur := who, abort := false } : State).curCmd = some d)
    (h2 : ({ s with cur := who, abort := false } : State).prodsDone d.waits = true) (h3 : decodeCmd (leNat d.bytes) = some i) :
    s.runCmd who = exec i { s with cur := who, abort := false } := by
  simp only [State.runCmd, h0, h1, h2, h3, Bool.false_eq_true, if_false, if_true]

end Sys2Proof.Machine
end

