-- ==== Sys2Proof/Tests/Slice0.lean ====
section
/-! SUPPORT. Tests/Slice0.lean: ill-formed terms that WellFormed refuses, words of the encoding tables, small steps, and for every
statement with hypotheses states and operands that meet them. -/

namespace Sys2Proof.Tests

set_option Elab.async false

open Sys2Proof.Machine Sys2Proof.Claims

/-! ## Small states -/

/-- Core 0 alone, its context 0 in execution. -/
def task (x : Ctx) : State :=
  { State.reset with cur := .core 0 0, cores := [(0, { ctxs := [{ x with st := .running }, {}, {}], run := some 0 })] }

/-- A task with these registers. -/
def taskH (h : Hart) : State := task { hart := h }

/-- The Cellarer of tile 0 in execution. -/
def cellar (x : Cell) : State := { State.reset with cur := .cell 0, tiles := [(0, { cell := x })] }

/-- A page of ASID 0 that maps the first megabytes of virtual addresses onto the HBM of tile 0, readable, writable, executable. -/
def page : TlbEnt := { asid := 0, va := 0, size := 2 ^ 21, pa := 0, key := 0, r := true, w := true, x := true }

/-- The same with that page in the core's TLB and in the tile's. -/
def paged (x : Ctx) : State :=
  { State.reset with
    cur := .core 0 0, asidtab := 1, tiles := [(0, { tlb := [page] })],
    cores := [(0, { ctxs := [{ x with st := .running }, {}, {}], run := some 0, tlb := [page] })] }

/-- A gang 0 of the context 0 of core 0. -/
def gang0 : Gang :=
  { id := 0, home := 0, lq := 4, src := 0, pkt := [0, 0, 0, 0, 0, 0, 0, 0], eff := 1, st := .running, since := 0, order := 0,
    mems := [{ core := 0, place := 0, task := 0, entry := 0, st := .resident 0 }], started := true }

/-- Results in flight that a commit would leave. -/
def flights (n : Nat) : List Pend :=
  List.replicate n { id := 0, ic := 100, slot := 3, pc := 0, dst := .s 1, src := .wait 0 .img }

/-! ## States that meet the hypotheses -/

theorem witness_SpecialRegisters : (task {}).cur = .core 0 0 := rfl

theorem witness_ScalarResultsLandAndAreRead :
    (let p : Pend := { id := 0, ic := 4, slot := 3, pc := 0, dst := .s 5, src := .have (.w 7) }
     ({ hart := { pend := [p] } } : Ctx).hart.pend = [p] ∧ p.dst = .s 5 ∧ p.src = .have (.w 7) ∧ p.late = false ∧ p.ic ≤ 4) ∧
    (let p : Pend := { id := 0, ic := 0, slot := 3, pc := 0, dst := .s 0, src := .have (.w 7) }
     ({ hart := { pend := [p] } } : Ctx).hart.pend = [p] ∧ p.dst = .s 0 ∧ p.src = .have (.w 7) ∧ p.late = false ∧ p.ic ≤ 0) ∧
    (let p : Pend := { id := 0, ic := 5, slot := 3, pc := 0, dst := .s 5, src := .have (.w 7) }
     ∀ q ∈ ({ hart := { pend := [p] } } : Ctx).hart.pend, q.late = false ∧ 4 < q.ic) ∧
    ((63 : Reg) ≠ 0 ∧ (1 : Reg) ≠ 63 ∧ (15 : BReg) ≠ 0 ∧ (1 : BReg) ≠ 15) := by decide +kernel

theorem witness_BranchesRedirectAfterThreeBundles :
    (task {}).cur = .core 0 0 ∧ linkOf (task {}) = none ∧
    linkOf ((paged { hart := { blen := 4 } }).putRaw 4 [0, 0, 0, 0x80, 0, 0, 0, 0x80, 0, 0, 0, 0x80]) = some 16 ∧
    ({ redir := some (4, 0x100), bpc := 2 ^ 56 - 4 } : Hart).redir = some (4, 0x100) ∧ 2 ^ 56 - 4 < 2 ^ 56 := by decide +kernel

theorem witness_WaitingSyllables :
    ({ task {} with gangs := [gang0] } : State).cur = .core 0 0 ∧
    ({ task {} with gangs := [gang0] } : State).gang (({ task {} with gangs := [gang0] } : State).ctx 0 0).gang.toNat = some gang0 := by
  decide +kernel

theorem witness_RegionsOpenAndClose :
    (let s := task { reg := { fresh := true, anon := false } }
     s.cur = .core 0 0 ∧ (s.core 0).ctxs.length = 3 ∧ s.hart.redir = none ∧ (s.ctx 0 0).rerun = none ∧
     (s.ctx 0 0).stopAtCommit = false ∧ (s.ctx 0 0).reg.yield = false ∧ strAfter s 0 0 ≤ 64 ∧ (s.ctx 0 0).reg.fresh = true ∧
     (s.ctx 0 0).reg.anon = false) ∧
    (let s := task { reg := { fresh := false }, hart := { pend := flights 64 }, reqs := [{ id := 0, segs := [] }] }
     s.hart.redir = none ∧ (s.ctx 0 0).rerun = none ∧ (s.ctx 0 0).stopAtCommit = false ∧ (s.ctx 0 0).reg.yield = false ∧
     strAfter s 0 0 = 64 ∧ (s.ctx 0 0).reg.fresh = false) ∧
    (let s := task { reg := { anon := true }, hart := { pend := flights 65 }, reqs := [{ id := 0, segs := [] }] }
     s.hart.redir = none ∧ (s.ctx 0 0).rerun = none ∧ (s.ctx 0 0).stopAtCommit = false ∧ (s.ctx 0 0).reg.yield = false ∧
     64 < strAfter s 0 0 ∧ (s.ctx 0 0).reg.anon = true) ∧
    (let s := taskH { redir := some (3, 0) }
     s.cur = .core 0 0 ∧ (s.core 0).ctxs.length = 3 ∧ s.hart.redir = some (3, 0) ∧ 3 < 4) ∧
    (taskH { redir := some (4, 0) }).hart.redir = some (4, 0) := by decide +kernel

def rerun0 : Rerun := { second := true, crc := 0, aCyc := 0, aCrc := 0, errPc := 0, errSl := 0 }

/-- A region in a rerun pair: its first attempt, and its second, which agrees with the first or differs from it. -/
theorem witness_RegionsOpenAndClose_pairs :
    (let r : Rerun := { rerun0 with second := false }
     let s := task { rerun := some r }
     (s.ctx 0 0).rerun = some r ∧ r.second = false ∧ strAfter s 0 0 ≤ 64) ∧
    (let r : Rerun := { rerun0 with aCyc := 7 }
     let s := task { rerun := some r }
     (s.ctx 0 0).rerun = some r ∧ r.second = true ∧ ¬ r.aCyc = (s.core 0).ic - (s.ctx 0 0).reg.openIc) ∧
    (let r : Rerun := { rerun0 with aCrc := rerun0.flush.crc }
     let s := task { rerun := some r }
     (s.ctx 0 0).rerun = some r ∧ r.second = true ∧ r.aCyc = (s.core 0).ic - (s.ctx 0 0).reg.openIc ∧ r.aCrc = r.flush.crc) ∧
    (let s : State := { task { reg := { yield := true } } with gangs := [{ gang0 with id := 1, st := .ready }] }
     (s.ctx 0 0).reg.yield = true ∧ ((task { stopAtCommit := true }).ctx 0 0).stopAtCommit = true) := by decide +kernel

theorem witness_ScalarFloatResults :
    nanP 0x7FC00001 = true ∧ infP 0xFF800000 = true ∧ infP 0x7F800000 = true ∧ finP 0x3F800000 = true ∧ mag32 0x80000000 = 0 ∧
    mag32 1 = 1 ∧ val32 0xBF800000 = -2 ^ 149 := by decide +kernel

theorem witness_ExceptionSyllables :
    (task {}).cur = .core 0 0 ∧ ((task {}).ctx 0 0).brkSkip = false ∧ ((task { brkSkip := true }).ctx 0 0).brkSkip = true ∧
    ((task {}).core 0).ctxs.length = 3 := by decide +kernel

theorem witness_FaultsRestoreOrRetireARegion :
    ((task {}).ctx 0 0).rerun = none ∧ ({ code := 0x07 } : Trap).code = 0x07 ∧ ({ code := 0x04 } : Trap).code = 0x04 ∧
    ({ code := 0x14 } : Trap).code = 0x14 ∧ ({ code := 0x09 } : Trap).code = 0x09 ∧ ({ code := 0x15 } : Trap).code = 0x15 ∧
    ((task {}).core 0).ctxs.length = 3 ∧ ((task { reg := { rrc := 7 } }).ctx 0 0).reg.rrc ≠ 8 ∧
    ((task { reg := { rrc := 8 } }).ctx 0 0).reg.rrc = 8 := by decide +kernel

/-- The fields of a load and of a store through s1 with no offset, and of a store through s1 of s2. -/
def ldF : LdF := { base := 1, off := 0, trk := 0, sp := false, wt := false, lat := 0 }
def stF : StF := { base := 1, off := 0, trk := 15 }

/-- A context that owns the whole Loop and whose s1 holds an address. -/
def ctxAt (a : Word) : Ctx := { hart := { s := [(1, a)] }, fpUnit := 0, fpCnt := 32, reg := { caskmax := 1 } }

theorem witness_LoopLoadsIssue_scalar :
    (let x := (task (ctxAt (0xFE00000000000000 + 0x1FFFF8))).ctx 0 0
     x.hart.sPois ldF.base = false ∧ (x.hart.rs ldF.base + ldF.off.signExtend 64).toNat = 0xFE * 2 ^ 56 + 0x1FFFF8 ∧
     0x1FFFF8 < 2 ^ 21 ∧ (.ld64 5 ldF, 8, true) ∈ scalarLoads 5 ldF ∧ 0x1FFFF8 % 8 = 0 ∧ 0x1FFFF8 + 8 ≤ 2 ^ 21 ∧
     x.fpUnit * 65536 ≤ 0x1FFFF8 ∧ 0x1FFFF8 + 8 ≤ (x.fpUnit + x.fpCnt) * 65536) ∧ (task {}).cur = .core 0 0 := by decide +kernel

theorem witness_GlobalScalarLoadsIssue :
    (paged (ctxAt 0x1000)).cur = .core 0 0 ∧
    (let x := (paged (ctxAt 0x1000)).ctx 0 0
     x.hart.sPois ldF.base = false ∧ (x.hart.rs ldF.base + ldF.off.signExtend 64).toNat = 0x1000 ∧ 0x1000 < 2 ^ 56 ∧
     (.ld32 5 ldF, 4, true) ∈ scalarLoads 5 ldF ∧ 0x1000 % 4 = 0 ∧
     (xlateSegs (paged (ctxAt 0x1000)) true 0 (some 0) 0 .read 2 0x1000 4).toOption = some ([{ key := 0x1000, len := 4 }], [page])) ∧
    (xlateSegs (task (ctxAt 0x1000)) true 0 (some 0) 0 .read 2 0x1000 4).toOption = none := by decide +kernel

theorem witness_ScalarAccessFaults :
    ((taskH { sp := 2 }).ctx 0 0).hart.sPois ldF.base = true ∧
    (let x := (task (ctxAt 0x0100000000000000)).ctx 0 0
     let a := (x.hart.rs ldF.base + ldF.off.signExtend 64).toNat
     x.hart.sPois ldF.base = false ∧ ldF.sp = false ∧ a / 2 ^ 56 ≠ 0 ∧ a / 2 ^ 56 ≠ 0xFD ∧ a / 2 ^ 56 ≠ 0xFE) ∧
    (let x := (task (ctxAt 0x00FFFFFFFFFFFFFA)).ctx 0 0
     let a := (x.hart.rs ldF.base + ldF.off.signExtend 64).toNat
     a < 2 ^ 56 ∧ a + 4 ≤ 2 ^ 56 ∧ a % 4 ≠ 0) ∧
    (let x := (task { hart := { s := [(1, 0xFE00000000010000)] }, fpUnit := 0, fpCnt := 1 }).ctx 0 0
     let a := (x.hart.rs ldF.base + ldF.off.signExtend 64).toNat
     a = 0xFE * 2 ^ 56 + 65536 ∧ 65536 + 1 ≤ 2 ^ 21 ∧ a % 1 = 0 ∧ (x.fpUnit + x.fpCnt) * 65536 < 65536 + 1) ∧
    ((taskH { sp := 4 }).ctx 0 0).hart.sPois 2 = true ∧ (.st64 2 stF, 8) ∈ scalarStores 2 stF := by decide +kernel

theorem witness_ScalarStoresIssue :
    (let x := (task (ctxAt 0xFE00000000000000)).ctx 0 0
     x.hart.sPois stF.base = false ∧ x.hart.sPois 2 = false ∧ x.hart.pfx = none ∧ x.rerun = none ∧
     (x.hart.rs stF.base + stF.off.signExtend 64).toNat = 0xFE * 2 ^ 56 + 0 ∧ 0 + 8 ≤ 2 ^ 21 ∧ x.fpUnit * 65536 ≤ 0 ∧
     0 + 8 ≤ (x.fpUnit + x.fpCnt) * 65536 ∧ (.st64 2 stF, 8) ∈ scalarStores 2 stF) ∧
    (let x := (paged (ctxAt 0x40)).ctx 0 0
     (x.hart.rs stF.base + stF.off.signExtend 64).toNat = 0x40 ∧ 0x40 % 8 = 0 ∧ 0x40 + 8 ≤ 2 ^ 56 ∧ x.hart.pfx = none ∧ x.rerun = none ∧
     (xlateSegs (paged (ctxAt 0x40)) true 0 (some 0) 0 .write 2 0x40 8).toOption = some ([{ key := 0x40, len := 8 }], [page])) := by decide +kernel

theorem witness_CellarerLoadsAndStores :
    (cellar { hart := { s := [(1, 0x42)] } }).cur = .cell 0 ∧
    (let h := ((cellar { hart := { s := [(1, 0x42)] } }).cell 0).hart
     h.sPois ldF.base = false ∧ (h.rs ldF.base + ldF.off.signExtend 64).toNat % 4 ≠ 0 ∧ h.sPois 2 = false) ∧
    (cellSegs (cellar { hart := { s := [(1, 0x40)] } }) 0 0x40 8 .read).toOption = some ([{ key := 0x40, len := 8 }], []) ∧
    (cellSegs (cellar { hart := { s := [(1, 0x40)] } }) 0 0x40 8 .write).toOption = some ([{ key := 0x40, len := 8 }], []) := by decide +kernel

def vldF : VLdF := { base := 1, off := 0, kind := 0, trk := 8, sp := false, wt := false, lat := 0 }
def vstF : VStF := { base := 1, off := 0, kind := 0, trk := 0 }
def gatF : GatF := { base := 1, vi := 2, off := 0, kind := 0, trk := 0, sp := false, wt := false, lat := 0 }
def scaF : ScaF := { base := 1, vi := 2, off := 0, kind := 0, trk := 0 }
def amoF : AmoF := { r := 2, base := 1, off := 0, w64 := true, scope := .tile, wt := false, lat := 0 }
def redF : RedF := { r := 2, base := 1, off := 0, w64 := true, scope := .tile }

theorem witness_LoopLoadsIssue_vector :
    (let x := (task (ctxAt 0xFE00000000000000)).ctx 0 0
     x.hart.sPois vldF.base = false ∧ (x.hart.rs vldF.base + vldF.off.signExtend 64).toNat = 0xFE * 2 ^ 56 + 0 ∧ 0 < 2 ^ 21 ∧
     0 % 64 = 0 ∧ 0 + 2112 ≤ 2 ^ 21 ∧ x.fpUnit * 65536 ≤ 0 ∧ 0 + 2112 ≤ (x.fpUnit + x.fpCnt) * 65536 ∧
     kindField x.hart.fr vldF.kind = some .f32 ∧ 0 % vecAlign .f32 = 0 ∧ footprint .f32 512 = 2048) ∧
    (let x := (task (ctxAt (0xFE00000000000000 + 0x1FF800))).ctx 0 0
     (x.hart.rs vldF.base + vldF.off.signExtend 64).toNat = 0xFE * 2 ^ 56 + 0x1FF800 ∧ 0x1FF800 % vecAlign .f32 = 0 ∧
     0x1FF800 + 2048 ≤ 2 ^ 21) ∧
    kindField 0 13 = none := by decide +kernel

theorem witness_VectorStoresIssue :
    (let x := (task (ctxAt 0xFE00000000000000)).ctx 0 0
     x.hart.sPois vstF.base = false ∧ x.vPois 3 = false ∧ x.hart.pfx = none ∧ x.rerun = none ∧ srPois x = false ∧
     (x.hart.rs vstF.base + vstF.off.signExtend 64).toNat = 0xFE * 2 ^ 56 + 0 ∧ kindField x.hart.fr vstF.kind = some .f32 ∧
     (0xFE * 2 ^ 56 + 0) % 64 = 0 ∧ (imageOf (x.rv 3)).length = 2112) ∧
    ((task { vp := 8 }).ctx 0 0).vPois 3 = true ∧
    srPois ((task { hart := { fr := 0x14 }, vp := 1 }).ctx 0 0) = true := by decide +kernel

theorem witness_VectorStoresIssue_data :
    (let x := (paged (ctxAt 0x40)).ctx 0 0
     (narrow .i8 (frnd x.hart.fr) (x.rv 3) (srWords x)).1.length = footprint .i8 512 ∧
     (xlateSegs (paged (ctxAt 0x40)) true 0 (some 0) 0 .write (segFuel 512) 0x40 512).toOption.isSome = true ∧ 0x40 + 512 ≤ 2 ^ 56) := by
  decide +kernel

theorem witness_GathersAndScattersIssue :
    (let x := (paged (ctxAt 0x40)).ctx 0 0
     x.hart.sPois gatF.base = false ∧ x.vPois gatF.vi = false ∧ x.vPois 3 = false ∧ x.rerun = none ∧ srPois x = false ∧
     x.hart.pfx = none ∧ kindField x.hart.fr gatF.kind = some .f32 ∧ gatherKind .f32 = true ∧
     (gatherPlaces (paged (ctxAt 0x40)) 0 x (bitsOf16 .f32 / 128) .read
       ((x.rv gatF.vi).map (fun q => (x.hart.rs gatF.base + gatF.off.signExtend 64 + q.v.signExtend 64).toNat))).toOption.isSome = true ∧
     (gatherPlaces (paged (ctxAt 0x40)) 0 x (bitsOf16 .f32 / 128) .write
       ((x.rv scaF.vi).map (fun q => (x.hart.rs scaF.base + scaF.off.signExtend 64 + q.v.signExtend 64).toNat))).toOption.isSome = true) := by
  decide +kernel

theorem witness_AtomicsAndTheirValues :
    (let x := (paged (ctxAt 0x48)).ctx 0 0
     x.hart.amoIssued = false ∧ (.amoCas amoF, .cas) ∈ atomics amoF ∧ x.latch = .empty ∧ x.hart.sPois amoF.r = false ∧
     x.hart.sPois amoF.base = false ∧ x.hart.sPois 3 = false ∧ (x.hart.rs amoF.base + amoF.off.signExtend 64).toNat = 0x48 ∧
     0x48 < 2 ^ 56 ∧ 0x48 % 8 = 0 ∧ 0x48 + 8 ≤ 2 ^ 56 ∧
     (xlateSegs (paged (ctxAt 0x48)) true 0 (some 0) 0 .rw 2 0x48 8).toOption = some ([{ key := 0x48, len := 8 }], [page])) ∧
    ((task { latch := .pending 3 }).ctx 0 0).latch = .pending 3 ∧ ((task { latch := .full 7 1 }).ctx 0 0).latch = .full 7 1 ∧
    (2 ^ 32 - 1 < 2 ^ 32) ∧ ({ id := 0, op := .amo .add true 1 2, segs := [] } : Req).op = .amo .add true 1 2 := by decide +kernel

theorem witness_CellarerAtomicsAndReductions :
    (cellar {}).cur = .cell 0 ∧ 0x44 % 8 ≠ 0 ∧ 0x48 % 8 = 0 ∧ 0x44 % 4 = 0 ∧
    (cellSegs (cellar {}) 0 0x48 8 .rw).toOption = some ([{ key := 0x48, len := 8 }], []) ∧
    (cellSegs (cellar {}) 0 0x44 4 .write).toOption = some ([{ key := 0x44, len := 4 }], []) := by decide +kernel

theorem witness_ReductionsAreWithheld :
    ((taskH { sp := 2 }).ctx 0 0).hart.sPois redF.base = true ∧
    (let x := (paged (ctxAt 0x44)).ctx 0 0
     x.hart.sPois redF.base = false ∧ x.hart.sPois redF.r = false ∧ x.hart.pfx = none ∧
     (x.hart.rs redF.base + redF.off.signExtend 64).toNat = 0x44 ∧ 0x44 + 8 ≤ 2 ^ 56 ∧ 0x44 % 8 ≠ 0 ∧ 0x44 % 4 = 0 ∧
     (xlateSegs (paged (ctxAt 0x44)) true 0 (some 0) 0 .write 2 0x44 4).toOption.isSome = true) := by decide +kernel

theorem witness_FencesHoldTheIssue :
    (1#2).getLsbD 0 = true ∧ (2#2).getLsbD 1 = true ∧ (task {}).cur = .core 0 0 := by decide +kernel

theorem witness_BlocksAndPrefetch :
    (let s := paged (ctxAt 0xFC0)
     s.hart.sPois 1 = false ∧ s.blocks = [] ∧ (s.hart.tok 31).p < 63 ∧ (s.hart.rs 1 + (0#32).signExtend 64).toNat = 0xFC0 ∧
     0xFC0 % 4096 + 64 * 1 ≤ 4096 ∧ 4096 < 0xFC0 % 4096 + 64 * 2 ∧ (s.globPlace 0xFC0 64 64 .read).toOption.isSome = true) ∧
    (taskH { sp := 2 }).hart.sPois 1 = true ∧
    (let b : Block := { tok := 3, ea := 0, lines := 1, keys := [], prod := 0, filling := false }
     ((task { blocks := [b] }).blocks.filter (fun b => !b.released)).any (fun b => b.tok == 3 && b.ea == 0 && b.lines == 1) = true ∧
     8 ≤ ((task { blocks := List.replicate 8 b }).blocks.filter (fun b => !b.released)).length ∧
     ((task { blocks := List.replicate 8 b }).blocks.filter (fun b => !b.released)).any (fun b => b.tok == 4 && b.ea == 0 && b.lines == 1) = false ∧
     (task { blocks := [b] }).blocks.find? (fun b => b.tok == 3 && b.ea == 0 && !b.released) = some b) ∧
    63 ≤ ((taskH { tk := [(3, { armed := false, p := 63 })] }).hart.tok 3).p ∧
    (match (task {}).globPlace 0xFC0 64 64 .read with
      | .error _ => true
      | .ok _ => false) = true := by decide +kernel

theorem witness_PushesAndTokens :
    (let h : Hart := { s := [(16, 1)] }
     let s := taskH h
     cmdPois s.hart 16 = false ∧ queueOk s 0 = true ∧ accepts 0 ((((List.range 8).flatMap (fun j =>
       bytesOf 8 (s.hart.rs (Fin.ofNat 64 (16 + j))).toNat)).getD 0 0).toNat) = true ∧ (s.hart.tok 3).p < 63 ∧ freeSlots s 0 ≠ 0 ∧
     s.cur = .core 0 0) ∧
    cmdPois ({ sp := 2 ^ 23 } : Hart) 16 = true ∧ queueOk (task {}) 3 = false ∧ queueOk (task {}) 2 = true ∧ accepts 0 0 = false ∧
    63 ≤ ((taskH { tk := [(3, { armed := false, p := 63 })] }).hart.tok 3).p ∧
    (let p : PushRes := { q := 1, cmd := [], prod := 0, cons := [], pc := 0 }
     freeSlots (task { pushes := List.replicate 16 p }) 1 = 0) ∧
    (cellar {}).cur = .cell 0 ∧ queueOk (cellar {}) 1 = true ∧ freeSlots (cellar {}) 1 ≠ 0 := by decide +kernel

theorem witness_VectorMoves : (task {}).cur = .core 0 0 ∧ (((task {}).ctx 0 0).rv 5).length = 512 := by decide +kernel

theorem witness_ClusterCopies :
    (let x := (task (ctxAt (0xFD00000000000000 + 0x1FF7C0))).ctx 0 0
     x.hart.sPois 1 = false ∧ x.vPois 5 = false ∧ x.rerun = none ∧
     (x.hart.rs 1 + (0#32).signExtend 64).toNat = 0xFD * 2 ^ 56 + 0 * 2 ^ 21 + 0x1FF7C0 ∧ 0x1FF7C0 + 2112 ≤ 2 ^ 21 ∧ 0x1FF7C0 % 64 = 0 ∧
     fpAllows (task (ctxAt (0xFD00000000000000 + 0x1FF7C0))) 0 x (peerOf 0 0) 0x1FF7C0 2112 = true) ∧
    ((taskH { sp := 2 }).ctx 0 0).hart.sPois 1 = true ∧ ((task { vp := 32 }).ctx 0 0).vPois 5 = true ∧
    (((task (ctxAt 0x40)).ctx 0 0).hart.rs 1 + (0#32).signExtend 64).toNat / 2 ^ 56 ≠ 0xFD := by decide +kernel

theorem witness_VectorComparesAndMasks :
    (let x := (task {}).ctx 0 0
     x.vPois 3 = false ∧ x.vPois 4 = false ∧ (x.rv 3).length = 512 ∧ (x.rv 4).length = 512) ∧
    ((task { vp := 8 }).ctx 0 0).vPois 3 = true ∧ ((x0 : Nat) → x0 < 512 → x0 ≤ 511) := by
  exact ⟨by decide +kernel, by decide +kernel, fun _ h => by omega⟩

theorem witness_CascadeResults :
    (let x := (task {}).ctx 0 0
     (x.rv 1).length = 512 ∧ (x.rv 2).length = 512 ∧ (x.rv 3).length = 512 ∧ (x.rv 0).length = 512) ∧
    f32Val 0x3F800000 ≠ .nan ∧ f32Val 0x7FC00000 = .nan := by decide +kernel

theorem witness_ConversionsTreesAndTransposes :
    (task {}).cur = .core 0 0 ∧ kindOf (13#4).toNat = none ∧ kindOf (12#4).toNat = some .n8 ∧
    kindOf (wbits (taskH { fr := 0x1E0 }).hart.fr 5 4) = none ∧ kindOf (wbits (taskH { fr := 0x40 }).hart.fr 5 4) = some .f16 ∧
    (.f16 : Kind) ∉ [.f32, .i32] ∧ (.f16 : Kind) ∈ [.bf16, .f16, .i16] := by decide +kernel

theorem witness_DeferralQueue :
    ((task { vp := 8 }).ctx 0 0).vPois 3 = true ∧ ((task {}).ctx 0 0).vPois 3 = false ∧
    ((taskH { sp := 2 }).ctx 0 0).hart.sPois 1 = true ∧ ((task {}).ctx 0 0).hart.sPois 1 = false := by decide +kernel

/-- A command of the matrix queue, and a routine that runs it. -/
def cmd0 : MCmd := { id := 1, ctx := 0, pc := 0, op := .mcall 0, prod := 1, waits := [], mp := [], fr := 0 }
def rout0 : Routine := { cmd := cmd0, started := true }

/-- Core 0, whose sequencer runs a routine of its context 0. -/
def seq0 (x : Ctx) (r : Routine) : State :=
  { State.reset with cur := .seq 0, cores := [(0, { ctxs := [{ x with st := .running }, {}, {}], run := some 0, rt := some r })] }

/-- A rack of CAP panels of PANL lines from the Loop's start, SELF in bit 26. -/
def rackCfg (cap panl self : Nat) : Word := BitVec.ofNat 64 (cap * 2 ^ 40 + panl * 2 ^ 27 + self * 2 ^ 26)

theorem witness_MatrixSyllables :
    (task {}).cur = .core 0 0 ∧ ((task {}).core 0).ctxs.length = 3 ∧ (((task {}).core 0).matrixOf 0).length < 8 ∧
    (((task {}).ctx 0 0).hart.tok 3).p < 63 ∧ ((task {}).ctx 0 0).rerun = none ∧ ((task {}).ctx 0 0).hart.sPois 1 = false ∧
    ((taskH { sp := 2 }).ctx 0 0).hart.sPois 1 = true ∧ 63 ≤ ((taskH { tk := [(3, { armed := false, p := 63 })] }).hart.tok 3).p ∧
    8 ≤ (({ ctxs := [{}, {}, {}], mq := List.replicate 8 cmd0 } : Core).matrixOf 0).length := by decide +kernel

theorem witness_MicroOpControl :
    (let s := seq0 { rkcfg := [(0, rackCfg 2 8 0)], rkptr := [(0, 1)], fpCnt := 32 } rout0
     let x := s.ctx 0 0
     s.cur = .seq 0 ∧ (s.core 0).rt = some rout0 ∧ rkCap (mapGet 0 x.rkcfg 0) ≠ 0 ∧ rkHeld (mapGet 0 x.rkptr 0) ≠ 0 ∧
     rkPanl (mapGet 0 x.rkcfg 0) = 8 ∧ rkPanl (mapGet 0 x.rkcfg 0) ≠ 6 ∧ rkHeld (mapGet 0 x.rkptr 1) = 0 ∧ rkCap (mapGet 0 x.rkcfg 1) = 0 ∧
     x.fpUnit * 65536 ≤ 0 ∧ 0 + 64 * 8 ≤ (x.fpUnit + x.fpCnt) * 65536) ∧
    rkPanl (rackCfg 2 6 0) = 6 ∧ ¬ 0 + 64 * 8 ≤ (0 + 0) * 65536 ∧
    (let s := seq0 { rkcfg := [(0, rackCfg 2 8 0)], rkptr := [(0, 1)], fpCnt := 32 } rout0
     (s.ctx 0 0).rkReady 0 s.gt ≠ 0 ∧ (s.ctx 0 0).rkReady 1 s.gt = 0 ∧ readsBad s [{ key := loopKey 0 0, len := 512 }] = false ∧
     readsBad { s with bad := [loopKey 0 0 / 64] } [{ key := loopKey 0 0, len := 512 }] = true) := by decide +kernel

theorem witness_MicroOpPlanes :
    (let d : Drain := { cmd := 1, ctx := 0, plane := false, segs := [], bytes := [], rack := none, endGt := 0 }
     [d].any (fun d => d.ctx == 0 && d.plane == false) = true) ∧
    (let s := seq0 { rkcfg := [(0, rackCfg 1 768 1)], fpCnt := 32 } rout0
     let x := s.ctx 0 0
     let cfg : Word := mapGet 0 x.rkcfg 0
     (s.core 0).rt = some rout0 ∧ (s.core 0).drains = [] ∧ rkCap cfg ≠ 0 ∧ cfg.getLsbD 26 = true ∧ kindOf 0 = some .f32 ∧
     intOf .f32 = none ∧ 64 * rkPanl cfg = 128 * (bitsOf16 .f32 * 96 / 128) ∧ panelInFp x cfg (rkTail (x.rp 0)) = true ∧
     slotFree s 0 0 0 = true ∧ (rackCfg 1 768 0).getLsbD 26 = false ∧ rkCap 0 = 0) ∧
    (let s : State := { seq0 { rkcfg := [(0, rackCfg 2 8 0)], rkptr := [(0, 1)], fpCnt := 32 } rout0 with
       gangs := [{ gang0 with mems := gang0.mems ++ [{ core := 1, place := 1, task := 1, entry := 0, st := .resident 0 }] }],
       cores := [(0, { ctxs := [{ st := .running, rkcfg := [(0, rackCfg 2 8 0)], rkptr := [(0, 1)], fpCnt := 32 }, {}, {}], rt := some rout0 }),
                 (1, { ctxs := [{ st := .running, rkcfg := [(0, rackCfg 2 8 0)], fpCnt := 32 }, {}, {}] })] }
     let x := s.ctx 0 0
     let cfg : Word := mapGet 0 x.rkcfg 0
     rkCap cfg ≠ 0 ∧ rkHeld (x.rp 0) ≠ 0 ∧ maskCores 0 2 = [1] ∧ shrStatic s 0 0 cfg 0 1 = none ∧ panelInFp x cfg (rkHead (x.rp 0)) = true ∧
     [1].any (shrAhead s 0 0 0 (rkHead (x.rp 0))) = false ∧ shrWaits s 0 0 (rkHead (x.rp 0)) [1] = false) := by decide +kernel

/-- A task with handle 17 in a state; the handle runs from core 0 to core 32. -/
def wire (h : Hnd) (x : Ctx) : State := { task x with handles := [(17, h)] }
def live17 : Hnd := { st := .live, sep := 0, dep := 32, srcp := 5, dstp := 20, mask := 3, limit := 1024 }
def flit17 (j : Nat) : Flit :=
  { sq := j, gen := 0, lastf := j == 32, spl := j == 32, isRed := false, data := List.replicate 64 0, sbits := 0, ok := true }

theorem witness_MessagesAndCircuitStatus :
    (let s := wire live17 {}
     let x := s.ctx 0 0
     s.cur = .core 0 0 ∧ (s.core 0).ctxs.length = 3 ∧ x.vPois 3 = false ∧ isSrc x 0 (s.hnd 17) = true ∧ (s.hnd 17).st = .live ∧
     (s.hnd 17).key = none ∧ x.rerun = none ∧ (s.hnd 17).dep < 0x3FF ∧ (s.hnd 17).sentTo = (s.hnd 17).next ∧
     (s.hnd 17).next < 2 ^ 32 - 33 ∧ 33 ≤ ((s.hnd 17).limit + 2 ^ 32 - (s.hnd 17).next) % 2 ^ 32 ∧ (imageOf (x.rv 3)).length = 2112 ∧
     ownedBy x (s.hnd 17) = true ∧ isDst x 0 (s.hnd 17) = false) ∧
    ((task { vp := 8 }).ctx 0 0).vPois 3 = true ∧ ((wire {} {}).hnd 17).st = .free ∧
    (let s := wire { live17 with sep := 1 } {}
     (s.hnd 17).st ≠ .free ∧ isSrc (s.ctx 0 0) 0 (s.hnd 17) = false) ∧
    (let s := wire { live17 with st := .broken } {}
     isSrc (s.ctx 0 0) 0 (s.hnd 17) = true ∧ (s.hnd 17).st = .broken ∧ ownedBy (s.ctx 0 0) (s.hnd 17) = true ∧ (s.hnd 17).st ≠ .live) ∧
    isSrc ((wire { live17 with st := .dead } {}).ctx 0 0) 0 { live17 with st := .dead } = true ∧
    isSrc ((wire { live17 with st := .settling } {}).ctx 0 0) 0 { live17 with st := .settling } = true ∧
    ((wire { live17 with limit := 32 } {}).hnd 17).limit + 2 ^ 32 - 0 < 2 ^ 32 + 33 ∧
    (let h : Hnd := { live17 with sep := 32, dep := 0, rq := (fromTo 0 33).map flit17 }
     let s := wire h {}
     isDst (s.ctx 0 0) 0 (s.hnd 17) = true ∧ badMessage (s.hnd 17).rq = false ∧ 33 ≤ (s.hnd 17).rq.length ∧ s.replay.ms = 0 ∧
     badMessage [flit17 32] = true) ∧
    (let h : Hnd := { live17 with sep := 32, dep := 0, rq := [flit17 0] }
     isDst ((wire h {}).ctx 0 0) 0 h = true ∧ badMessage h.rq = false ∧ h.rq.length < 33) ∧
    isDst ((wire { live17 with sep := 32, dep := 0, st := .dead } {}).ctx 0 0) 0 { live17 with sep := 32, dep := 0, st := .dead } = true ∧
    ownedBy ({ asid := 1 } : Ctx) live17 = false ∧
    (let r : Rerun := { rerun0 with second := false }
     let s := wire { live17 with st := .settling } { rerun := some r }
     (s.ctx 0 0).rerun = some r ∧ r.second = false ∧ isSrc (s.ctx 0 0) 0 (s.hnd 17) = true) ∧
    (let h : Hnd := { live17 with key := some [], next := 2 ^ 32 - 33 }
     h.key ≠ none ∧ 2 ^ 32 ≤ h.next + 33 ∧ h.st = .live) ∧
    (let h : Hnd := { live17 with unacked := List.replicate 4064 (flit17 0) }
     4096 < h.unacked.length + 33 ∧ (imageOf (zeroConts)).length = 2112) := by decide +kernel

/-- An event about handle 17. -/
def wireEv (h : Hnd) (a : EvArg) : State := { State.reset with handles := [(17, h)], arg := { a with handle := 17 }, gt := 4096 }

theorem witness_TransportEvents :
    (let s := wireEv { live17 with unacked := [flit17 0] } { n := 0 }
     arriving s 17 = some (flit17 0) ∧ (s.hnd 17).here = true ∧ (flit17 0).ok = true ∧ (flit17 0).gen = (s.hnd 17).g ∧
     (flit17 0).sq = (s.hnd 17).expect ∧ (s.hnd 17).rq.length + (s.hnd 17).poppedF.length < 1024 ∧ (flit17 0).isRed = false ∧
     taken (s.hnd 17) 0 = false ∧ (s.hnd 17).unacked.all (fun f => f.sq != 0) = false ∧ (s.hnd 17).unacked.all (fun f => f.sq != 1) = true ∧
     (s.hnd 17).st = .live ∧ (s.hnd 17).unacked ≠ [] ∧ (flit17 0).at_ + 2048 ≤ s.gt ∧ (s.hnd 17).tmo ≠ 7 ∧ (s.hnd 17).st ≠ .free) ∧
    arriving (wireEv { live17 with unacked := [{ flit17 0 with isRed := true }] } { n := 0 }) 17 = some { flit17 0 with isRed := true } ∧
    taken { live17 with expect := 1 } 0 = true ∧
    (let h : Hnd := { live17 with unacked := [{ flit17 0 with gen := 1 }] }
     h.unacked.find? (fun f => f.sq == 0) = some { flit17 0 with gen := 1 } ∧ ({ flit17 0 with gen := 1 }).gen ≠ h.g ∧ h.st = .live) ∧
    arriving (wireEv live17 { n := 0 }) 17 = none ∧ ({ flit17 0 with ok := false }).ok = false ∧
    (1 ≤ (1 + 16 - (flit17 0).gen % 16) % 16 ∧ (1 + 16 - (flit17 0).gen % 16) % 16 ≤ 7) ∧
    (flit17 0).sq ≠ ({ live17 with expect := 1 } : Hnd).expect ∧ seqBefore 0 ({ live17 with expect := 1 } : Hnd).expect = true ∧
    (List.replicate 1024 (flit17 0)).length = 1024 ∧ ({ live17 with dep := 0x3FF } : Hnd).dep = 0x3FF ∧
    (let e : Caught := { seq := 4, gt := 2048, tile := 0, asid := 0, gang := 0 }
     ({ live17 with caught := [e] } : Hnd).caught = [e] ∧ e.gt + 2048 ≤ 4096) ∧
    ((17, 0) ∈ ({ buf := [(17, 0)] } : Port).buf) ∧
    ({ live17 with hello := true } : Hnd).hello = true ∧ ({ live17 with tmo := 7 } : Hnd).tmo = 7 ∧ 4096 < 2049 + 2048 ∧
    ({ live17 with st := .broken, brokeAt := 2048 } : Hnd).brokeAt + 2048 ≤ 4096 ∧ (wireEv {} { port := 319 }).arg.port < 320 := by
  decide +kernel

/-- R292: byte j goes to the (j mod w)-th active wavelength, and unused positions are zero. -/
theorem test_stripe : stripe 0x25#8 [1, 2, 3, 4] = [(0, [1, 4]), (2, [2, 0]), (5, [3, 0])] := by decide +kernel

theorem witness_LightAndLinks :
    ({ State.reset with arg := { port := 319, ids := [31] } } : State).arg.port = 319 ∧ 319 < 320 ∧ 31 < 32 ∧ 5 ∈ bankPorts 0 ∧
    319 ∉ bankPorts 0 := by decide +kernel

theorem witness_CellarerRegistersAndSemaphores :
    (cellar {}).cur = .cell 0 ∧ (8#12).toNat ≤ 8 ∧
    (let x : Cell := { evtpend := 1, evtmask := 1, eie := true, epc := 0x100 }
     x.evtpend.setWidth 64 &&& x.evtmask ≠ 0 ∧ x.hart.redir = none ∧ x.epc.toNat < 2 ^ 56 ∧ x.epc.toNat % 4 = 0 ∧ x.run = true ∧
     x.stall = none ∧ x.eie = true ∧ ({ x with epc := 2 } : Cell).epc.toNat % 4 ≠ 0 ∧
     ({ redir := some (4, 0x200) } : Hart).redir = some (4, 0x200)) ∧
    (({} : Cell).evtpend.setWidth 64 &&& ({} : Cell).evtmask = 0) ∧
    ({ evttime := 0 } : Cell).fired = false ∧ ({ evttime := 0 } : Cell).evttime.toNat ≤ 0 ∧ 0 < ({} : Cell).evttime.toNat := by
  decide +kernel

theorem witness_TranslationsInvalidated :
    (cellar {}).cur = .cell 0 ∧ (∀ p ∈ (cellar {}).tiles, p.2.walks = []) ∧
    (let s : State := { State.reset with tiles := [(0, { walks := [{ asid := 1, va := 4096, gt := 0, cores := [] }] })] }
     (∃ p ∈ s.tiles, ∃ w ∈ p.2.walks, w.gt ≤ s.gt) ∧ (s.tile 0).walks[0]? = some { asid := 1, va := 4096, gt := 0, cores := [] }) ∧
    (let e : TlbEnt := { asid := 1, va := 0, size := 2 ^ 30, pa := 0, key := 0, r := true, w := true, x := true, ent := 0x3B }
     let w : Walk := { asid := 1, va := 64, gt := 0, cores := [0] }
     let s : State := (({ task { asid := 1, stall := some (.fetch 64) } with
       asidtab := 0x80001, tiles := [(0, { walks := [w], walkq := [{ w with va := 4096 }] })] } : State).putRaw 0x80008
         (bytesOf 8 0x100001)).putRaw 0x100000 (bytesOf 8 0x101001) |>.putRaw 0x101000 (bytesOf 8 0x3B)
     (s.tile 0).walks[0]? = some w ∧ w.stale = false ∧ (walk s 1 64).toOption = some e ∧ (s.core 0).run = some 0 ∧
     (s.core 0).ctxs.length = 3 ∧ (s.ctx 0 0).stall = some (.fetch 64) ∧ (s.ctx 0 0).asid.toNat = w.asid) ∧
    ((cellar { stall := some (.tlbi 2 0 0 0) }).cell (cellar { stall := some (.tlbi 2 0 0 0) }).arg.tile).stall = some (.tlbi 2 0 0 0) := by
  decide +kernel

/-- The Cellarer of tile 0 in execution with s1 naming core 0 and s2 a context or a gang; context 0 of core 0 as given, in gang 0. -/
def host0 (x : Ctx) (m : MSt) (s2 : Word) : State :=
  { State.reset with
    cur := .cell 0, asidtab := 1, tiles := [(0, { tlb := [page], cell := { hart := { s := [(2, s2)] } } })],
    cores := [(0, { ctxs := [x, {}, {}] })],
    gangs := [{ gang0 with mems := [{ core := 0, place := 0, task := 0, entry := 0, st := m }] }] }

theorem witness_CellarerOnGangs :
    (host0 {} (.resident 0) 0).cur = .cell 0 ∧ (0 : Nat) % 65536 ≠ 1 ∧
    ((BitVec.ofNat 64 32 : Word).toNat % 512 / 32 ≠ (0 : TileId).val) ∧ ((31 : Word).toNat % 512 / 32 = (0 : TileId).val) ∧
    parkedAt (host0 {} (.resident 0) 0) 0 0 = .no ∧ parkedAt (host0 { st := .parked } (.resident 0) 0) 0 0 = .resident 0 ∧
    parkedAt (host0 { st := .parkedPlace } (.resident 0) 0) 0 0 = .place 0 ∧ parkedAt (host0 {} (.saved true) 0) 0 0 = .saved ∧
    (0 : Nat) ≤ 0 ∧ (0 : Nat) < 1 := by decide +kernel

theorem witness_CellarerOnContextsAndSlots :
    (3 % 4 = 3) ∧ (host0 { st := .ready } (.resident 0) 0).ctx 0 0 ≠ {} ∧ (((host0 {} (.resident 0) 0).ctx 0 0).st ∈ [.free, .reserved, .ended]) ∧
    (((host0 { st := .running } (.resident 0) 0).ctx 0 0).st ∈ [TSt.running, .parkedPlace]) ∧
    (((host0 { st := .ready } (.resident 0) 0).ctx 0 0).st ∈ [TSt.ready, .parked]) ∧
    ((host0 { st := .ready } (.resident 0) 0).core 0).switch = none ∧
    canSave (host0 { st := .ready } (.resident 0) 0) 0 0 = true ∧
    canSave (host0 { st := .ready, reqs := [{ id := 0, segs := [] }] } (.resident 0) 0) 0 0 = false ∧
    (host0 {} (.saved false) 0).gangs.find? (fun g => g.id == 1) = none ∧
    needOf (host0 {} (.saved false) 0) gang0 0 = .none ∧
    needOf (host0 { st := .ready, saving := true } (.saved false) 0) gang0 0 ≠ .none ∧
    (let v : Slot := {}
     v.st ≠ 1 ∧ v.st ≠ 2 ∧ v.st ≠ 3) ∧ ({ st := 3 } : Slot).st = 3 ∧ (0x50000 : Nat) / 2 ^ 16 % 256 = 5 ∧
    ((0x00050700 : Word).toNat / 2 ^ 16 % 256 < (0x00050700 : Word).toNat / 2 ^ 8 % 256) ∧ ((0x00050500 : Word) &&& 0xFFFF0000FF0000F8 = 0) ∧
    windowTaken (host0 {} (.resident 0) 0) 0 5 5 = false := by decide +kernel

theorem witness_CellarerOnContextsAndSlots_waits :
    (let b : Ctx := { st := .ready }
     let s : State := { State.reset with cores := [(0, { ctxs := [b, b, b], switch := some (9, 1) })] }
     (∀ k : CtxId, (s.ctx 0 k).busy = true) ∧ (s.core 0).switch = some (9, 1)) ∧
    (let s := host0 { st := .ready, saving := true, fpUnit := 0, fpCnt := 32 } (.saved false) 0
     (s.ctx 0 0).busy = true ∧ (s.ctx 0 0).saving = true ∧ (s.ctx 0 1).busy = false) ∧
    (let g := { gang0 with pkt := [3000 * 2 ^ 48, 0, 0, 0, 0, 32, 0, 0] }
     let x : Ctx := { st := .ready, gang := 1, msbase := 1000, mslen := 1000, fpUnit := 8, fpCnt := 8 }
     let s : State := { State.reset with cores := [(0, { ctxs := [x, {}, {}], mq := [cmd0] })], gangs := [g] }
     needOf s { g with mems := g.mems.map (fun m => { m with st := .saved false }) } 0 = .move ∧ windowsStill s 0 = false ∧
       windowsStill { s with cores := [(0, { ctxs := (s.core 0).ctxs })] } 0 = true) := by decide +kernel

theorem witness_CellarerSaves : ((host0 { st := .ready, save := 0x100000 } (.resident 0) 0).saveNow 0 0).2 = true := by decide +kernel

theorem witness_CellarerRestores :
    ((host0 {} (.saved false) 0).bringBack gang0 { core := 0, place := 0, task := 0, entry := 0, st := .saved false } false).2 = true := by
  decide +kernel

/-- A command of the Cellarer of tile 0, of core 0 (gang 0), and the engine that runs it. -/
def job (o : Owner) (f : Cmd → Cmd) : State :=
  { host0 { st := .running, rkcfg := [(0, rackCfg 2 1 0)], fpCnt := 32 } (.resident 0) 0 with
    cur := .eng 0 0
    cmds := [f { id := 7, tile := 0, q := 1, owner := o, asid := 0, pc := 0, taskid := 0, bytes := [], prod := 9, waits := [], st := .running 0 }] }
def default0 : Cmd :=
  { id := 0, tile := 0, q := 0, owner := .cell 0, asid := 0, pc := 0, taskid := 0, bytes := [], prod := 0, waits := [] }
def hdr0 : CmdHdr := { na := false, sig := false, ro := false, semref := 0 }
def copyF : CopyF :=
  { hdr := hdr0, dk := 0, sk := 0, rm := 0, src := 0x100, dst := 0x200, n0 := 1, n1 := 1, n2 := 1, n3 := 1, ss1 := 0, ss2 := 0, ss3 := 0,
    ds1 := 0, ds2 := 0, ds3 := 0 }
def redcF : CopyRedF :=
  { hdr := hdr0, dk := 0, lk := 0, rm := 0, first := true, last := true, loc := 0x100, dst := 0x200, n := 16, inch := 0, outch := 0 }

theorem witness_EngineCommandUnits_copy :
    (let s := job (.cell 0) id
     let d := s.cmds.getD 0 default0
     s.curCmd = some d ∧ kindOf copyF.dk.toNat = some .f32 ∧ copyF.rm.toNat < 6 ∧ badCount .f32 1 = false ∧ copyF.n0.toNat * 1 ≠ 0 ∧
     d.row = [] ∧ (engRead s d 0x100 4).toOption.isSome = true ∧ (engRead s d (2 ^ 40) 4).toOption.isSome = false ∧
     (s.engWrite d 0x200 [1, 2, 3, 4]).toOption.isSome = true ∧ (s.engWrite d (2 ^ 40) [1, 2, 3, 4]).toOption.isSome = false ∧
     badCount .bq4 1 = true) ∧
    ((job (.cell 0) (fun d => { d with row := [1] })).cmds.getD 0 default0).row ≠ [] ∧
    (3 : BitVec 8).toNat = 3 ∧ (2 : BitVec 8).toNat < 3 ∧ (0 : Word).toNat ≤ ((job (.cell 0) id).sem 0).toNat ∧
    ((job (.cell 0) id).sem 0).toNat < (1 : Word).toNat ∧
    ((job (.cell 0) id).cmds.filter (fun e => e.tile == 0 && e.st == .trigger)).length < 512 ∧ (1 : Word).toNat % 64 ≠ 0 ∧
    (64 : Word).toNat % 64 = 0 := by decide +kernel

theorem witness_EngineCommandUnits_launch :
    (let s := (job (.cell 0) id).putRaw 64 [1, 0, 4, 0]
     let d := s.cmds.getD 0 default0
     (engRead s d 64 64).toOption.any (fun p =>
       let pkt : List Word := (chunks 8 8 p.1).map (fun b => BitVec.ofNat 64 (leNat b))
       !(boundRefused (s.fillTlbs 0 none p.2) 0 pkt) && decide ((pkt.getD 0 0).toNat / 2 ^ 18 % 4 ≠ 0) &&
         decide (((s.fillTlbs 0 none p.2).lq 0 4).pkts.length < 64)) = true) ∧
    (let ts := List.replicate 512 { default0 with st := .trigger }
     512 ≤ (ts.filter (fun e => e.tile == 0 && e.st == .trigger)).length) := by decide +kernel

theorem witness_EngineCommandUnits_rack :
    (let s := job (.mem 0 0) id
     let d := s.cmds.getD 0 default0
     let x := s.ctx 0 0
     d.owner = .mem 0 0 ∧ s.ctxOf 0 0 = some 0 ∧ s.ctxOf 1 0 = none ∧ rkCap (mapGet 0 x.rkcfg 0) ≠ 0 ∧
     (mapGet 0 x.rkcfg 0).getLsbD 26 = false ∧ (mapGet 0 x.rkcfg 0).getLsbD 63 = false ∧ 64 * 1 = 64 * rkPanl (mapGet 0 x.rkcfg 0) ∧
     panelInFp x (mapGet 0 x.rkcfg 0) (rkTail (mapGet 0 x.rkptr 0)) = true ∧ slotFree s 0 0 0 = true ∧
     (panelRead s d 0x100 0 64 0 1).toOption.isSome = true) ∧
    (let f : RackFillF := { hdr := { hdr0 with ro := true }, rack := 0, src := 0x100, rowb := 64, rows := 1, sstr := 0, pstr := 0, npan := 1 }
     let cfg : Word := rackCfg 2 1 0 ||| (1#64 <<< 63)
     let s : State := { job (.mem 0 0) id with cores := [(0, { ctxs := [{ st := .running, rkcfg := [(0, cfg)], fpCnt := 32 }, {}, {}] })] }
     let x := s.ctx 0 0
     let key := loopKey 0 (sdpOff cfg)
     let cont : State := s.putBytes 0 0 key (sdpRecord f 0)
     cfg.getLsbD 63 = f.hdr.ro ∧ f.rowb.toNat * f.rows.toNat = 64 * rkPanl cfg ∧ inFp x.fpUnit x.fpCnt (sdpOff cfg) 64 = true ∧
     readsBad s [{ key := key, len := 64 }] = false ∧ readsBad { s with bad := [key / 64] } [{ key := key, len := 64 }] = true ∧
     sdpContinues (s.bytesAt 0 key 64) f 0 = false ∧ rkTail (mapGet 0 x.rkptr 0) = rkHead (mapGet 0 x.ck.rkptr 0) ∧
     sdpContinues (cont.bytesAt 0 key 64) f 0 = true ∧ f.npan.toNat ≠ 0) ∧
    ((job (.mem 0 0) id).member 0 0).any (·.live) = true ∧
    slotFree { job (.mem 0 0) id with cores := [(0, { ctxs := [{ st := .running, rkcfg := [(0, rackCfg 2 1 0)], rkptr := [(0, 2)], fpCnt := 32 }, {}, {}] })] }
      0 0 0 = false := by decide +kernel

theorem witness_EngineCommandUnits_reduce :
    (let s := job (.cell 0) id
     let d := s.cmds.getD 0 default0
     kindOf redcF.dk.toNat = some .f32 ∧ intOf .f32 = none ∧ redcF.rm.toNat < 6 ∧ blockK .f32 = none ∧ redcF.n.toNat ≠ 0 ∧
     redcF.first = true ∧ redcF.last = true ∧
     (hopIn s d redcF 16 true).toOption.isSome = true ∧ (match hopOut s d redcF with
       | .ready => true
       | _ => false) = true ∧ (s.hnd 0).key = none ∧
     (hopRuns d redcF .f32 .f32 16 (16 * d.resume) (List.replicate 16 none) s).toOption.isSome = true) ∧ intOf .i32 ≠ none := by decide +kernel

theorem witness_EngineAndMatrixEvents :
    (let s : State := { job (.cell 0) id with cur := .idle }
     s.cur = .idle ∧ s.cmds.any (fun d => d.tile == 0 && d.st == .running 0) = true ∧
     s.cmds.any (fun d => d.tile == 0 && d.st == .running 1) = false) ∧
    (let d : Cmd := { default0 with done := true }
     [d].find? (fun e => e.id == 0) = some d ∧ d.done = true ∧ (∀ a ∈ [d], a.id = d.id → a = d) ∧
     [d].all (fun e => e.st != .running 0 || e.tile != 0 || e.done) = true) ∧
    (let b : Block := { tok := 3, ea := 0, lines := 1, keys := [], prod := 5, filling := true }
     ((task { blocks := [b] }).ctx 0 0).blocks.find? (fun b => b.filling && b.prod == 5) = some b) ∧
    ((seq0 {} rout0).core 0).rt = some rout0 ∧
    (let s : State := { State.reset with cores := [(0, { mq := [{ cmd0 with waits := [1] }] })], prods := [{ id := 1, owner := .cell 0, tok := 0 }] }
     (s.core 0).rt = none ∧ (∀ k, (s.ctx 0 k).susp = none) ∧ (s.core 0).mq = [{ cmd0 with waits := [1] }] ∧ s.prodsDone [1] = false ∧
     s.prodsDone [] = true) ∧
    (let r : Routine := { rout0 with ended := true }
     let s := seq0 {} r
     (s.core 0).rt = some r ∧ r.ended = true ∧ r.busy ≤ s.gt ∧ (∀ d ∈ (s.core 0).drains, d.cmd ≠ r.cmd.id)) ∧
    (let d : Drain := { cmd := 1, ctx := 0, plane := false, segs := [], bytes := [], rack := none, endGt := 0 }
     d.endGt ≤ 0 ∧ 0 < ({ d with endGt := 128 } : Drain).endGt) ∧
    shrWaits State.reset 0 0 0 [] = false ∧ ({ pwrSt := 1 } : Tile).pwrSt ≠ 0 ∧
    (let d : Cmd := { default0 with st := .trigger, met := true }
     [d].find? (fun e => e.id == 0 && (e.done || (e.st == .trigger && e.met))) = some d) ∧
    (let s : State := { State.reset with cores := [(0, { ctxs := [{ gang := 0, susp := some rout0 }, {}, {}] })], gangs := [gang0] }
     (s.core 0).rt = none ∧ (s.ctx 0 0).susp = some rout0 ∧ s.gang (s.ctx 0 0).gang.toNat = some gang0 ∧ gang0.st ≠ .ready) := by
  decide +kernel

theorem witness_EngineYield :
    (let run (i : Nat) : Cmd := { default0 with id := i, q := 1, st := .running (Fin.ofNat 8 i), owner := .mem 0 0, resume := 1, bytes := bytesOf 64 4 }
     let w : Cmd := { default0 with id := 9, q := 1, owner := .cell 0, bytes := bytesOf 64 4 }
     let s : State := { host0 { st := .running } (.resident 0) 0 with cmds := (fromTo 0 8).map run ++ [w] }
     s.cmds.find? (fun d => d.tile == 0 && d.st == .running 0 && !d.done) = some (run 0) ∧
     (∀ i : EngId, s.cmds.any (fun d => d.tile == 0 && d.st == .running i) = true) ∧ w ∈ s.cmds ∧
     (w.tile == 0 && w.q == 1 && w.st == .queued && !w.done && s.prodsDone w.waits) = true ∧ cmdPrio s w < cmdPrio s (run 0) ∧
     atBoundary (run 0) = true ∧ neverYields (run 0) = false) := by decide +kernel

/-- Program slot 1 in execution with handles 16 to 31 and the boundary port 3. -/
def prog (v : Slot) : State :=
  { State.reset with cur := .slot 1, slots := [(1, { v with hbase := 16, hlast := 31, ports := [3] })], feats := 2, links := [(3, 9), (4, 9)], gt := 100 }

theorem witness_CircuitStepsRead :
    (prog {}).cur = .slot 1 ∧
    (let v := (prog {}).slot 1
     (v.hbase ≤ (16 : Handle).val ∧ (31 : Handle).val ≤ v.hlast) ∧ ¬ (v.hbase ≤ (15 : Handle).val) ∧ ¬ ((32 : Handle).val ≤ v.hlast) ∧
     v.portOk true 5 = true ∧ v.portOk true 20 = true ∧ v.portOk true 259 = true ∧ v.portOk true 260 = false ∧ v.portOk true 14 = false ∧
     endOk 0 5 false = true ∧ endOk 32 20 (decide (256 ≤ 5)) = true ∧ endOk 0x3FF 259 false = true ∧
     2 ≤ ((List.range 8).filter (fun i => (3 : BitVec 8).getLsbD i)).length ∧
     (0 ≤ (v.step : Int) + (0 : BitVec 24).toInt ∧ (v.step : Int) + (0 : BitVec 24).toInt < (v.seen : Int) + 131071) ∧
     ¬ (0 ≤ (v.step : Int) + (0xFFFFFF : BitVec 24).toInt)) ∧
    (prog {}).timerq.length < 64 ∧
    64 ≤ ({ prog {} with timerq := List.replicate 64 { slot := 1, g := 0, step := .vGen, idx := 0, read := 0, at_ := 0 } } : State).timerq.length ∧
    (1 : BitVec 11).toNat ≤ (({ prog {} with handles := [(17, { rq := [flit17 0] })] } : State).hnd 17).rq.length ∧
    ((prog {}).hnd 17).rq.length < (1 : BitVec 11).toNat ∧
    (mapHas (prog {}).links 4 = true ∧ mapGet 0 (prog {}).links 4 = 9 ∧ ∀ m : SlotId, m ≠ 1 → (4 : Fin 64) ∉ ((prog {}).slot m).ports) ∧
    mapHas (prog {}).links 5 = false := by decide +kernel

/-- The same with one entry in the timer queue, due at gt 100, and handle 17 as given. -/
def due (i : Instr) (h : Hnd) : State :=
  { prog {} with timerq := [{ slot := 1, g := 0, step := i, idx := 0, read := 0, at_ := 100 }], handles := [(17, h)],
                 arg := { slot := 1, handle := 17, port := 5, lam := 2 } }
def make17 : Instr := .vMake 17 5 20 3 0 32 100

theorem witness_TimedStepsAct_make :
    (let s := due make17 {}
     (∃ e, firstEnt s.timerq = some e ∧ e.at_ ≤ s.gt ∧ e.step = make17 ∧ maskTaken (s.leaveQueue e) 17 5 20 3 = false ∧
       ((s.leaveQueue e).hnd 17).base = .free ∧ ((s.leaveQueue e).hnd 17).st ≠ .live)) ∧
    (let s := due make17 { st := .live }
     (∃ e, firstEnt s.timerq = some e ∧ e.at_ ≤ s.gt ∧ e.step = make17 ∧ ((s.leaveQueue e).hnd 17).st = .live)) ∧
    (let s : State := { due make17 {} with handles := [(18, live17)] }
     (∃ e, firstEnt s.timerq = some e ∧ e.at_ ≤ s.gt ∧ e.step = make17 ∧ maskTaken (s.leaveQueue e) 17 5 20 3 = true)) ∧
    (let s := due make17 { st := .broken, base := .broken, sep := 1, dep := 32 }
     (∃ e, firstEnt s.timerq = some e ∧ e.at_ ≤ s.gt ∧ e.step = make17 ∧ ((s.leaveQueue e).hnd 17).base ≠ .free ∧
       ((s.leaveQueue e).hnd 17).sep ≠ 0 ∧ ((s.leaveQueue e).hnd 17).g = e.g ∧ maskTaken (s.leaveQueue e) 17 5 20 3 = false)) := by
  refine ⟨⟨_, rfl, ?_⟩, ⟨_, rfl, ?_⟩, ⟨_, rfl, ?_⟩, ⟨_, rfl, ?_⟩⟩ <;> decide +kernel

theorem witness_TimedStepsAct :
    (let s := due (.vBreak 17 100) live17
     ∃ e, firstEnt s.timerq = some e ∧ e.at_ ≤ s.gt ∧ e.step = .vBreak 17 100) ∧
    (let s := due (.vPark 5 3 100) live17
     ∃ e, firstEnt s.timerq = some e ∧ e.at_ ≤ s.gt ∧ e.step = .vPark 5 3 100 ∧ parkNarrows (s.leaveQueue e) 5 3 = true ∧
       parkNarrows (s.leaveQueue e) 5 4 = false) ∧
    (let s := due (.vUnpark 5 3 100) live17
     ∃ e, firstEnt s.timerq = some e ∧ e.at_ ≤ s.gt ∧ e.step = .vUnpark 5 3 100) := by
  refine ⟨⟨_, rfl, ?_⟩, ⟨_, rfl, ?_⟩, ⟨_, rfl, ?_⟩⟩ <;> decide +kernel

theorem witness_TimedStepsAct_waits :
    (prog {}).timerq = [] ∧
    (let s : State := { due make17 {} with gt := 99 }
     (firstEnt s.timerq).all (fun e => decide (s.gt < e.at_)) = true) ∧
    (let v : Slot := { st := 2, wait := some (.vHold 100, 99) }
     v.wait = some (.vHold 100, 99) ∧ v.st = 2 ∧ 99 < 100 ∧ (100 : Word).toNat ≤ 100) ∧
    (let v : Slot := { st := 3, wait := some (.vWaitq 17 1 0 100, 99) }
     v.wait = some (.vWaitq 17 1 0 100, 99) ∧ v.st = 3 ∧ ((due make17 {}).hnd 17).rq.length < (1 : BitVec 11).toNat ∧
     (100 : Word).toNat ≤ 100 ∧ (1 : BitVec 11).toNat ≤ ((due make17 { rq := [flit17 0] }).hnd 17).rq.length) ∧
    (let s : State := { due make17 { live17 with st := .settling, madeAt := 40 } with gt := 200 }
     (s.hnd s.arg.handle).st = .settling ∧ (s.hnd s.arg.handle).madeAt + 160 ≤ s.gt ∧ (s.hnd s.arg.handle).sep < 0x3FF ∧
     (s.hnd s.arg.handle).dep < 0x3FF) ∧
    (let s : State := { due make17 {} with ports := [(5, { waking := [{ lam := 2, lock := 100 }] })] }
     (s.port s.arg.port).waking.any (fun w => w.lam == s.arg.lam && decide (w.lock ≤ s.gt)) = true) := by decide +kernel

/-- Core 0 between its bundles, its context 0 as given, in gang 0. -/
def rest0 (x : Ctx) (a : EvArg) : State :=
  { State.reset with cores := [(0, { ctxs := [x, {}, {}], run := some 0 })], gangs := [gang0], arg := a, gt := 5000 }
def due0 : Pend := { id := 3, ic := 0, slot := 5, pc := 64, dst := .s 1, src := .have (.w 7) }
def late0 : Pend := { id := 4, ic := 0, slot := 5, pc := 64, dst := .s 1, src := .wait 8 .img }

theorem witness_ContextEvents :
    (rest0 {} {}).cur = .idle ∧
    (({ hart := { pend := [due0] } } : Ctx).hart.pend.find? (fun p => p.id == 3) = some due0) ∧
    (let x : Ctx := { st := .running, hart := { pend := [late0] } }
     sortPend (x.hart.pend.filter (isLate 5000 0 x.reqs)) = [late0] ∧ x.st = .running ∧ x.rerun = none) ∧
    sortPend (({} : Ctx).hart.pend.filter (isLate 5000 0 [])) = [] ∧
    (let x : Ctx := { latch := .pending 8, reqs := [{ id := 8, segs := [], got := some [1, 0, 0, 0, 0, 0, 0, 0] }] }
     x.latch = .pending 8 ∧ x.reqs.find? (fun r => r.id == 8) = some { id := 8, segs := [], got := some [1, 0, 0, 0, 0, 0, 0, 0] }) ∧
    (let a : LoopAcc := { id := 5, core := 0, ctx := 0, slot := 4, ic := some 9, target := 1, own := false, tracks := 1, clocks := 1,
                           segs := [{ key := 0, len := 1 }], wr := some [7], req := none, lag := 3 }
     let b : LoopAcc := { a with id := 6, wr := none, req := some 8 }
     [a, b].find? (fun a => a.id == 5) = some a ∧ [a, b].find? (fun a => a.id == 6) = some b) ∧
    (let b : Batch := { pushes := [], writes := [2], loops := [3] }
     let w : WEnt := { id := 2, op := .st [1], segs := [], rel := none, pc := 0, slot := 0 }
     (∃ v ∈ ({ batches := [b], wbuf := [w] } : Ctx).wbuf, v.id ∈ b.writes) ∧ (∀ v ∈ ({ batches := [b] } : Ctx).wbuf, v.id ∉ b.writes)) ∧
    ({ stall := some (.twait 1) } : Ctx).stall = some (.twait 1) ∧ ({ stall := some (.wgt 9) } : Ctx).stall = some (.wgt 9) ∧
    ((rest0 { stall := some (.gbar 1) } {}).ctx 0 0).stall = some (.gbar 1) ∧ (rest0 {} {}).gang ((rest0 {} {}).ctx 0 0).gang.toNat = some gang0 ∧
    (let s := rest0 { stall := some (.rcv 17 3 4 904) } {}
     (s.core 0).halted = false ∧ (s.core 0).run = some 0 ∧ (s.ctx 0 0).stall = some (.rcv 17 3 4 904) ∧ 904 + 4096 ≤ s.gt) := by
  refine ⟨?_, ?_, ?_, ?_, ?_, ?_, ⟨⟨_, List.mem_singleton.2 rfl, ?_⟩, ?_⟩, ?_, ?_, ?_, ?_, ?_⟩ <;> decide +kernel

/-- A gang 0 whose member stands so, in such a state, and the gang in the machine. -/
def troop (st : GSt) (m : MSt) : Gang := { gang0 with st := st, mems := gang0.mems.map (fun x => { x with st := m }) }
def mustered (g : Gang) (x : Ctx) (run : Option CtxId) : State :=
  { State.reset with cores := [(0, { ctxs := [x, {}, {}], run := run })], gangs := [g], gt := 2 ^ 25 }

theorem witness_ContextEvents_more :
    (let p : Pend := { id := 3, ic := 0, slot := 8, pc := 64, dst := .v 1, src := .have (.v 1 false [{ v := 0x3F800000 }]), fp := [(1, [0x3F800000])] }
     let s := rest0 { st := .running, hart := { pend := [p] } } { id := 3, flag := true, n := 0, word := 0x40000000 }
     (s.ctx 0 0).hart.pend.find? (fun q => q.id == s.arg.id) = some p ∧ shadowed (s.core 0).ic p s.arg.n = some 0x3F800000 ∧
     diverges 0x3F800000 (s.arg.word.setWidth 32) = true ∧ diverges 0x3F800000 0x3F800000 = false ∧ (s.ctx 0 0).faults = true ∧
     (s.core 0).halted = false ∧ (s.ctx 0 0).stall = none) ∧
    (let r : Routine := { rout0 with pc := 1, busy := 5001, mma := some (false, {}) }
     r.busy = 5000 + 1 ∧ r.mma = some (false, {}) ∧ accDiverges (cellVal false (({} : Plane).cell 0 0)) 3 = true) ∧
    (let x : Ctx := { st := .running, strict := true, hart := { pend := [late0, { late0 with id := 6, slot := 3 }] } }
     lowSlot (sortPend (x.hart.pend.filter (isLate 5000 0 x.reqs))) = some { late0 with id := 6, slot := 3 } ∧ x.strict = true) ∧
    ({ redfl := [{ slot := 6, pc := 0, fl := 16, due := 0 }] } : Ctx).redfl = [{ slot := 6, pc := 0, fl := 16, due := 0 }] ∧
    ((task {}).core 0).halted = false ∧ ({ halted := true } : Core).halted = true := by decide +kernel

theorem witness_GangEvents :
    (mustered (troop (.starting 99) (.held 0)) {} none).gang 0 = some (troop (.starting 99) (.held 0)) ∧
    gangHalted (mustered (troop .stopping (.resident 0)) { st := .running } (some 0)) (troop .stopping (.resident 0)) = false ∧
    gangHalted (mustered (troop .stopping (.resident 0)) { st := .ready } none) (troop .stopping (.resident 0)) = true ∧
    (let g := { troop .ready (.resident 0) with eff := 2 }
     g.st = .ready ∧ 1 < g.eff ∧ g.aged + 2 ^ 24 ≤ 2 ^ 25) ∧
    (let g := troop .ready .wanted
     let h := { troop .running (.resident 0) with id := 1, eff := 2 }
     let s := { mustered g { st := .running, gang := 1 } (some 0) with gangs := [g, h] }
     needCores s g = [0] ∧ blocked s g = false ∧ (∀ c ∈ needCores s g, (∀ h ∈ holders s g c, g.eff < h.eff) ∧ aheadOn s g c = false) ∧
     holders s g 0 = [h]) ∧
    (let g := troop .ready .wanted
     let s := mustered g {} none
     blocked s g = false ∧ savingOf s g = false ∧ needCores s g ≠ [] ∧
     (∀ c ∈ needCores s g, (s.core c).retired = false ∧ (s.core c).run = none ∧ holders s g c = []) ∧ needOf s g 0 = .none) ∧
    (let g := { troop .ready .wanted with pkt := [3000 * 2 ^ 48, 0, 0, 0, 0, 32, 0, 0] }
     let h := { troop .running (.resident 0) with id := 1, eff := 2 }
     let s := { mustered g { st := .ready, gang := 1, msbase := 1000, mslen := 1000, fpUnit := 8, fpCnt := 8 } none with gangs := [g, h] }
     let u := { mustered g { st := .ready, gang := 1, fpUnit := 0, fpCnt := 32 } none with gangs := [g, h] }
     (∃ m ∈ g.mems, m.core = 0 ∧ m.wants = true) ∧ needOf s g 0 = .move ∧ windowsStill s 0 = true ∧ needOf u g 0 = .evict 0) ∧
    (let g := { gang0 with xpkg := true, started := false, st := .ready }
     g.xpkg = true ∧ g.started = false ∧ g.st = .ready ∧
     ({ g with pkt := [0, 0, 0, 0, 2 ^ 25 + 160, 0, 0, 0] }.pkt.getD 4 0).toNat = (mustered g {} none).gt + 160) ∧
    (let g := troop .running (.ended true)
     (∀ m ∈ g.mems, m.live = false) ∧ recsOut (mustered g {} none) g = true ∧ worksDone (mustered g {} none) g = true) ∧
    (∃ m ∈ (troop .running (.resident 0)).mems, m.live = true) ∧ (({} : Core).retired = false) := by decide +kernel

theorem witness_ContextAndRecordEvents :
    (let g := troop .running (.resident 0)
     let s := mustered g { st := .ready } none
     let u : State := { s with cores := [(0, { ctxs := [{ st := .ready }, {}, {}], last := some 1 })] }
     (s.core 0).switch = none ∧ (s.core 0).run = none ∧ ((rest0 {} {}).core 0).run ≠ none ∧ firstOf s 0 (candidates s 0) = some 0 ∧
     (s.core 0).last = none ∧ firstOf u 0 (candidates u 0) = some 0 ∧ (u.core 0).last ≠ none ∧ (u.core 0).last ≠ some 0 ∧
     firstOf State.reset 0 (candidates State.reset 0) = none) ∧
    ({ switch := some (99, 0) } : Core).switch = some (99, 0) ∧
    (let s := host0 { saving := true, st := .ready, save := 0x100000 } (.resident 0) 0
     (s.ctx 0 0).saving = true ∧ (s.ctx 0 0).st ≠ .ended ∧ (s.ctx 0 0).st ≠ .free ∧ canSave s 0 0 = true ∧ (s.saveNow 0 0).2 = true) ∧
    canSave (rest0 { saving := true, st := .ready, reqs := [{ id := 0, segs := [] }] } {}) 0 0 = false ∧
    (let g := troop .ready (.restoring 0 false)
     (mustered g {} none).gang 0 = some g ∧ g.mems.find? (fun m => m.core == 0) = some (g.mems.getD 0 { core := 1, place := 0, task := 0, entry := 0 }) ∧
     (g.mems.getD 0 { core := 1, place := 0, task := 0, entry := 0 }).st = .restoring 0 false) ∧
    ({ reAt := some 40 } : Ctx).reAt = some 40 ∧ ({ wdog := some 0 } : Ctx).wdog = some 0 ∧
    atRest (rest0 { st := .ended } {}) 0 0 = true ∧
    (let f : Fn := { cen := true, cwait := [([1], some 3)] }
     f.cwait = [([1], some 3)] ∧ f.cRoom = true ∧ ({ crhead := 16, crtail := 32 } : Fn).cRoom = false) := by decide +kernel

theorem witness_ContextAndRecordEvents_record :
    (let w : RecWait := { tile := 0, dest := .ring 0 none, frec := [] }
     ({ frec := some w } : Ctx).frec = some w ∧ w.more = none ∧ w.dest = .ring 0 none ∧ (State.reset.deliverWait w).2 = true ∧ (State.reset.tile 0).frec.length < 256) := by decide +kernel

/-- An event on the reset machine. -/
def eventOf (a : EvArg) : State := { State.reset with arg := a }

theorem witness_HostEvents :
    (let s := eventOf { data := List.replicate 64 0 }
     s.safe = false ∧ s.arg.n = 0 ∧ s.arg.fn = 0 ∧ s.arg.data.length = 64 ∧ boundRefused s s.arg.tile (List.replicate 8 0) = false ∧
     (s.lq s.arg.tile 0).pkts.length < 64 ∧ (chunks 8 8 s.arg.data).map (fun b => BitVec.ofNat 64 (leNat b)) = List.replicate 8 0) ∧
    (let l : LQ := { pkts := List.replicate 64 { pkt := [], src := 0, gt := 0 } }
     64 ≤ (({ eventOf {} with tiles := [(0, { lq := [(0, l)] })] } : State).lq 0 0).pkts.length) ∧
    (eventOf { n := 64 }).arg.n ≠ 0 ∧ (List.replicate 63 (0 : Byte)).length ≠ 64 ∧
    (let s : State := { eventOf { fn := 2, id := 4, data := List.replicate 64 0 } with fns := [(2, { vfmap := 0x8000000500000010 })] }
     (s.fn 2).vfmap.getLsbD 63 = true ∧ 4 ≤ s.arg.id % 16 ∧ (s.fn 2).vfmap.getLsbD 4 = true ∧ (0 : Nat) ≠ (s.fn 2).vfmap.toNat / 2 ^ 32 % 65536 ∧
     (List.replicate 8 (0 : Word)).getD 0 0 = 0 ∧ ((0x0001800000000000 : Word).getLsbD 47 = true ∧
     32 ≤ (0x0000802000000000 : Word).toNat / 2 ^ 32 % 2048) ∧ (s.fn 2).vfmap.getLsbD 5 = false ∧ (s.fn 1).vfmap.getLsbD 63 = false) ∧
    (let h : Hnd := { dep := 0x305, rq := [{ flit17 0 with lastf := false }, { flit17 1 with lastf := true }] }
     h.dep = 0x300 + (5 : TileId).val ∧ h.rq = [{ flit17 0 with lastf := false }, { flit17 1 with lastf := true }] ∧
     firstMessage h.rq = some h.rq ∧ firstMessage [{ flit17 0 with lastf := false }] = none ∧ ({} : Hnd).dep < 0x300 ∧ (∀ f ∈ [flit17 0], f.lastf = false)) ∧
    (eventOf {}).fns = [] ∧ ((eventOf {}).fn 0).hapctl.getLsbD 0 = false ∧
    (let s : State := { eventOf { len := 8, n := 0xFFFFFFF8 } with fns := [(0, { hapctl := 1 })] }
     (s.fn 0).hapctl = 1 ∧ s.arg.n % 8 = 0 ∧ s.arg.n < 2 ^ 32 ∧ (apSeg s .read s.arg.n 8).isSome = true ∧ (apSeg s .write s.arg.n 8).isSome = true ∧
     (∀ i < 8, boundEntry s (s.arg.n + i) = false)) ∧
    (let s : State := { eventOf { word := 3 } with tiles := [(0, { cell := { run := false } })] }
     (s.cell 0).run = false ∧ s.arg.word.getLsbD 0 = true ∧ s.safe = false) ∧
    ({ eventOf {} with safe := true } : State).safe = true ∧
    (min ((0x1200000000 : Word).toNat / 2 ^ 32 % 32) 16 = 16) ∧ ((eventOf { reg := .bar0 0 0x40, data := [0, 0, 0, 0, 0, 0, 0, 0] }).arg.reg = .bar0 0 0x40) := by
  decide +kernel

def owner0 : Enclave := { id := 5, owner := [1], tiles := [0], parts := [] }
def part0 : Part := { id := 2, asids := [9], slots := [3], tiles := [0], link := [], images := [] }

/-- DEVID of the reset machine, and an enclave with one participant. -/
def devid0 : List Byte := Config.sha256 (Config.identity State.reset.secret)
def enclaved (p : Part) (a : EvArg) : State := { eventOf { a with encid := 5, part := 2, flag := true } with encs := [{ owner0 with parts := [p] }] }

theorem witness_SecurityAndDebugEvents :
    (let s : State := { eventOf { encid := 5, tiles := [0], flag := true } with feats := 1 }
     s.arg.flag = true ∧ s.feats.getLsbD 0 = true ∧ s.enc 5 = none ∧ ∀ e ∈ s.encs, ∀ t ∈ e.tiles, t ∉ s.arg.tiles) ∧
    (let k : KeyEst := { encid := 5, part := 2, slot := 1, asids := [9], tiles := [0], cipher := [], images := [] }
     let s : State := { eventOf { encid := 5, part := 2, flag := true, key := some k } with
       encs := [owner0], kems := [{ encid := 5, part := 2, num := 0 }] }
     s.arg.key = some k ∧ s.enc k.encid.toNat = some owner0 ∧
     s.kems.find? (fun m => m.encid == k.encid && m.part == k.part) = some { encid := 5, part := 2, num := 0 } ∧ 1 ≤ k.slot ∧ k.slot < 256 ∧
     k.part < 16 ∧ owner0.parts = [] ∧ (∀ t ∈ k.tiles, t ∈ owner0.tiles) ∧ s.arg.part < 16 ∧ s.arg.n ≤ 1 ∧
     (∀ e' ∈ s.encs, e'.id = 5 → e' = owner0)) := by decide +kernel

theorem witness_SecurityAndDebugEvents_revoke :
    (let e := { owner0 with parts := [part0] }
     let s : State := { eventOf { encid := 5, part := 2, flag := true } with encs := [e] }
     s.enc 5 = some e ∧ e.parts.find? (fun p => p.id == s.arg.part) = some part0 ∧ part0.revoked = false) ∧
    (let p := { part0 with revoked := true, revoking := true }
     let e := { owner0 with parts := [p] }
     e.parts.find? (fun p => p.id == 2 && p.revoking) = some p ∧ ((∀ d ∈ State.reset.cmds, d.asid ∉ p.asids)) ∧
     (∃ d ∈ [{ default0 with asid := 9 }], d.asid ∈ p.asids)) ∧
    (let p := { part0 with revoked := true, revokedAt := 7 }
     ((enclaved p {}).enc 5).any (fun e => e.parts.find? (fun p => p.id == 2) == some p) = true ∧ p.revoking = false) ∧
    (let s : State := { enclaved part0 {} with tiles := [(0, { pwrSt := 1 })] }
     (s.tile 0).pwrSt = 1 ∧ worksOn s part0 0 = true ∧ worksOn { s with tiles := [] } part0 1 = false) := by decide +kernel

theorem witness_SecurityAndDebugEvents_grant :
    (eventOf { data := devid0, flag := true }).arg.data = Config.sha256 (Config.identity (eventOf {}).secret) ∧
    (eventOf {}).enc 0 = none ∧ ((eventOf {}).feats.getLsbD 3 = false) ∧ ¬ (2 < (eventOf { n := 1 }).arg.n) := by
  refine ⟨rfl, ?_, ?_, ?_⟩ <;> decide

theorem witness_SecurityAndDebugEvents_debug :
    2 < (eventOf { n := 3 }).arg.n ∧ ((eventOf {}).tile 0).dbg < 2 ∧
    (let s : State := { eventOf {} with tiles := [(0, { dbg := 2 })] }
     2 ≤ (s.tile (tileOf 0)).dbg ∧ (0 : CoreId).val = (tileOf 0).val * 32 + (0 : CoreId).val % 32 ∧ (s.core 0).run = none ∧
     (s.core 0).halted = false ∧ (∃ p ∈ s.tiles, 1 ≤ p.2.dbg)) ∧
    (({ eventOf {} with cores := [(0, { halted := true })] } : State).core 0).halted = true ∧
    (1 ≤ (eventOf { n := 1000 }).arg.n ∧ (eventOf { n := 1000 }).arg.n ≤ 1000) ∧
    (let s : State := { eventOf {} with replay := { ms := 1 }, gt := 1600000 }
     s.replay.ms ≠ 0 ∧ s.gt % (s.replay.ms * 1600000) = 0) ∧ (eventOf {}).replay.ms = 0 := by decide +kernel

/-- R365: the Safe Talkative State refuses a request, and its debugger and host writes do nothing. -/
theorem test_safe_state : ((match exec .pstate { State.reset with safe := true } with
    | .next s => s.hostOut == [.event "REFUSED" [6, 0]]
    | _ => false) && (match exec .cdoorbellWrite { State.reset with safe := true } with
    | .next s => (s.cell 0).evtpend == 0
    | _ => false)) = true := by decide +kernel

theorem witness_PackageEvents_more :
    sctOk (List.replicate 8 0) = true ∧ sctOk [] = false ∧ (eventOf {}).boot.tested = true ∧
    (let s : State := { eventOf {} with boot := {}, feats := 4, tiles := (List.finRange 16).map (fun t => (t.val, { cell := { run := false } })) }
     s.boot.tested = false ∧ s.gangs = [] ∧ (∀ t, (s.cell t).run = false) ∧ s.podRef = false ∧ s.feats.getLsbD 2 = true ∧ s.boot.ran = false) ∧
    (let s : State := { eventOf { n := 6 } with sleep := false }
     s.sleep = false ∧ (∀ j, c3Ok s j = true) ∧ (∀ m, (s.slot m).runs = false) ∧ s.timerq = []) ∧
    (let s : State := { eventOf {} with sleep := true, tiles := [(0, { pwrSt := 6, pwrAt := some 0 })] }
     s.sleep = true ∧ (s.tile 0).pwrAt = some 0 ∧ 0 ≤ s.gt ∧ s.arg.flag = false) ∧
    (let s : State := { eventOf { err := .scrub 0 64 } with bad := [1], tiles := [(0, { pren := true })] }
     s.arg.err = .scrub 0 64 ∧ 64 / 64 ∈ s.bad ∧ prunes s 0 = true ∧ prunes (eventOf {}) 1 = ({} : Tile).pren) := by decide +kernel

theorem witness_PackageEvents :
    (let r : SelfTest := { failed := false, stage := 0, sct := List.replicate 8 0, tiles := 0, hbm := 0, retired := [], lasers := 0 }
     let s := eventOf { self := some r }
     s.arg.self = some r ∧ s.safe = false ∧ r.failed = false ∧ r.retired = [] ∧ ({ r with failed := true } : SelfTest).failed = true) ∧
    (let s : State := { eventOf {} with safe := true, tiles := [(0, { temp := 84 })] }
     s.safe = true ∧ (∀ p ∈ s.tiles, p.2.temp < 85)) ∧
    (let s : State := { eventOf {} with tiles := (List.finRange 16).map (fun t => (t.val, { cell := { run := false } })) }
     s.gangs = [] ∧ (∀ t, (s.cell t).run = false)) ∧ (mustered gang0 {} none).gangs ≠ [] ∧
    ({ eventOf {} with podRef := true } : State).podRef = true ∧ (eventOf {}).podRef = false ∧
    (let s := eventOf { n := 1 }
     s.arg.n = 1 ∧ (s.tile 0).pwrSt = 0 ∧ c1Ok s 0 = true ∧
     c1Ok { s with cores := [(0, { halted := true })] } 0 = false) ∧
    (c3Ok (eventOf { n := 3 }) 0 = true) ∧
    ({ pwrAt := some 9 } : Tile).pwrAt = some 9 ∧ (eventOf {}).sleep = false ∧ ({} : Tile).pwrAt = none ∧
    (eventOf { err := .mark 64 }).arg.err = .mark 64 ∧
    (let s := rest0 { st := .running } { err := .flight 0 4 2 }
     s.arg.err = .flight 0 4 2 ∧ (s.core 0).run = some 0 ∧ (s.ctx 0 0).st = .running) := by decide +kernel

/-! ## Further states that meet hypotheses of the statements above -/

theorem witness_ClusterWindowScalars :
    (let x := (task (ctxAt (0xFD00000000000000 + 0x1FFFF8))).ctx 0 0
     (x.hart.rs ldF.base + ldF.off.signExtend 64).toNat = (loopOf 0 (some 0)).2 + 0x1FFFF8 ∧ (loopOf 0 (some 0)).1 = 0 ∧
     x.fpUnit * 65536 ≤ 0x1FFFF8 ∧ 0x1FFFF8 + 8 ≤ (x.fpUnit + x.fpCnt) * 65536) ∧
    (let g : Gang := { gang0 with pkt := [0, 0, 0, 0, 0, 0x400, 0, 0], mems := gang0.mems ++ [{ core := 7, place := 1, task := 1, entry := 0, st := .resident 0 }] }
     let s : State := { task (ctxAt (0xFD00000000000000 + 0xE00000)) with gangs := [g] }
     let x := s.ctx 0 0
     (x.hart.rs stF.base + stF.off.signExtend 64).toNat = (loopOf 0 (some 7)).2 + 0 ∧ (loopOf 0 (some 7)).1 = 7 ∧ (7 : CoreId) ≠ 0 ∧
     s.gang x.gang.toNat = some g ∧ g.mems.any (fun m => m.core == 7 && m.here) = true ∧
     pktFpUnit g.pkt * 65536 ≤ 0 ∧ 0 + 8 ≤ (pktFpUnit g.pkt + pktFpCnt g.pkt) * 65536) := by decide +kernel

theorem witness_DeviceAccesses :
    touchesDev [{ key := 15 * 2 ^ 48, len := 8 }] = true ∧ touchesDev [{ key := 0x48, len := 8 }] = false ∧
    (cellSegs (cellar {}) 0 (15 * 2 ^ 48) 8 .rw).toOption = some ([{ key := 15 * 2 ^ 48, len := 8 }], []) ∧
    (cellSegs (cellar {}) 0 (15 * 2 ^ 48) 4 .write).toOption = some ([{ key := 15 * 2 ^ 48, len := 4 }], []) ∧
    ({ relB := some (4, .package), hart := { ic := 4 } } : Ctx).relB = some (4, .package) := by decide +kernel

theorem witness_CascadeResults_stages :
    (RM.rne ∈ [RM.rne, .rtz, .rup, .rdn]) ∧ nanP 0x7F800001 = true ∧ nanP 0x7F800000 = false ∧ infP 0xFF800000 = true ∧
    (finP 0xBF800000 = true ∧ mag32 0xBF800000 ≠ 0 ∧ (0xBF800000 : W32).getLsbD 31 = true) ∧
    (finP 1 = true ∧ mag32 1 ≠ 0 ∧ (1 : W32).getLsbD 31 = false) ∧ finP 0x7F7FFFFF = true ∧ mag32 0x80000000 = 0 := by decide +kernel

theorem witness_MicroOpPlanes_record :
    (let cfg : Word := rackCfg 2 8 0 ||| (1024#64 <<< 48)
     let s : State := { seq0 {} rout0 with
       gangs := [{ gang0 with mems := gang0.mems ++ [{ core := 1, place := 1, task := 1, entry := 0, st := .resident 0 }] }],
       cores := [(0, { ctxs := [{ st := .running, rkcfg := [(0, cfg ||| (1#64 <<< 63))], rkptr := [(0, 1)], fpCnt := 1 }, {}, {}], rt := some rout0 }),
                 (1, { ctxs := [{ st := .running, rkcfg := [(0, rackCfg 2 8 0 ||| (1#64 <<< 63))], fpCnt := 32 }, {}, {}] })] }
     let x := s.ctx 0 0
     let c : Word := mapGet 0 x.rkcfg 0
     [1].filterMap (shrStatic s 0 0 c 0) = [] ∧ panelInFp x c (rkHead (x.rp 0)) = true ∧ peerCtx s 0 1 = some 0 ∧
     ((s.ctx 1 0).rk 0).getLsbD 63 = true ∧ inFp x.fpUnit x.fpCnt (sdpOff c) 64 = false) ∧
    mmaFloat .f32 = false ∧ mmaFloat .bf16 = true ∧ kindOf 1 = some .bf16 ∧ ({ rout0 with la := some { rack := 0, n := 0 } } : Routine).lb = none := by
  decide +kernel

theorem witness_TransportEvents_link :
    (let f : Flit := { flit17 0 with ok := false }
     let s := wireEv { live17 with sep := 0x3FF, unacked := [f] } { n := 0 }
     f.ok = false ∧ (s.hnd 17).sep = 0x3FF ∧ (s.hnd 17).st = .live) ∧
    (let h : Hnd := { live17 with g := 7 }
     (1 ≤ (h.g + 16 - 0 % 16) % 16 ∧ (h.g + 16 - 0 % 16) % 16 ≤ 7) ∧ ¬ ((({ h with g := 8 } : Hnd).g + 16 - 0 % 16) % 16 ≤ 7)) ∧
    seqBefore 4 0 = false ∧ seqBefore 0 4 = true ∧ (17, 0) ∉ ({ buf := [(17, 1)] } : Port).buf ∧
    (let x : Port := { buf := [(17, 3), (18, 0), (17, 4)], replay := [(18, 0), (17, 4)] }
     (x.buf.dropWhile (fun f => f != (17, 3))).filter (fun f => f.1 == 17) = [(17, 3), (17, 4)] ∧
     x.replay.filter (fun f => f.1 != 17) = [(18, 0)]) := by decide +kernel

theorem witness_LightAndLinks_dying :
    (let s : State := { State.reset with handles := [(17, { live17 with dying := 1, mask := 3 })], ports := [(5, { failed := 2 })] }
     let h := s.hnd 17
     h.dying ≠ 0 ∧ decide (1000 * (s.gt + 1) ≤ h.wireEnd) = false ∧ h.st = .live ∧ widthH s h < 2 ∧
     activeOf s h.srcp h.dstp h.mask ≠ activeOf { s with ports := [] } h.srcp h.dstp h.mask ∧ h.srcp = 5) ∧
    decide (1000 * (State.reset.gt + 1) ≤ ({ live17 with dying := 1, wireEnd := 1000 } : Hnd).wireEnd) = true := by decide +kernel

/-- The Cellarer of tile 0 in execution, with a packet in s16 to s23 and a queue in s2. -/
def packet0 (w0 : Word) : List (Nat × Word) := [(16, w0), (17, 0x1000), (21, 0x20)]
def launcher (w0 : Word) (q : Word) : State :=
  { State.reset with
    cur := .cell 0, asidtab := 1, tiles := [(0, { tlb := [page], cell := { hart := { s := packet0 w0 ++ [(2, q)] } } })] }
def launched (s : State) : Option (Nat × List Nat) :=
  match exec (.lnch 8 16 2) s with
  | .next u => some (u.gangs.length, (u.cell 0).hart.pend.filterMap (fun p => match p.src with
      | .have (.w v) => some v.toNat
      | _ => none))
  | _ => none

/-- R327: the first failing check gives the code, the packet's type before its fields, these before the queue, the queue before the
image, whose header here is zero. -/
theorem test_lnch :
    [launched (launcher (63 * 2 ^ 48 + 2) 4), launched (launcher (63 * 2 ^ 48 + 1) 4), launched (launcher (64 * 2 ^ 48 + 1) 4),
     launched (launcher (64 * 2 ^ 48 + 1) 0)] = [some (0, [1]), some (0, [2]), some (0, [3]), some (0, [5])] := by decide +kernel

theorem witness_ContextEvents_beside :
    (let x : Ctx := { stall := some (.rcv 17 3 4 904), stallK := some (.twait 1, 1) }
     x.stallK = some (.twait 1, 1) ∧ ({ stall := some (.wgt 9) } : Ctx).stallK = none ∧ ({} : Ctx).stall = none) ∧
    (let x : Ctx := { latch := .pending 8, reqs := [{ id := 8, segs := [], got := some [1], done := 6 }] }
     x.reqs.find? (fun r => r.id == 8) = some { id := 8, segs := [], got := some [1], done := 6 }) ∧
    (let a : LoopAcc := { id := 5, core := 0, ctx := 0, slot := 5, ic := some 9, target := 0, own := true, tracks := 1, clocks := 1,
                           segs := [{ key := 2 ^ 52, len := 1 }], wr := some [7], req := none, lag := 0 }
     let b : LoopAcc := { a with id := 6, wr := none, req := some 8, moved := true }
     [a].filter (fun d => d.core == b.core && d.ctx == b.ctx && d.own == b.own && decide (d.id < b.id) && d.wr.isSome) = [a] ∧
     a.byteFor (2 ^ 52) = some 7 ∧ a.byteFor (2 ^ 52 + 1) = none ∧ segsMeet a.segs b.segs = true ∧ a.skip = []) ∧
    (let p : Pend := { due0 with fp := [(0, []), (2, [0, 0x3F800000])] }
     p.fp[(513 : Nat) / 512]? = some (2, [0, 0x3F800000]) ∧ p.ic = 0 ∧ (2 : BitVec 512).getLsbD 1 = true) := by decide +kernel

theorem witness_GangEvents_completion :
    (let g := { troop .running (.ended true) with pkt := [2 ^ 22 + 2 ^ 23, 0, 0, 0, 0, 0, 0, 0x00050004], status := 0 }
     (∀ m ∈ g.mems, m.live = false) ∧ (mustered g {} none).arg.flag = false ∧ recsOut (mustered g {} none) g = true ∧
     worksDone (mustered g {} none) g = true ∧ (g.pkt.getD 0 0).getLsbD 22 = true ∧ (g.pkt.getD 7 0).extractLsb' 0 16 = 4#16 ∧
     (g.pkt.getD 7 0).extractLsb' 16 16 = 5#16) ∧
    ({ troop .running (.ended true) with status := 2 } : Gang).status ≠ 0 := by decide +kernel

/-- An enclave whose participants have all gone, one with a participant, and one whose participant is going. -/
theorem witness_SecurityAndDebugEvents_end :
    (let gone := { part0 with revoked := true, revokedAt := 7 }
     (∀ q ∈ [gone], ¬ (q.revoked = false ∨ q.revoking = true))) ∧
    (∃ q ∈ [part0, { part0 with id := 3, revoked := true }], q.revoked = false ∨ q.revoking = true) ∧
    (∀ p ∈ [part0, { part0 with id := 3, revoked := true }], p.id = part0.id → p.revoked = part0.revoked) ∧
    (let s := enclaved part0 {}
     s.safe = false ∧ s.arg.flag = true ∧ s.enc 5 = some { owner0 with parts := [part0] } ∧
     (∀ x ∈ s.encs, x.id = 5 → x = { owner0 with parts := [part0] })) ∧
    (let s : State := { eventOf {} with handles := [(17, { live17 with base := .live, asid := 9 })] }
     (s.hnd 17).base ≠ .free ∧ (s.hnd 17).asid ∈ [9]) ∧
    (1 < 2 ∧ tileOf 0 ∈ [(0 : TileId)] ∧ ({ halted := true } : Core).underDebug = true ∧ ({} : Core).underDebug = false) := by
  decide +kernel

theorem witness_PackageEvents_heat :
    (let s : State := { eventOf {} with safe := true, stRec := [0, 0, 0, 2], tiles := [(0, { junc := 85 })] }
     s.stRec.getD 3 0 = 2 ∧ (∃ p ∈ s.tiles, 85 ≤ p.2.junc ∨ 85 ≤ p.2.temp)) ∧
    (∃ p ∈ [((0 : Nat), ({ junc := 110 } : Tile))], 110 ≤ p.2.junc ∨ 105 ≤ p.2.temp) ∧
    (∃ p ∈ [((0 : Nat), ({ temp := 105 } : Tile))], 110 ≤ p.2.junc ∨ 105 ≤ p.2.temp) ∧
    (¬ ∃ p ∈ [((0 : Nat), ({ junc := 109, temp := 104 } : Tile))], 110 ≤ p.2.junc ∨ 105 ≤ p.2.temp) ∧
    (let s : State := { eventOf { n := 0 } with sleep := true }
     s.safe = false ∧ s.arg.n = 0 ∧ s.sleep = true) ∧
    (let s : State := { eventOf { n := 6 } with slots := [(1, { st := 1 })] }
     s.sleep = false ∧ ∀ j, c3Ok s j = true) ∧
    ({ eventOf {} with boot := {} } : State).boot.tested = false := by decide +kernel

/-- R364: a passed self-test leaves its record of 128 bytes, FMT 1, STAGE 7 and RESULT 0; R9: the tiles of the grid, row by row. -/
theorem test_selfTest_record : State.reset.stRec.length = 128 ∧ State.reset.stRec.take 4 = [1, 0, 7, 0] := by decide +kernel
theorem test_grid : [0, 1, 4, 5, 2, 3, 6, 7, 8, 9, 12, 13, 10, 11, 14, 15].map (fun n => gridPos (Fin.ofNat 16 n)) =
    [(0, 0), (1, 0), (2, 0), (3, 0), (0, 1), (1, 1), (2, 1), (3, 1), (0, 2), (1, 2), (2, 2), (3, 2), (0, 3), (1, 3), (2, 3), (3, 3)] := by
  decide +kernel

/-! ## Encodings -/

/-- What a bundle of one syllable decodes to on a core, and on a Cellarer. -/
def onCore (l : List Nat) : Option Instr := soleInstr (decodeBundle false l)
def onCell (l : List Nat) : Option Instr := soleInstr (decodeBundle true l)

theorem test_decode_control :
    onCore [0x89200800] = some (.rgn 1 0) ∧ onCore [0x8A200000] = some .endTask ∧ onCore [0x88620000] = some (.brf 1 0) ∧
    onCore [0x83400000] = some (.scopePrefix .package 2 false) := by decide +kernel
theorem test_decode_scalar :
    onCore [0x90010424] = some (.add .w64 4 4 9) ∧ onCore [0x92516300] = some (.rdsr 5 35) ∧ onCore [0x9943005A] = some (.movi 6 0x5A) ∧
    onCore [0x980209FF] = some (.addi 4 4 (-1)) ∧ onCore [0x99008802] = some (.cmpiLt 1 4 2) := by decide +kernel
theorem test_decode_memory :
    onCore [0xA2861400] = some (.st64 6 { base := 5, off := 0, trk := 0 }) ∧
    onCore [0xA6C21404, 0xF0000040] = some (.vld 2 { base := 5, off := 0x40, kind := 15, trk := 0, sp := false, wt := false, lat := 2 }) ∧
    onCell [0xA8050AC2] = some (.amoAdd { r := 10, base := 5, off := 0, w64 := true, scope := .tile, wt := false, lat := 2 }) ∧
    onCore [0xA9800011] = some (.fence .core 1) := by decide +kernel
theorem test_decode_engine :
    onCore [0xB4040640, 0x40000001] = some (.push 0 16 3 2 [1]) ∧ onCore [0xB0120200] = some (.push 1 8 1 0 []) := by decide +kernel
theorem test_decode_vector :
    onCore [0x38648210, 0xC0200C00] = some (.vcas { op1 := .fmul, op2 := .fadd, op3 := .pass, vd := 9, va := 1, vb := 2, vc := 3,
                                                     ve := 0, mask := 0, zm := false, selm := 0 }) ∧
    onCore [0xC891850C] = some (.cvt 6 5 3 0) ∧ onCore [0xC8C30600] = some (.rnd 12 6 0 0) := by decide +kernel
theorem test_decode_matrix :
    onCore [0xD4019400, 0x40000002] = some (.mcall 3 5 [2]) ∧ onCore [0xD0810090] = some (.mpw 2 9) ∧
    onCore [0xD2C09940] = some (.mst true 1 0 20 6 []) ∧ onCore [0xD9200000] = some (.tps16 8 0 0) := by decide +kernel
theorem test_decode_circuit :
    onCore [0xE0088840] = some (.snd 17 4 2) ∧ onCore [0xE0888C00] = some (.rcv 6 17) ∧ onCore [0xE1089260] = some (.cst 9 3 17) := by
  decide +kernel
theorem test_decode_system :
    onCell [0xE8C28400] = some (.qpop 10 4) ∧ onCell [0xE8308A10] = some (.lnch 2 10 4) ∧ onCell [0xE840146C] = some (.semw 20 27) ∧
    onCell [0xE8701E00] = some (.irq 30) ∧ onCore [0xE8701E00] = none := by decide +kernel
theorem test_decode_micro :
    [0x1000000000000000, 0x2200000000000000, 0x4198800000000000, 0x6000000000000000, 0x70F0018000000000, 0x8041000100000000,
     0xA01C000000000000].map decodeMicro =
    [some (.moPopa 0), some (.moPopb 1), some (.moMma false 3 3 4), some (.moZero false false), some (.moDrn false 1 7 0 0xC0 false),
     some (.moLoop 0x41 0 4), some (.moShr 0 0x0E 0)] := by decide +kernel
theorem test_decode_step :
    decodeStep (10000 * 2 ^ 64 + 0x1C5297FDC4521101) = .ok (.vMake 17 0x052 0x0E2 0xFF 0x0A5 0x1C5 10000) := by rfl
theorem test_decode_command :
    decodeCmd (4 + 2 * 256 + 0x3007 * 2 ^ 16 + 0x4000 * 2 ^ 64 + 100 * 2 ^ 128 + 0x0807060504030201 * 2 ^ 192) =
      some (.cmdFill { hdr := { na := false, sig := true, ro := false, semref := 0x3007 }, dst := 0x4000, nbytes := 100, pat := 0x0807060504030201 }) ∧
    decodeCmd 4 ≠ decodeCmd (4 + 2 ^ 32) := by decide +kernel

/-! A term that WellFormed refuses for each of its checks. -/

theorem test_illFormed_control :
    ([.rgn 513 0, .rgn 0 9, .rdsr 1 33, .wrsr 0 1, .wrsr 33 1] : List Instr).all (fun i => !i.wf) = true := by decide +kernel
theorem test_illFormed_scalar_loads :
    ([.ld8 1 { ldF with sp := true, wt := true }, .ld8n 1 { ldF with sp := true, wt := true }, .ld16 1 { ldF with sp := true, wt := true },
   .ld16n 1 { ldF with sp := true, wt := true }, .ld32 1 { ldF with sp := true, wt := true }, .ld32n 1 { ldF with sp := true, wt := true },
   .ld64 1 { ldF with sp := true, wt := true }] : List Instr).all (fun i => !i.wf) = true := by decide +kernel
theorem test_illFormed_vector_memory :
    ([.vld 1 { vldF with sp := true, wt := true }, .vld 1 { vldF with kind := 13 }, .vldImg 1 { vldF with kind := 0 },
   .vldImg 1 { vldF with kind := 15, sp := true, wt := true }, .vst 1 { vstF with kind := 14 }, .vstImg 1 { vstF with kind := 0 },
   .vldg 1 { gatF with kind := 13 }, .vldg 1 { gatF with kind := 5 }, .vsts 1 { scaF with kind := 8 }, .vldg 1 { gatF with sp := true, wt := true }, .vsts 1 { scaF with kind := 13 }] : List Instr).all (fun i => !i.wf) = true := by decide +kernel
theorem test_illFormed_atomics_and_pushes :
    ([.amoCas { amoF with r := 63 }, .redFadd { redF with w64 := true }, .fence .core 0, .push 0 57 0 0 [], .push 0 0 0 0 [1, 2, 3, 4]] : List Instr).all (fun i => !i.wf) = true := by decide +kernel
theorem test_illFormed_vector :
    ([.vcas { op1 := .frcp, op2 := .pass, op3 := .pass, vd := 0, va := 0, vb := 0, vc := 0, ve := 0, mask := 0, zm := false, selm := 0 },
   .vcas { op1 := .pass, op2 := .frcp, op3 := .pass, vd := 0, va := 0, vb := 0, vc := 0, ve := 0, mask := 0, zm := false, selm := 0 },
   .cvt 0 0 0 0, .cvt 0 0 9 0, .unpk 0 0 6 3, .pack 0 0 0 1, .dpop 63 0] : List Instr).all (fun i => !i.wf) = true := by decide +kernel
theorem test_illFormed_matrix :
    ([.mcall 0 0 [1, 2, 3, 4], .macz false false 0 [1, 2, 3, 4], .mwr 63 0 [], .mwr 0 0 [1, 2, 3, 4], .mst false 13 0 0 0 [],
   .mst false 0 6 0 0 [], .mst false 0 0 63 0 [], .mst false 0 0 0 0 [1, 2, 3, 4], .tps32 61 0 0, .tps32 0 61 0, .tps16 61 0 0,
   .tps16 0 61 0, .tps8 61 0 0, .tps8 0 61 0] : List Instr).all (fun i => !i.wf) = true := by decide +kernel
theorem test_illFormed_system :
    ([.csrr 0 9, .csrw 9 0, .lnch 0 57 0, .qpop 57 0, .fltp 57, .vprog 0 63 0] : List Instr).all (fun i => !i.wf) = true := by decide +kernel
theorem test_illFormed_micro :
    ([.moMma false 0 0 0, .moDrn false 13 0 0 0 false, .moDrn false 0 6 0 0 false, .moPushr false 13 0 0 false, .moPushr false 0 6 0 false] : List Instr).all (fun i => !i.wf) = true := by decide +kernel
theorem test_illFormed_steps :
    ([.vWaitq 0 0 0 0, .vWaitq 0 1025 0 0, .vSignal 0 3 0] : List Instr).all (fun i => !i.wf) = true := by decide +kernel
theorem test_illFormed_commands :
    ([.cmdCopy { copyF with dk := 13 }, .cmdCopy { copyF with sk := 13 }, .cmdCopy { copyF with rm := 6 }, .cmdCopyred { redcF with dk := 9 },
   .cmdCopyred { redcF with lk := 9 }, .cmdCopyred { redcF with rm := 6 }, .cmdSemsig { hdr := hdr0, sop := 3, tsem := 0, value := 0 },
   .cmdWaitsem { hdr := hdr0, sop := 1, tsem := 0, value := 0 }] : List Instr).all (fun i => !i.wf) = true := by decide +kernel
theorem test_wellFormed_admits :
    [Instr.rgn 512 8, .fence .core 1, .cvt 0 0 8 0, .unpk 0 0 6 2, .mst false 12 5 62 63 [1, 2, 3], .vWaitq 0 1024 0 0].all (·.wf) = true := by
  decide +kernel

/-! ## Results -/

/-- The values of the results that an instruction puts in flight on core 0. -/
def results (i : Instr) (h : Hart) : List Src :=
  match exec i (taskH h) with
  | .next s => s.hart.pend.map (·.src)
  | _ => []
def w32h : Hart := { s := [(1, 0x80000000), (2, 0xFFFFFFFFFFFFFFFF)] }

/-- The table of R120. -/
theorem test_w32_arithmetic :
    [results (.add .w32 3 1 2) w32h, results (.mul .w32 3 1 2) w32h, results (.mulh .w32 3 1 2) w32h, results (.mulhn .w32 3 1 2) w32h,
     results (.div .w32 3 1 2) w32h, results (.rem .w32 3 1 2) w32h, results (.divn .w32 3 1 2) w32h, results (.remn .w32 3 1 2) w32h] =
    [[.have (.w 0x7FFFFFFF)], [.have (.w 0xFFFFFFFF80000000)], [.have (.w 0)], [.have (.w 0x7FFFFFFF)], [.have (.w 0xFFFFFFFF80000000)],
     [.have (.w 0)], [.have (.w 0)], [.have (.w 0x80000000)]] := by decide +kernel
theorem test_w32_rest :
    [results (.min .w32 3 1 2) w32h, results (.minn .w32 3 1 2) w32h, results (.shr .w32 3 1 2) w32h, results (.sar .w32 3 1 2) w32h,
     results (.rol .w32 3 1 2) w32h, results (.clz .w32 3 1) w32h] =
    [[.have (.w 0xFFFFFFFF80000000)], [.have (.w 0x80000000)], [.have (.w 1)], [.have (.w 0xFFFFFFFFFFFFFFFF)], [.have (.w 0x40000000)],
     [.have (.w 0)]] := by decide +kernel
/-- R124: 1.5 + 2.25 is 3.75; R119: a division by zero. -/
theorem test_fadds : results (.fadds 3 1 2) { s := [(1, 0x3FC00000), (2, 0x40100000)] } = [.have (.w 0x40700000)] := by decide +kernel

/-! ## Steps -/

/-- Core 0 about to issue `add` s4,s4,s9 at address 0, as its agenda says. -/
def adder : State :=
  { (paged { hart := { s := [(4, 1), (9, 2)] } }).putRaw 0 [0x24, 0x04, 0x01, 0x90] with agenda := [.core 0], cur := .idle }

theorem witness_AStep_core :
    (let s := adder
     let s0 := { s with agenda := [] }.updCore 0 (fun y => { y with cycled := true })
     let w := s0.waitEnd 0
     let s1 := (w.updCtx 0 0 (fun x => x.prepared (w.core 0).ic)).landCore 0
     let x := s1.ctx 0 0
     let s2 : State := { s1.updCtx 0 0 (fun y => { y with hart := y.hart.begin (s1.core 0).ic }) with cur := .core 0 0, abort := false }
     s.agenda = [.core 0] ∧ (s.core 0).cycled = false ∧ (s.core 0).halted = false ∧ tileOn { s with agenda := [] } (tileOf 0) = true ∧
     (s.core 0).run = some 0 ∧ (s.ctx 0 0).stall = none ∧ (s.ctx 0 0).stallK = none ∧ coreWaits s0 0 = false ∧ (w.core 0).run = some 0 ∧ mayIssue w 0 0 = true ∧
     fetchMiss w 0 0 = none ∧ mayIssue s1 0 0 = true ∧
     (fetchCore s2 0 x.asid.toNat x.hart.pc).toOption.any (fun p => p.1 == [0x90010424] &&
       !(fetchBad (s2.fillTlbs (tileOf 0) (some 0) p.2) 0 x.asid.toNat x.hart.pc 4)) = true ∧
     (decodeBundle false [0x90010424]).toOption.any (fun b => b.syls == [(3, .add .w64 4 4 9)] &&
       (shadowSlot ((s2.ctx 0 0).hart.decoded b) (s2.ctx 0 0).vp b).isNone) = true ∧
     bpMatch (s2.tile 0).dbg (s2.core 0) 0 = false ∧ (s2.ctx 0 0).reg.cnt < 2 ^ (8 + (s2.ctx 0 0).reg.blim) ∧ atEnd (.add .w64 4 4 9) = false) := by
  decide +kernel

/-- The sum is in flight after the step. -/
theorem test_step_add : (match step adder with
    | .next s => (s.ctx 0 0).hart.pend.map (·.src) == [.have (.w 3)] && (s.ctx 0 0).hart.pc == 4
    | _ => false) = true := by decide +kernel

/-- The Cellarer of tile 0 about to issue `movi` s6,0x5A at address 0. -/
def celler : State := { (cellar {}).putRaw 0 [0x5A, 0x00, 0x43, 0x99] with agenda := [.cell 0], cur := .idle }

theorem witness_AStep_cell :
    (let s := celler
     let x := s.cell 0
     let x1 := x.ticked
     let s1 := ({ s with agenda := [] }.setCell 0 (x1.land s.gt)).updCell 0 Cell.enter
     let s2 : State := { s1 with cur := .cell 0, abort := false }.updCell 0 (fun y => { y with hart := y.hart.begin y.hart.ic, cycled := true })
     s.agenda = [.cell 0] ∧ x.cycled = false ∧ x.run = true ∧ x.stall = none ∧ x.stallK = none ∧ x1.badDue s.gt = [] ∧
     cellSamples ({ s with agenda := [] }.setCell 0 (x1.land s.gt)) 0 = false ∧ tileOn { s with agenda := [] } 0 = true ∧
     x1.waits s.gt = false ∧ x1.hart.gapTo ≤ x1.hart.ic ∧ (s1.cell 0).hart.eretP = false ∧ (s1.cell 0).eie = false ∧
     (fetchCell s2 0 (s2.cell 0).hart.pc).toOption.any (fun p => p.1 == [0x9943005A] &&
       !(cellFetchBad (s2.fillTlbs 0 none p.2) 0 (s2.cell 0).hart.pc 4)) = true ∧
     (decodeBundle true [0x9943005A]).toOption.any (fun b => b.syls == [(3, .movi 6 0x5A)] &&
       (shadowSlot ((s2.cell 0).hart.decoded b) 0 b).isNone) = true ∧
     atEnd (.movi 6 0x5A) = false ∧ atEnd (.trap 3) = true) := by decide +kernel

theorem witness_AStep_sequencer :
    (let s : State := { seq0 { mslen := 1 } rout0 with
       cores := [(0, { ctxs := [{ st := .running, mslen := 1 }, {}, {}], run := some 0, rt := some rout0, mstore := [(0, 0x6000000000000000)] })],
       agenda := [.seq 0] }
     (s.core 0).rt = some rout0 ∧ (s.core 0).halted = false ∧ rout0.busy ≤ s.gt ∧ rout0.ended = false ∧ rout0.cmd.isCall = true ∧
     tileOn { s with agenda := [] } (tileOf 0) = true ∧ rout0.pc < (s.ctx 0 rout0.cmd.ctx).mslen ∧
     decodeMicro (windowWord (s.core 0) (s.ctx 0 rout0.cmd.ctx) rout0.pc).toNat = some (.moZero false false)) := by decide +kernel

/-- Slot 1 runs the program at address 0x1000 of ASID 0, an END record. -/
theorem witness_AStep_slot :
    (let s : State := { prog { st := 1, first := 0x1000 } with asidtab := 1, tiles := [(0, { tlb := [page] })], agenda := [.slot 1] }
     let v := s.slot 1
     let s0 : State := { { s with agenda := [] }.updSlot 1 (fun w =>
       { w with cycled := true, step := v.step, seen := max w.seen (v.step + 1) }) with
       cur := .slot 1, abort := false }
     s.safe = false ∧ v.st = 1 ∧ v.cycled = false ∧ v.full = none ∧
     (xlateSegs s0 true v.tile none v.asid .read 2 (v.addrOf v.step) 16).toOption.any (fun p =>
       (decodeStep (leNat (s0.segBytes p.1))).toOption == some .vEnd) = true) := by decide +kernel

theorem witness_AStep_engine :
    (let s : State := { job (.cell 0) (fun d => { d with bytes := bytesOf 64 4 }) with agenda := [.eng 0 0] }
     let s0 : State := { s with agenda := [], cur := .eng 0 0, abort := false }
     (s.tile 0).pwrSt = 0 ∧ s0.curCmd.any (fun d => s0.prodsDone d.waits && (decodeCmd (leNat d.bytes)).isSome) = true) := by decide +kernel

theorem witness_ResultSyllablesFrame :
    scalarDests (.add .w64 4 4 9) = some [.s 4] ∧ (task {}).cur = .core 0 0 ∧ (cellar {}).cur = .cell 0 ∧
    vectorDests (.vmov 5 6 0) = some [.v 5] ∧ ((task {}).core 0).ctxs.length = 3 := by decide +kernel

theorem witness_RecordsReadBackAsEncoded :
    (Instr.moZero false false).wf = true ∧ reader (.moZero false false) = .sequencer ∧ Instr.vEnd.wf = true ∧ reader .vEnd = .slot ∧
    (Instr.cmdCopy copyF).wf = true ∧ reader (.cmdCopy copyF) = .engine ∧ Instr.yieldCore.wf = true ∧ encode .yieldCore ≠ [] ∧
    reader .yieldCore = .core ∧ (Instr.semw 1 2).wf = true ∧ encode (.semw 1 2) ≠ [] ∧ reader (.semw 1 2) = .cell := by decide +kernel

theorem witness_StepKeepsTheInvariant :
    (memWf adder.mem = true ∧ ∀ p ∈ adder.cores, p.2.ctxs.length = 3) ∧ (match step adder with
      | .next _ => true
      | _ => false) = true := by decide +kernel

end Sys2Proof.Tests
end

/-! ## Shapes of the scalar syllables, as outcomes (R98, R103, R115, R116) -/

section
namespace Sys2Proof.Machine

open Sys2Proof.Claims

variable (s : State)

theorem alu2_eq_sRes (lat : Nat) (sd sa sb : Reg) (f : Word → Word → Word) :
    alu2 lat sd sa sb f s = sRes s lat sd (f (s.hart.rs sa) (s.hart.rs sb)) [sa, sb] := by
  simp [alu2, onHart, sRes]

theorem execBins_eq_sRes (w : Width) (sd sa sb : Reg) :
    execBins w sd sa sb s =
      sRes s 1 sd (binsW (wid w) (s.hart.rs sd) (s.hart.rs sa) (s.hart.rs sb)) [sd, sa, sb] := by
  simp [execBins, onHart, sRes, Bool.or_assoc]

/-- A compare of two registers in terms of any Boolean that equals its test. -/
theorem cmp2_eq_bRes (bd : BReg) (sa sb : Reg) {f : Word → Word → Bool} {v : Bool}
    (h : f (s.hart.rs sa) (s.hart.rs sb) = v) : cmp2 bd sa sb f s = bRes s bd v [sa, sb] := by
  subst h
  cases hp : s.hart.sPois sa || s.hart.sPois sb
  case false => simp [cmp2, onHart, bRes, needClean, hp]
  case true => simp [cmp2, onHart, bRes, needClean, lateTrap, fLate, hp]

theorem bop2_eq_bRes (bd ba bb : BReg) (f : Bool → Bool → Bool) :
    bop2 bd ba bb f s = bRes s bd (f (s.hart.rb ba) (s.hart.rb bb)) [] := rfl

/-- A conditional move is the move where its condition holds, and gives no result where it fails (R122). -/
theorem onHart_selOn (cond : Hart → Bool) (sd sa : Reg) :
    onHart s (fun h => .ok (selOn (cond h) sd sa h)) =
      if cond s.hart then sRes s 1 sd (s.hart.rs sa) [sa] else .next (s.setHart s.hart) := by
  cases h : cond s.hart <;> simp [onHart, selOn, sRes, h]

end Sys2Proof.Machine
end

/-! ## Bits of a register (R86, R115, R117, R118) -/

section
namespace Sys2Proof.Machine

open Sys2Proof.Claims

theorem wid_pos (w : Width) : 0 < wid w := by cases w <;> decide

theorem wid_le (w : Width) : wid w ≤ 64 := by cases w <;> decide

theorem uns_eq_low (n : Nat) (x : Word) : uns n x = (low n x : Int) := by
  simp [uns, low]

/-- The model's signed reading, by a comparison with 2^(n-1), is the balanced residue. -/
theorem sgn_eq_slow {n : Nat} (hn : 0 < n) (x : Word) : sgn n x = slow n x := by
  obtain ⟨m, rfl⟩ := Nat.exists_eq_add_one.mpr hn
  have half : (((2 ^ (m + 1) : Nat) : Int) + 1) / 2 = ((2 ^ m : Nat) : Int) := by rw [Nat.pow_succ]; omega
  simp only [sgn, slow, signedOf, low, Int.bmod, half, Nat.add_sub_cancel]
  norm_cast

theorem wbits_zero_six (b : Word) : wbits b 0 6 = b.toNat % 64 := rfl

theorem wbits_eight_seven (b : Word) : wbits b 8 7 = b.toNat / 256 % 128 := by
  simp [wbits, Nat.shiftRight_eq_div_pow]

theorem getLsbD_extZ {n : Nat} (hn : n ≤ 64) (x : Word) (i : Nat) :
    (extZ n x.toNat).getLsbD i = (decide (i < n) && x.getLsbD i) := by
  rw [extZ, BitVec.getLsbD_ofNat, Nat.testBit_mod_two_pow, ← BitVec.getLsbD]
  by_cases h : i < n
  · simp [h, show i < 64 by omega]
  · simp [h]

/-- The field mask of R119 holds the bits of the field that lie inside the width. -/
theorem getLsbD_fieldMask {n : Nat} (hn : n ≤ 64) (b : Word) (i : Nat) :
    (fieldMask n b).getLsbD i = decide (wbits b 0 6 ≤ i ∧ i < wbits b 0 6 + min (wbits b 8 7) 64 ∧ i < n) := by
  rw [fieldMask, BitVec.getLsbD_ofNat, Nat.testBit_mod_two_pow, Nat.testBit_shiftLeft, Nat.testBit_two_pow_sub_one]
  simp only [← Bool.decide_and, decide_eq_decide]
  omega

end Sys2Proof.Machine
end

/-! ## The field syllables (R119) -/

section
namespace Sys2Proof.Machine

open Sys2Proof.Claims

theorem getLsbD_bextW {n : Nat} (hn : n ≤ 64) (a b : Word) (i : Nat) :
    (bextW n a b).getLsbD i =
      (decide (i < min (wbits b 8 7) 64 ∧ i + wbits b 0 6 < n) && a.getLsbD (i + wbits b 0 6)) := by
  have inField : i + wbits b 0 6 < n ∧ wbits b 0 6 ≤ i + wbits b 0 6 ∧
      i + wbits b 0 6 < wbits b 0 6 + min (wbits b 8 7) 64 ∧ i + wbits b 0 6 < n ↔
      i < min (wbits b 8 7) 64 ∧ i + wbits b 0 6 < n := by omega
  rw [bextW, BitVec.getLsbD_ushiftRight, Nat.add_comm (wbits b 0 6), BitVec.getLsbD_and, getLsbD_extZ hn,
    getLsbD_fieldMask hn, Bool.and_right_comm, ← Bool.decide_and, decide_eq_decide.mpr inField]

theorem getLsbD_binsW {n : Nat} (hn : n ≤ 64) (d a b : Word) (i : Nat) (hi : i < 64) :
    (binsW n d a b).getLsbD i =
      if wbits b 0 6 ≤ i ∧ i < wbits b 0 6 + min (wbits b 8 7) 64 ∧ i < n then a.getLsbD (i - wbits b 0 6)
      else (decide (i < n) && d.getLsbD i) := by
  rw [binsW, BitVec.getLsbD_or, BitVec.getLsbD_and, BitVec.getLsbD_and, BitVec.getLsbD_not, BitVec.getLsbD_shiftLeft,
    getLsbD_extZ hn, getLsbD_extZ hn, getLsbD_fieldMask hn]
  split
  case isTrue h => simp [h, hi, show i - wbits b 0 6 < n by omega]
  case isFalse h => simp [h, hi]

/-- Settles O49: the results are those of the model's field functions, read bit by bit through the field mask. -/
theorem fieldExtractAndInsertResults : Obligations.FieldExtractAndInsertResults := by
  intro s w sd sa sb
  constructor
  case left =>
    refine ⟨bextW (wid w) (s.hart.rs sa) (s.hart.rs sb), alu2_eq_sRes s 1 sd sa sb (bextW (wid w)), fun i _ => ?_⟩
    rw [getLsbD_bextW (wid_le w), wbits_zero_six, wbits_eight_seven]
  case right =>
    refine ⟨binsW (wid w) (s.hart.rs sd) (s.hart.rs sa) (s.hart.rs sb), execBins_eq_sRes s w sd sa sb, fun i hi => ?_⟩
    rw [getLsbD_binsW (wid_le w) _ _ _ i hi, wbits_zero_six, wbits_eight_seven]

end Sys2Proof.Machine
end

/-! ## Compares, select and predicate logic (R121-R123) -/

section
namespace Sys2Proof.Machine

open Sys2Proof.Claims

theorem compareResults : CompareResults := by
  intro s w bd sa sb
  refine ⟨cmp2_eq_bRes s bd sa sb (f := fun a b => low (wid w) a == low (wid w) b) ?eq,
    cmp2_eq_bRes s bd sa sb (f := fun a b => low (wid w) a != low (wid w) b) ?ne,
    cmp2_eq_bRes s bd sa sb (f := fun a b => slow (wid w) a < slow (wid w) b) ?lt,
    cmp2_eq_bRes s bd sa sb (f := fun a b => low (wid w) a < low (wid w) b) ?ltn,
    cmp2_eq_bRes s bd sa sb (f := fun a b => slow (wid w) a ≤ slow (wid w) b) ?le,
    cmp2_eq_bRes s bd sa sb (f := fun a b => low (wid w) a ≤ low (wid w) b) ?len⟩
  case eq | ne => simp only [uns_eq_low, Int.ofNat_inj, ne_eq, decide_not]; rfl
  case lt | le => simp only [sgn_eq_slow (wid_pos w)]
  case ltn | len => simp only [uns_eq_low, Int.ofNat_lt, Int.ofNat_le]

theorem selectAndPredicateLogicResults : SelectAndPredicateLogicResults := by
  intro s sd sa bc bd ba bb
  refine ⟨onHart_selOn s (fun h => h.rb bc) sd sa, ?selNot, bop2_eq_bRes s bd ba bb and,
    bop2_eq_bRes s bd ba bb or, bop2_eq_bRes s bd ba bb xor, bop2_eq_bRes s bd ba bb (fun a b => a && !b)⟩
  case selNot =>
    refine (onHart_selOn s (fun h => !h.rb bc) sd sa).trans ?_
    cases s.hart.rb bc <;> rfl

/-- Settles O50: each compare is one of the two readings of the sources, and each conditional move a move or nothing. -/
theorem compareSelectAndPredicateResults : Obligations.CompareSelectAndPredicateResults :=
  ⟨compareResults, selectAndPredicateLogicResults⟩

end Sys2Proof.Machine
end
